-- ==== Sys2Proof/Word.lean ====
section
/-! DEFINITION. The word types of the Caernak and their plainest arithmetic (R1, R10). -/

namespace Sys2Proof

/-- One byte of a memory space (R209). -/
abbrev Byte := BitVec 8
/-- The word of one lane (R10). -/
abbrev W32 := BitVec 32
/-- A k or s register, a queue word, a pointer (R10). -/
abbrev W64 := BitVec 64
/-- A set of lanes of one group: bit l stands for lane l (R8). -/
abbrev Mask := BitVec 32

/-- The low 32 bits of a 64-bit word. -/
abbrev lo32 (w : W64) : W32 := w.truncate 32
/-- The high 32 bits of a 64-bit word. -/
abbrev hi32 (w : W64) : W32 := (w >>> 32).truncate 32
/-- The 64-bit word of a high and a low half. -/
abbrev join64 (h l : W32) : W64 := h ++ l
/-- Bits [lo+n-1:lo] of a number. -/
abbrev bits (w lo n : Nat) : Nat := w / 2 ^ lo % 2 ^ n
/-- Bit i of a number. -/
abbrev bit (w i : Nat) : Bool := w / 2 ^ i % 2 == 1

end Sys2Proof
end

