-- ==== Sys2Proof/Fields.lean ====
section
/-! DEFINITION. The operand fields of an instruction and the arguments of an event: the types
`Sys2Proof.Instr` is built from. -/

namespace Sys2Proof

/-- A decoded source field (R17, R28, R34). -/
inductive Src where
  /-- The instruction has no such operand. -/
  | none
  /-- v0 to v1023 in group code, s0 to s63 in Wick code (selector 0). -/
  | v (r : BitVec 10)
  /-- A bypass latch L0 to L5 (R22). -/
  | latch (n : BitVec 3)
  /-- Zero, special value 6. -/
  | zero
  /-- All ones, special value 7. -/
  | ones
  /-- k0 to k31. -/
  | k (r : BitVec 5)
  /-- s0 to s63 named from group code. -/
  | s (r : BitVec 6)
  /-- The literal unit of an L96 (R21). -/
  | lit (w : BitVec 32)
  /-- A small number: a predicate, tile, accumulator block, handle, queue, stream register or field of bits. -/
  | num (n : BitVec 10)
  deriving DecidableEq, Repr

/-- The operand fields of an instruction, decoded (R16 to R20). A compact instruction holds
the values its F64 equivalent would hold (R28); an instruction is an L96 exactly when `b` is a literal. -/
structure Args where
  pred : BitVec 4
  pneg : Bool
  keep : BitVec 2
  nwb : Bool
  dsel : Bool
  dst : BitVec 10
  a : Src
  b : Src
  c : Src
  mod : BitVec 10
  deriving DecidableEq, Repr

/-- One access of an engine at a memory port (R421): the context, the 64-bit pointer, and what it does. -/
inductive PortOp where
  | read (n : Nat)
  | write (data : List Byte)
  deriving DecidableEq, Repr

/-- A main-memory access as a port receives it (R12, R421). -/
structure PortReq where
  ctx : Nat
  ptr : W64
  op : PortOp
  deriving DecidableEq, Repr

/-- A register without behaviour of its own, by its kind (R2, R440). -/
inductive HostReg where
  /-- Base of HDM decoder n. -/
  | decoderBase (n : Nat)
  /-- Size of HDM decoder n. -/
  | decoderSize (n : Nat)
  /-- Target of HDM decoder n. -/
  | decoderTarget (n : Nat)
  /-- A register a program or host cannot write. -/
  | readOnly
  deriving DecidableEq, Repr

/-- A packet of the domain (R448): the fields of its header, and its encoded payload. -/
structure Packet where
  ctx : Nat
  buf : Nat
  offset : Nat
  aop : Nat
  dest : Nat
  src : Nat
  op : Nat
  txid : Nat
  /-- The guard tag of R372, or VERSION alone in a packet with no data. -/
  guard : BitVec 80
  /-- A reserved field is nonzero. -/
  reserved : Bool
  /-- The bytes read, or the unpadded bytes of the block; no header field gives it (log entry 12). -/
  len : Nat
  payload : List Byte
  deriving DecidableEq, Repr

/-- The sources of a security alarm (R466, R471). -/
inductive AlarmSrc where
  | mesh
  | glitch
  | monitor
  | attest
  deriving DecidableEq, Repr

/-- What the self-tests and the training of stage S2 find (R456, R458), for the whole device or for one die that RESETDIE
has taken down (R463). -/
structure CoreTest where
  die : Option Nat
  /-- The physical cores, 40 to a die counted over the device, that fuses disable or that fail their test. -/
  badCores : List Nat
  /-- The physical rows that fuses disable, by physical core. -/
  offRows : List (Nat × List Nat)
  /-- The physical rows that fail their test, by physical core. -/
  badRows : List (Nat × List Nat)
  /-- Dies with a die-to-die link that fails to train. -/
  linkDown : List Nat
  /-- VFL ports with the lanes they train at: 8 or 4, or 0 where they stay down. -/
  ports : List (Nat × Nat)
  devId : Nat
  deriving DecidableEq, Repr

/-- What the management controller sets up at stage S3 (R385): the entries of the firmware context's buffer table, and its
launch buffer. -/
structure FwSetup where
  bufs : List (Nat × BitVec 256)
  nslot : Nat
  dframe : Nat
  stripe : Nat
  cgroup : Nat
  deriving DecidableEq, Repr

end Sys2Proof
end

