-- ==== Sys2Proof/Syntax.lean ====
section
/-! DEFINITION. The instructions and events of the Caernak: one constructor per row of
spec/opcode_table.json. An instruction of group, Wick or lantern code carries its decoded
operands (`Args`); an event carries what it happens to. -/

namespace Sys2Proof

/-- The instructions and events. -/
inductive Instr where
  /-- R100: Changes nothing and takes one issue cycle; in a joined pair both members issue it in one cycle. -/
  | nop (x : Args)
  /-- R28: Compact form of nop, with dst, srcB and CMOD zero. -/
  | nopC32 (x : Args)
  /-- R101: Branches the active lanes to PC + 4 × off and may split the candidate into subgroups. -/
  | br (x : Args)
  /-- R101: Branches each active lane by its own sign-extended offset from vA. -/
  | brx (x : Args)
  /-- R101: Jumps every active lane to the uniform target in kA or sA. -/
  | jmp (x : Args)
  /-- R101: Branches the active lanes and writes the return address into vD as a lane result. -/
  | call (x : Args)
  /-- R101: Sends each active lane to the address in its lane of vA. -/
  | ret (x : Args)
  /-- R102: Marks the active lanes EXITED, and the group exits once every lane has. -/
  | exit (x : Args)
  /-- R103: Makes the active lanes arrive at a join record, which opens, parks, completes or passes them on to the target. -/
  | join (x : Args)
  /-- R103: Dissolves every subgroup of the group and makes it one candidate again. -/
  | fuse (x : Args)
  /-- R104: Moves the issuing set past the instruction and hands issue to the next-higher-PC lanes under the progress rule. -/
  | yield (x : Args)
  /-- R104: Puts the active lanes ASLEEP for a bounded number of cycles. -/
  | sleep (x : Args)
  /-- R90: Sets the trip tag of each active lane to 0 and marks it as inside a strict loop. -/
  | loopStrict (x : Args)
  /-- R105: Increments the trip tag of strict-loop lanes and branches the active lanes back to the target. -/
  | lend (x : Args)
  /-- R106: Pops the next decision-queue entry into kD, waits on an open empty queue, or reports a closed empty queue. -/
  | dqpop (x : Args)
  /-- R107: Team-collectively reorders threads by key across groups and carries their first n registers with them. -/
  | rsort (x : Args)
  /-- R108: Waits for the sibling group's matching pair and then binds the two groups as a JOINED guided pair. -/
  | pair (x : Args)
  /-- R109: Waits for the partner at the same pjoin and rejoins a SPLIT pair. -/
  | pjoin (x : Args)
  /-- R110: Dissolves the issuing group's pair and sets PDIS in the other member. -/
  | unpair (x : Args)
  /-- R111: Writes each active lane's PC or trip tag as a lane result. -/
  | rdpcv (x : Args)
  /-- R111: Writes the thread, group, sub-core or slot identifier to each active lane. -/
  | rdid (x : Args)
  /-- R111: Reads gsr or the pair word into a k register, optionally clearing W1C bits read as 1. -/
  | kstat (x : Args)
  /-- R62: Wick 64-bit wrapping add of two scalars. -/
  | sadd (x : Args)
  /-- R62: Wick 64-bit wrapping subtract. -/
  | ssub (x : Args)
  /-- R62: Wick low 64 bits of a product. -/
  | smul (x : Args)
  /-- R62: Wick high 64 bits of a signed or unsigned product. -/
  | smulh (x : Args)
  /-- R63: Wick division truncated toward zero that never faults. -/
  | sdiv (x : Args)
  /-- R63: Wick remainder with the sign of A that never faults. -/
  | srem (x : Args)
  /-- R62: Wick bitwise and. -/
  | sand (x : Args)
  /-- R62: Wick bitwise or. -/
  | sor (x : Args)
  /-- R62: Wick bitwise xor. -/
  | sxor (x : Args)
  /-- R62: Wick shift left by B and 63. -/
  | sshl (x : Args)
  /-- R62: Wick logical shift right. -/
  | sshr (x : Args)
  /-- R62: Wick arithmetic shift right. -/
  | ssra (x : Args)
  /-- R62: Wick signed or unsigned minimum. -/
  | smin (x : Args)
  /-- R62: Wick signed or unsigned maximum. -/
  | smax (x : Args)
  /-- R64: Sets sD to 1 when the COND relation holds, otherwise 0. -/
  | scmp (x : Args)
  /-- R65: Selects A or B by whether C is nonzero. -/
  | ssel (x : Args)
  /-- R65: Copies one s register to another. -/
  | smov (x : Args)
  /-- R65: Loads a literal into sD, or into its high half with HI. -/
  | sli (x : Args)
  /-- R67: Wick scalar load from team-shared memory or the scratchpad. -/
  | sld (x : Args)
  /-- R67: Wick scalar store to team-shared memory or the scratchpad. -/
  | sst (x : Args)
  /-- R66: Wick conditional branch on a nonzero or zero register. -/
  | sbr (x : Args)
  /-- R66: Wick unconditional relative jump. -/
  | sjmp (x : Args)
  /-- R66: Wick call that saves the link in sD. -/
  | scall (x : Args)
  /-- R66: Wick jump to the address in sA. -/
  | sret (x : Args)
  /-- R69: Appends a value to the team's decision queue as a team-scope release, waiting while the queue is full. -/
  | dqpush (x : Args)
  /-- R72: Reads a launch record and starts a child grid, or returns a failure code. -/
  | glaunch (x : Args)
  /-- R73: Waits for and collects one or all child grids and returns a completion status. -/
  | gwait (x : Args)
  /-- R71: Waits until every group has exited or waits in dqpop at the queue tail, then acquires at team scope. -/
  | tbar
  /-- R74: Loads a 64-byte handle into a handle register, mirroring a small TABLE. -/
  | hld (x : Args)
  /-- R75: Reads the core cycle counter or the 1 GHz timestamp. -/
  | sclk (x : Args)
  /-- R76: Reads one team or grid identifier. -/
  | sgrid (x : Args)
  /-- R70: Ends the team's Wick program and closes its decision queue. -/
  | wend
  /-- R134: Adds integer lanes, run by run. -/
  | iadd (x : Args)
  /-- R28: Compact two-operand integer add. -/
  | iaddC32 (x : Args)
  /-- R134: Subtracts integer lanes. -/
  | isub (x : Args)
  /-- R28: Compact integer subtract. -/
  | isubC32 (x : Args)
  /-- R134: Low 32 bits of the lane product. -/
  | imul (x : Args)
  /-- R28: Compact integer multiply. -/
  | imulC32 (x : Args)
  /-- R134: High 32 bits of the signed or unsigned lane product. -/
  | imulh (x : Args)
  /-- R28: Compact high multiply with its U bit. -/
  | imulhC32 (x : Args)
  /-- R134: Low 32 bits of A × B + C. -/
  | imad (x : Args)
  /-- R134: imad with run merging. -/
  | imadC (x : Args)
  /-- R134: Integer absolute value. -/
  | iabs (x : Args)
  /-- R28: Compact integer absolute value. -/
  | iabsC32 (x : Args)
  /-- R134: Signed or unsigned integer minimum. -/
  | imin (x : Args)
  /-- R28: Compact integer minimum. -/
  | iminC32 (x : Args)
  /-- R134: Signed or unsigned integer maximum. -/
  | imax (x : Args)
  /-- R28: Compact integer maximum. -/
  | imaxC32 (x : Args)
  /-- R134: Bitwise and of lanes. -/
  | and (x : Args)
  /-- R28: Compact bitwise and. -/
  | andC32 (x : Args)
  /-- R134: Bitwise or of lanes. -/
  | or (x : Args)
  /-- R28: Compact bitwise or. -/
  | orC32 (x : Args)
  /-- R134: Bitwise xor of lanes. -/
  | xor (x : Args)
  /-- R28: Compact bitwise xor. -/
  | xorC32 (x : Args)
  /-- R134: Bitwise complement of lanes. -/
  | not (x : Args)
  /-- R28: Compact bitwise complement. -/
  | notC32 (x : Args)
  /-- R134: Shift left. -/
  | shl (x : Args)
  /-- R28: Compact shift left. -/
  | shlC32 (x : Args)
  /-- R134: Logical shift right. -/
  | shr (x : Args)
  /-- R28: Compact logical shift right. -/
  | shrC32 (x : Args)
  /-- R134: Arithmetic shift right. -/
  | sra (x : Args)
  /-- R28: Compact arithmetic shift right. -/
  | sraC32 (x : Args)
  /-- R134: Rotate left. -/
  | rol (x : Args)
  /-- R28: Compact rotate left. -/
  | rolC32 (x : Args)
  /-- R134: Population count. -/
  | popc (x : Args)
  /-- R28: Compact population count. -/
  | popcC32 (x : Args)
  /-- R134: Count leading zeros. -/
  | clz (x : Args)
  /-- R28: Compact count leading zeros. -/
  | clzC32 (x : Args)
  /-- R135: Writes an integer comparison into a predicate for the active lanes. -/
  | icmp (x : Args)
  /-- R136: Selects A or B per lane by a predicate. -/
  | sel (x : Args)
  /-- R137: FP32 add rounded once in RM. -/
  | fadd (x : Args)
  /-- R28: Compact FP32 add. -/
  | faddC32 (x : Args)
  /-- R137: FP32 subtract. -/
  | fsub (x : Args)
  /-- R28: Compact FP32 subtract. -/
  | fsubC32 (x : Args)
  /-- R137: FP32 multiply. -/
  | fmul (x : Args)
  /-- R28: Compact FP32 multiply. -/
  | fmulC32 (x : Args)
  /-- R137: Fused multiply-add rounded once to nearest even. -/
  | ffma (x : Args)
  /-- R137: ffma with run merging. -/
  | ffmaC (x : Args)
  /-- R140: FP32 minimum with −0 below +0. -/
  | fmin (x : Args)
  /-- R28: Compact FP32 minimum. -/
  | fminC32 (x : Args)
  /-- R140: FP32 maximum. -/
  | fmax (x : Args)
  /-- R28: Compact FP32 maximum. -/
  | fmaxC32 (x : Args)
  /-- R140: Clears the sign bit. -/
  | fabs (x : Args)
  /-- R28: Compact fabs. -/
  | fabsC32 (x : Args)
  /-- R140: Inverts the sign bit. -/
  | fneg (x : Args)
  /-- R28: Compact fneg. -/
  | fnegC32 (x : Args)
  /-- R139: Correctly rounded reciprocal. -/
  | frcp (x : Args)
  /-- R28: Compact reciprocal. -/
  | frcpC32 (x : Args)
  /-- R139: Correctly rounded reciprocal square root. -/
  | frsq (x : Args)
  /-- R28: Compact reciprocal square root. -/
  | frsqC32 (x : Args)
  /-- R139: Correctly rounded square root. -/
  | fsqrt (x : Args)
  /-- R28: Compact square root. -/
  | fsqrtC32 (x : Args)
  /-- R139: Correctly rounded power of two. -/
  | fexp2 (x : Args)
  /-- R28: Compact fexp2. -/
  | fexp2C32 (x : Args)
  /-- R139: Correctly rounded base-2 logarithm. -/
  | flog2 (x : Args)
  /-- R28: Compact flog2. -/
  | flog2C32 (x : Args)
  /-- R141: Writes an FP32 comparison into a predicate. -/
  | fcmp (x : Args)
  /-- R142: Writes a one-hot class word per lane. -/
  | fclass (x : Args)
  /-- R143: Copies A into the active lanes. -/
  | mov (x : Args)
  /-- R28: Compact move. -/
  | movC32 (x : Args)
  /-- R144: Broadcasts one lane of vA to the active lanes. -/
  | vbc (x : Args)
  /-- R145: Writes a 32-bit literal to the active lanes. -/
  | vli (x : Args)
  /-- R146: Merges all bitwise-equal adjacent runs and clears splice bits. -/
  | rcoal (x : Args)
  /-- R28: Compact rcoal. -/
  | rcoalC32 (x : Args)
  /-- R147: Reads a register's run header or the group's cell totals into a k register. -/
  | rstat (x : Args)
  /-- R158: Reads each lane's source lane of vA by index, up, down or xor. -/
  | shfl (x : Args)
  /-- R159: Reads from a 64-lane window of a register pair. -/
  | shflx (x : Args)
  /-- R156: Writes any, all, ballot or uniformity of a predicate to kD. -/
  | vote (x : Args)
  /-- R155: Predicate and. -/
  | pand (x : Args)
  /-- R155: Predicate or. -/
  | por (x : Args)
  /-- R155: Predicate xor. -/
  | pxor (x : Args)
  /-- R155: Predicate not. -/
  | pnot (x : Args)
  /-- R155: Copies a predicate or a k bit mask into a predicate. -/
  | pmov (x : Args)
  /-- R156: Counts set predicate bits among active lanes. -/
  | pcnt (x : Args)
  /-- R156: Finds the lowest active lane with its predicate set. -/
  | pfirst (x : Args)
  /-- R162: Exact FP32 reduction of the active lanes into kD. -/
  | redF (x : Args)
  /-- R163: Integer reduction of the active lanes into kD. -/
  | redI (x : Args)
  /-- R165: Inclusive or exclusive FP32 prefix over active lanes. -/
  | scanF (x : Args)
  /-- R165: Inclusive or exclusive integer prefix over active lanes. -/
  | scanI (x : Args)
  /-- R160: Packs active lanes toward the low end of the issuing set. -/
  | vcomp (x : Args)
  /-- R161: Expands packed values back into the active lanes. -/
  | vexp (x : Args)
  /-- R157: Writes the lane, slice or quarter number. -/
  | lid (x : Args)
  /-- R181: Converts between float formats with one rounding. -/
  | cvtFf (x : Args)
  /-- R182: Converts FP32 to a clamped integer. -/
  | cvtFi (x : Args)
  /-- R28: Compact float-to-integer conversion with RM. -/
  | cvtFiC32 (x : Args)
  /-- R182: Converts an integer to FP32. -/
  | cvtIf (x : Args)
  /-- R28: Compact integer-to-float conversion with RM. -/
  | cvtIfC32 (x : Args)
  /-- R183: Rounds FP32 to an integral value. -/
  | fround (x : Args)
  /-- R184: Rounds stochastically using a random word. -/
  | rint (x : Args)
  /-- R185: Computes a Q4 scale byte from an absolute maximum. -/
  | qscale (x : Args)
  /-- R186: Quantises 32 lanes into one Q4 block in lanes 0–4. -/
  | pack4 (x : Args)
  /-- R187: Expands a Q4 block into FP32 lanes. -/
  | unpack4 (x : Args)
  /-- R188: Writes a hashed dropout mask into a predicate. -/
  | dmask (x : Args)
  /-- R190: Draws 32 xorshift steps and writes random words to active lanes. -/
  | rngx (x : Args)
  /-- R190: Sets the generator state. -/
  | rngxSeed (x : Args)
  /-- R190: Reads the generator state into kD. -/
  | rngxSt (x : Args)
  /-- R192: Inserts a 16-bit value into half of the destination. -/
  | pk16 (x : Args)
  /-- R192: Inserts an 8-bit value into a byte of the destination. -/
  | pk8 (x : Args)
  /-- R192: Extracts and extends a 16-bit half. -/
  | xt16 (x : Args)
  /-- R192: Extracts and extends a byte. -/
  | xt8 (x : Args)
  /-- R203: Loads per-lane values from the spill stack, team-shared memory or scratchpad. -/
  | ld (x : Args)
  /-- R203: Stores per-lane values in ascending lane order. -/
  | st (x : Args)
  /-- R204: Loads one value at the lowest active lane's address into a k register. -/
  | ldk (x : Args)
  /-- R204: Stores a k register at the lowest active lane's address. -/
  | stk (x : Args)
  /-- R205: Loads n consecutive words per lane into n registers. -/
  | ldW (x : Args)
  /-- R205: Stores n registers as consecutive words per lane. -/
  | stW (x : Args)
  /-- R206: Spills a fragmented register to the spill region. -/
  | spush (x : Args)
  /-- R207: Restores a spilled register ahead of its first read. -/
  | spop (x : Args)
  /-- R229: Per-lane indivisible add at the home, returning old values. -/
  | atomAdd (x : Args)
  /-- R229: Per-lane atomic minimum. -/
  | atomMin (x : Args)
  /-- R229: Per-lane atomic maximum. -/
  | atomMax (x : Args)
  /-- R229: Per-lane atomic and. -/
  | atomAnd (x : Args)
  /-- R229: Per-lane atomic or. -/
  | atomOr (x : Args)
  /-- R229: Per-lane atomic xor. -/
  | atomXor (x : Args)
  /-- R229: Per-lane atomic exchange. -/
  | atomExch (x : Args)
  /-- R229: Per-lane compare-and-swap. -/
  | atomcas (x : Args)
  /-- R230: Per-lane atomic FP32 add. -/
  | atomFAdd (x : Args)
  /-- R230: Per-lane atomic FP32 minimum. -/
  | atomFMin (x : Args)
  /-- R230: Per-lane atomic FP32 maximum. -/
  | atomFMax (x : Args)
  /-- R231: Accumulates the largest magnitude into a scale word. -/
  | amaxF32 (x : Args)
  /-- R232: Reads and clears a scale word in one RMW. -/
  | amaxr (x : Args)
  /-- R233: Loads with acquire ordering at a scope. -/
  | ldAcq (x : Args)
  /-- R233: Stores with release ordering at a scope. -/
  | stRel (x : Args)
  /-- R236: Waits for a region object count, invalidates the region and acquires. -/
  | acq (x : Args)
  /-- R236: Drains a region's writes and increments its object as a release. -/
  | rel (x : Args)
  /-- R234: Full, acquire or release fence at a scope. -/
  | fence (x : Args)
  /-- R235: Writes a region-table entry. -/
  | bind (x : Args)
  /-- R235: Empties a region-table entry. -/
  | unbind (x : Args)
  /-- R237: Waits until a signal word meets a condition, then acquires. -/
  | sigwait (x : Args)
  /-- R238: Stores or adds to a signal word as a release. -/
  | sigset (x : Args)
  /-- R268: Loads the shadow weight plane from tiles. -/
  | mwl (x : Args)
  /-- R269: Exchanges shadow and active planes between passes after earlier loads. -/
  | mwswap (x : Args)
  /-- R270: Streams A rows through the active plane into an accumulator block. -/
  | mma (x : Args)
  /-- R271: Guided-pair matrix multiply into conditional and unconditional blocks. -/
  | mmaG (x : Args)
  /-- R270: Streams rows and delivers their results to lanes. -/
  | mmaV (x : Args)
  /-- R272: Waits for passes and delivers accumulator rows to lanes or a tile. -/
  | mdrain (x : Args)
  /-- R264: Pair-collectively applies the guidance extrapolation into an accumulator. -/
  | gdrain (x : Args)
  /-- R273: Clears selected accumulator rows. -/
  | mzero (x : Args)
  /-- R274: Claims a matrix context, waiting for one if needed. -/
  | mctxAcq (x : Args)
  /-- R274: Claims a matrix context if one is free. -/
  | mctxTry (x : Args)
  /-- R274: Waits for the context's work and frees it. -/
  | mctxRel (x : Args)
  /-- R275: Writes the group's MFMT register. -/
  | mfmt (x : Args)
  /-- R276: Loads a tile from on-chip memory or through a handle. -/
  | tld (x : Args)
  /-- R276: Stores a tile to on-chip memory or through a handle. -/
  | tst (x : Args)
  /-- R277: Moves between tiles, or between tiles and lanes. -/
  | tmov (x : Args)
  /-- R300: Stores a handle register's 64-byte image. -/
  | hst (x : Args)
  /-- R301: Reads one word of a handle register, optionally clearing status bits. -/
  | hinfo (x : Args)
  /-- R320: Reads an array at real coordinates with value and gradient. -/
  | cld (x : Args)
  /-- R321: Reads the element at integer indices. -/
  | cldi (x : Args)
  /-- R322: Float splat of values over the taps. -/
  | spl (x : Args)
  /-- R322: Fixed-point splat of values over the taps. -/
  | splX (x : Args)
  /-- R323: Resolves a fixed array into a float array as a locked engine operation. -/
  | splres (x : Args)
  /-- R324: Looks up a cell in a HASHK or OCT array. -/
  | cfind (x : Args)
  /-- R325: Finds or inserts a cell with relaxed CAS and atomic adds. -/
  | cins (x : Args)
  /-- R349: Checks lantern code, claims a stream slot, queues and locks, and starts a stream. -/
  | lrun (x : Args)
  /-- R350: Asks a stream to stop at its next element boundary. -/
  | lstop (x : Args)
  /-- R351: Reports, optionally waiting for and collecting, a stream's status. -/
  | lstat (x : Args)
  /-- R352: Pops 1–4 queue entries into registers, waiting on an open queue. -/
  | qpop (x : Args)
  /-- R352: Reads the head queue entry without removing it. -/
  | qpeek (x : Args)
  /-- R353: Pushes a register as one queue entry. -/
  | qpush (x : Args)
  /-- R377: Issues one slice of a bulk copy. -/
  | bcp (x : Args)
  /-- R377: Issues one slice of a multicast copy within a quad. -/
  | bcpMc (x : Args)
  /-- R377: Issues one slice of a copy from a sealed, verified buffer. -/
  | bcpV (x : Args)
  /-- R378: Issues a one-slice copy followed by a signal-word update. -/
  | wsig (x : Args)
  /-- R379: Arms an arrival barrier with an expected byte count. -/
  | abinit (x : Args)
  /-- R379: Waits until the barrier's phase moves on, then acquires. -/
  | abwait (x : Args)
  /-- R379: Adds bytes to a barrier as a release. -/
  | abarr (x : Args)
  /-- R380: Waits for a copy token and copies its record. -/
  | tokwait (x : Args)
  /-- R380: Cancels a pending copy. -/
  | bcancel (x : Args)
  /-- R381: Prefetches a main-memory range into port caches. -/
  | bpf (x : Args)
  /-- R405: Raises a numbered user trap. -/
  | trap (x : Args)
  /-- R405: Raises BREAK or stops for an attached debugger. -/
  | brk (x : Args)
  /-- R406: Returns the handler lanes once all have executed it. -/
  | eret (x : Args)
  /-- R407: Reads a special register. -/
  | mfsr (x : Args)
  /-- R407: Writes a special register. -/
  | mtsr (x : Args)
  /-- R408: Reports a pending pre-emption and gives up latch protection. -/
  | preack (x : Args)
  /-- R409: Emits a software error record. -/
  | errw (x : Args)
  /-- R339: Lantern gather of up to 32 indexed elements pushed per channel. -/
  | sgat (x : Args)
  /-- R340: Lantern scatter-add of popped entries to indexed elements. -/
  | ssct (x : Args)
  /-- R341: Lantern walk of a DCT handle by row or tile. -/
  | sdct (x : Args)
  /-- R342: Inserts points into a HASHK voxel table keeping the least index. -/
  | svoxIns (x : Args)
  /-- R343: Scans occupied slots and pushes their value words. -/
  | svoxEmit (x : Args)
  /-- R344: Inserts points into an octant tree and pushes results. -/
  | soct (x : Args)
  /-- R345: Converts, scales, packs or unpacks one queue entry into another queue. -/
  | sxfm (x : Args)
  /-- R346: Pushes an arithmetic sequence entry. -/
  | sput (x : Args)
  /-- R347: Repeats the following instructions a counted number of times. -/
  | sloop (x : Args)
  /-- R347: Ends the stream. -/
  | send (x : Args)
  /-- R410: Quiesces a context and writes its image. -/
  | csave (x : Args)
  /-- R411: Restores a saved context from its image. -/
  | crest (x : Args)
  /-- R412: Quiesces a running context into FROZEN. -/
  | haltFreeze (x : Args)
  /-- R412: Returns a frozen context to RUNNING. -/
  | haltResume (x : Args)
  /-- R412: Ends every grid of a context with KILLED. -/
  | haltKill (x : Args)
  /-- R413: Writes a buffer-table entry and invalidates its translations. -/
  | bufw (x : Args)
  /-- R414: Writes a page-map entry and invalidates the page. -/
  | mapw (x : Args)
  /-- R415: Invalidates translations and replays or fails fault-buffer entries. -/
  | tinv (x : Args)
  /-- R416: Migrates a page while parking its accesses. -/
  | pmig (x : Args)
  /-- R203: Load data arrive and the scoreboarded destination is written. -/
  | loadResultLand (grp id : Nat)
  /-- R196: A spill-stack page becomes resident by zeroing or a fill from the backing area, writing back an LRU page if needed. -/
  | spillPageFill (grp page : Nat)
  /-- R227: Old values of an atomic arrive and are written, merging under C. -/
  | atomicResultLand (grp id : Nat)
  /-- R259: A formed pass of up to 32 or 64 rows starts through the active plane and its results are added at fixed cycles. -/
  | matrixPassStart (core mctx rows : Nat)
  /-- R268: A weight load finishes after 64 cycles. -/
  | mwlComplete (core mctx : Nat)
  /-- R255: A freed matrix context is cleared over 2,048 cycles and becomes claimable. -/
  | contextFree (core mctx : Nat)
  /-- R276: A tile move through a handle completes and releases its lock entry. -/
  | tileMoveComplete (core op : Nat)
  /-- R319: A demand request's results and output predicate land in their registers. -/
  | coordResultLand (grp id : Nat)
  /-- R323: A resolve completes, writes its completion record and frees its lock. -/
  | splresComplete (core op : Nat)
  /-- R334: A running stream performs one execution of its next instruction on one element. -/
  | streamElement (core slot : Nat)
  /-- R360: A copy whose slices have all arrived starts once its range locks allow and reserves at its barriers. -/
  | copyStart (core copy : Nat)
  /-- R367: The engine moves one block and records its arrival at the receiver barrier. -/
  | copyBlock (core copy block : Nat)
  /-- R361: A copy ends and writes its completion record into every issuer's token. -/
  | copyComplete (core copy : Nat)
  /-- R370: After every payload byte is acknowledged the signal word is updated as a release. -/
  | wsigSignal (core copy : Nat)
  /-- R80: A waiting active group is exchanged with a ready pending group. -/
  | swap (core sub : Nat)
  /-- R81: A pending group ready for over 2,048 cycles is swapped in. -/
  | agedSwap (core sub : Nat)
  /-- R91: The backward-branch count reaches 32 and the candidate yields. -/
  | progressYield (grp cand : Nat)
  /-- R24: After 64 latch-reading instructions held events are taken. -/
  | latchProtectionEnd (core sub : Nat)
  /-- R89: An open join record times out and releases its parked lanes. -/
  | joinTimeout (grp rec : Nat)
  /-- R109: A pair, pjoin or gdrain wait reaches its bound and faults. -/
  | pairtimeout (grp : Nat)
  /-- R104: Sleeping lanes return to RUN. -/
  | sleepExpire (grp : Nat)
  /-- R102: An exited group's slot and cells are freed once its accesses and copies finish. -/
  | groupSlotFree (grp : Nat)
  /-- R54: A team whose Wick ended and groups exited ends and frees its resources. -/
  | teamEnd (team : Nat)
  /-- R55: A grid whose teams and children are done retires and writes its completion status. -/
  | gridRetire (grid : Nat)
  /-- R445: The launch unit copies the next host record and advances CONSUMED. -/
  | launchRecordTake (ctx : Nat)
  /-- R53: A grid starts, after earlier grids retire when SERIAL is set. -/
  | gridStart (grid : Nat)
  /-- R58: A dispatcher with room draws a range of clusters from the grid's leader. -/
  | dispatcherRangeDraw (grid die : Nat)
  /-- R56: A team is placed on a core with room. -/
  | teamPlace (grid die quad cluster : Nat)
  /-- R57: A held cooperative grid is placed whole once all teams fit. -/
  | coopGridPlace (grid : Nat)
  /-- R421: A main-memory access is checked, translated and performed at its channel. -/
  | memoryPortAccess (r : PortReq)
  /-- R441: A host CXL.mem read is performed at its line's home. -/
  | hostMemRead (h n : Nat)
  /-- R441: A host CXL.mem write is performed at its home before completion is sent. -/
  | hostMemWrite (h : Nat) (data : List Byte)
  /-- R443: The CXL.cache agent answers a host snoop. -/
  | snoop (line : Nat)
  /-- R440: A write to a register without behaviour of its own, such as an HDM target register. -/
  | registerWrite (r : HostReg) (v : W64)
  /-- R447: A flit arrives, is CRC-checked and acknowledged or NAKed. -/
  | flitReceive (port : Nat) (flit : List Byte)
  /-- R447: A flit replayed 8 times takes the port down for retraining. -/
  | linkdown (port : Nat)
  /-- R446: A lane failure retrains a port on 4 lanes. -/
  | laneFailure (port : Nat)
  /-- R452: A read packet is checked and performed at the remote port. -/
  | remoteRead (p : Packet)
  /-- R372: Read data arrive and are guard-checked by the requester. -/
  | readData (p : Packet)
  /-- R452: A write packet is checked and written at the remote home. -/
  | remoteWrite (p : Packet)
  /-- R372: A write-done arrives and its VERSION echo is compared. -/
  | writeDone (p : Packet)
  /-- R452: An atomic packet is performed at the remote port. -/
  | remoteAtomic (p : Packet)
  /-- R448: An atomic result packet returns old values to the issuer. -/
  | atomicResult (p : Packet)
  /-- R370: A signal packet updates a remote signal word. -/
  | signal (p : Packet)
  /-- R453: An error response ends the remote access with REMOTEFAIL. -/
  | errorPacket (p : Packet)
  /-- R453: No response within 10 ms ends the remote access with REMOTEFAIL. -/
  | remoteTimeout (txid : Nat)
  /-- R454: A die whose links stay down 1 ms is lost and its grids re-granted or ended. -/
  | dielost (die : Nat)
  /-- R463: Firmware resets one die and reruns its S2 steps. -/
  | resetdie (die : Nat)
  /-- R462: The package supply rises and start-up begins. -/
  | poweron
  /-- R456: Mask ROM runs and verifies the firmware image. -/
  | stageS0 (lanes : Nat)
  /-- R456: Firmware trains HBM and zeroes all memory. -/
  | stageS1 (failed : List Nat)
  /-- R456: Cores self-test, rows remap, cores are numbered and links train. -/
  | stageS2 (r : CoreTest)
  /-- R456: Memory Active is set and the device becomes usable. -/
  | stageS3 (f : FwSetup)
  /-- R462: A CXL hot or link-down reset restarts the device. -/
  | hostreset
  /-- R462: A Function Level Reset ends contexts and zeroes memory. -/
  | flr
  /-- R462: An unserviced 1 s watchdog resets the device. -/
  | watchdog
  /-- R464: A sensor is sampled and threshold crossings act. -/
  | sensorSample (die sensor : Nat) (reading : BitVec 16)
  /-- R465: Every 100 µs the die clocks step down or up by one eighth. -/
  | clockStep (die : Nat)
  /-- R466: A security alarm source fires at its configured level. -/
  | alarmSource (src : AlarmSrc)
  /-- R467: Every 100 ms firmware is re-hashed and compared with entry 0. -/
  | firmwareRemeasure
  /-- R469: Returns DEVSTAT, ALARMCFG and readings. -/
  | getstat
  /-- R469: Returns held error records from a SEQ. -/
  | getlog (start count : Nat)
  /-- R469: Returns the boot log. -/
  | getbootlog
  /-- R469: Writes and optionally verifies and commits a firmware image. -/
  | fwupdate (off : Nat) (data : List Byte) (final commit : Bool)
  /-- R469: Answers and then resets with cause FWREQ. -/
  | reset
  /-- R469: Creates a context with keys, an empty buffer table and a launch buffer. -/
  | ctxcreate (ctx nslot dframe stripe cgroup : Nat)
  /-- R469: Kills a context and erases its keys and attestation entries. -/
  | ctxdestroy (ctx : Nat)
  /-- R467: Returns the attestation log signed over a nonce. -/
  | attest (nonce : BitVec 256)
  /-- R464: Sets a sensor's WARN and THROTTLE points. -/
  | setthresh (die sensor : Nat) (warn throttle : BitVec 16)
  /-- R466: Writes ALARMCFG unless locked. -/
  | setalarm (v : W64)
  /-- R427: Blows a fuse entry retiring an HBM channel at next start. -/
  | retire (stack chan : Nat)
  /-- R469: Resumes every context frozen by a level 2 alarm. -/
  | resumeall
  /-- R461: The package supply falls, so nothing stays powered and any firmware update in progress is interrupted. -/
  | powerLoss
  /-- R405: An attached debugger resumes a group stopped at brk at EPC, and the frozen lanes resume with it. -/
  | debuggerResume (grp : Nat)
  /-- R447: A port that went down on LINKDOWN finishes retraining and carries traffic again. -/
  | retrainComplete (port lanes : Nat)
  /-- R463: A die reset by RESETDIE that has not returned to S2 within 100 ms stays lost, and every access waiting on it ends with REMOTEFAIL. -/
  | dieReturnTimeout (die : Nat)
  deriving DecidableEq, Repr

end Sys2Proof
end

