-- ==== Sys2Proof/Machine/Encoding.lean ====
section
/-! DEFINITION. The opcode map (R30, R32, R33 and the tables of the class chapters): for every
opcode point its constructor, what each operand field may hold, the MOD bits the entry defines,
and the kinds of code that may execute it. -/

namespace Sys2Proof

/-- The kind of code that executes (R32). -/
inductive Kind where
  | group
  | wick
  | lantern
  deriving DecidableEq, Repr

/-- What a source position accepts (R17, R34): registers and special values, a literal, or a
number below a bound held with selector 0. -/
structure Pos where
  v : Bool := false
  latch : Bool := false
  zero : Bool := false
  ones : Bool := false
  k : Bool := false
  s : Bool := false
  lit : Bool := false
  /-- The bound of a number, or 0. -/
  num : Nat := 0
  /-- The bound of the number in Wick code where it differs, or 0. -/
  wnum : Nat := 0
  deriving DecidableEq, Repr

/-- What a dst position accepts. -/
structure DPos where
  /-- A v register, or in Wick code an s register. -/
  v : Bool := false
  num : Nat := 0
  wnum : Nat := 0
  deriving DecidableEq, Repr

namespace Pos
/-- A dash. -/
def none : Pos := {}
/-- "A": a v register, a latch, a k or s register, zero or all ones. -/
def all : Pos := { v := true, latch := true, zero := true, ones := true, k := true, s := true }
/-- "b": what "A" accepts and a literal. -/
def allLit : Pos := { all with lit := true }
/-- The positions of the matrix block (R266). -/
def noOnesLit : Pos := { all with ones := false, lit := true }
/-- An "A" of the matrix block. -/
def matA : Pos := { all with ones := false }
/-- A v register only. -/
def vreg : Pos := { v := true }
/-- A k or s register. -/
def uni : Pos := { k := true, s := true }
/-- A k or s register or a literal; special values 6 and 7 are the short forms of a literal (R40; log entry 38). -/
def uniLit : Pos := { k := true, s := true, zero := true, ones := true, lit := true }
/-- A k or s register or zero. -/
def uniZero : Pos := { k := true, s := true, zero := true }
/-- A k or s register, zero or a literal. -/
def uniZeroLit : Pos := { k := true, s := true, zero := true, lit := true }
/-- Any uniform operand. -/
def uniAllLit : Pos := { k := true, s := true, zero := true, ones := true, lit := true }
/-- A literal only. -/
def litOnly : Pos := { lit := true }
/-- A literal or special value 6 or 7 (R130). -/
def constLit : Pos := { zero := true, ones := true, lit := true }
/-- An s register of Wick code or a literal, with its short forms (R66; log entry 38). -/
def regLit : Pos := { s := true, zero := true, ones := true, lit := true }
/-- A predicate, or a uniform operand (R153). -/
def predOrUni : Pos := { k := true, s := true, zero := true, ones := true, num := 16 }
/-- A k register; in Wick code an s register (R317). -/
def kOnly : Pos := { k := true }
/-- A number below a bound. -/
def below (n : Nat) : Pos := { num := n }
/-- A token register named by number: k0 to k31, or s0 to s63 in Wick code (R375). -/
def knum : Pos := { num := 32, wnum := 64 }
/-- An x register or a literal (R337). -/
def numLit : Pos := { num := 16, lit := true }

/-- Whether a register may stand here in Wick code, where s registers take the place of v and k (R34, R61). -/
def reg (p : Pos) : Bool := p.v || p.k || p.s
/-- The bound of a number here. -/
def bound (p : Pos) (kind : Kind) : Nat := if kind = .wick && p.wnum != 0 then p.wnum else p.num
end Pos

namespace DPos
/-- A dash. -/
def none : DPos := {}
/-- A v register. -/
def vd : DPos := { v := true }
/-- A number below a bound. -/
def below (n : Nat) : DPos := { num := n }
/-- A k number, or an s number in Wick code. -/
def knum : DPos := { num := 32, wnum := 64 }
/-- The bound of a number here. -/
def bound (p : DPos) (kind : Kind) : Nat := if kind = .wick && p.wnum != 0 then p.wnum else p.num
end DPos

/-- The instructions of lantern code and the supervisor-only ones, by name: the runtime gives no
tag to constructors of `Instr` as late as theirs, so decoding names them this way. -/
inductive Late where
  | sgat
  | ssct
  | sdct
  | svoxIns
  | svoxEmit
  | soct
  | sxfm
  | sput
  | sloop
  | send
  | csave
  | crest
  | haltFreeze
  | haltResume
  | haltKill
  | bufw
  | mapw
  | tinv
  | pmig
  deriving DecidableEq, Repr

/-- What a decoder answers: an instruction, or a late one by its name and operands. -/
inductive Decoded where
  | instr (i : Instr)
  | late (o : Late) (x : Args)
  deriving DecidableEq, Repr

/-- The name and operands of a late instruction. -/
def lateOf : Instr → Option (Late × Args)
  | .sgat x => some (.sgat, x)
  | .ssct x => some (.ssct, x)
  | .sdct x => some (.sdct, x)
  | .svoxIns x => some (.svoxIns, x)
  | .svoxEmit x => some (.svoxEmit, x)
  | .soct x => some (.soct, x)
  | .sxfm x => some (.sxfm, x)
  | .sput x => some (.sput, x)
  | .sloop x => some (.sloop, x)
  | .send x => some (.send, x)
  | .csave x => some (.csave, x)
  | .crest x => some (.crest, x)
  | .haltFreeze x => some (.haltFreeze, x)
  | .haltResume x => some (.haltResume, x)
  | .haltKill x => some (.haltKill, x)
  | .bufw x => some (.bufw, x)
  | .mapw x => some (.mapw, x)
  | .tinv x => some (.tinv, x)
  | .pmig x => some (.pmig, x)
  | _ => none

/-- Whether a decoder's answer stands for an instruction. -/
def Decoded.stands (d : Decoded) (i : Instr) : Bool :=
  match d with
  | .instr j => decide (i = j)
  | .late o x => decide (lateOf i = some (o, x))

/-- One assigned opcode point, or one of the instructions that share a point. -/
structure Row where
  op : Nat
  ctor : Args → Decoded
  dst : DPos := .none
  a : Pos := .none
  b : Pos := .none
  c : Pos := .none
  /-- srcC is a source and not MOD. -/
  three : Bool := false
  /-- The MOD bits the entry defines (R18). -/
  mods : BitVec 10 := 0
  /-- NWB is accepted (R22). -/
  lane : Bool := false
  /-- DSEL = 1 is accepted (R19). -/
  dsel : Bool := false
  /-- DSEL = 1 is required (R147). -/
  dselReq : Bool := false
  grp : Bool := false
  wick : Bool := false
  lan : Bool := false
  /-- Supervisor-only (R35). -/
  sup : Bool := false
  /-- MOD bits, and their value, that choose this instruction at a shared point. -/
  pick : BitVec 10 × BitVec 10 := (0, 0)
  /-- The same of dst bits. -/
  dpick : BitVec 10 × BitVec 10 := (0, 0)
  /-- What else the entry asks of the fields. -/
  extra : Kind → Args → Bool := fun _ _ => true

/-- The W bit, MOD [4] (R133). -/
def wBit (x : Args) : Bool := x.mod.getLsbD 4
/-- A source that names an odd v register is not a pair. -/
def evenSrc : Src → Bool
  | .v r => r.toNat % 2 == 0
  | _ => true
/-- A source that names a v register whose number is a multiple of four. -/
def fourSrc : Src → Bool
  | .v r => r.toNat % 4 == 0
  | _ => true
/-- A k or s register whose number is a multiple of four (R403). -/
def fourReg : Src → Bool
  | .v r => r.toNat % 4 == 0
  | .k r => r.toNat % 4 == 0
  | .s r => r.toNat % 4 == 0
  | _ => false
/-- An x pair begins at an even register (R337). -/
def evenNum : Src → Bool
  | .num n => n.toNat % 2 == 0
  | _ => true
/-- W asks for an even dst where dst names v registers. -/
def evenDstUnderW (x : Args) : Bool := !wBit x || x.dsel || x.dst.toNat % 2 == 0
/-- W asks for even registers (R133); `d` says whether dst names a v register. -/
def evenUnderW (x : Args) (d : Bool) : Bool :=
  !wBit x || (evenSrc x.a && evenSrc x.b && (!d || x.dsel || x.dst.toNat % 2 == 0))
/-- OP of `red.i` and `scan.i` (R163): 110 and 111 are reserved, and U has no meaning for a bitwise operation. -/
def intOpOk (x : Args) : Bool :=
  let op := x.mod.toNat / 32 % 8
  op < 6 && !(x.mod.getLsbD 1 && 3 ≤ op)
/-- SZ = 11 is reserved, and W goes with SZ = 00 only (R200). -/
def sizeOk (x : Args) : Bool :=
  let sz := x.mod.toNat / 32 % 4
  sz < 3 && !(wBit x && sz != 0)
/-- A wide access names no register past v1023 (R200). -/
def wideOk (x : Args) : Bool := x.dsel || x.dst.toNat + x.mod.toNat / 16 % 16 < 1024
/-- SPACE 11 is reserved; with `.mm` the address is an even v register, a uniform operand, and no latch (R223). -/
def atomOk (x : Args) : Bool :=
  let sp := x.mod.toNat / 256
  sp < 3 && (sp != 2 || (evenSrc x.a && (match x.a with | .latch _ => false | _ => true)))
/-- A literal no greater than a bound (R405). -/
def litAtMost (n : Nat) (x : Args) : Bool :=
  match x.b with
  | .lit w => w.toNat ≤ n
  | .zero => true
  | _ => false
/-- PN is zero unless PE is set (R317). -/
def predOutOk (x : Args) : Bool := x.mod.getLsbD 5 || x.mod.toNat / 64 == 0
/-- The tile number of a field. -/
def tileSrc : Src → Bool
  | .v r => r.toNat < 16
  | _ => false
/-- `mwl` (R253, R266, R268): BF and HS are not reserved, the scale tile is named for Q4 only, and a full plane takes an even pair. -/
def mwlOk (x : Args) : Bool :=
  let bf := x.mod.toNat / 16 % 8
  let hs := x.mod.toNat / 256
  bf < 4 && hs < 3 && (bf == 3 || x.b == .num 0) && (hs != 0 || evenNum x.a)
/-- `mma`, `mma.g`, `mma.v` (R266): HB is not reserved, and TA says whether srcA names a tile; only a tile has scales in srcB. -/
def mmaOk (x : Args) : Bool :=
  let ta := x.mod.getLsbD 5
  x.mod.toNat / 128 % 4 < 3 && (if ta then tileSrc x.a && x.keep != 1 else x.b == .num 0)
/-- `mdrain` (R272): C is legal only without TD, which makes dst a tile. -/
def mdrainOk (x : Args) : Bool := !x.mod.getLsbD 6 || (!x.mod.getLsbD 0 && decide (x.dst.toNat < 16))
/-- `tmov` (R277). -/
def tmovOk (x : Args) : Bool :=
  let sel := x.mod.toNat / 16 % 4
  let c := x.mod.getLsbD 0
  match sel with
  | 0 => !c && decide (x.dst.toNat < 16) && tileSrc x.a && x.keep == 0
  | 1 => !c && decide (x.dst.toNat < 16) && (match x.a with | .v r => decide (r.toNat + 31 < 1024) | _ => false)
  | 2 => tileSrc x.a && x.keep == 0 && decide (x.dst.toNat + 31 < 1024)
  | _ => false
/-- A handle named by a field with selector 0 (R266). -/
def handleSrc : Src → Bool
  | .v r => r.toNat < 32
  | _ => false
/-- `tld` and `tst` (R276): through a handle, srcA names it. -/
def tileMoveOk (x : Args) : Bool :=
  let sp := x.mod.toNat / 256
  sp < 3 && (sp != 2 || (handleSrc x.a && x.keep != 1))
/-- `hst` (R298): with `.mm` the address is uniform. -/
def hstOk (kd : Kind) (x : Args) : Bool :=
  let sp := x.mod.toNat / 16
  sp < 3 && (sp != 2 || (match x.a with
    | .k _ => true
    | .s _ => true
    | .zero => true
    | .v _ => kd == .wick
    | _ => false))
/-- `lrun` (R348): the parameter registers do not pass k31 or s63. -/
def lrunOk (x : Args) : Bool :=
  let n := x.mod.toNat / 16
  match x.b with
  | .k r => r.toNat + n < 32
  | .s r => r.toNat + n < 64
  | .v r => r.toNat + n < 64
  | _ => false
/-- `qpop` writes no register past v1023 (R352). -/
def qpopOk (x : Args) : Bool := x.dst.toNat + x.mod.toNat / 16 % 4 < 1024
/-- `sgat` and `ssct` (R337): FMT and SPACE are not reserved, and the list is a pair. -/
def gatOk (x : Args) : Bool := x.dst.toNat / 32 % 8 < 6 && x.dst.toNat / 256 < 3 && evenNum x.a
/-- `sloop` (R347): from 1 to 255 instructions. -/
def sloopOk (x : Args) : Bool :=
  match x.b with
  | .lit w => decide (1 ≤ w.toNat) && decide (w.toNat ≤ 255)
  | _ => false

/-- The points of the control block (see the chapter of the block for the positions). -/
def controlRows : List Row :=
  [ { op := 0x001, ctor := fun x => .instr (.nop x), grp := true }
  , { op := 0x002, ctor := fun x => .instr (.br x), b := .uniLit, grp := true }
  , { op := 0x003, ctor := fun x => .instr (.brx x), a := .vreg, grp := true }
  , { op := 0x004, ctor := fun x => .instr (.jmp x), a := .uni, grp := true }
  , { op := 0x005, ctor := fun x => .instr (.call x), dst := .vd, b := .uniLit, mods := 0x001, lane := true, dsel := true, grp := true }
  , { op := 0x006, ctor := fun x => .instr (.ret x), a := .vreg, grp := true }
  , { op := 0x007, ctor := fun x => .instr (.exit x), grp := true }
  , { op := 0x008, ctor := fun x => .instr (.join x), a := .uniZero, b := .uniLit, grp := true }
  , { op := 0x009, ctor := fun x => .instr (.fuse x), grp := true }
  , { op := 0x00A, ctor := fun x => .instr (.yield x), grp := true }
  , { op := 0x00B, ctor := fun x => .instr (.loopStrict x), grp := true }
  , { op := 0x00C, ctor := fun x => .instr (.lend x), b := .uniLit, grp := true }
  , { op := 0x00D, ctor := fun x => .instr (.dqpop x), dst := .below 32, grp := true }
  , { op := 0x00E, ctor := fun x => .instr (.rsort x), a := .vreg, b := .uniLit, grp := true }
  , { op := 0x00F, ctor := fun x => .instr (.pair x), a := .uniZero, b := .uniLit, grp := true }
  , { op := 0x010, ctor := fun x => .instr (.pjoin x), a := .uniZero, grp := true }
  , { op := 0x011, ctor := fun x => .instr (.unpair x), grp := true }
  , { op := 0x012, ctor := fun x => .instr (.rdpcv x), dst := .vd, mods := 0x011, lane := true, dsel := true, grp := true }
  , { op := 0x013, ctor := fun x => .instr (.rdid x), dst := .vd, mods := 0x071, lane := true, dsel := true, grp := true, extra := fun _ x => x.mod.toNat / 16 % 8 < 4 }
  , { op := 0x014, ctor := fun x => .instr (.kstat x), dst := .below 32, mods := 0x030, grp := true, extra := fun _ x => x.mod != 0x30 }
  , { op := 0x015, ctor := fun x => .instr (.sleep x), b := .uniLit, grp := true } ]

/-- The points of the wick block (see the chapter of the block for the positions). -/
def wickRows : List Row :=
  [ { op := 0x040, ctor := fun x => .instr (.sadd x), dst := .vd, a := .all, b := .allLit, wick := true }
  , { op := 0x041, ctor := fun x => .instr (.ssub x), dst := .vd, a := .all, b := .allLit, wick := true }
  , { op := 0x042, ctor := fun x => .instr (.smul x), dst := .vd, a := .all, b := .allLit, wick := true }
  , { op := 0x043, ctor := fun x => .instr (.smulh x), dst := .vd, a := .all, b := .allLit, mods := 0x002, wick := true }
  , { op := 0x044, ctor := fun x => .instr (.sdiv x), dst := .vd, a := .all, b := .allLit, mods := 0x002, wick := true }
  , { op := 0x045, ctor := fun x => .instr (.srem x), dst := .vd, a := .all, b := .allLit, mods := 0x002, wick := true }
  , { op := 0x046, ctor := fun x => .instr (.sand x), dst := .vd, a := .all, b := .allLit, wick := true }
  , { op := 0x047, ctor := fun x => .instr (.sor x), dst := .vd, a := .all, b := .allLit, wick := true }
  , { op := 0x048, ctor := fun x => .instr (.sxor x), dst := .vd, a := .all, b := .allLit, wick := true }
  , { op := 0x049, ctor := fun x => .instr (.sshl x), dst := .vd, a := .all, b := .allLit, wick := true }
  , { op := 0x04A, ctor := fun x => .instr (.sshr x), dst := .vd, a := .all, b := .allLit, wick := true }
  , { op := 0x04B, ctor := fun x => .instr (.ssra x), dst := .vd, a := .all, b := .allLit, wick := true }
  , { op := 0x04C, ctor := fun x => .instr (.smin x), dst := .vd, a := .all, b := .allLit, mods := 0x002, wick := true }
  , { op := 0x04D, ctor := fun x => .instr (.smax x), dst := .vd, a := .all, b := .allLit, mods := 0x002, wick := true }
  , { op := 0x04E, ctor := fun x => .instr (.scmp x), dst := .vd, a := .all, b := .allLit, mods := 0x072, wick := true, extra := fun _ x => x.mod.toNat / 16 < 6 }
  , { op := 0x04F, ctor := fun x => .instr (.ssel x), dst := .vd, a := .all, b := .allLit, c := .all, three := true, wick := true }
  , { op := 0x050, ctor := fun x => .instr (.smov x), dst := .vd, a := .all, wick := true }
  , { op := 0x051, ctor := fun x => .instr (.sli x), dst := .vd, b := .litOnly, mods := 0x012, wick := true }
  , { op := 0x052, ctor := fun x => .instr (.sld x), dst := .vd, a := .all, b := .allLit, mods := 0x072, wick := true }
  , { op := 0x053, ctor := fun x => .instr (.sst x), dst := .vd, a := .all, b := .allLit, mods := 0x070, wick := true }
  , { op := 0x054, ctor := fun x => .instr (.sbr x), a := .all, b := .regLit, mods := 0x010, wick := true }
  , { op := 0x055, ctor := fun x => .instr (.sjmp x), b := .regLit, wick := true }
  , { op := 0x056, ctor := fun x => .instr (.scall x), dst := .vd, b := .regLit, wick := true }
  , { op := 0x057, ctor := fun x => .instr (.sret x), a := .all, wick := true }
  , { op := 0x058, ctor := fun x => .instr (.dqpush x), a := .all, wick := true }
  , { op := 0x059, ctor := fun x => .instr (.glaunch x), dst := .vd, a := .all, mods := 0x010, wick := true }
  , { op := 0x05A, ctor := fun x => .instr (.gwait x), dst := .vd, a := .all, mods := 0x010, wick := true }
  , { op := 0x05B, ctor := fun _ => .instr .tbar, wick := true }
  , { op := 0x05C, ctor := fun x => .instr (.hld x), dst := .below 32, a := .all, b := .allLit, mods := 0x030, wick := true, extra := fun _ x => x.mod != 0x30 }
  , { op := 0x05D, ctor := fun x => .instr (.sclk x), dst := .vd, mods := 0x010, wick := true }
  , { op := 0x05E, ctor := fun x => .instr (.sgrid x), dst := .vd, mods := 0x1F0, wick := true, extra := fun _ x => x.mod.toNat / 16 < 16 }
  , { op := 0x05F, ctor := fun _ => .instr .wend, wick := true } ]

/-- The points of the alu block (see the chapter of the block for the positions). -/
def aluRows : List Row :=
  [ { op := 0x080, ctor := fun x => .instr (.iadd x), dst := .vd, a := .all, b := .allLit, mods := 0x011, lane := true, dsel := true, grp := true, extra := fun _ x => evenUnderW x true }
  , { op := 0x081, ctor := fun x => .instr (.isub x), dst := .vd, a := .all, b := .allLit, mods := 0x011, lane := true, dsel := true, grp := true, extra := fun _ x => evenUnderW x true }
  , { op := 0x082, ctor := fun x => .instr (.imul x), dst := .vd, a := .all, b := .allLit, mods := 0x001, lane := true, dsel := true, grp := true }
  , { op := 0x083, ctor := fun x => .instr (.imulh x), dst := .vd, a := .all, b := .allLit, mods := 0x003, lane := true, dsel := true, grp := true }
  , { op := 0x084, ctor := fun x => .instr (.imad x), dst := .vd, a := .all, b := .allLit, c := .all, three := true, lane := true, dsel := true, grp := true }
  , { op := 0x085, ctor := fun x => .instr (.iabs x), dst := .vd, a := .all, mods := 0x001, lane := true, dsel := true, grp := true }
  , { op := 0x086, ctor := fun x => .instr (.imin x), dst := .vd, a := .all, b := .allLit, mods := 0x013, lane := true, dsel := true, grp := true, extra := fun _ x => evenUnderW x true }
  , { op := 0x087, ctor := fun x => .instr (.imax x), dst := .vd, a := .all, b := .allLit, mods := 0x013, lane := true, dsel := true, grp := true, extra := fun _ x => evenUnderW x true }
  , { op := 0x088, ctor := fun x => .instr (.and x), dst := .vd, a := .all, b := .allLit, mods := 0x011, lane := true, dsel := true, grp := true, extra := fun _ x => evenUnderW x true }
  , { op := 0x089, ctor := fun x => .instr (.or x), dst := .vd, a := .all, b := .allLit, mods := 0x011, lane := true, dsel := true, grp := true, extra := fun _ x => evenUnderW x true }
  , { op := 0x08A, ctor := fun x => .instr (.xor x), dst := .vd, a := .all, b := .allLit, mods := 0x011, lane := true, dsel := true, grp := true, extra := fun _ x => evenUnderW x true }
  , { op := 0x08B, ctor := fun x => .instr (.not x), dst := .vd, a := .all, mods := 0x011, lane := true, dsel := true, grp := true, extra := fun _ x => evenUnderW x true }
  , { op := 0x08C, ctor := fun x => .instr (.shl x), dst := .vd, a := .all, b := .allLit, mods := 0x011, lane := true, dsel := true, grp := true, extra := fun _ x => evenUnderW x true }
  , { op := 0x08D, ctor := fun x => .instr (.shr x), dst := .vd, a := .all, b := .allLit, mods := 0x011, lane := true, dsel := true, grp := true, extra := fun _ x => evenUnderW x true }
  , { op := 0x08E, ctor := fun x => .instr (.sra x), dst := .vd, a := .all, b := .allLit, mods := 0x011, lane := true, dsel := true, grp := true, extra := fun _ x => evenUnderW x true }
  , { op := 0x08F, ctor := fun x => .instr (.rol x), dst := .vd, a := .all, b := .allLit, mods := 0x001, lane := true, dsel := true, grp := true }
  , { op := 0x090, ctor := fun x => .instr (.popc x), dst := .vd, a := .all, mods := 0x001, lane := true, dsel := true, grp := true }
  , { op := 0x091, ctor := fun x => .instr (.clz x), dst := .vd, a := .all, mods := 0x001, lane := true, dsel := true, grp := true }
  , { op := 0x092, ctor := fun x => .instr (.icmp x), dst := .below 16, a := .all, b := .allLit, mods := 0x0F2, grp := true, extra := fun _ x => x.mod.toNat / 32 < 6 && evenUnderW x false }
  , { op := 0x093, ctor := fun x => .instr (.sel x), dst := .vd, a := .all, b := .allLit, mods := 0x1F1, lane := true, dsel := true, grp := true, extra := fun _ x => evenUnderW x true }
  , { op := 0x094, ctor := fun x => .instr (.imadC x), dst := .vd, a := .all, b := .allLit, c := .all, three := true, lane := true, dsel := true, grp := true }
  , { op := 0x100, ctor := fun x => .instr (.fadd x), dst := .vd, a := .all, b := .allLit, mods := 0x00D, lane := true, dsel := true, grp := true }
  , { op := 0x101, ctor := fun x => .instr (.fsub x), dst := .vd, a := .all, b := .allLit, mods := 0x00D, lane := true, dsel := true, grp := true }
  , { op := 0x102, ctor := fun x => .instr (.fmul x), dst := .vd, a := .all, b := .allLit, mods := 0x00D, lane := true, dsel := true, grp := true }
  , { op := 0x103, ctor := fun x => .instr (.ffma x), dst := .vd, a := .all, b := .allLit, c := .all, three := true, lane := true, dsel := true, grp := true }
  , { op := 0x104, ctor := fun x => .instr (.fmin x), dst := .vd, a := .all, b := .allLit, mods := 0x001, lane := true, dsel := true, grp := true }
  , { op := 0x105, ctor := fun x => .instr (.fmax x), dst := .vd, a := .all, b := .allLit, mods := 0x001, lane := true, dsel := true, grp := true }
  , { op := 0x106, ctor := fun x => .instr (.fabs x), dst := .vd, a := .all, mods := 0x001, lane := true, dsel := true, grp := true }
  , { op := 0x107, ctor := fun x => .instr (.fneg x), dst := .vd, a := .all, mods := 0x001, lane := true, dsel := true, grp := true }
  , { op := 0x108, ctor := fun x => .instr (.frcp x), dst := .vd, a := .all, mods := 0x00D, lane := true, dsel := true, grp := true }
  , { op := 0x109, ctor := fun x => .instr (.frsq x), dst := .vd, a := .all, mods := 0x00D, lane := true, dsel := true, grp := true }
  , { op := 0x10A, ctor := fun x => .instr (.fsqrt x), dst := .vd, a := .all, mods := 0x00D, lane := true, dsel := true, grp := true }
  , { op := 0x10B, ctor := fun x => .instr (.fexp2 x), dst := .vd, a := .all, mods := 0x00D, lane := true, dsel := true, grp := true }
  , { op := 0x10C, ctor := fun x => .instr (.flog2 x), dst := .vd, a := .all, mods := 0x00D, lane := true, dsel := true, grp := true }
  , { op := 0x10D, ctor := fun x => .instr (.fcmp x), dst := .below 16, a := .all, b := .allLit, mods := 0x0E0, grp := true }
  , { op := 0x10E, ctor := fun x => .instr (.fclass x), dst := .vd, a := .all, mods := 0x001, lane := true, dsel := true, grp := true }
  , { op := 0x110, ctor := fun x => .instr (.mov x), dst := .vd, a := .all, mods := 0x011, lane := true, dsel := true, grp := true, extra := fun _ x => evenUnderW x true }
  , { op := 0x111, ctor := fun x => .instr (.vbc x), dst := .vd, a := .all, b := .uniAllLit, mods := 0x001, lane := true, dsel := true, grp := true }
  , { op := 0x112, ctor := fun x => .instr (.vli x), dst := .vd, b := .constLit, mods := 0x001, lane := true, dsel := true, grp := true }
  , { op := 0x113, ctor := fun x => .instr (.rcoal x), dst := .vd, a := .all, lane := true, dsel := true, grp := true }
  , { op := 0x114, ctor := fun x => .instr (.rstat x), dst := .vd, a := .vreg, mods := 0x010, lane := true, dselReq := true, grp := true, extra := fun _ x => x.mod == 0 || (x.a == .v 0 && x.keep == 0) }
  , { op := 0x115, ctor := fun x => .instr (.ffmaC x), dst := .vd, a := .all, b := .allLit, c := .all, three := true, lane := true, dsel := true, grp := true } ]

/-- The points of the lanes block (see the chapter of the block for the positions). -/
def lanesRows : List Row :=
  [ { op := 0x180, ctor := fun x => .instr (.shfl x), dst := .vd, a := .all, b := .allLit, mods := 0x061, lane := true, dsel := true, grp := true }
  , { op := 0x181, ctor := fun x => .instr (.shflx x), dst := .vd, a := .vreg, b := .vreg, mods := 0x001, lane := true, dsel := true, grp := true, extra := fun _ x => evenSrc x.a }
  , { op := 0x182, ctor := fun x => .instr (.vote x), dst := .below 32, a := .below 16, mods := 0x060, grp := true }
  , { op := 0x183, ctor := fun x => .instr (.pand x), dst := .below 16, a := .below 16, b := .below 16, mods := 0x060, grp := true }
  , { op := 0x184, ctor := fun x => .instr (.por x), dst := .below 16, a := .below 16, b := .below 16, mods := 0x060, grp := true }
  , { op := 0x185, ctor := fun x => .instr (.pxor x), dst := .below 16, a := .below 16, b := .below 16, mods := 0x060, grp := true }
  , { op := 0x186, ctor := fun x => .instr (.pnot x), dst := .below 16, a := .below 16, grp := true }
  , { op := 0x187, ctor := fun x => .instr (.pmov x), dst := .below 16, a := .predOrUni, mods := 0x020, grp := true }
  , { op := 0x188, ctor := fun x => .instr (.pcnt x), dst := .below 32, a := .below 16, grp := true }
  , { op := 0x189, ctor := fun x => .instr (.pfirst x), dst := .below 32, a := .below 16, grp := true }
  , { op := 0x18A, ctor := fun x => .instr (.redF x), dst := .below 32, a := .all, mods := 0x0E0, grp := true, extra := fun _ x => x.mod.toNat / 32 < 3 }
  , { op := 0x18B, ctor := fun x => .instr (.redI x), dst := .below 32, a := .all, mods := 0x0F2, grp := true, extra := fun _ x => intOpOk x && evenUnderW x false }
  , { op := 0x18C, ctor := fun x => .instr (.scanF x), dst := .vd, a := .all, mods := 0x1E1, lane := true, dsel := true, grp := true, extra := fun _ x => x.mod.toNat / 32 % 8 < 3 }
  , { op := 0x18D, ctor := fun x => .instr (.scanI x), dst := .vd, a := .all, mods := 0x1F3, lane := true, dsel := true, grp := true, extra := fun _ x => intOpOk x && evenUnderW x true }
  , { op := 0x18E, ctor := fun x => .instr (.vcomp x), dst := .vd, a := .all, mods := 0x001, lane := true, grp := true }
  , { op := 0x18F, ctor := fun x => .instr (.vexp x), dst := .vd, a := .all, mods := 0x001, lane := true, grp := true }
  , { op := 0x190, ctor := fun x => .instr (.lid x), dst := .vd, mods := 0x061, lane := true, dsel := true, grp := true, extra := fun _ x => x.mod.toNat / 32 < 3 } ]

/-- The points of the convert block (see the chapter of the block for the positions). -/
def convertRows : List Row :=
  [ { op := 0x1C0, ctor := fun x => .instr (.cvtFf x), dst := .vd, a := .all, mods := 0x3FD, lane := true, dsel := true, grp := true, extra := fun _ x => x.mod.toNat / 16 % 8 < 5 && x.mod.toNat / 128 < 5 && x.mod.toNat / 16 % 8 != x.mod.toNat / 128 }
  , { op := 0x1C1, ctor := fun x => .instr (.cvtFi x), dst := .vd, a := .all, mods := 0x01F, lane := true, dsel := true, grp := true }
  , { op := 0x1C2, ctor := fun x => .instr (.cvtIf x), dst := .vd, a := .all, mods := 0x01F, lane := true, dsel := true, grp := true }
  , { op := 0x1C3, ctor := fun x => .instr (.fround x), dst := .vd, a := .all, mods := 0x00D, lane := true, dsel := true, grp := true }
  , { op := 0x1C4, ctor := fun x => .instr (.rint x), dst := .vd, a := .all, b := .allLit, mods := 0x001, lane := true, dsel := true, grp := true }
  , { op := 0x1C5, ctor := fun x => .instr (.qscale x), dst := .vd, a := .all, mods := 0x031, lane := true, dsel := true, grp := true }
  , { op := 0x1C6, ctor := fun x => .instr (.pack4 x), dst := .vd, a := .vreg, b := .uniZeroLit, mods := 0x001, lane := true, grp := true }
  , { op := 0x1C7, ctor := fun x => .instr (.unpack4 x), dst := .vd, a := .vreg, mods := 0x001, lane := true, dsel := true, grp := true }
  , { op := 0x1C8, ctor := fun x => .instr (.dmask x), dst := .below 16, a := .all, b := .allLit, c := .uniZero, three := true, grp := true }
  , { op := 0x1C9, ctor := fun x => .instr (.rngx x), dst := .vd, mods := 0x031, lane := true, dsel := true, grp := true, pick := (0x30, 0x0) }
  , { op := 0x1C9, ctor := fun x => .instr (.rngxSeed x), b := .allLit, mods := 0x031, grp := true, pick := (0x30, 0x10) }
  , { op := 0x1C9, ctor := fun x => .instr (.rngxSt x), dst := .below 32, mods := 0x031, grp := true, pick := (0x30, 0x20) }
  , { op := 0x1CA, ctor := fun x => .instr (.pk16 x), dst := .vd, a := .all, mods := 0x011, lane := true, dsel := true, grp := true }
  , { op := 0x1CB, ctor := fun x => .instr (.pk8 x), dst := .vd, a := .all, mods := 0x031, lane := true, dsel := true, grp := true }
  , { op := 0x1CC, ctor := fun x => .instr (.xt16 x), dst := .vd, a := .all, mods := 0x013, lane := true, dsel := true, grp := true }
  , { op := 0x1CD, ctor := fun x => .instr (.xt8 x), dst := .vd, a := .all, mods := 0x033, lane := true, dsel := true, grp := true } ]

/-- The points of the onchip block (see the chapter of the block for the positions). -/
def onchipRows : List Row :=
  [ { op := 0x200, ctor := fun x => .instr (.ld x), dst := .vd, a := .all, b := .allLit, mods := 0x373, lane := true, dsel := true, grp := true, extra := fun _ x => x.mod.toNat / 256 < 3 && sizeOk x && evenDstUnderW x }
  , { op := 0x201, ctor := fun x => .instr (.st x), dst := .vd, a := .all, b := .allLit, mods := 0x370, grp := true, extra := fun _ x => x.mod.toNat / 256 < 3 && sizeOk x && evenDstUnderW x }
  , { op := 0x202, ctor := fun x => .instr (.ldk x), dst := .below 32, a := .all, b := .allLit, mods := 0x372, grp := true, extra := fun _ x => x.mod.toNat / 256 < 3 && sizeOk x }
  , { op := 0x203, ctor := fun x => .instr (.stk x), dst := .below 32, a := .all, b := .allLit, mods := 0x370, grp := true, extra := fun _ x => x.mod.toNat / 256 < 3 && sizeOk x }
  , { op := 0x204, ctor := fun x => .instr (.ldW x), dst := .vd, a := .all, b := .allLit, mods := 0x3F1, lane := true, dsel := true, grp := true, extra := fun _ x => x.mod.toNat / 256 < 3 && wideOk x }
  , { op := 0x205, ctor := fun x => .instr (.stW x), dst := .vd, a := .all, b := .allLit, mods := 0x3F0, grp := true, extra := fun _ x => x.mod.toNat / 256 < 3 && wideOk x }
  , { op := 0x206, ctor := fun x => .instr (.spush x), a := .vreg, grp := true }
  , { op := 0x207, ctor := fun x => .instr (.spop x), a := .vreg, grp := true } ]

/-- The points of the sync block (see the chapter of the block for the positions). -/
def syncRows : List Row :=
  [ { op := 0x240, ctor := fun x => .instr (.atomAdd x), dst := .vd, a := .all, b := .allLit, mods := 0x3FF, lane := true, dsel := true, grp := true, extra := fun _ x => atomOk x && evenDstUnderW x && (!wBit x || evenSrc x.b) }
  , { op := 0x241, ctor := fun x => .instr (.atomMin x), dst := .vd, a := .all, b := .allLit, mods := 0x3FF, lane := true, dsel := true, grp := true, extra := fun _ x => atomOk x && evenDstUnderW x && (!wBit x || evenSrc x.b) }
  , { op := 0x242, ctor := fun x => .instr (.atomMax x), dst := .vd, a := .all, b := .allLit, mods := 0x3FF, lane := true, dsel := true, grp := true, extra := fun _ x => atomOk x && evenDstUnderW x && (!wBit x || evenSrc x.b) }
  , { op := 0x243, ctor := fun x => .instr (.atomAnd x), dst := .vd, a := .all, b := .allLit, mods := 0x3FD, lane := true, dsel := true, grp := true, extra := fun _ x => atomOk x && evenDstUnderW x && (!wBit x || evenSrc x.b) }
  , { op := 0x244, ctor := fun x => .instr (.atomOr x), dst := .vd, a := .all, b := .allLit, mods := 0x3FD, lane := true, dsel := true, grp := true, extra := fun _ x => atomOk x && evenDstUnderW x && (!wBit x || evenSrc x.b) }
  , { op := 0x245, ctor := fun x => .instr (.atomXor x), dst := .vd, a := .all, b := .allLit, mods := 0x3FD, lane := true, dsel := true, grp := true, extra := fun _ x => atomOk x && evenDstUnderW x && (!wBit x || evenSrc x.b) }
  , { op := 0x246, ctor := fun x => .instr (.atomExch x), dst := .vd, a := .all, b := .allLit, mods := 0x3FD, lane := true, dsel := true, grp := true, extra := fun _ x => atomOk x && evenDstUnderW x && (!wBit x || evenSrc x.b) }
  , { op := 0x247, ctor := fun x => .instr (.atomcas x), dst := .vd, a := .all, b := .vreg, mods := 0x3FD, lane := true, dsel := true, grp := true, extra := fun _ x => atomOk x && evenDstUnderW x && evenSrc x.b && (!wBit x || fourSrc x.b) }
  , { op := 0x248, ctor := fun x => .instr (.atomFAdd x), dst := .vd, a := .all, b := .allLit, mods := 0x3ED, lane := true, dsel := true, grp := true, extra := fun _ x => atomOk x }
  , { op := 0x249, ctor := fun x => .instr (.atomFMin x), dst := .vd, a := .all, b := .allLit, mods := 0x3ED, lane := true, dsel := true, grp := true, extra := fun _ x => atomOk x }
  , { op := 0x24A, ctor := fun x => .instr (.atomFMax x), dst := .vd, a := .all, b := .allLit, mods := 0x3ED, lane := true, dsel := true, grp := true, extra := fun _ x => atomOk x }
  , { op := 0x24B, ctor := fun x => .instr (.amaxF32 x), dst := .vd, a := .all, b := .allLit, mods := 0x3ED, lane := true, dsel := true, grp := true, extra := fun _ x => atomOk x }
  , { op := 0x24C, ctor := fun x => .instr (.amaxr x), dst := .below 32, a := .uniZero, mods := 0x3EC, grp := true, extra := fun _ x => x.mod.toNat / 256 < 3 }
  , { op := 0x24D, ctor := fun x => .instr (.ldAcq x), dst := .vd, a := .all, mods := 0x3F1, lane := true, dsel := true, grp := true, extra := fun _ x => x.mod.toNat / 256 < 2 && evenDstUnderW x }
  , { op := 0x24E, ctor := fun x => .instr (.stRel x), dst := .vd, a := .all, mods := 0x3F0, grp := true, extra := fun _ x => x.mod.toNat / 256 < 2 && evenDstUnderW x }
  , { op := 0x250, ctor := fun x => .instr (.acq x), dst := .below 16, b := .allLit, grp := true, wick := true }
  , { op := 0x251, ctor := fun x => .instr (.rel x), dst := .below 16, grp := true, wick := true }
  , { op := 0x252, ctor := fun x => .instr (.fence x), mods := 0x0EC, grp := true, wick := true, extra := fun _ x => x.mod.toNat / 4 % 4 < 3 }
  , { op := 0x253, ctor := fun x => .instr (.bind x), dst := .below 256, a := .uniZero, b := .allLit, c := .uni, three := true, grp := true, wick := true, extra := fun _ x => x.dst.toNat / 64 < 3 && x.dst.toNat / 16 % 4 < 3 }
  , { op := 0x254, ctor := fun x => .instr (.unbind x), dst := .below 16, grp := true, wick := true }
  , { op := 0x255, ctor := fun x => .instr (.sigwait x), dst := .knum, a := .uniZero, b := .allLit, mods := 0x3F0, grp := true, wick := true, extra := fun _ x => x.mod.toNat / 32 % 8 < 6 && x.mod.toNat / 256 < 3 }
  , { op := 0x256, ctor := fun x => .instr (.sigset x), a := .uniZero, b := .allLit, mods := 0x320, grp := true, wick := true, extra := fun _ x => x.mod.toNat / 256 < 3 } ]

/-- The points of the matrix block (see the chapter of the block for the positions). -/
def matrixRows : List Row :=
  [ { op := 0x280, ctor := fun x => .instr (.mwl x), a := .below 16, b := .below 16, mods := 0x3F0, grp := true, wick := true, extra := fun _ => mwlOk }
  , { op := 0x281, ctor := fun x => .instr (.mwswap x), grp := true, wick := true }
  , { op := 0x282, ctor := fun x => .instr (.mma x), dst := .below 8, a := .vreg, b := .below 16, mods := 0x1F0, grp := true, extra := fun _ => mmaOk }
  , { op := 0x283, ctor := fun x => .instr (.mmaG x), dst := .below 32, a := .vreg, b := .below 16, mods := 0x1F0, grp := true, extra := fun _ => mmaOk }
  , { op := 0x284, ctor := fun x => .instr (.mmaV x), dst := .vd, a := .vreg, b := .below 16, mods := 0x1F1, grp := true, extra := fun _ => mmaOk }
  , { op := 0x285, ctor := fun x => .instr (.mdrain x), dst := .vd, a := .below 4, mods := 0x071, grp := true, extra := fun _ => mdrainOk }
  , { op := 0x286, ctor := fun x => .instr (.gdrain x), dst := .below 16, a := .vreg, b := .below 16, c := .uni, three := true, grp := true, extra := fun _ x => (x.dst.toNat / 8 == 1 || x.a == .v 0) && x.keep == 0 }
  , { op := 0x287, ctor := fun x => .instr (.mzero x), dst := .below 4, mods := 0x030, grp := true, wick := true, extra := fun _ x => x.mod.toNat / 16 < 3 }
  , { op := 0x288, ctor := fun x => .instr (.mctxAcq x), dst := .knum, mods := 0x030, grp := true, wick := true, pick := (0x30, 0x0) }
  , { op := 0x288, ctor := fun x => .instr (.mctxTry x), dst := .knum, mods := 0x030, grp := true, wick := true, pick := (0x30, 0x10) }
  , { op := 0x288, ctor := fun x => .instr (.mctxRel x), dst := .knum, mods := 0x030, grp := true, wick := true, pick := (0x30, 0x20) }
  , { op := 0x289, ctor := fun x => .instr (.mfmt x), b := .noOnesLit, grp := true }
  , { op := 0x28A, ctor := fun x => .instr (.tld x), dst := .below 16, a := .matA, b := .noOnesLit, mods := 0x300, grp := true, wick := true, extra := fun _ => tileMoveOk }
  , { op := 0x28B, ctor := fun x => .instr (.tst x), dst := .below 16, a := .matA, b := .noOnesLit, mods := 0x300, grp := true, wick := true, extra := fun _ => tileMoveOk }
  , { op := 0x28C, ctor := fun x => .instr (.tmov x), dst := .vd, a := .vreg, mods := 0x071, grp := true, extra := fun _ => tmovOk } ]

/-- The points of the handle block (see the chapter of the block for the positions). -/
def handleRows : List Row :=
  [ { op := 0x2E0, ctor := fun x => .instr (.hst x), dst := .below 32, a := .all, b := .allLit, mods := 0x030, grp := true, wick := true, extra := hstOk }
  , { op := 0x2E1, ctor := fun x => .instr (.hinfo x), dst := .knum, a := .below 32, mods := 0x0F0, grp := true, wick := true, extra := fun _ x => x.mod.toNat / 128 == 0 || x.mod.toNat / 16 % 8 == 7 }
  , { op := 0x2C0, ctor := fun x => .instr (.cld x), dst := .vd, a := .below 32, b := .vreg, mods := 0x3FD, grp := true, extra := fun _ x => x.mod.toNat / 4 % 4 != 2 && predOutOk x }
  , { op := 0x2C1, ctor := fun x => .instr (.cldi x), dst := .vd, a := .below 32, b := .vreg, mods := 0x3E1, grp := true, extra := fun _ => predOutOk }
  , { op := 0x2C2, ctor := fun x => .instr (.spl x), dst := .vd, a := .below 32, b := .vreg, mods := 0x00C, grp := true, extra := fun _ x => x.mod.toNat / 4 % 4 != 2 }
  , { op := 0x2C3, ctor := fun x => .instr (.splX x), dst := .vd, a := .below 32, b := .vreg, mods := 0x00C, grp := true, extra := fun _ x => x.mod.toNat / 4 % 4 != 2 }
  , { op := 0x2C4, ctor := fun x => .instr (.splres x), dst := .below 32, a := .below 32, b := .kOnly, mods := 0x010, grp := true, wick := true }
  , { op := 0x2C5, ctor := fun x => .instr (.cfind x), dst := .vd, a := .below 32, b := .vreg, mods := 0x3E1, grp := true, extra := fun _ => predOutOk }
  , { op := 0x2C6, ctor := fun x => .instr (.cins x), dst := .vd, a := .below 32, b := .vreg, mods := 0x3E1, grp := true, extra := fun _ => predOutOk } ]

/-- The points of the lantern block (see the chapter of the block for the positions). -/
def lanternRows : List Row :=
  [ { op := 0x300, ctor := fun x => .instr (.lrun x), dst := .knum, a := .uni, b := .uni, mods := 0x0F0, grp := true, wick := true, extra := fun _ => lrunOk }
  , { op := 0x301, ctor := fun x => .instr (.lstop x), a := .uni, grp := true, wick := true }
  , { op := 0x302, ctor := fun x => .instr (.lstat x), dst := .knum, a := .uni, mods := 0x030, grp := true, wick := true }
  , { op := 0x303, ctor := fun x => .instr (.qpop x), dst := .vd, a := .below 8, b := .below 16, mods := 0x031, lane := true, grp := true, extra := fun _ => qpopOk }
  , { op := 0x304, ctor := fun x => .instr (.qpeek x), dst := .vd, a := .below 8, b := .below 16, mods := 0x001, lane := true, grp := true }
  , { op := 0x305, ctor := fun x => .instr (.qpush x), a := .below 8, b := .vreg, c := .uniZero, three := true, grp := true }
  , { op := 0x320, ctor := .late .sgat, dst := .below 1024, a := .below 16, b := .below 16, lan := true, extra := fun _ => gatOk }
  , { op := 0x321, ctor := .late .ssct, dst := .below 1024, a := .below 16, b := .below 16, lan := true, extra := fun _ => gatOk }
  , { op := 0x322, ctor := .late .sdct, dst := .below 16, a := .below 32, lan := true }
  , { op := 0x323, ctor := .late .svoxIns, dst := .below 16, a := .below 32, b := .below 32, c := .below 16, three := true, lan := true, dpick := (0x1, 0x0), extra := fun _ x => x.dst == 0 && evenNum x.c }
  , { op := 0x323, ctor := .late .svoxEmit, dst := .below 16, a := .below 32, c := .below 16, three := true, lan := true, dpick := (0x1, 0x1) }
  , { op := 0x324, ctor := .late .soct, dst := .below 8, a := .below 32, b := .below 32, c := .below 16, three := true, lan := true, extra := fun _ x => evenNum x.c }
  , { op := 0x325, ctor := .late .sxfm, dst := .below 256, b := .numLit, lan := true }
  , { op := 0x326, ctor := .late .sput, dst := .below 8, a := .below 16, b := .numLit, lan := true }
  , { op := 0x327, ctor := .late .sloop, a := .below 16, b := .litOnly, lan := true, extra := fun _ => sloopOk }
  , { op := 0x328, ctor := .late .send, lan := true } ]

/-- The points of the copy block (see the chapter of the block for the positions). -/
def copyRows : List Row :=
  [ { op := 0x340, ctor := fun x => .instr (.bcp x), dst := .knum, a := .uniZero, b := .uniLit, grp := true, wick := true }
  , { op := 0x341, ctor := fun x => .instr (.bcpMc x), dst := .knum, a := .uniZero, b := .uniLit, grp := true, wick := true }
  , { op := 0x342, ctor := fun x => .instr (.bcpV x), dst := .knum, a := .uniZero, b := .uniLit, grp := true, wick := true }
  , { op := 0x343, ctor := fun x => .instr (.wsig x), dst := .knum, a := .uniZero, b := .uni, c := .uniZero, three := true, grp := true, wick := true }
  , { op := 0x344, ctor := fun x => .instr (.abinit x), dst := .knum, a := .uniZero, b := .uniLit, grp := true, wick := true }
  , { op := 0x345, ctor := fun x => .instr (.abwait x), a := .uniZero, b := .uniLit, grp := true, wick := true }
  , { op := 0x346, ctor := fun x => .instr (.abarr x), a := .uniZero, b := .uniLit, grp := true, wick := true }
  , { op := 0x347, ctor := fun x => .instr (.tokwait x), dst := .knum, a := .knum, mods := 0x010, grp := true, wick := true }
  , { op := 0x348, ctor := fun x => .instr (.bcancel x), a := .knum, grp := true, wick := true }
  , { op := 0x349, ctor := fun x => .instr (.bpf x), a := .uniZero, b := .uniLit, grp := true, wick := true } ]

/-- The points of the system block (see the chapter of the block for the positions). -/
def systemRows : List Row :=
  [ { op := 0x380, ctor := fun x => .instr (.trap x), b := .litOnly, grp := true, extra := fun _ => litAtMost 255 }
  , { op := 0x381, ctor := fun x => .instr (.eret x), mods := 0x010, grp := true }
  , { op := 0x382, ctor := fun x => .instr (.brk x), grp := true }
  , { op := 0x383, ctor := fun x => .instr (.mfsr x), dst := .below 32, a := .below 64, grp := true }
  , { op := 0x384, ctor := fun x => .instr (.mtsr x), dst := .below 64, b := .uniAllLit, grp := true }
  , { op := 0x385, ctor := fun x => .instr (.preack x), dst := .below 32, grp := true }
  , { op := 0x386, ctor := fun x => .instr (.errw x), a := .uni, b := .uniZero, grp := true, wick := true }
  , { op := 0x388, ctor := .late .csave, dst := .knum, a := .uni, b := .uni, grp := true, wick := true, sup := true }
  , { op := 0x389, ctor := .late .crest, dst := .knum, a := .uni, grp := true, wick := true, sup := true }
  , { op := 0x38A, ctor := .late .haltFreeze, a := .uni, mods := 0x030, grp := true, wick := true, sup := true, pick := (0x30, 0x0) }
  , { op := 0x38A, ctor := .late .haltResume, a := .uni, mods := 0x030, grp := true, wick := true, sup := true, pick := (0x30, 0x10) }
  , { op := 0x38A, ctor := .late .haltKill, a := .uni, mods := 0x030, grp := true, wick := true, sup := true, pick := (0x30, 0x20) }
  , { op := 0x38C, ctor := .late .bufw, a := .uni, b := .uni, grp := true, wick := true, sup := true, extra := fun _ x => fourReg x.b }
  , { op := 0x38D, ctor := .late .mapw, a := .uni, b := .uni, grp := true, wick := true, sup := true }
  , { op := 0x38E, ctor := .late .tinv, a := .uni, mods := 0x0F0, grp := true, wick := true, sup := true, extra := fun _ x => x.mod.toNat / 16 % 4 < 3 && x.mod.toNat / 64 < 3 }
  , { op := 0x38F, ctor := .late .pmig, dst := .knum, a := .uni, b := .uni, grp := true, wick := true, sup := true } ]

/-- Every assigned point. -/
def encRows : List Row :=
  controlRows ++ wickRows ++ aluRows ++ lanesRows ++ convertRows ++ onchipRows ++ syncRows ++ matrixRows ++
    handleRows ++ lanternRows ++ copyRows ++ systemRows

/-- The row of an opcode point, where MOD and dst choose among the instructions that share it. -/
def findRow (op : Nat) (mod dst : BitVec 10) : Option Row :=
  encRows.find? fun r => r.op == op && mod &&& r.pick.1 == r.pick.2 && dst &&& r.dpick.1 == r.dpick.2

/-- What a compact operation point holds (R30). -/
structure CRow where
  cop : Nat
  ctor : Args → Instr
  /-- The compact srcB takes the place of the F64 srcA (R28). -/
  unary : Bool := false
  /-- CMOD [31:30] may hold U in bit 30. -/
  u : Bool := false
  /-- CMOD [31:30] holds RM. -/
  rm : Bool := false
  /-- CMOD is zero: C is no bit of the operation (R36, R146). -/
  bare : Bool := false

/-- The assigned points of R30. -/
def compactRows : List CRow :=
  [ { cop := 0x01, ctor := .nopC32 }
  , { cop := 0x02, ctor := .movC32, unary := true }
  , { cop := 0x03, ctor := .rcoalC32, unary := true, bare := true }
  , { cop := 0x08, ctor := .iaddC32 }
  , { cop := 0x09, ctor := .isubC32 }
  , { cop := 0x0A, ctor := .imulC32 }
  , { cop := 0x0B, ctor := .imulhC32, u := true }
  , { cop := 0x0C, ctor := .iminC32, u := true }
  , { cop := 0x0D, ctor := .imaxC32, u := true }
  , { cop := 0x0E, ctor := .iabsC32, unary := true }
  , { cop := 0x10, ctor := .andC32 }
  , { cop := 0x11, ctor := .orC32 }
  , { cop := 0x12, ctor := .xorC32 }
  , { cop := 0x13, ctor := .notC32, unary := true }
  , { cop := 0x14, ctor := .shlC32 }
  , { cop := 0x15, ctor := .shrC32 }
  , { cop := 0x16, ctor := .sraC32 }
  , { cop := 0x17, ctor := .rolC32 }
  , { cop := 0x18, ctor := .popcC32, unary := true }
  , { cop := 0x19, ctor := .clzC32, unary := true }
  , { cop := 0x20, ctor := .faddC32 }
  , { cop := 0x21, ctor := .fsubC32 }
  , { cop := 0x22, ctor := .fmulC32 }
  , { cop := 0x23, ctor := .fminC32 }
  , { cop := 0x24, ctor := .fmaxC32 }
  , { cop := 0x25, ctor := .fabsC32, unary := true }
  , { cop := 0x26, ctor := .fnegC32, unary := true }
  , { cop := 0x28, ctor := .frcpC32, unary := true }
  , { cop := 0x29, ctor := .frsqC32, unary := true }
  , { cop := 0x2A, ctor := .fsqrtC32, unary := true }
  , { cop := 0x2B, ctor := .fexp2C32, unary := true }
  , { cop := 0x2C, ctor := .flog2C32, unary := true }
  , { cop := 0x30, ctor := .cvtFiC32, unary := true, rm := true }
  , { cop := 0x31, ctor := .cvtIfC32, unary := true, rm := true } ]

/-- The row of a copcode. -/
def findCRow (cop : Nat) : Option CRow := compactRows.find? fun r => r.cop == cop

/-- A compact unit of the reserved all-zero copcode is no instruction (R30). -/
theorem findCRow_zero : (findCRow 0).isNone = true := by decide

end Sys2Proof
end

