-- ==== Sys2Proof/WellFormed.lean ====
section
/-! DEFINITION. Which instructions are words of the instruction set: what each operand position
holds, and the checks of R36 by name. -/

namespace Sys2Proof

/-- Why a pattern is no instruction (the rows of R36). -/
inductive Reject where
  /-- Fewer bytes than the length bits ask for. -/
  | short
  /-- A reserved copcode. -/
  | copcode
  /-- Compact srcB 255. -/
  | compactSource
  /-- Compact CMOD bits the operation does not define, or operands of a compact `nop`. -/
  | compactMode
  /-- The second half of a P64 has length bits other than 00. -/
  | pairLength
  /-- An unassigned opcode. -/
  | unassigned
  /-- An opcode or a form not legal for the kind of code. -/
  | kind
  /-- Supervisor-only in user mode. -/
  | supervisor
  /-- A reserved special value, or a field that holds what its position does not accept. -/
  | operand
  /-- A MOD bit the entry does not define, or SELC on an instruction that uses MOD. -/
  | mod
  /-- DSEL where it is not accepted, or absent where it is required. -/
  | dsel
  /-- NWB on an instruction without a lane or k result. -/
  | nwb
  /-- KEEP that names no register source. -/
  | keep
  /-- An L96 with srcB or SELB nonzero, or without a srcB operand. -/
  | literal
  /-- A predicate in Wick or lantern code (R34, R337). -/
  | predicate
  /-- What the entry asks of the fields beyond their positions. -/
  | entry
  deriving DecidableEq, Repr

/-- Whether a source may stand at a position. -/
def Pos.ok (kd : Kind) (p : Pos) : Src → Bool
  | .none => p == {}
  | .v r => p.bound kd == 0 && (match kd with
      | .group => p.v
      | .wick => p.reg && decide (r.toNat < 64)
      | .lantern => false)
  | .latch n => kd == .group && p.latch && decide (n.toNat < 6)
  | .zero => p.zero
  | .ones => p.ones
  | .k _ => kd == .group && p.k
  | .s _ => kd == .group && p.s
  | .lit _ => p.lit
  | .num n => decide (n.toNat < p.bound kd)

/-- Whether a dst value, with the DSEL bit, may stand at a dst position of a row. -/
def Row.dstOk (kd : Kind) (r : Row) (dsel : Bool) (d : BitVec 10) : Bool :=
  if dsel then decide (32 ≤ d.toNat) && decide (d.toNat < 64)
  else if r.dst.v then kd != .wick || decide (d.toNat < 64)
  else if r.dst.bound kd == 0 then d == 0
  else decide (d.toNat < r.dst.bound kd)

/-- KEEP names a register source (R26). -/
def keepOk (x : Args) : Bool :=
  let isV : Src → Bool := fun
    | .v _ => true
    | _ => false
  if x.keep == 0 then true
  else if x.keep == 1 then isV x.a
  else if x.keep == 2 then isV x.b
  else isV x.c

/-- Whether a row's opcode is legal for a kind of code (R32). -/
def Row.legal (r : Row) : Kind → Bool
  | .group => r.grp
  | .wick => r.wick
  | .lantern => r.lan

/-- The first check of R36 that the operands of a full instruction fail. -/
def Row.check (kd : Kind) (sup : Bool) (r : Row) (x : Args) : Option Reject :=
  if !r.legal kd then some .kind
  else if r.sup && !sup then some .supervisor
  else if !(r.a.ok kd x.a && r.b.ok kd x.b && (if r.three then r.c.ok kd x.c && x.mod == 0 else x.c == .none)) then some .operand
  else if !r.three && x.mod &&& ~~~r.mods != 0 then some .mod
  else if (x.dsel && !r.dsel) && !r.dselReq || (r.dselReq && !x.dsel) then some .dsel
  else if !r.dstOk kd x.dsel x.dst then some .operand
  else if x.nwb && !(r.lane || r.dselReq) then some .nwb
  else if !keepOk x then some .keep
  else if kd != .group && (x.pred != 0 || x.pneg || x.keep != 0 || x.nwb || x.dsel) then some .predicate
  else if !r.extra kd x then some .entry
  else none

/-- The operands of an instruction that has none. -/
def Args.bare : Args :=
  { pred := 0, pneg := false, keep := 0, nwb := false, dsel := false, dst := 0, a := .none, b := .none, c := .none, mod := 0 }

/-- A source of a compact unit (R27). -/
def compactSrcOk : Src → Bool
  | .v r => decide (r.toNat < 248)
  | .latch n => decide (n.toNat < 6)
  | .zero => true
  | _ => false

/-- The operands a compact unit can hold (R27, R28). -/
def CRow.ok (r : CRow) (x : Args) : Bool :=
  x.keep == 0 && !x.nwb && !x.dsel && x.c == .none && decide (x.dst.toNat < 256) &&
  (if r.cop == 1 then x.dst == 0 && x.a == .none && x.b == .none && x.mod == 0
   else (if r.unary then compactSrcOk x.a && x.b == .none else x.a == .v x.dst && compactSrcOk x.b) &&
     x.mod &&& ~~~(if r.bare then 0 else if r.rm then 0x00D else if r.u then 0x003 else 0x001) == 0)

/-- How an instruction is encoded: its opcode or copcode, and its operands. -/
inductive Enc where
  | full (op : Nat) (x : Args)
  | compact (cop : Nat) (x : Args)
  /-- An event has no words. -/
  | event
  deriving DecidableEq, Repr

/-- The opcode or copcode of each instruction. -/
def encOf : Instr → Enc
  | .nop x => .full 0x001 x
  | .nopC32 x => .compact 0x01 x
  | .br x => .full 0x002 x
  | .brx x => .full 0x003 x
  | .jmp x => .full 0x004 x
  | .call x => .full 0x005 x
  | .ret x => .full 0x006 x
  | .exit x => .full 0x007 x
  | .join x => .full 0x008 x
  | .fuse x => .full 0x009 x
  | .yield x => .full 0x00A x
  | .sleep x => .full 0x015 x
  | .loopStrict x => .full 0x00B x
  | .lend x => .full 0x00C x
  | .dqpop x => .full 0x00D x
  | .rsort x => .full 0x00E x
  | .pair x => .full 0x00F x
  | .pjoin x => .full 0x010 x
  | .unpair x => .full 0x011 x
  | .rdpcv x => .full 0x012 x
  | .rdid x => .full 0x013 x
  | .kstat x => .full 0x014 x
  | .sadd x => .full 0x040 x
  | .ssub x => .full 0x041 x
  | .smul x => .full 0x042 x
  | .smulh x => .full 0x043 x
  | .sdiv x => .full 0x044 x
  | .srem x => .full 0x045 x
  | .sand x => .full 0x046 x
  | .sor x => .full 0x047 x
  | .sxor x => .full 0x048 x
  | .sshl x => .full 0x049 x
  | .sshr x => .full 0x04A x
  | .ssra x => .full 0x04B x
  | .smin x => .full 0x04C x
  | .smax x => .full 0x04D x
  | .scmp x => .full 0x04E x
  | .ssel x => .full 0x04F x
  | .smov x => .full 0x050 x
  | .sli x => .full 0x051 x
  | .sld x => .full 0x052 x
  | .sst x => .full 0x053 x
  | .sbr x => .full 0x054 x
  | .sjmp x => .full 0x055 x
  | .scall x => .full 0x056 x
  | .sret x => .full 0x057 x
  | .dqpush x => .full 0x058 x
  | .glaunch x => .full 0x059 x
  | .gwait x => .full 0x05A x
  | .tbar => .full 0x05B Args.bare
  | .hld x => .full 0x05C x
  | .sclk x => .full 0x05D x
  | .sgrid x => .full 0x05E x
  | .wend => .full 0x05F Args.bare
  | .iadd x => .full 0x080 x
  | .iaddC32 x => .compact 0x08 x
  | .isub x => .full 0x081 x
  | .isubC32 x => .compact 0x09 x
  | .imul x => .full 0x082 x
  | .imulC32 x => .compact 0x0A x
  | .imulh x => .full 0x083 x
  | .imulhC32 x => .compact 0x0B x
  | .imad x => .full 0x084 x
  | .imadC x => .full 0x094 x
  | .iabs x => .full 0x085 x
  | .iabsC32 x => .compact 0x0E x
  | .imin x => .full 0x086 x
  | .iminC32 x => .compact 0x0C x
  | .imax x => .full 0x087 x
  | .imaxC32 x => .compact 0x0D x
  | .and x => .full 0x088 x
  | .andC32 x => .compact 0x10 x
  | .or x => .full 0x089 x
  | .orC32 x => .compact 0x11 x
  | .xor x => .full 0x08A x
  | .xorC32 x => .compact 0x12 x
  | .not x => .full 0x08B x
  | .notC32 x => .compact 0x13 x
  | .shl x => .full 0x08C x
  | .shlC32 x => .compact 0x14 x
  | .shr x => .full 0x08D x
  | .shrC32 x => .compact 0x15 x
  | .sra x => .full 0x08E x
  | .sraC32 x => .compact 0x16 x
  | .rol x => .full 0x08F x
  | .rolC32 x => .compact 0x17 x
  | .popc x => .full 0x090 x
  | .popcC32 x => .compact 0x18 x
  | .clz x => .full 0x091 x
  | .clzC32 x => .compact 0x19 x
  | .icmp x => .full 0x092 x
  | .sel x => .full 0x093 x
  | .fadd x => .full 0x100 x
  | .faddC32 x => .compact 0x20 x
  | .fsub x => .full 0x101 x
  | .fsubC32 x => .compact 0x21 x
  | .fmul x => .full 0x102 x
  | .fmulC32 x => .compact 0x22 x
  | .ffma x => .full 0x103 x
  | .ffmaC x => .full 0x115 x
  | .fmin x => .full 0x104 x
  | .fminC32 x => .compact 0x23 x
  | .fmax x => .full 0x105 x
  | .fmaxC32 x => .compact 0x24 x
  | .fabs x => .full 0x106 x
  | .fabsC32 x => .compact 0x25 x
  | .fneg x => .full 0x107 x
  | .fnegC32 x => .compact 0x26 x
  | .frcp x => .full 0x108 x
  | .frcpC32 x => .compact 0x28 x
  | .frsq x => .full 0x109 x
  | .frsqC32 x => .compact 0x29 x
  | .fsqrt x => .full 0x10A x
  | .fsqrtC32 x => .compact 0x2A x
  | .fexp2 x => .full 0x10B x
  | .fexp2C32 x => .compact 0x2B x
  | .flog2 x => .full 0x10C x
  | .flog2C32 x => .compact 0x2C x
  | .fcmp x => .full 0x10D x
  | .fclass x => .full 0x10E x
  | .mov x => .full 0x110 x
  | .movC32 x => .compact 0x02 x
  | .vbc x => .full 0x111 x
  | .vli x => .full 0x112 x
  | .rcoal x => .full 0x113 x
  | .rcoalC32 x => .compact 0x03 x
  | .rstat x => .full 0x114 x
  | .shfl x => .full 0x180 x
  | .shflx x => .full 0x181 x
  | .vote x => .full 0x182 x
  | .pand x => .full 0x183 x
  | .por x => .full 0x184 x
  | .pxor x => .full 0x185 x
  | .pnot x => .full 0x186 x
  | .pmov x => .full 0x187 x
  | .pcnt x => .full 0x188 x
  | .pfirst x => .full 0x189 x
  | .redF x => .full 0x18A x
  | .redI x => .full 0x18B x
  | .scanF x => .full 0x18C x
  | .scanI x => .full 0x18D x
  | .vcomp x => .full 0x18E x
  | .vexp x => .full 0x18F x
  | .lid x => .full 0x190 x
  | .cvtFf x => .full 0x1C0 x
  | .cvtFi x => .full 0x1C1 x
  | .cvtFiC32 x => .compact 0x30 x
  | .cvtIf x => .full 0x1C2 x
  | .cvtIfC32 x => .compact 0x31 x
  | .fround x => .full 0x1C3 x
  | .rint x => .full 0x1C4 x
  | .qscale x => .full 0x1C5 x
  | .pack4 x => .full 0x1C6 x
  | .unpack4 x => .full 0x1C7 x
  | .dmask x => .full 0x1C8 x
  | .rngx x => .full 0x1C9 x
  | .rngxSeed x => .full 0x1C9 x
  | .rngxSt x => .full 0x1C9 x
  | .pk16 x => .full 0x1CA x
  | .pk8 x => .full 0x1CB x
  | .xt16 x => .full 0x1CC x
  | .xt8 x => .full 0x1CD x
  | .ld x => .full 0x200 x
  | .st x => .full 0x201 x
  | .ldk x => .full 0x202 x
  | .stk x => .full 0x203 x
  | .ldW x => .full 0x204 x
  | .stW x => .full 0x205 x
  | .spush x => .full 0x206 x
  | .spop x => .full 0x207 x
  | .atomAdd x => .full 0x240 x
  | .atomMin x => .full 0x241 x
  | .atomMax x => .full 0x242 x
  | .atomAnd x => .full 0x243 x
  | .atomOr x => .full 0x244 x
  | .atomXor x => .full 0x245 x
  | .atomExch x => .full 0x246 x
  | .atomcas x => .full 0x247 x
  | .atomFAdd x => .full 0x248 x
  | .atomFMin x => .full 0x249 x
  | .atomFMax x => .full 0x24A x
  | .amaxF32 x => .full 0x24B x
  | .amaxr x => .full 0x24C x
  | .ldAcq x => .full 0x24D x
  | .stRel x => .full 0x24E x
  | .acq x => .full 0x250 x
  | .rel x => .full 0x251 x
  | .fence x => .full 0x252 x
  | .bind x => .full 0x253 x
  | .unbind x => .full 0x254 x
  | .sigwait x => .full 0x255 x
  | .sigset x => .full 0x256 x
  | .mwl x => .full 0x280 x
  | .mwswap x => .full 0x281 x
  | .mma x => .full 0x282 x
  | .mmaG x => .full 0x283 x
  | .mmaV x => .full 0x284 x
  | .mdrain x => .full 0x285 x
  | .gdrain x => .full 0x286 x
  | .mzero x => .full 0x287 x
  | .mctxAcq x => .full 0x288 x
  | .mctxTry x => .full 0x288 x
  | .mctxRel x => .full 0x288 x
  | .mfmt x => .full 0x289 x
  | .tld x => .full 0x28A x
  | .tst x => .full 0x28B x
  | .tmov x => .full 0x28C x
  | .hst x => .full 0x2E0 x
  | .hinfo x => .full 0x2E1 x
  | .cld x => .full 0x2C0 x
  | .cldi x => .full 0x2C1 x
  | .spl x => .full 0x2C2 x
  | .splX x => .full 0x2C3 x
  | .splres x => .full 0x2C4 x
  | .cfind x => .full 0x2C5 x
  | .cins x => .full 0x2C6 x
  | .lrun x => .full 0x300 x
  | .lstop x => .full 0x301 x
  | .lstat x => .full 0x302 x
  | .qpop x => .full 0x303 x
  | .qpeek x => .full 0x304 x
  | .qpush x => .full 0x305 x
  | .bcp x => .full 0x340 x
  | .bcpMc x => .full 0x341 x
  | .bcpV x => .full 0x342 x
  | .wsig x => .full 0x343 x
  | .abinit x => .full 0x344 x
  | .abwait x => .full 0x345 x
  | .abarr x => .full 0x346 x
  | .tokwait x => .full 0x347 x
  | .bcancel x => .full 0x348 x
  | .bpf x => .full 0x349 x
  | .trap x => .full 0x380 x
  | .brk x => .full 0x382 x
  | .eret x => .full 0x381 x
  | .mfsr x => .full 0x383 x
  | .mtsr x => .full 0x384 x
  | .preack x => .full 0x385 x
  | .errw x => .full 0x386 x
  | .sgat x => .full 0x320 x
  | .ssct x => .full 0x321 x
  | .sdct x => .full 0x322 x
  | .svoxIns x => .full 0x323 x
  | .svoxEmit x => .full 0x323 x
  | .soct x => .full 0x324 x
  | .sxfm x => .full 0x325 x
  | .sput x => .full 0x326 x
  | .sloop x => .full 0x327 x
  | .send x => .full 0x328 x
  | .csave x => .full 0x388 x
  | .crest x => .full 0x389 x
  | .haltFreeze x => .full 0x38A x
  | .haltResume x => .full 0x38A x
  | .haltKill x => .full 0x38A x
  | .bufw x => .full 0x38C x
  | .mapw x => .full 0x38D x
  | .tinv x => .full 0x38E x
  | .pmig x => .full 0x38F x
  | _ => .event

/-- A well-formed instruction of a kind of code: one whose words R36 does not exclude. -/
def Instr.wf (kd : Kind) (sup : Bool) (i : Instr) : Bool :=
  match encOf i with
  | .full op x =>
    match findRow op x.mod x.dst with
    | some r => (r.check kd sup x).isNone && (r.ctor x).stands i
    | none => false
  | .compact cop x =>
    match findCRow cop with
    | some r => kd == .group && r.ok x && decide (r.ctor x = i)
    | none => false
  | .event => false

end Sys2Proof
end

