-- ==== Sys2Proof/Decode.lean ====
section
/-! DEFINITION. Decoding: from the bytes of an instruction to the instruction, total, refusing by
name; and the encoder, which lays the fields out as R14, R16, R21, R27 and R29 give them. -/

namespace Sys2Proof

/-- The fields of an F64 as R16 places them. -/
structure Raw where
  dsel : Bool
  pneg : Bool
  pred : BitVec 4
  keep : BitVec 2
  nwb : Bool
  selc : Bool
  selb : Bool
  sela : Bool
  srcC : BitVec 10
  srcB : BitVec 10
  srcA : BitVec 10
  dst : BitVec 10
  op : BitVec 10
  deriving DecidableEq, Repr

/-- The fields of the two units of an F64 (R16). -/
def Raw.ofUnits (u0 u1 : W32) : Raw :=
  { dsel := u1.getLsbD 31, pneg := u1.getLsbD 30, pred := u1.extractLsb' 26 4, keep := u1.extractLsb' 24 2
    nwb := u1.getLsbD 23, selc := u1.getLsbD 22, selb := u1.getLsbD 21, sela := u1.getLsbD 20
    srcC := u1.extractLsb' 10 10, srcB := u1.extractLsb' 0 10
    srcA := u0.extractLsb' 22 10, dst := u0.extractLsb' 12 10, op := u0.extractLsb' 2 10 }

/-- One bit. -/
def bit1 (b : Bool) : BitVec 1 := BitVec.ofBool b

/-- The first unit of an F64 or L96, with its length bits (R14, R16). -/
def Raw.unit0 (r : Raw) (len : BitVec 2) : W32 := r.srcA ++ r.dst ++ r.op ++ len

/-- The second unit of an F64 or L96 (R16). -/
def Raw.unit1 (r : Raw) : W32 :=
  bit1 r.dsel ++ bit1 r.pneg ++ r.pred ++ r.keep ++ bit1 r.nwb ++ bit1 r.selc ++ bit1 r.selb ++ bit1 r.sela ++
    r.srcC ++ r.srcB

/-- The source a selector and a field name, before its position is checked (R17, R34). -/
def srcOf (kd : Kind) (p : Pos) (sel : Bool) (v : BitVec 10) : Option Src :=
  if sel then
    if v.toNat < 6 then some (.latch (v.truncate 3))
    else if v.toNat = 6 then some .zero
    else if v.toNat = 7 then some .ones
    else if v.toNat < 32 then none
    else if v.toNat < 64 then some (.k (v.truncate 5))
    else if v.toNat < 128 then some (.s (v.truncate 6))
    else none
  else if p == {} then (if v == 0 then some .none else none)
  else if p.bound kd != 0 then some (.num v)
  else some (.v v)

/-- The selector and field of a source. -/
def srcBits : Src → Bool × BitVec 10
  | .none => (false, 0)
  | .v r => (false, r)
  | .latch n => (true, n.zeroExtend 10)
  | .zero => (true, 6)
  | .ones => (true, 7)
  | .k r => (true, r.zeroExtend 10 + 32)
  | .s r => (true, r.zeroExtend 10 + 64)
  | .lit _ => (false, 0)
  | .num n => (false, n)

/-- The operands that the fields name at a row's positions, or none for a field no position accepts. -/
def Row.args (kd : Kind) (r : Row) (f : Raw) (lit : Option W32) : Option Args :=
  match srcOf kd r.a f.sela f.srcA,
    (match lit with
      | some w => if r.b.lit && !f.selb && f.srcB == 0 then some (.lit w) else none
      | none => srcOf kd r.b f.selb f.srcB),
    (if r.three then srcOf kd r.c f.selc f.srcC else if f.selc then none else some .none) with
  | some a, some b, some c =>
    some { pred := f.pred, pneg := f.pneg, keep := f.keep, nwb := f.nwb, dsel := f.dsel, dst := f.dst
           a := a, b := b, c := c, mod := if r.three then 0 else f.srcC }
  | _, _, _ => none

/-- Decodes the fields of an F64, or of an L96 with its literal. -/
def decodeFull (kd : Kind) (sup : Bool) (f : Raw) (lit : Option W32) : Except Reject Decoded :=
  match findRow f.op.toNat f.srcC f.dst with
  | none => .error .unassigned
  | some r =>
    match r.args kd f lit with
    | none => .error (if lit.isSome then .literal else .operand)
    | some x =>
      match r.check kd sup x with
      | some e => .error e
      | none => .ok (r.ctor x)

/-- The source of a compact srcB field (R27); 255 is reserved. -/
def compactSrc (v : BitVec 8) : Option Src :=
  if v.toNat < 248 then some (.v (v.zeroExtend 10))
  else if v.toNat < 254 then some (.latch ((v - 248).truncate 3))
  else if v.toNat = 254 then some .zero
  else none

/-- The compact srcB field of a source. -/
def compactBits : Src → BitVec 8
  | .v r => r.truncate 8
  | .latch n => n.zeroExtend 8 + 248
  | .zero => 254
  | _ => 0

/-- MOD from CMOD (R28): C in bit 29, U in bit 30 or RM in bits [31:30]. -/
def CRow.mod (r : CRow) (cmod : BitVec 3) : Option (BitVec 10) :=
  if r.bare then (if cmod == 0 then some 0 else none)
  else if r.rm then some ((0 : BitVec 6) ++ cmod.extractLsb' 1 2 ++ (0 : BitVec 1) ++ cmod.extractLsb' 0 1)
  else if r.u then (if cmod.getLsbD 2 then none else some ((0 : BitVec 8) ++ cmod.extractLsb' 1 1 ++ cmod.extractLsb' 0 1))
  else (if cmod.extractLsb' 1 2 == 0 then some ((0 : BitVec 9) ++ cmod.extractLsb' 0 1) else none)

/-- CMOD from MOD. -/
def CRow.cmod (r : CRow) (m : BitVec 10) : BitVec 3 :=
  if r.rm then m.extractLsb' 2 2 ++ m.extractLsb' 0 1
  else if r.u then (0 : BitVec 1) ++ m.extractLsb' 1 1 ++ m.extractLsb' 0 1
  else (0 : BitVec 2) ++ m.extractLsb' 0 1

/-- Decodes a C32 unit or one half of a P64, whatever its length bits (R27, R28). -/
def decodeCompact (u : W32) : Except Reject Instr :=
  let dst : BitVec 8 := u.extractLsb' 8 8
  let srcB : BitVec 8 := u.extractLsb' 16 8
  let cmod : BitVec 3 := u.extractLsb' 29 3
  match findCRow (u.extractLsb' 2 6).toNat with
  | none => .error .copcode
  | some r =>
    let bare : Args := { Args.bare with pred := u.extractLsb' 24 4, pneg := u.getLsbD 28 }
    if r.cop == 1 then
      if dst == 0 && srcB == 0 && cmod == 0 then .ok (r.ctor bare) else .error .compactMode
    else
      match compactSrc srcB, r.mod cmod with
      | none, _ => .error .compactSource
      | _, none => .error .compactMode
      | some b, some m =>
        let d : BitVec 10 := dst.zeroExtend 10
        .ok (r.ctor (if r.unary then { bare with dst := d, a := b, mod := m }
          else { bare with dst := d, a := .v d, b := b, mod := m }))

/-- What the units at a program counter decode to. -/
inductive Read where
  | one (d : Decoded)
  /-- A P64 (R29). -/
  | pair (a b : Instr)
  deriving DecidableEq, Repr

/-- The length in units that bits [1:0] of the first unit give (R14). -/
def unitsOf (u0 : W32) : Nat :=
  match (u0.extractLsb' 0 2).toNat with
  | 0 => 1
  | 3 => 3
  | _ => 2

/-- Decodes the units of one instruction; units past its length are not looked at. -/
def decodeUnits (kd : Kind) (sup : Bool) (u0 u1 u2 : W32) : Except Reject Read :=
  match (u0.extractLsb' 0 2).toNat with
  | 0 =>
    if kd != .group then .error .kind
    else match decodeCompact u0 with
      | .ok i => .ok (.one (.instr i))
      | .error e => .error e
  | 1 =>
    match decodeFull kd sup (Raw.ofUnits u0 u1) none with
    | .ok d => .ok (.one d)
    | .error e => .error e
  | 2 =>
    if kd != .group then .error .kind
    else if u1.extractLsb' 0 2 != 0 then .error .pairLength
    else match decodeCompact u0, decodeCompact u1 with
      | .ok a, .ok b => .ok (.pair a b)
      | .error e, _ => .error e
      | _, .error e => .error e
  | _ =>
    match decodeFull kd sup (Raw.ofUnits u0 u1) (some u2) with
    | .ok d => .ok (.one d)
    | .error e => .error e

/-- The 32-bit unit at the head of some bytes, little-endian (R14). -/
def unitAt : List Byte → Option W32
  | b0 :: b1 :: b2 :: b3 :: _ => some (b3 ++ b2 ++ b1 ++ b0)
  | _ => none

/-- Decodes the instruction at the head of some bytes, and gives the bytes after it. -/
def decode (kd : Kind) (sup : Bool) (bs : List Byte) : Except Reject (Read × List Byte) :=
  match unitAt bs with
  | none => .error .short
  | some u0 =>
    if bs.length < 4 * unitsOf u0 then .error .short
    else match decodeUnits kd sup u0 ((unitAt (bs.drop 4)).getD 0) ((unitAt (bs.drop 8)).getD 0) with
      | .ok r => .ok (r, bs.drop (4 * unitsOf u0))
      | .error e => .error e

/-- The bytes of units, each little-endian. -/
def unitBytes (us : List W32) : List Byte :=
  us.flatMap fun u => [u.extractLsb' 0 8, u.extractLsb' 8 8, u.extractLsb' 16 8, u.extractLsb' 24 8]

/-- The fields of a full instruction. -/
def rawOf (op : Nat) (x : Args) (three : Bool) : Raw :=
  { dsel := x.dsel, pneg := x.pneg, pred := x.pred, keep := x.keep, nwb := x.nwb
    selc := if three then (srcBits x.c).1 else false, selb := (srcBits x.b).1, sela := (srcBits x.a).1
    srcC := if three then (srcBits x.c).2 else x.mod, srcB := (srcBits x.b).2, srcA := (srcBits x.a).2
    dst := x.dst, op := BitVec.ofNat 10 op }

/-- The unit of a compact instruction, with length bits 00 (R27). -/
def compactUnit (r : CRow) (x : Args) : W32 :=
  r.cmod x.mod ++ bit1 x.pneg ++ x.pred ++
    (if r.cop == 1 then 0 else compactBits (if r.unary then x.a else x.b)) ++ (x.dst.truncate 8 : BitVec 8) ++
    BitVec.ofNat 6 r.cop ++ (0 : BitVec 2)

/-- The units of an instruction; none for an event. -/
def encode (i : Instr) : List W32 :=
  match encOf i with
  | .full op x =>
    match findRow op x.mod x.dst with
    | none => []
    | some r =>
      let f := rawOf op x r.three
      match x.b with
      | .lit w => [f.unit0 3, f.unit1, w]
      | _ => [f.unit0 1, f.unit1]
  | .compact cop x =>
    match findCRow cop with
    | none => []
    | some r => [compactUnit r x]
  | .event => []

/-- The instruction that a decoder's answer stands for. Compiled code has no room for the tags of the last constructors of
`Instr`; so this is no compiled definition, and nor is what calls it. -/
noncomputable def Decoded.toInstr : Decoded → Instr
  | .instr i => i
  | .late o x =>
    match o with
    | .sgat => .sgat x
    | .ssct => .ssct x
    | .sdct => .sdct x
    | .svoxIns => .svoxIns x
    | .svoxEmit => .svoxEmit x
    | .soct => .soct x
    | .sxfm => .sxfm x
    | .sput => .sput x
    | .sloop => .sloop x
    | .send => .send x
    | .csave => .csave x
    | .crest => .crest x
    | .haltFreeze => .haltFreeze x
    | .haltResume => .haltResume x
    | .haltKill => .haltKill x
    | .bufw => .bufw x
    | .mapw => .mapw x
    | .tinv => .tinv x
    | .pmig => .pmig x

/-- The instruction that group code, else Wick code in supervisor mode, else lantern code decodes from a number whose bit 0 is
the least significant bit of the first unit. -/
noncomputable def decodeTableWord (nbits w : Nat) : Option Instr :=
  let bs := unitBytes ([0, 1, 2].map fun j => BitVec.ofNat 32 (w % 2 ^ nbits / 2 ^ (32 * j)))
  match decode .group true bs with
  | .ok (.one d, _) => some d.toInstr
  | _ =>
    match decode .wick true bs with
    | .ok (.one d, _) => some d.toInstr
    | _ =>
      match decode .lantern true bs with
      | .ok (.one d, _) => some d.toInstr
      | _ => none

end Sys2Proof
end

