-- ==== Sys2Proof/Config.lean ====
section
/-! DEFINITION. What the device's build fixes, and the free values: constants without a body,
of which nothing can be proved but what holds of every value. -/

namespace Sys2Proof.Config

/-- R5: compute dies. -/
def dies : Nat := 8
/-- R5: enabled cores of a die. -/
def coresPerDie : Nat := 36
/-- Lines of 64 bytes that a footprint cache holds: 256 KiB (R6). -/
def footprintLines : Nat := 4096
/-- Results that a core's translation cache holds (R395). -/
def tcacheEntries : Nat := 512
/-- Lines of 64 bytes that a port's cache holds: 32 MiB (R5). -/
def portLines : Nat := 524288
/-- Blocks that a port's counter cache holds: 4 MiB (R434). -/
def counterBlocks : Nat := 65536
/-- Physical cores of a die, four of them disabled (R5, R7). -/
def physCores : Nat := 40
/-- R5, R6: sub-cores of a core. -/
def subCores : Nat := 4
/-- R77: group slots of a sub-core. -/
def slots : Nat := 16
/-- R77: places of the active set. -/
def activePlaces : Nat := 8
/-- R116: run cells of a sub-core's pool. -/
def poolCells : Nat := 65536
/-- R56: team-shared bytes of a core. -/
def sharedBytes : Nat := 786432
/-- R193: bytes of a die's scratchpad. -/
def scratchBytes : Nat := 67108864
/-- R425: bytes of one channel. -/
def channelBytes : Nat := 3221225472
/-- R5: channels of a stack. -/
def channelsPerStack : Nat := 32
/-- R5: HBM4 stacks. -/
def hbmStacks : Nat := 24
/-- R446: VFL ports. -/
def vflPorts : Nat := 36
/-- R384: the number of the firmware context. -/
def firmwareCtx : Nat := 64

/-- Free value (log entry 6): the SM2 signature made with the device's identity key (R467). -/
opaque sm2Sign (digest : BitVec 256) : BitVec 512
/-- Free value (log entry 6): the n-th key drawn from the device's random generator (R469). -/
opaque randomKey (n : Nat) : BitVec 128
/-- Free value (log entry 8): whether the n-th read that finds a footprint-cache line is served by it (R218). -/
opaque staleHit (n : Nat) : Bool
/-- Free value (log entry 16): which of the dirty counter blocks, if any, is written back before the n-th access that could write
one back (R434). -/
opaque ctrLeaves (n : Nat) : Option Nat
/-- Free value (log entry 11): whether a fetch in a cycle takes the new value of a unit that the grid itself has written (R15). -/
opaque newUnit (now unit : Nat) : Bool
/-- Free value (log entry 5): the bank and row of a channel address (R438, R470), which no rule gives. -/
opaque dramPlace (chan addr : Nat) : BitVec 40
/-- Free value (log entry 5): the symbol of a granule that is corrected in a cycle (R429, R473), which no rule gives. -/
opaque ceSymbol (granule now : Nat) : W64
/-- Free value (log entry 7): the device's own body in a context image (R399), by record type, owner, SUB and save number. -/
opaque ownBody (type owner sub n : Nat) : List Byte
/-- Free value (log entry 3): the fused points of a sensor (R464): 0 WARN, 1 THROTTLE, 2 TRIP. -/
opaque fusedPoint (die sensor which : Nat) : BitVec 16
/-- Free value (log entry 5): the n-th value a free result takes. -/
opaque freeWord (n : Nat) : W64
/-- Whether the package draws more than 5.6 kW when the clocks are looked at (R465, log entry 31). -/
opaque powerOver (n : Nat) : Bool

end Sys2Proof.Config
end

