-- ==== Sys2Proof/Machine/Float.lean ====
section
/-! DEFINITION. Floating point by exact arithmetic: a value is decoded to a sign, a whole number and a
power of two, computed on exactly, and rounded once (R137, R167, R174). -/

namespace Sys2Proof.Machine

/-- A decoded value: NaN, an infinity, or (-1)^neg * m * 2^e. -/
inductive FV where
  | nan
  | inf (neg : Bool)
  | fin (neg : Bool) (m : Nat) (e : Int)
  deriving DecidableEq, Repr

/-- A floating-point format (R167). -/
structure Fmt where
  /-- Exponent and mantissa bits. -/
  eb : Nat
  mb : Nat
  bias : Nat
  /-- The largest finite value, without the sign. -/
  top : Nat
  /-- Has infinities; a format without them saturates (R175). -/
  hasInf : Bool
  /-- The canonical NaN (R168). -/
  canon : Nat
  deriving DecidableEq, Repr

/-- binary32. -/
def Fmt.f32 : Fmt := { eb := 8, mb := 23, bias := 127, top := 0x7F7FFFFF, hasInf := true, canon := 0x7FC00000 }
/-- BF16. -/
def Fmt.bf16 : Fmt := { eb := 8, mb := 7, bias := 127, top := 0x7F7F, hasInf := true, canon := 0x7FC0 }
/-- binary16. -/
def Fmt.f16 : Fmt := { eb := 5, mb := 10, bias := 15, top := 0x7BFF, hasInf := true, canon := 0x7E00 }
/-- FP8 E4M3. -/
def Fmt.e4m3 : Fmt := { eb := 4, mb := 3, bias := 7, top := 0x7E, hasInf := false, canon := 0x7F }
/-- FP8 E5M2. -/
def Fmt.e5m2 : Fmt := { eb := 5, mb := 2, bias := 15, top := 0x7B, hasInf := true, canon := 0x7E }

/-- Rounding modes as RM codes them (R18). -/
inductive RM where
  | rn
  | rz
  | rd
  | ru
  deriving DecidableEq, Repr

/-- The mode of a 2-bit code. -/
def RM.of (n : Nat) : RM :=
  match n % 4 with
  | 0 => .rn
  | 1 => .rz
  | 2 => .rd
  | _ => .ru

/-- The width of a format in bits. -/
def Fmt.width (f : Fmt) : Nat := 1 + f.eb + f.mb

/-- The value of an encoding; bits above the format's width are ignored (R169). -/
def Fmt.decode (f : Fmt) (w : Nat) : FV :=
  let neg := bit w (f.eb + f.mb)
  let e := bits w f.mb f.eb
  let m := bits w 0 f.mb
  let mag := w % 2 ^ (f.eb + f.mb)
  if mag ≤ f.top then
    if e = 0 then .fin neg m (1 - (f.bias : Int) - f.mb)
    else .fin neg (2 ^ f.mb + m) ((e : Int) - f.bias - f.mb)
  else if f.hasInf && m == 0 then .inf neg
  else .nan

/-- The sign bit of a format, set for a negative value. -/
def Fmt.signBit (f : Fmt) (neg : Bool) : Nat := if neg then 2 ^ (f.eb + f.mb) else 0

/-- Whether a remainder of q units rounds away from zero: `rem` of `2^shift` and a nonzero tail `sticky` beyond it. -/
def roundsUp (rm : RM) (neg : Bool) (q rem shift : Nat) (sticky : Bool) : Bool :=
  let inexact := rem != 0 || sticky
  match rm with
  | .rn => shift != 0 && (decide (2 ^ shift < 2 * rem) || (2 * rem == 2 ^ shift && (sticky || q % 2 == 1)))
  | .rz => false
  | .rd => neg && inexact
  | .ru => !neg && inexact

/-- m * 2^e, with a nonzero tail below where `sticky`, as a whole multiple of 2^qe, rounded. -/
def roundAt (rm : RM) (neg : Bool) (m : Nat) (e qe : Int) (sticky : Bool) : Nat :=
  if qe ≤ e then
    let q := m * 2 ^ (e - qe).toNat
    if roundsUp rm neg q 0 0 sticky then q + 1 else q
  else
    let shift := (qe - e).toNat
    let q := m / 2 ^ shift
    if roundsUp rm neg q (m % 2 ^ shift) shift sticky then q + 1 else q

/-- The result of an overflow (R137, R175). -/
def Fmt.overflow (f : Fmt) (rm : RM) (neg : Bool) : Nat :=
  let toInf := f.hasInf && (match rm with
    | .rn => true
    | .rz => false
    | .rd => neg
    | .ru => !neg)
  f.signBit neg + (if toInf then (2 ^ f.eb - 1) * 2 ^ f.mb else f.top)

/-- (-1)^neg * m * 2^e rounded once to the format; a tail that is not zero below m where `sticky`. -/
def Fmt.roundS (f : Fmt) (rm : RM) (neg : Bool) (m : Nat) (e : Int) (sticky : Bool) : Nat :=
  if m = 0 && !sticky then f.signBit neg
  else
    let emin : Int := 1 - (f.bias : Int)
    let lead : Int := (m.log2 : Int) + e
    let qe : Int := (if lead < emin then emin else lead) - f.mb
    let q := roundAt rm neg m e qe sticky
    let enc := (qe + f.mb + f.bias - 1).toNat * 2 ^ f.mb + q
    if f.top < enc then f.overflow rm neg else f.signBit neg + enc

/-- A value rounded once to the format; a NaN is the canonical one (R168). -/
def Fmt.encode (f : Fmt) (rm : RM) : FV → Nat
  | .nan => f.canon
  | .inf neg => if f.hasInf then f.signBit neg + (2 ^ f.eb - 1) * 2 ^ f.mb else f.signBit neg + f.top
  | .fin neg m e => f.roundS rm neg m e false

/-- The sign of a value. -/
def FV.neg : FV → Bool
  | .nan => false
  | .inf n => n
  | .fin n _ _ => n

/-- The value with its sign inverted. -/
def FV.negate : FV → FV
  | .nan => .nan
  | .inf n => .inf (!n)
  | .fin n m e => .fin (!n) m e

/-- Whether a value is a zero. -/
def FV.isZero : FV → Bool
  | .fin _ m _ => m == 0
  | _ => false

/-- m * 2^e as a signed whole multiple of 2^e0, where e0 ≤ e. -/
def scaled (neg : Bool) (m : Nat) (e e0 : Int) : Int :=
  let v : Int := m * 2 ^ (e - e0).toNat
  if neg then -v else v

/-- The exact sum of two values, with the sign of an exact zero by R138. -/
def FV.add (rm : RM) : FV → FV → FV
  | .nan, _ => .nan
  | _, .nan => .nan
  | .inf a, .inf b => if a = b then .inf a else .nan
  | .inf a, .fin _ _ _ => .inf a
  | .fin _ _ _, .inf b => .inf b
  | .fin a m e, .fin b n f =>
    let e0 := min e f
    let v := scaled a m e e0 + scaled b n f e0
    if v = 0 then .fin (if m = 0 && n = 0 && a == b then a else rm == .rd) 0 e0
    else .fin (decide (v < 0)) v.natAbs e0

/-- The exact product of two values. -/
def FV.mul : FV → FV → FV
  | .nan, _ => .nan
  | _, .nan => .nan
  | .inf a, .inf b => .inf (a != b)
  | .inf a, .fin b n _ => if n = 0 then .nan else .inf (a != b)
  | .fin a m _, .inf b => if m = 0 then .nan else .inf (a != b)
  | .fin a m e, .fin b n f => .fin (a != b) (m * n) (e + f)

/-- Whether a finite or infinite value is less than another; a NaN compares as neither. Zeros are equal. -/
def FV.lt : FV → FV → Bool
  | .nan, _ => false
  | _, .nan => false
  | .inf a, .inf b => a && !b
  | .inf a, .fin _ _ _ => a
  | .fin _ _ _, .inf b => !b
  | .fin a m e, .fin b n f =>
    let e0 := min e f
    decide (scaled a m e e0 < scaled b n f e0)

/-- Whether two values that are no NaN are equal. -/
def FV.eq : FV → FV → Bool
  | .nan, _ => false
  | _, .nan => false
  | a, b => !FV.lt a b && !FV.lt b a

/-- The value of a binary32 word. -/
def fv (w : W32) : FV := Fmt.f32.decode w.toNat
/-- A value rounded to a binary32 word. -/
def ofFV (rm : RM) (v : FV) : W32 := BitVec.ofNat 32 (Fmt.f32.encode rm v)
/-- The canonical NaN. -/
def nan32 : W32 := 0x7FC00000
/-- Whether a word is a NaN. -/
def isNaN32 (w : W32) : Bool := decide (fv w = .nan)

/-- R137: the sum rounded once. -/
def fAdd (rm : RM) (a b : W32) : W32 := ofFV rm (FV.add rm (fv a) (fv b))
/-- R137: the difference rounded once. -/
def fSub (rm : RM) (a b : W32) : W32 := ofFV rm (FV.add rm (fv a) (fv b).negate)
/-- R137: the product rounded once. -/
def fMul (rm : RM) (a b : W32) : W32 := ofFV rm (FV.mul (fv a) (fv b))
/-- R137, R138: A * B + C rounded once to nearest even. -/
def fFma (a b c : W32) : W32 := ofFV .rn (FV.add .rn (FV.mul (fv a) (fv b)) (fv c))

/-- Less than, with -0 below +0 (R140). -/
def fLess (a b : W32) : Bool :=
  FV.lt (fv a) (fv b) || (FV.eq (fv a) (fv b) && (fv a).neg && !(fv b).neg)
/-- R140. -/
def fMin (a b : W32) : W32 :=
  if isNaN32 a then (if isNaN32 b then nan32 else b)
  else if isNaN32 b then a
  else if fLess b a then b else a
/-- R140. -/
def fMax (a b : W32) : W32 :=
  if isNaN32 a then (if isNaN32 b then nan32 else b)
  else if isNaN32 b then a
  else if fLess a b then b else a

/-- The relation COND of R141. -/
def fCond (c : Nat) (a b : W32) : Bool :=
  let x := fv a
  let y := fv b
  let nan := isNaN32 a || isNaN32 b
  match c with
  | 0 => FV.eq x y
  | 1 => !FV.eq x y
  | 2 => FV.lt x y
  | 3 => FV.lt x y || FV.eq x y
  | 4 => FV.lt y x
  | 5 => FV.lt y x || FV.eq x y
  | 6 => !nan
  | _ => nan

/-- R142: the class bit. -/
def fClass (w : W32) : W32 :=
  let neg := w.getLsbD 31
  let e := bits w.toNat 23 8
  let m := bits w.toNat 0 23
  let n :=
    if e = 255 then (if m = 0 then (if neg then 0 else 7) else if w.getLsbD 22 then 9 else 8)
    else if e = 0 then (if m = 0 then (if neg then 3 else 4) else if neg then 2 else 5)
    else if neg then 1 else 6
  BitVec.ofNat 32 (2 ^ n)

/-- The whole square root by bits: the largest r below 2^n with r^2 ≤ v, given the bits found so far. -/
def isqrtFrom (v : Nat) : Nat → Nat → Nat
  | 0, r => r
  | n + 1, r =>
    let r' := r + 2 ^ n
    if r' * r' ≤ v then isqrtFrom v n r' else isqrtFrom v n r

/-- The whole square root. -/
def isqrt (v : Nat) : Nat := isqrtFrom v (v.log2 / 2 + 1) 0

/-- R139: 1 / x. -/
def fRcp (rm : RM) (w : W32) : W32 :=
  match fv w with
  | .nan => nan32
  | .inf neg => ofFV rm (.fin neg 0 0)
  | .fin neg m e =>
    if m = 0 then ofFV rm (.inf neg)
    else
      let k := m.log2 + 64
      BitVec.ofNat 32 (Fmt.f32.roundS rm neg (2 ^ k / m) (-(k : Int) - e) (2 ^ k % m != 0))

/-- m * 2^e with an even exponent. -/
def evenExp (m : Nat) (e : Int) : Nat × Int := if e % 2 = 0 then (m, e) else (2 * m, e - 1)

/-- R139: the square root. -/
def fSqrt (rm : RM) (w : W32) : W32 :=
  match fv w with
  | .nan => nan32
  | .inf neg => if neg then nan32 else ofFV rm (.inf false)
  | .fin neg m e =>
    if m = 0 then w
    else if neg then nan32
    else
      let (n, f) := evenExp m e
      let v := n * 2 ^ 80
      let r := isqrt v
      BitVec.ofNat 32 (Fmt.f32.roundS rm false r (f / 2 - 40) (r * r != v))

/-- R139: 1 / the square root. -/
def fRsq (rm : RM) (w : W32) : W32 :=
  match fv w with
  | .nan => nan32
  | .inf neg => if neg then nan32 else 0
  | .fin neg m e =>
    if m = 0 then ofFV rm (.inf neg)
    else if neg then nan32
    else
      let (n, f) := evenExp m e
      let r := isqrt (2 ^ 140 / n)
      BitVec.ofNat 32 (Fmt.f32.roundS rm false r (-(f / 2) - 70) (r * r * n != 2 ^ 140))

/-- The natural logarithm of 2, times 2^256, rounded down. -/
def ln2Fix : Nat := 0xb17217f7d1cf79abc9e3b39803f2f6af40f343267298b62d8a0d175b8baafa2b

/-- The sum of y^k / k! from a term on, in units of 2^-256. -/
def expSeries (y : Nat) : Nat → Nat → Nat → Nat → Nat
  | 0, _, _, acc => acc
  | n + 1, k, term, acc =>
    let t := term * y / 2 ^ 256 / k
    expSeries y n (k + 1) t (acc + t)

/-- 2^f for a fraction f of 2^60 units, in units of 2^-256 (log entry 13). -/
def exp2Fix (f : Nat) : Nat := expSeries (f * ln2Fix / 2 ^ 60) 80 1 (2 ^ 256) (2 ^ 256)

/-- The sum of z^(2k+1) / (2k+1) from a term on, in units of 2^-256. -/
def atanhSeries (z2 : Nat) : Nat → Nat → Nat → Nat → Nat
  | 0, _, _, acc => acc
  | n + 1, k, pow, acc => atanhSeries z2 n (k + 2) (pow * z2 / 2 ^ 256) (acc + pow / k)

/-- log2 of m / 2^L for 2^L ≤ m < 2^(L+1), in units of 2^-256 (log entry 13). -/
def log2Fix (m : Nat) : Nat :=
  let p := 2 ^ m.log2
  let z := (m - p) * 2 ^ 256 / (m + p)
  2 * atanhSeries (z * z / 2 ^ 256) 90 1 z 0 * 2 ^ 256 / ln2Fix

/-- R139: 2^x. -/
def fExp2 (rm : RM) (w : W32) : W32 :=
  match fv w with
  | .nan => nan32
  | .inf neg => if neg then 0 else ofFV rm (.inf false)
  | .fin neg m e =>
    let r : Nat → Int → Bool → W32 := fun q x st => BitVec.ofNat 32 (Fmt.f32.roundS rm false q x st)
    if m = 0 then 0x3F800000
    else if 9 < (m.log2 : Int) + e then (if neg then r 1 (-400) true else r 1 400 false)
    else if (m.log2 : Int) + e < -30 then (if neg then r (2 ^ 60 - 1) (-60) true else r (2 ^ 60) (-60) true)
    else
      -- x in units of 2^-60, rounded down where negative
      let v : Int := scaled neg (m * 2 ^ (e + 60).toNat) 0 0
      let whole := v / 2 ^ 60
      let frac := (v % 2 ^ 60).toNat
      if frac = 0 then r 1 whole false else r (exp2Fix frac) (whole - 256) true

/-- R139: the logarithm to base 2. -/
def fLog2 (rm : RM) (w : W32) : W32 :=
  match fv w with
  | .nan => nan32
  | .inf neg => if neg then nan32 else ofFV rm (.inf false)
  | .fin neg m e =>
    if m = 0 then ofFV rm (.inf true)
    else if neg then nan32
    else
      let whole : Int := (m.log2 : Int) + e
      if m = 2 ^ m.log2 then ofFV rm (.fin (decide (whole < 0)) whole.natAbs 0)
      else
        let v : Int := whole * 2 ^ 256 + log2Fix m
        if v < 0 then BitVec.ofNat 32 (Fmt.f32.roundS rm true (v.natAbs - 1) (-256) true)
        else BitVec.ofNat 32 (Fmt.f32.roundS rm false v.natAbs (-256) true)

/-- A finite value rounded to a whole number (R176, R183). -/
def roundInt (rm : RM) (neg : Bool) (m : Nat) (e : Int) : Int :=
  let q := roundAt rm neg m e 0 false
  if neg then -(q : Int) else q

/-- R183: to an integral value. -/
def fRound (rm : RM) (w : W32) : W32 :=
  match fv w with
  | .nan => nan32
  | .inf _ => w
  | .fin neg m e => if 0 ≤ e then w else ofFV rm (.fin neg (roundAt rm neg m e 0 false) 0)

/-- R176: to an integer between two bounds. -/
def fToInt (rm : RM) (lo hi : Int) (w : W32) : Int :=
  match fv w with
  | .nan => 0
  | .inf neg => if neg then lo else hi
  | .fin neg m e =>
    let v := if 200 < e then (if neg then lo else hi) else roundInt rm neg m e
    if v < lo then lo else if hi < v then hi else v

/-- R176: from an integer. -/
def intToF (rm : RM) (v : Int) : W32 := ofFV rm (.fin (decide (v < 0)) v.natAbs 0)

/-- The exact sum of values (R162), and whether every one is -0. -/
def FV.sumList : List FV → FV
  | [] => .fin false 0 0
  | [v] => v
  | v :: t => FV.add .rn v (FV.sumList t)

end Sys2Proof.Machine
end

