-- ==== Sys2Proof/Machine/Memory.lean ====
section
/-! DEFINITION. The memory of the whole device as one sparse list of cells in a canonical form:
addresses strictly rising, and no cell that holds what an unlisted address reads as. The four
spaces of R11, the spill stacks and the host's memory lie in disjoint ranges of keys. -/

namespace Sys2Proof.Machine

/-- All bytes of all spaces. -/
abbrev Memory := List Host.Cell

/-- What a byte that nothing has written reads as: the spaces are zeroed at stage S1 (R456) and at
placement (R366); for host memory DESIGN CHOICE (log entry 4). -/
def Memory.blank : Byte := 0#8

/-- A place a byte can lie in. -/
inductive Space where
  /-- The spill stack of the group in a slot (R194). -/
  | spill (group : Nat)
  /-- The team-shared bytes of a team (R11). -/
  | shared (team : Nat)
  /-- The scratchpad of a die (R11). -/
  | scratch (die : Nat)
  /-- The memory behind a channel (R425). -/
  | channel (chan : Nat)
  /-- Host memory (R443). -/
  | host
  deriving DecidableEq, Repr

/-- The key of a byte of a space. -/
def Space.key : Space → Nat → Nat
  | .spill g, a => 2 ^ 68 + g * 2 ^ 32 + a
  | .shared t, a => 2 * 2 ^ 68 + t * 2 ^ 32 + a
  | .scratch d, a => 3 * 2 ^ 68 + d * 2 ^ 32 + a
  | .channel c, a => 4 * 2 ^ 68 + c * 2 ^ 32 + a
  | .host, a => 5 * 2 ^ 68 + a

/-- Reads the byte of a key. -/
def Memory.read : Memory → Nat → Byte
  | [], _ => Memory.blank
  | (j, b) :: t, k => if j = k then b else Memory.read t k

/-- Puts a byte at a key, keeping the canonical form. -/
def Memory.write : Memory → Nat → Byte → Memory
  | [], k, v => if v = Memory.blank then [] else [(k, v)]
  | (j, b) :: t, k, v =>
    if k < j then (if v = Memory.blank then (j, b) :: t else (k, v) :: (j, b) :: t)
    else if j = k then (if v = Memory.blank then t else (k, v) :: t)
    else (j, b) :: Memory.write t k v

/-- Reads n bytes from a key on. -/
def Memory.readN (m : Memory) (k : Nat) : Nat → List Byte
  | 0 => []
  | n + 1 => Memory.read m k :: Memory.readN m (k + 1) n

/-- Writes bytes from a key on. -/
def Memory.writeN (m : Memory) (k : Nat) : List Byte → Memory
  | [] => m
  | b :: bs => Memory.writeN (Memory.write m k b) (k + 1) bs

/-- Sets n bytes from a key on to zero. -/
def Memory.clear (m : Memory) (k n : Nat) : Memory := m.filter fun c => c.1 < k || k + n ≤ c.1

/-- The bytes of a number, least significant first. -/
def toBytes (v : Nat) : Nat → List Byte
  | 0 => []
  | n + 1 => BitVec.ofNat 8 v :: toBytes (v / 256) n

/-- The number that bytes stand for, least significant first. -/
def ofBytes : List Byte → Nat
  | [] => 0
  | b :: bs => b.toNat + 256 * ofBytes bs

/-- Reads a little-endian number of n bytes. -/
def Memory.readLE (m : Memory) (k n : Nat) : Nat := ofBytes (Memory.readN m k n)

/-- Writes a little-endian number of n bytes. -/
def Memory.writeLE (m : Memory) (k n v : Nat) : Memory := Memory.writeN m k (toBytes v n)

/-- The cells rise strictly from a bound on, and none holds the blank byte. -/
def Memory.wfFrom : Nat → Memory → Bool
  | _, [] => true
  | lo, (k, b) :: t => decide (lo ≤ k) && b != Memory.blank && Memory.wfFrom (k + 1) t

/-- The canonical form. -/
def Memory.wf (m : Memory) : Bool := Memory.wfFrom 0 m

end Sys2Proof.Machine
end

