-- ==== Sys2Proof/Machine/Table.lean ====
section
/-! DEFINITION. Tables keyed by a number: lists of key and value in rising key order, so that
equal tables are equal data. -/

namespace Sys2Proof.Machine

/-- A table: absent keys have no entry. -/
abbrev Tbl (α : Type) := List (Nat × α)

/-- The entry of a key. -/
def Tbl.get? {α : Type} : Tbl α → Nat → Option α
  | [], _ => none
  | (j, a) :: t, k => if j = k then some a else Tbl.get? t k

/-- The entry of a key, or a default where there is none. -/
def Tbl.get {α : Type} (t : Tbl α) (k : Nat) (d : α) : α := (Tbl.get? t k).getD d

/-- The table with the entry of `k` set to `a`. -/
def Tbl.set {α : Type} : Tbl α → Nat → α → Tbl α
  | [], k, a => [(k, a)]
  | (j, b) :: t, k, a =>
    if k < j then (k, a) :: (j, b) :: t
    else if j = k then (k, a) :: t
    else (j, b) :: Tbl.set t k a

/-- The table without an entry of `k`. -/
def Tbl.erase {α : Type} : Tbl α → Nat → Tbl α
  | [], _ => []
  | (j, b) :: t, k => if j = k then Tbl.erase t k else (j, b) :: Tbl.erase t k

/-- The entry of `k` changed by `f`; a key without an entry stays without. -/
def Tbl.upd {α : Type} (t : Tbl α) (k : Nat) (f : α → α) : Tbl α :=
  match Tbl.get? t k with
  | none => t
  | some a => Tbl.set t k (f a)

/-- The keys of a table. -/
def Tbl.keys {α : Type} (t : Tbl α) : List Nat := t.map (·.1)

/-- Every entry changed by `f`. -/
def Tbl.mapVal {α β : Type} (t : Tbl α) (f : Nat → α → β) : Tbl β := t.map fun p => (p.1, f p.1 p.2)

/-- The entries that meet `p`. -/
def Tbl.keep {α : Type} (t : Tbl α) (p : Nat → α → Bool) : Tbl α := t.filter fun q => p q.1 q.2

/-- The first key, in rising order, whose entry meets `p`. -/
def Tbl.findKey {α : Type} (t : Tbl α) (p : Nat → α → Bool) : Option Nat :=
  (t.find? fun q => p q.1 q.2).map (·.1)

/-- The least of 0, 1, … n - 1 that is no key. -/
def Tbl.freeKey {α : Type} (t : Tbl α) (n : Nat) : Option Nat :=
  (List.range n).find? fun k => (Tbl.get? t k).isNone

end Sys2Proof.Machine
end

