-- ==== Sys2Proof/Machine/State.lean ====
section
/-! DEFINITION. The state of the device, all of it plain data, and what it holds after power-on. -/

namespace Sys2Proof.Machine

/-! ### Numbers of the parts

A core of the device is numbered `die * 36 + core`; a group by the slot it occupies,
`core * 64 + sub * 16 + slot`; a team by its Wick context, `core * 8 + context`. -/

/-- The core a group is on. -/
def coreOfGroup (g : Nat) : Nat := g / 64
/-- The sub-core of a group, 0 to 3. -/
def subOfGroup (g : Nat) : Nat := g / 16 % 4
/-- The slot of a group in its sub-core. -/
def slotOfGroup (g : Nat) : Nat := g % 16
/-- The core of a team. -/
def coreOfTeam (t : Nat) : Nat := t / 8
/-- The die of a core. -/
def dieOfCore (c : Nat) : Nat := c / Config.coresPerDie

/-! ### A fault -/

/-- A user-route fault before it is delivered (R386, R390). -/
structure Cause where
  code : Nat
  num : Nat := 0
  detail : Nat := 0
  /-- EADDR. -/
  addr : Nat := 0
  /-- AKIND of the record (R484). -/
  akind : Nat := 0
  /-- The space of an on-chip address (R470). -/
  space : Nat := 0
  lane : Nat := 255
  /-- EPC is the next instruction (TRAP, BREAK). -/
  after : Bool := false
  /-- The second half of a P64 faulted (R29). -/
  half : Bool := false
  /-- The handle register in which the fault sets MALF (R297). -/
  malf : Option Nat := none
  deriving DecidableEq, Repr

/-! ### An error record (R470) -/

/-- The fields of an error record before SEQ and TIME. -/
structure RecIn where
  code : Nat
  cls : Nat
  sev : Nat
  recov : Nat
  akind : Nat := 0
  engine : Nat := 0
  ctx : Nat := 127
  grid : Nat := 0
  team : Nat := 0xFFFFFFFF
  iaddr : Nat := 0xFFFFFFFF
  group : Nat := 255
  lane : Nat := 255
  addr : Nat := 0
  place : Nat := 0
  detail : Nat := 0
  deriving DecidableEq, Repr

/-! ### A group -/

/-- One run of a register (R112, R114). -/
structure Run where
  val : W32
  cnt : Nat
  /-- The run begins at a splice boundary (R119). -/
  splice : Bool
  deriving DecidableEq, Repr

/-- A lane register's list of runs (R112). -/
abbrev Runs := List Run

/-- The register every group starts with, {0:32} (R112). -/
def Runs.zero : Runs := [{ val := 0, cnt := 32, splice := false }]

/-- The header fields of a spilled register (R113): n, SPL, and BODY in bytes. -/
structure SpillHdr where
  n : Nat
  spl : Nat
  off : Nat
  deriving DecidableEq, Repr

/-- A lane register (R112, R113). A register that no entry names is {0:32}. -/
structure Reg where
  runs : Runs
  /-- Set while the runs lie in the spill region (R122). -/
  spilled : Option SpillHdr
  /-- When it was last read or written (R123). -/
  stamp : Nat
  /-- The pending result it awaits (R203, R227, R262). -/
  pend : Option Nat
  deriving DecidableEq, Repr

/-- A bypass latch (R22). -/
structure Latch where
  valid : Bool
  runs : Runs
  /-- The pending result it awaits. -/
  pend : Option Nat
  deriving DecidableEq, Repr

/-- The state of a lane (R82). -/
inductive LaneSt where
  | run
  | parked
  | asleep
  | exited
  deriving DecidableEq, Repr

/-- A lane's place in the code (R82, R90). -/
structure Lane where
  pc : W32
  tag : BitVec 16
  st : LaneSt
  /-- Inside a strict loop (R90). -/
  strict : Bool
  /-- When a sleeping lane wakes (R104). -/
  wake : Nat
  deriving DecidableEq, Repr

/-- An issue candidate: a group or a subgroup of it (R78, R86). -/
structure SubG where
  lanes : Mask
  /-- The backward-branch count (R91). -/
  back : Nat
  /-- The lanes that have priority over the minimum-PC set, or none (R92). -/
  hprio : Mask
  /-- The issuing set of its previous issue (R91). -/
  lastX : Mask
  deriving DecidableEq, Repr

/-- A join record (R88). -/
structure JoinRec where
  j : W32
  target : W32
  awaited : Mask
  parked : Mask
  start : Nat
  /-- kT as read at the first arrival (R89). -/
  kt : Nat
  /-- LATE, else OPEN. -/
  late : Bool
  deriving DecidableEq, Repr

/-- What the device keeps while a handler runs (R389, R406). -/
structure TrapFrame where
  /-- X, the lanes the handler runs on. -/
  x : Mask
  /-- Lanes that have executed `eret`. -/
  erets : Mask
  /-- Those whose `eret` had SKIP. -/
  skips : Mask
  /-- The trip tags and strict marks of all lanes at entry. -/
  tags : List (BitVec 16 × Bool)
  /-- The partition at entry. -/
  subs : List SubG
  deriving DecidableEq, Repr

/-- The instruction a group waits in, where the wait has a start of its own (R107 to R109, R264). -/
inductive WaitKind where
  | pair (ids : Nat)
  | pjoin
  | gdrain
  | rsort (key n : Nat)
  /-- The pair was dissolved by the partner during the wait (R109): it ends in PAIRTIMEOUT. -/
  | broken
  /-- The other party's instruction does not agree (R107, R108): it ends in BOUNDS. -/
  | refused
  deriving DecidableEq, Repr

/-- A wait in progress. -/
structure Wait where
  kind : WaitKind
  pc : Nat
  /-- Where the issuing lanes go when the wait ends. -/
  next : Nat
  start : Nat
  /-- The cycles after which it times out, where it has a bound. -/
  bound : Nat
  deriving DecidableEq, Repr

/-- The binding of a guided pair, as one member holds it (R93). -/
structure PairBind where
  /-- The partner's index in the team. -/
  partner : Nat
  /-- This member is the conditional stream. -/
  cond : Bool
  joined : Bool
  deriving DecidableEq, Repr

/-- A result under way to registers of a group (R203, R227, R310, R262). -/
structure Pending where
  /-- The registers that await it. -/
  regs : List Nat
  /-- The lanes it writes. -/
  lanes : Mask
  /-- Merge when it lands (C). -/
  merge : Bool
  /-- W: the registers are pairs whose runs merge only together (R120). -/
  wide : Bool
  /-- A k register that awaits it. -/
  kreg : Option Nat
  /-- A predicate that awaits it (R310). -/
  pred : Option Nat := none
  /-- Under W, the lanes whose high word equals that of the lane before (R118). -/
  hiSame : Mask := 0
  /-- A coordinate request or splat (R312), else a load or atomic. -/
  demand : Bool
  /-- A long-latency wait (R78). -/
  long : Bool
  deriving DecidableEq, Repr

/-- A party that waits for accesses or holds them (R208): its kind (0 group, 1 Wick, 2 stream, 3 copy, 4 launch unit,
5 demand operation, 6 host,
7 management controller, 8 a packet from another device, 9 none any more) and its number. -/
abbrev Party := Nat × Nat

/-- The answer of a remote device to an access of the operation a party has under way (R448, R453). -/
structure Reply where
  party : Party
  /-- Which access of the operation it answers. -/
  tag : Nat
  ptr : W64
  data : List Byte
  ok : Bool
  /-- How it failed: 0 REMOTEFAIL, 1 a page that does not verify, 2 a guard tag (R371, R372). -/
  how : Nat
  /-- SEQ of the remote device's record where it failed; for a guard tag the detail word of its record (R473). -/
  seq : Nat
  /-- VERSION of the operation (R372). -/
  version : Nat := 0
  /-- The context whose buffer table the access was checked under. -/
  ctx : Nat := 0
  deriving DecidableEq, Repr

/-- The reuse latch of a group (R260): the first register, the lanes, and each lane's row in bytes. -/
structure Reuse where
  va : Nat
  act : Mask
  rows : List (Nat × List Byte)
  deriving DecidableEq, Repr

/-- A resident group (R10, R82, R97, R390). -/
structure Group where
  /-- Its team's number. -/
  team : Nat
  /-- gid: its index in the team. -/
  idx : Nat
  regs : Tbl Reg
  /-- p1 to p15; an absent entry is all-false (R148). -/
  preds : Tbl Mask
  /-- k0 to k31; an absent entry is 0. -/
  ks : Tbl W64
  /-- k registers that hold the token of unfinished copies, and how many (R361, R363). -/
  ktok : Tbl Nat
  /-- L0 to L5. -/
  latches : List Latch
  /-- Lanes 0 to 31. -/
  lanes : List Lane
  /-- The candidates. -/
  subs : List SubG
  /-- The candidate that issued last. -/
  lastSub : Nat
  /-- The issuing set of the group's previous instruction (R23). -/
  lastX : Mask
  joins : List JoinRec
  /-- tid of each lane (R8). -/
  tids : List W32
  pdis : Bool
  spin : Bool
  dqend : Bool
  jto : Bool
  empty : Bool
  pair : Option PairBind
  tvec : W64
  epc : W64
  ecause : W64
  edetail : W64
  eaddr : W64
  elanes : W64
  einst : W64
  elit : W64
  /-- TSTAT.INTRAP, with what the handler's return restores. -/
  trap : Option TrapFrame
  /-- G, the generator of `rngx` (R189). -/
  gen : W64
  mfmt : W64
  reuse : Option Reuse
  /-- The decision-queue read pointer, counted from the first push (R69). -/
  dqPtr : Nat
  /-- In cells (R116). -/
  quota : Nat
  peak : Nat
  /-- One more than the latch-reading instructions issued in a row under R24; 0 while the group has no protection. -/
  protect : Nat
  wait : Option Wait
  /-- The issuing set of an instruction whose accesses other devices have still to answer (R228, R389), or that is in the
  middle of its spills, restores and page fills (R123, R125, R196): nothing else of the group issues before it completes; 0
  where there is none. -/
  held : Mask := 0
  /-- Parked on a system fault (R394), with the page name where it is XLATE. -/
  parked : Option Nat
  /-- Stopped at a `brk` for a debugger (R405). -/
  debug : Bool
  pending : Tbl Pending
  deriving DecidableEq, Repr

/-! ### A team -/

/-- A region table entry (R220, R224, R235). -/
structure Region where
  space : Nat
  base : Nat
  len : Nat
  ospace : Nat
  obj : Nat
  deriving DecidableEq, Repr

/-- How a Wick context stands (R41, R70). -/
inductive WickSt where
  | run
  | ended
  deriving DecidableEq, Repr

/-- A resident team with its Wick context (R41). -/
structure Team where
  grid : Nat
  /-- The linear index l (R51). -/
  lin : Nat
  wpc : Nat
  wst : WickSt
  sregs : Tbl W64
  /-- s registers that hold the token of unfinished copies (R361). -/
  stok : Tbl Nat
  /-- The entries not yet freed, oldest first, and how many came before them (R69). -/
  dq : List W64
  dqBase : Nat
  dqClosed : Bool
  /-- Children not yet collected (R72). -/
  children : List Nat
  handles : Tbl (BitVec 512)
  /-- Mirrored TABLE handles: the first unit of function-table memory and the bytes (R293). -/
  mirrors : Tbl (Nat × List Byte)
  regions : Tbl Region
  /-- The matrix context held (R255). -/
  mctx : Option Nat
  wait : Option Wait
  parked : Option Nat
  /-- In bytes (R47). -/
  shared : Nat
  /-- Ended with its grid by a fault, DIELOST or a kill (R46, R54); freed once its copies have completed. -/
  killed : Bool
  /-- The record of the fault that has stopped the Wick context, while engine operations of it complete (R46). -/
  stop : Option RecIn := none
  deriving DecidableEq, Repr

/-! ### A grid -/

/-- The kernel header (R47). -/
structure Header where
  wentry : Nat
  gentry : Nat
  shared : Nat
  /-- In cells. -/
  quota : Nat
  trap : Bool
  split : Bool
  coop : Bool
  /-- Teams in a cluster: 1, 2 or 4. -/
  cluster : Nat
  groups : Nat
  spill : Nat
  deriving DecidableEq, Repr

/-- A launch record (R49). -/
structure LaunchRec where
  kernel : Nat
  gx : Nat
  gy : Nat
  gz : Nat
  serial : Bool
  idem : Bool
  done : Nat
  params : List W64
  /-- The launch record number of a host launch (R445). -/
  num : Nat
  deriving DecidableEq, Repr

/-- How far a grid has come (R53 to R57). -/
inductive GridSt where
  /-- Taken, not started. -/
  | waiting
  | running
  /-- Ended by a fault, DIELOST or a kill; retires once its descendants have. -/
  | ending
  | retired
  deriving DecidableEq, Repr

/-- A grid (R8, R53). -/
structure Grid where
  ctx : Nat
  st : GridSt
  header : Header
  launch : LaunchRec
  depth : Nat
  /-- The team number and the grid of the parent (R52). -/
  parent : Option (Nat × Nat)
  /-- The bytes from the kernel header to the end of its buffer, as they stood at launch (R15, R387). -/
  code : List Byte
  /-- The 64-byte lines of the code whose page was not mapped at launch, and that are read once it is. -/
  holes : List Nat
  /-- The lines that failed a check when they were read at launch, with the code and the place of that; their fetch fails so. -/
  bad : Tbl (Nat × Nat) := []
  /-- The units of the code that the grid itself has written since, as they last stood (R15). -/
  newUnits : Tbl W32
  /-- The leader's team-index counter (R58). -/
  counter : Nat
  /-- Ranges granted, by die, as first team and number, of teams not yet placed. -/
  grants : List (Nat × Nat × Nat)
  /-- Teams placed and not ended, by linear index, with the die. -/
  placed : List (Nat × Nat)
  /-- Teams ended. -/
  ended : Nat
  /-- STATUS (R55). -/
  status : Nat
  /-- SEQ of the first error record charged to it. -/
  seq : Nat
  /-- Launched by the host, so that no parent collects it. -/
  host : Bool
  /-- The status has been collected, or has nobody to collect it. -/
  collected : Bool
  deriving DecidableEq, Repr

/-! ### A core -/

/-- A sub-core's scheduler (R77 to R81): slots of the active and pending sets with the cycle they
entered it, the slot that issued last, and the cycle the swap bubble ends. -/
structure SubCore where
  active : Tbl Nat
  pending : Tbl Nat
  last : Option Nat
  bubble : Nat
  deriving DecidableEq, Repr

/-- An interval of a range-lock table entry (R364, R330): space 0 team-shared with the team, 1 scratchpad with the
die, 2 main memory with `context * 65536 + buffer`. -/
structure LockIv where
  space : Nat
  unit : Nat
  lo : Nat
  hi : Nat
  /-- Write-locked, else read-locked. -/
  write : Bool
  deriving DecidableEq, Repr

/-- A range-lock table entry (R198, R364, R330). Entries 0 to 63 are those of copies, 64 to 95 the Lantern's. -/
structure Lock where
  ivs : List LockIv
  /-- The stream slot; for a copy or a demand operation the entry itself. -/
  owner : Nat
  deriving DecidableEq, Repr

/-- One entry of an architected queue (R332). -/
structure QEntry where
  runs : Runs
  /-- LANES. -/
  lanes : Nat
  deriving DecidableEq, Repr

/-- The state of a queue (R332). -/
inductive QueueSt where
  | free
  | opened
  | closed
  deriving DecidableEq, Repr

/-- An architected queue (R332). -/
structure Queue where
  st : QueueSt
  team : Nat
  stream : Nat
  entries : List QEntry
  deriving DecidableEq, Repr

/-- A copy descriptor (R356). -/
structure Desc where
  src : W64
  dst : W64
  xlen : Nat
  ym1 : Nat
  zm1 : Nat
  sys : W64
  szs : W64
  dys : W64
  dzs : W64
  bar : Nat
  mask : Nat
  id : Nat
  sigop : Nat
  baren : Bool
  dspace : Nat
  sspace : Nat
  deriving DecidableEq, Repr

/-- How far a copy has come (R359 to R361). -/
inductive CopySt where
  /-- Collecting slices. -/
  | collecting
  /-- All slices have arrived; not started. -/
  | held
  | running
  deriving DecidableEq, Repr

/-- A copy in flight (R354 to R373), named by its entry of the range-lock table. -/
structure Copy where
  team : Nat
  ctx : Nat
  grid : Nat
  /-- 0 `bcp`, 1 `bcp.mc`, 2 `bcp.v`, 3 `wsig`. -/
  kind : Nat
  /-- Slices it takes. -/
  n : Nat
  /-- Its collecting slot. -/
  id : Nat
  slices : List Desc
  /-- The parties that gave slices, with their token registers. -/
  issuers : List (Party × Nat)
  st : CopySt
  /-- When its last slice arrived, among the copies of the core. -/
  order : Nat
  /-- Receiving teams that accepted: rank and team (R367, R369). -/
  receivers : List (Nat × Nat)
  /-- Blocks moved, and blocks whose data or acknowledgement is under way (R354). -/
  moved : List Nat
  flying : List Nat
  /-- Blocks whose writes a step has divided (R368): by block, its bytes and the units of it still to be written, numbered
  receiver by receiver. -/
  part : Tbl (List Byte × List Nat) := []
  /-- BYTES written so far. -/
  bytes : Nat
  /-- Ranks that refused (R367). -/
  refuse : Nat
  /-- STATUS of what stopped it, or 0 (R362). -/
  status : Nat
  /-- It has emitted the record of a failure, of which it gives one (R373). -/
  failed : Bool
  /-- Its start has been held (R365). -/
  wasHeld : Bool
  seq : Nat
  /-- The signal of a `wsig`: space, address, value, and whether it has been written (R370). -/
  signal : Option (Nat × W64 × W64 × Bool)
  version : Nat
  deriving DecidableEq, Repr

/-- The state of a stream (R328, R336). -/
inductive StreamSt where
  | running
  | done
  | overflow
  | stopped
  | faulted
  deriving DecidableEq, Repr

/-- A Lantern stream (R328). -/
structure Stream where
  team : Nat
  ctx : Nat
  id : Nat
  st : StreamSt
  /-- The units of its code, after the stream header. -/
  code : List W32
  pc : Nat
  xs : Tbl W64
  /-- Loops entered: first unit, end unit, times left (R347). -/
  loops : List (Nat × Nat × Nat)
  /-- Walk positions of `sdct` by handle: the tile and the row in it (R328, R341). -/
  walks : Tbl (Nat × Nat)
  drops : Nat
  qmask : Nat
  /-- Lock descriptors with a length: space, base, bytes, and whether the stream writes (R329, R330). -/
  locks : List (Nat × Nat × Nat × Bool)
  /-- SEQ of the record of the fault that ended it. -/
  seq : Nat
  /-- `lstop` has asked it to stop at its next boundary (R350). -/
  stopReq : Bool
  /-- The party whose `lrun` started it. -/
  issuer : Party := (9, 0)
  deriving DecidableEq, Repr

/-- A row queued to the matrix array (R258, R259), with its elements as exact values in order of k. -/
structure MatRow where
  /-- The accumulator block and row it adds into. -/
  acc : Nat
  row : Nat
  elems : List FV
  afmt : Nat
  half : Nat
  /-- It comes from a tile. -/
  tile : Bool
  /-- It comes from a JOINED pair's `mma.g`. -/
  pair : Bool
  /-- The pending result of `mma.v` it delivers to: group, pending id, first register, OFMT. -/
  deliver : Option (Nat × Nat × Nat × Nat)
  /-- The group that issued it, and the cycle in which it arrives at the array (R259). -/
  issuer : Nat
  arrive : Nat
  deriving DecidableEq, Repr

/-- A weight plane (R256): the exact values of each column in order of k; what is absent is +0. -/
structure Plane where
  fmt : Nat
  split : Bool
  cols : List (List FV)
  deriving DecidableEq, Repr

/-- A matrix context (R255). -/
structure MatCtx where
  owner : Option Nat
  clearing : Bool
  /-- The 8,192 bytes of each tile; absent is zero. -/
  tiles : Tbl (List Byte)
  active : Plane
  shadow : Plane
  /-- The accumulator rows by block * 64 + row, 128 words each; absent is +0. -/
  acc : Tbl (List W32)
  queue : List MatRow
  /-- An `mwl` under way, with the plane it will leave (R268). -/
  load : Option Plane
  deriving DecidableEq, Repr

/-- A 64-byte line of main memory in a core's footprint cache or staging buffers (R218). -/
structure FcLine where
  ctx : Nat
  buf : Nat
  line : Nat
  /-- Where it lies behind the port. -/
  key : Nat
  bytes : List Byte
  deriving DecidableEq, Repr

/-- A tile move or resolve that holds its lock entry until it completes (R276, R323), named by that entry. -/
structure DemandOp where
  team : Nat
  /-- 0 `tld`, 1 `tst`, 2 `splres`. -/
  kind : Nat
  /-- The tile a move reads or writes. -/
  tile : Nat
  issuer : Party
  /-- The number of the register that receives a token, with the record it will receive. -/
  token : Option (Nat × W64)
  /-- The two handles of a resolve whose accesses are still being made (R323). -/
  open_ : Option (BitVec 512 × BitVec 512) := none
  deriving DecidableEq, Repr

/-- The kinds of demand request that a core's path can hold (R312). -/
inductive DemandKind where
  | cld (order : Nat) (grad : Bool)
  | cldi
  | cfind
  | cins
  | spl (order : Nat)
  deriving DecidableEq, Repr

/-- A demand request that has issued and is not yet performed (R295, R312), with its operands as they stood at issue. -/
structure DemandReq where
  grp : Nat
  /-- The pending result of the group that it delivers or completes. -/
  id : Nat
  act : Mask
  pc : Nat
  kind : DemandKind
  /-- The handle register taken, and its image. -/
  num : Nat
  img : BitVec 512
  /-- The coordinates or indices of each piece, by its first lane. -/
  coords : List (Nat × List W32)
  /-- The values a splat adds, by lane. -/
  vals : List (Nat × List W32)
  dst : Nat
  pred : Option Nat
  /-- VERSION of the operation, once it has begun (R372). -/
  version : Option Nat := none
  deriving DecidableEq, Repr

/-- A core (R6). -/
structure Core where
  subs : List SubCore
  queues : List Queue
  locks : Tbl Lock
  copies : Tbl Copy
  copyOrder : Nat
  /-- The copy whose turn was last (R354). -/
  copyTurn : Nat
  streams : Tbl Stream
  streamId : Nat
  /-- The stream slot whose turn was last (R327). -/
  streamTurn : Nat
  mats : List MatCtx
  /-- The matrix context whose pass started last (R258). -/
  passTurn : Nat := 1
  /-- Its physical number on its die (R7). -/
  phys : Nat
  /-- Logical row to physical row (R250). -/
  rowMap : List Nat
  /-- The Wick context that issued last (R42). -/
  wickLast : Nat
  /-- The cycle at which the arithmetic-cycle counter was 0 (R75). -/
  clkBase : Nat
  fcache : List FcLine
  /-- Resident spill pages, most recently used first: group and page (R196). -/
  spillPages : List (Nat × Nat)
  /-- Pages that an access waits for, and pages that stand in the backing area: written back since their frames were
  reserved (R196). -/
  spillWait : List (Nat × Nat) := []
  spillBacked : List (Nat × Nat) := []
  /-- When the last `errw` record was emitted (R409). -/
  errwLast : Option Nat
  /-- Teams waiting for a matrix context, in order (R274). -/
  mctxWait : List Nat
  /-- Demand operations under way. -/
  demands : Tbl DemandOp
  /-- Parties that wait for Lantern entries of the range-lock table, in order, with the lanes that wait (R331). -/
  entryWait : List (Party × Mask)
  /-- Demand requests that have issued and are not performed, in the order they arrived (R295). -/
  path : List DemandReq := []
  /-- The core's cache of 512 translations, most recently used first: the page name, and the page-map entry that mapped the
  page when it was read (R395). -/
  tcache : List (Nat × W64) := []
  deriving DecidableEq, Repr

/-! ### Dies, contexts and the device -/

/-- A sensor (R464). -/
structure Sensor where
  reading : BitVec 16
  state : Nat
  warn : BitVec 16
  throttle : BitVec 16
  trip : BitVec 16
  /-- When its last PROCAGE record was emitted (R465). -/
  aged : Option Nat
  deriving DecidableEq, Repr

/-- A fault-buffer entry (R396). -/
structure FaultEntry where
  /-- Its place among the 4,096 of its die. -/
  index : Nat
  page : W64
  kind : Nat
  first : Nat
  time : Nat
  seq : Nat
  /-- The parties whose accesses are parked on it, in order. -/
  parked : List Party
  deriving DecidableEq, Repr

/-- A die (R454, R464, R465). -/
structure Die where
  up : Bool
  faults : List FaultEntry
  /-- While a RESETDIE has not returned it to S2, and when it began (R463). -/
  resetting : Bool
  resetAt : Nat
  /-- It stays lost until the next device reset (R463). -/
  gone : Bool
  /-- Clock steps taken off, and the stretch flag (R465). -/
  steps : Nat
  /-- Steps that process monitors have taken off until the next reset. -/
  agedSteps : Nat
  stretch : Bool
  sensors : Tbl Sensor
  deriving DecidableEq, Repr

/-- The state of a context (R397). -/
inductive CtxSt where
  | running
  | frozen
  | saved
  | ended
  deriving DecidableEq, Repr

/-- A context (R12, R397, R432, R444). -/
structure Ctx where
  st : CtxSt
  /-- Buffer-table entries (R419). -/
  bufs : Tbl (BitVec 256)
  /-- Data and MAC keys (R432). -/
  kd : BitVec 128
  km : BitVec 128
  /-- The integrity root register: the counters of the first level that is not stored; absent is 0 (R433). -/
  root : Tbl Nat
  dframe : Nat
  stripe : Nat
  cgroup : Nat
  nslot : Nat
  created : Bool
  /-- Records taken (R445), and the one that has been taken and is not started, as its kernel header or its code is still
  being read. -/
  consumed : Nat
  taking : Option LaunchRec := none
  /-- A pre-emption or freeze request is pending (R408). -/
  request : Bool
  alarmFrozen : Bool
  /-- When the request was made and when the quiesce ended: timestamp, and cycles at its end (R398, R402). -/
  reqAt : Nat
  quietTs : Nat
  quietAt : Nat
  /-- The `csave` under way has frozen it, and unfreezes it if it fails (R410). -/
  thaw : Bool
  /-- Parties with a `csave`, `crest` or `halt` on it, in order (R397). -/
  ops : List Party
  debugger : Bool
  /-- Grids taken and not started, in launch order (R53). -/
  queue : List Nat
  deriving DecidableEq, Repr

/-- A decoder of the host's window (R440). -/
structure Hdm where
  base : W64
  size : W64
  target : W64
  deriving DecidableEq, Repr

/-- A flit that has been sent and is not acknowledged (R447): its number, its bytes, and how often it has been replayed. -/
structure Flit where
  seq : Nat
  bytes : List Byte
  replays : Nat
  deriving DecidableEq, Repr

/-- A VFL port, or an end of a die-to-die link (R446, R447, R454). Ports 0 to 35 are the VFL ports; port 64 + 8 d + p is the
end on die d of its link to die p (log entry 33). -/
structure VPort where
  up : Bool
  lanes : Nat
  /-- Next sequence number to send, and to receive. -/
  txSeq : Nat
  rxSeq : Nat
  /-- Flits not yet acknowledged, oldest first. -/
  unacked : List Flit
  /-- The packets that end in those flits, with the flit's number; and the packets that have still to be put into flits, with
  how many bytes of the first of them have been (R448). -/
  packets : List (Nat × List Byte) := []
  waiting : List (List Byte) := []
  cut : Nat := 0
  /-- The bytes of a packet that has not arrived whole. -/
  part : List Byte := []
  /-- A NAK is to be sent. -/
  nak : Bool := false
  /-- Receive buffers freed since the last flit sent, and the sum of CREDIT received. -/
  freed : Nat := 0
  credits : Nat := 0
  /-- The flits put on the wire in this turn. -/
  wire : List (List Byte) := []
  /-- When it went down. -/
  downAt : Nat := 0
  /-- Flits replayed since the last LINKCE record. -/
  since : Nat
  deriving DecidableEq, Repr

/-- A transaction that awaits its response (R448, R453), named by its TXID. -/
structure Txn where
  /-- OP of the request. -/
  op : Nat
  dev : Nat
  party : Party
  tag : Nat
  ptr : W64
  n : Nat
  /-- When it was sent, in timestamp ticks. -/
  sent : Nat
  version : Nat
  /-- The context whose buffer table it was checked under. -/
  ctx : Nat := 0
  deriving DecidableEq, Repr

/-- An error record: eight 64-bit words (R470). -/
abbrev ErrRec := List W64

/-- An entry of the attestation log (R467). -/
structure AttEntry where
  /-- The context and the buffer of a seal; 127 and 0 for the firmware. -/
  ctx : Nat
  buf : Nat
  digest : BitVec 256
  deriving DecidableEq, Repr

/-- A counter block in a port's counter cache (R434): its context, level and number, the 56 bytes of its counters, and
whether memory has still to receive it. -/
structure CtrBlock where
  ctx : Nat
  level : Nat
  block : Nat
  bytes : List Byte
  dirty : Bool
  deriving DecidableEq, Repr

/-- The start-up stage (R456, R457). -/
inductive Stage where
  | off
  | s0
  | s1
  | s2
  | s3
  | failed
  deriving DecidableEq, Repr

/-- A saved context (R399): the records of its image, and what the device's own bodies stand for (log entry 7). Teams, groups,
streams, queues and copies keep the numbers of the places they left. -/
structure Image where
  ctx : Nat
  /-- TYPE, OWNER, SUB and body. -/
  records : List (Nat × Nat × Nat × List Byte)
  groups : Tbl Group
  teams : Tbl Team
  grids : Tbl Grid
  queue : List Nat
  /-- By team. -/
  mats : Tbl MatCtx
  /-- By core * 8 + slot, and core * 8 + queue. -/
  streams : Tbl Stream
  queues : Tbl Queue
  /-- By core * 64 + entry: the collecting copies. -/
  copies : Tbl Copy
  /-- The spill stack of each group, which stays in the backing area (R400). -/
  spill : Tbl Memory
  /-- The cycle at which the context was quiet. -/
  time : Nat
  deriving DecidableEq, Repr

/-- The return code of a mailbox command (R468, R469). -/
inductive MailCode where
  | success
  | unsupported
  | invalidInput
  /-- The image fails R460. -/
  | fail
  | retireFull
  deriving DecidableEq, Repr

/-- A reply of the mailbox. -/
structure MailReply where
  code : MailCode
  data : List Byte
  deriving DecidableEq, Repr

/-- Who acts at a step. -/
inductive Act where
  /-- A sub-core issues (R79). -/
  | sub (core sub : Nat)
  /-- A core's Wick issues (R42). -/
  | wick (core : Nat)
  /-- An event happens. -/
  | event (i : Instr)
  deriving DecidableEq, Repr, Inhabited

/-- One entry of the schedule: the cycles and timestamp ticks that pass before the step, who acts, and where the step divides
the accesses of the operation that moves in it. -/
structure Turn where
  cycles : Nat
  ticks : Nat
  act : Act
  split : Option Nat := none
  deriving DecidableEq, Repr, Inhabited

/-- Free value (log entry 9): the n-th turn that no schedule fixes. -/
opaque freeTurn (n : Nat) : Turn

/-- The party that issues the current instruction. -/
inductive Issuer where
  | none
  | group (g : Nat)
  | wick (t : Nat)
  | stream (core slot : Nat)
  deriving DecidableEq, Repr

/-- The current issue: what fetch and selection found (R84, R390). -/
structure Cur where
  by_ : Issuer
  /-- The candidate's place in the group. -/
  cand : Nat
  /-- The issuing set X (R84). -/
  lanes : Mask
  pc : Nat
  /-- Length in units. -/
  len : Nat
  u0 : W32
  u1 : W32
  u2 : W32
  /-- The instruction has to wait; nothing else of it has happened. -/
  stalled : Bool
  deriving DecidableEq, Repr

/-- Why a step stops. -/
inductive Fault where
  /-- Raised by a meaning when `State.cur` names no resident party of the kind that issues the
  instruction; no step sets `cur` so. Safe: the machine stops where the hardware has no such case. -/
  | noIssuer
  deriving DecidableEq, Repr

/-- Why an instruction has no meaning. -/
inductive Refusal where
  /-- Raised by an arm of `exec` whose meaning is not written. Safe. -/
  | notModelled (mnemonic : String)
  deriving DecidableEq, Repr

/-- The device. -/
structure State where
  cur : Cur
  /-- MODEL (log entry 9): who acts at the coming steps; past its end the turns are free. -/
  schedule : List Turn
  /-- MODEL: cycles since power-on, of which every counter and timer is read. -/
  now : Nat
  /-- The 1 GHz timestamp (R75). -/
  ts : Nat
  mem : Memory
  groups : Tbl Group
  teams : Tbl Team
  grids : Tbl Grid
  nextGrid : Nat
  cores : Tbl Core
  dies : Tbl Die
  ctxs : Tbl Ctx
  images : List Image
  stage : Stage
  bootErr : Nat
  lastRst : Nat
  /-- After a thermal trip stage S0 waits until every temperature sensor is below WARN (R462). -/
  tripped : Bool
  /-- The sensors it waits for: 72 times the die, plus the number. -/
  hot : List Nat := []
  alarmLvl : Nat
  fwValid : Bool
  memActive : Bool
  bootLog : List W64
  errLog : List ErrRec
  nextSeq : Nat
  suppressed : Nat
  alarmCfg : Nat
  attLog : List AttEntry
  fwStore : List Byte
  fwNew : List Byte
  fwRunning : List Byte
  keyHash : BitVec 256
  minVersion : Nat
  /-- Retired channels, fused, and the channels left untrained at the last stage S1 (R427, R456). -/
  retired : List Nat
  /-- The channels that were retired when this start began (R427, R469). -/
  startRetired : List Nat := []
  untrained : List Nat
  hdms : List Hdm
  cxlLanes : Nat
  ports : Tbl VPort
  devId : Nat
  txns : Tbl Txn
  nextTx : Nat
  replies : List Reply
  /-- Packets sent to other devices, oldest first; packets of other devices that have arrived and are not performed (R451). -/
  outbox : List Packet
  inbox : List Packet := []
  versions : Tbl Nat
  /-- Poisoned granules (R430), and granules with an uncorrectable or correctable error (R429). -/
  poison : List Nat
  badUE : List Nat
  badCE : List Nat
  /-- Channels that have failed since the last start (R427). -/
  failed : List Nat
  /-- Lines of the port caches that HBM has still to receive, most recently written first, by memory key / 64 (R5, R463). -/
  dirty : List Nat
  /-- The counter blocks in the ports' counter caches, most recently used first (R434). -/
  counters : List CtrBlock
  /-- Parties with a parked access, in the order it was parked, and whether it has been freed to be issued again (R396). -/
  replay : List (Party × Bool)
  /-- The last reply of the mailbox (R468). -/
  mailReply : MailReply
  /-- The context whose CTXDESTROY is under way, which keeps other commands waiting (R468). -/
  mailBusy : Option Nat := none
  /-- The data of the last read by the host or the management controller, and whether it carries poison (R441). -/
  hostReply : List Byte
  hostPoison : Bool
  /-- MODEL (log entry 5): how many free values have been taken. -/
  draws : Nat
  /-- MODEL (log entry 20): where a step divides the accesses of the operation that moves in it, so that other parties' accesses
  come between: a demand path performs so many of them, and a copied block the units of these bits; none where it is not divided. -/
  split : Option Nat := none
  deriving DecidableEq, Repr

/-- A plane of BF16 zeros (R255). -/
def Plane.fresh : Plane := { fmt := 0, split := false, cols := [] }

/-- A free matrix context (R255). -/
def MatCtx.fresh : MatCtx :=
  { owner := none, clearing := false, tiles := [], active := .fresh, shadow := .fresh, acc := [], queue := []
    load := none }

/-- A core before anything runs on it; a core that no entry names is this. No Wick context has issued, and context 0 stands as the
one that issued last (log entry 43). -/
def Core.fresh : Core :=
  { subs := List.replicate 4 { active := [], pending := [], last := none, bubble := 0 }
    queues := List.replicate 8 { st := .free, team := 0, stream := 0, entries := [] }
    locks := [], copies := [], copyOrder := 0, streams := [], streamId := 1
    copyTurn := 63, streamTurn := 7, mats := [.fresh, .fresh], phys := 0, rowMap := List.range 64, wickLast := 0, clkBase := 0, fcache := []
    spillPages := [], errwLast := none, mctxWait := [], demands := [], entryWait := [] }

/-- A die before start-up; a die that no entry names is this. -/
def Die.fresh : Die := 
  { up := false, faults := [], resetting := false, resetAt := 0, gone := false, steps := 0, agedSteps := 0, stretch := false
    sensors := [] }

/-- A context that has never been created; a context that no entry names is this. -/
def Ctx.fresh : Ctx :=
  { st := .ended, bufs := [], kd := 0, km := 0, root := [], dframe := 0, stripe := 0
    cgroup := 0, nslot := 0, created := false, consumed := 0, request := false
    alarmFrozen := false, reqAt := 0, quietTs := 0, quietAt := 0, thaw := false, ops := [], debugger := false, queue := [] }

/-- A port that has not trained; a port that no entry names is this. -/
def VPort.fresh : VPort := { up := false, lanes := 0, txSeq := 0, rxSeq := 0, unacked := [], since := 0 }

/-- No party issues. -/
def Cur.idle : Cur :=
  { by_ := .none, cand := 0, lanes := 0, pc := 0, len := 0, u0 := 0, u1 := 0, u2 := 0, stalled := false }

/-- The device right after power-on (R462): the values the spec gives for reset, and those of log entry 3. -/
def State.reset : State :=
  { cur := .idle, schedule := [], now := 0, ts := 0, mem := [], groups := [], teams := [], grids := []
    nextGrid := 1, cores := [], dies := [], ctxs := [], images := [], stage := .s0, bootErr := 0, lastRst := 1, tripped := false
    alarmLvl := 0, fwValid := false, memActive := false, bootLog := [], errLog := [], nextSeq := 1
    suppressed := 0, alarmCfg := 0xAF, attLog := [], fwStore := [], fwNew := [], fwRunning := []
    keyHash := 0, minVersion := 0, retired := [], untrained := [], hdms := List.replicate 4 { base := 0, size := 0, target := 0 }
    cxlLanes := 16, ports := [], devId := 0, txns := [], nextTx := 0, replies := [], outbox := [], versions := [], poison := []
    badUE := [], badCE := [], failed := [], dirty := [], counters := [], replay := [], mailReply := { code := .success, data := [] }, hostReply := [], hostPoison := false, draws := 0 }

end Sys2Proof.Machine
end

