-- ==== Sys2Proof/Machine/Runs.lean ====
section
/-! DEFINITION. Run lists: reading one lane, forming the run list of a result (R117 to R120), its
cost (R115), and the image of a spilled register (R124). -/

namespace Sys2Proof.Machine

/-- The run that covers a lane, and whether it begins there. -/
def Runs.find : Runs → Nat → Option (Run × Bool)
  | [], _ => none
  | r :: t, l => if l < r.cnt then some (r, l == 0) else Runs.find t (l - r.cnt)

/-- The value a lane holds (R112). -/
def Runs.val (rs : Runs) (l : Nat) : W32 :=
  match Runs.find rs l with
  | some (r, _) => r.val
  | none => 0

/-- Whether a run begins at a lane. -/
def Runs.starts (rs : Runs) (l : Nat) : Bool :=
  match Runs.find rs l with
  | some (_, b) => b
  | none => false

/-- Whether a run with its SPLICE bit set begins at a lane. -/
def Runs.spliced (rs : Runs) (l : Nat) : Bool :=
  match Runs.find rs l with
  | some (r, b) => b && r.splice
  | none => false

/-- A uniform register. -/
def Runs.const (v : W32) : Runs := [{ val := v, cnt := 32, splice := false }]

/-- The cells a run list costs (R115). -/
def Runs.cells (rs : Runs) : Nat := if rs.length ≤ 1 then 0 else rs.length

/-- SPL: the runs whose splice bit is set (R113). -/
def Runs.spl (rs : Runs) : Nat := (rs.filter (·.splice)).length

/-- The number of lanes a run list covers. -/
def Runs.total : Runs → Nat
  | [] => 0
  | r :: t => r.cnt + Runs.total t

/-- The invariant of R112. -/
def Runs.wf (rs : Runs) : Bool := Runs.total rs == 32 && rs.all fun r => decide (1 ≤ r.cnt)

/-- The pieces of a result for the lanes from `l` on (R117, R118): at each lane where a piece of the
active set begins, its value; elsewhere nothing. A piece begins at the lower edge of an interval of `A`
and where `cut` says; with `merge` a piece equal to the one before it in the interval joins it. -/
def pieceList (A : Mask) (cut : Nat → Bool) (merge : Bool) (op : Nat → W64) : Nat → Nat → W64 → List (Option W64)
  | 0, _, _ => []
  | n + 1, l, prev =>
    let edge := l == 0 || !A.getLsbD (l - 1)
    if A.getLsbD l && (edge || cut l) then
      let v := op l
      if merge && !edge && v == prev then none :: pieceList A cut merge op n (l + 1) prev
      else some v :: pieceList A cut merge op n (l + 1) v
    else none :: pieceList A cut merge op n (l + 1) prev

/-- The pieces over all 32 lanes. -/
def pieces (A : Mask) (cut : Nat → Bool) (merge : Bool) (op : Nat → W64) : List (Option W64) :=
  pieceList A cut merge op 32 0 0

/-- For each lane from `l` on, the run that begins there: a piece inside `A`; outside, a kept run of the
old list, cut at the edges of `A`. The flag is the SPLICE bit (R119). -/
def spliceList (A : Mask) (old : Runs) (proj : W64 → W32) : List (Option W64) → Nat → List (Option (W32 × Bool))
  | [], _ => []
  | p :: ps, l =>
    let edge := l != 0 && (A.getLsbD l != A.getLsbD (l - 1))
    (if A.getLsbD l then p.map fun v => (proj v, edge)
      else if l == 0 || edge || Runs.starts old l then some (Runs.val old l, edge || Runs.spliced old l)
      else none) :: spliceList A old proj ps (l + 1)

/-- The run list of run beginnings: the lanes without one belong to the run before them. -/
def collapse (ds : List (Option (W32 × Bool))) : Nat × Runs :=
  ds.foldr (fun d acc =>
    match d with
    | none => (acc.1 + 1, acc.2)
    | some (v, s) => (0, { val := v, cnt := acc.1 + 1, splice := s } :: acc.2)) (0, [])

/-- Splice(old, pieces): the new run list of a register (R117). -/
def spliceRuns (A : Mask) (old : Runs) (proj : W64 → W32) (ps : List (Option W64)) : Runs :=
  (collapse (spliceList A old proj ps 0)).2

/-- Every pair of adjacent equal runs merged, and every SPLICE bit cleared (R146). -/
def mergeRuns : Runs → Runs
  | [] => []
  | r :: t =>
    match mergeRuns t with
    | [] => [{ r with splice := false }]
    | q :: u => if r.val = q.val then { val := r.val, cnt := r.cnt + q.cnt, splice := false } :: u
      else { r with splice := false } :: q :: u

/-- The five bytes of a padded run cell (R114, R124). -/
def cellBytes (r : Run) : List Byte :=
  toBytes (r.val.toNat + (r.cnt - 1) * 2 ^ 32 + (if r.splice then 2 ^ 37 else 0)) 5

/-- The bytes of a spill image: the header word, the cells, and zeros up to a multiple of 16 (R124). -/
def spillImage (off : Nat) (rs : Runs) : List Byte :=
  let body := toBytes (2 ^ 63 + (rs.length - 1) * 2 ^ 58 + Runs.spl rs * 2 ^ 53 + off / 16) 8 ++ rs.flatMap cellBytes
  body ++ List.replicate ((16 - body.length % 16) % 16) 0

/-- The size of the image of n runs (R124). -/
def imageSize (n : Nat) : Nat := (8 + 5 * n + 15) / 16 * 16

/-- The run that five bytes stand for. -/
def cellOf (bs : List Byte) : Run :=
  let w := ofBytes (bs.take 5)
  { val := BitVec.ofNat 32 w, cnt := w / 2 ^ 32 % 32 + 1, splice := w / 2 ^ 37 % 2 == 1 }

/-- The n runs after the header word of an image. -/
def cellsOf : Nat → List Byte → Runs
  | 0, _ => []
  | n + 1, bs => cellOf bs :: cellsOf n (bs.drop 5)

end Sys2Proof.Machine
end

