-- ==== Sys2Proof/Machine/Ops.lean ====
section
/-! DEFINITION. The named operations over registers, groups and teams: reading and writing registers
with the quota and spill rules, taking a trap and returning from one, ending grids, and the frame in
which every group and Wick instruction issues. -/

namespace Sys2Proof.Machine

/-! ### Parts of the device -/

/-- A core. -/
def State.core (s : State) (c : Nat) : Core := Tbl.get s.cores c Core.fresh
/-- A core changed. -/
def State.updCore (s : State) (c : Nat) (f : Core → Core) : State :=
  { s with cores := Tbl.set s.cores c (f (s.core c)) }
/-- A die. -/
def State.die (s : State) (d : Nat) : Die := Tbl.get s.dies d Die.fresh
/-- A die changed. -/
def State.updDie (s : State) (d : Nat) (f : Die → Die) : State :=
  { s with dies := Tbl.set s.dies d (f (s.die d)) }
/-- A context. -/
def State.ctx (s : State) (c : Nat) : Ctx := Tbl.get s.ctxs c Ctx.fresh
/-- A context changed. -/
def State.updCtx (s : State) (c : Nat) (f : Ctx → Ctx) : State :=
  { s with ctxs := Tbl.set s.ctxs c (f (s.ctx c)) }
/-- A resident group changed. -/
def State.updGroup (s : State) (g : Nat) (f : Group → Group) : State :=
  { s with groups := Tbl.upd s.groups g f }
/-- A resident team changed. -/
def State.updTeam (s : State) (t : Nat) (f : Team → Team) : State :=
  { s with teams := Tbl.upd s.teams t f }
/-- A grid changed. -/
def State.updGrid (s : State) (n : Nat) (f : Grid → Grid) : State :=
  { s with grids := Tbl.upd s.grids n f }

/-- The i-th element of a list replaced. -/
def setAt {α : Type} : List α → Nat → α → List α
  | [], _, _ => []
  | _ :: t, 0, a => a :: t
  | b :: t, i + 1, a => b :: setAt t i a

/-- The i-th element of a list changed. -/
def updAt {α : Type} (l : List α) (i : Nat) (f : α → α) : List α :=
  match l[i]? with
  | some a => setAt l i (f a)
  | none => l

/-- A sub-core of a core changed. -/
def State.updSub (s : State) (c b : Nat) (f : SubCore → SubCore) : State :=
  s.updCore c fun k => { k with subs := updAt k.subs b f }

/-- The team of a group. -/
def State.teamOf (s : State) (g : Group) : Option Team := Tbl.get? s.teams g.team
/-- The grid of a team. -/
def State.gridOf (s : State) (t : Team) : Option Grid := Tbl.get? s.grids t.grid
/-- The context number of a team's grid. -/
def State.ctxOfTeam (s : State) (t : Nat) : Nat :=
  match Tbl.get? s.teams t with
  | some tm => match Tbl.get? s.grids tm.grid with
    | some g => g.ctx
    | none => 0
  | none => 0
/-- The header of a team's grid, where both exist. -/
def State.headerOf (s : State) (t : Nat) : Option Header :=
  match Tbl.get? s.teams t with
  | some tm => (Tbl.get? s.grids tm.grid).map (·.header)
  | none => none
/-- The groups of a team, by slot. -/
def State.groupsOf (s : State) (t : Nat) : Tbl Group := Tbl.keep s.groups fun _ g => g.team == t
/-- The slot of the group of a team that has an index. -/
def State.groupAt (s : State) (t idx : Nat) : Option Nat := Tbl.findKey s.groups fun _ g => g.team == t && g.idx == idx

/-- The answers of remote devices to a party's finished operation forgotten. -/
def State.dropReplies (s : State) (p : Party) : State := { s with replies := s.replies.filter fun r => r.party != p }

/-- An issue of a party for some lanes of it waits for Lantern entries no longer (R331). -/
def State.leaveEntryWait (s : State) (core : Nat) (p : Party) (x : Mask) : State :=
  s.updCore core fun k => { k with entryWait := k.entryWait.filter fun e => e.1 != p || (p.1 == 0 && e.2 &&& x == 0) }

/-- Answers of remote devices to some parties that are gone reach nobody. -/
def State.forget (s : State) (p : Party → Bool) : State :=
  { s with
    txns := Tbl.mapVal s.txns fun _ t => if p t.party then { t with party := (9, 0) } else t
    replies := s.replies.filter fun r => !p r.party
    replay := s.replay.filter fun q => !p q.1
    dies := Tbl.mapVal s.dies fun _ d => { d with faults := d.faults.map fun f => { f with parked := f.parked.filter fun q => !p q } } }

/-- The next free value (log entry 5). -/
def State.draw (s : State) : W64 × State := (Config.freeWord s.draws, { s with draws := s.draws + 1 })

/-! ### Error records (R470 to R473) -/

/-- ENGINE of a record: die, logical core, unit and number (R396, R471). -/
def engineOf (die core unit inst : Nat) : Nat := die * 2 ^ 37 + core * 2 ^ 31 + unit * 2 ^ 27 + inst

/-- ENGINE of a unit of a core of the device. -/
def coreEngine (c unit inst : Nat) : Nat := engineOf (dieOfCore c) (c % Config.coresPerDie) unit inst

/-- The eight words of a record. -/
def RecIn.words (r : RecIn) (seq time : Nat) : ErrRec :=
  [ r.code * 2 ^ 48 + r.cls * 2 ^ 40 + r.sev * 2 ^ 36 + r.recov * 2 ^ 32 + seq
  , time
  , r.akind * 2 ^ 62 + r.engine
  , r.ctx * 2 ^ 57 + r.grid * 2 ^ 32 + r.team
  , r.iaddr * 2 ^ 32 + r.group * 2 ^ 8 + r.lane
  , r.addr
  , r.place
  , r.detail ].map (BitVec.ofNat 64)

/-- Whether a record of the same CODE and ENGINE was logged less than 1 ms ago (R472). -/
def recentRecord (log : List ErrRec) (code engine now : Nat) : Bool :=
  log.any fun r =>
    match r with
    | w0 :: w1 :: w2 :: _ => w0.toNat / 2 ^ 48 == code && bits w2.toNat 0 40 == engine && decide (w1.toNat ≤ now) && decide (now < w1.toNat + 1000000)
    | _ => false

/-- SEQ after a number, skipping 0 (R472). -/
def seqAfter (n : Nat) : Nat := if n + 1 < 2 ^ 32 then n + 1 else 1

/-- A record charged to the grid it names: the first one gives the grid's SEQ (R55; log entry 48). -/
def chargeGrid (grids : Tbl Grid) (n seq : Nat) : Tbl Grid :=
  if n = 0 then grids else Tbl.upd grids n fun g => if g.seq = 0 && g.st != .retired then { g with seq := seq } else g

/-- Record words appended to the log of 65,536 entries under the next SEQ (R472). -/
def appendRec (s : State) (words : Nat → ErrRec) : State :=
  let log := s.errLog ++ [words s.nextSeq]
  { s with errLog := if 65536 < log.length then log.drop 1 else log, nextSeq := seqAfter s.nextSeq }

/-- Appends a record to the device log, or suppresses it; the number is its SEQ, 0 where suppressed. A record that suppression could drop
(SEV 0, R472) is charged to no grid (log entry 48). -/
def logRecord (s : State) (r : RecIn) (never : Bool) : State × Nat :=
  if r.sev == 0 && !never && recentRecord s.errLog r.code r.engine s.ts then
    ({ s with suppressed := s.suppressed + 1 }, 0)
  else
    ({ appendRec s (fun n => r.words n s.ts) with
       grids := if r.sev == 0 && !never then s.grids else chargeGrid s.grids r.grid s.nextSeq }, s.nextSeq)

/-! ### Causes -/

namespace Cause
/-- UNDEF (R36). -/
def undef : Cause := { code := 0x0101 }
/-- PAIRBANK, with the bank (R31). -/
def pairBank (bank : Nat) : Cause := { code := 0x0102, detail := bank }
/-- LATCHLOST, with the latch (R25). -/
def latchLost (n : Nat) : Cause := { code := 0x0103, detail := n }
/-- RUNOVF, with the detail word of R127. -/
def runOvf (detail : Nat) : Cause := { code := 0x0104, detail := detail }
/-- ALIGN of an access: the lane, its address and the space of the record. -/
def align (lane addr space : Nat) : Cause :=
  { code := 0x0105, detail := lane * 256, addr := addr, akind := 2, space := space, lane := lane }
/-- ALIGN of a main-memory pointer. -/
def alignMM (lane addr : Nat) : Cause := { code := 0x0105, detail := lane * 256, addr := addr, akind := 1, lane := lane }
/-- BOUNDS with a reason other than ADDR (R391). -/
def bounds (reason lane : Nat) : Cause := { code := 0x0106, detail := lane * 256 + reason, lane := lane }
/-- BOUNDS with reason ADDR of an on-chip access. -/
def boundsAddr (lane addr space : Nat) : Cause :=
  { code := 0x0106, detail := lane * 256 + 0x17, addr := addr, akind := 2, space := space, lane := lane }
/-- BOUNDS with reason ADDR of a main-memory pointer or page name. -/
def boundsMM (lane addr : Nat) : Cause :=
  { code := 0x0106, detail := lane * 256 + 0x17, addr := addr, akind := 1, lane := lane }
/-- RANGELOCK, with the table entry (R198). -/
def rangeLock (lane entry addr space : Nat) : Cause :=
  { code := 0x0107, detail := lane * 256 + entry, addr := addr, akind := 2, space := space, lane := lane }
/-- PAIRTIMEOUT; set when the partner had exited (R390). -/
def pairTimeout (exited : Bool) : Cause := { code := 0x0108, detail := if exited then 1 else 0 }
/-- BREAK. -/
def brk : Cause := { code := 0x0109, after := true }
/-- TRAP with its number. -/
def trap (n : Nat) : Cause := { code := 0x010A, num := n, after := true }
/-- FETCH at a PC (R387). -/
def fetch (pc : Nat) : Cause := { code := 0x010B, addr := pc, akind := 2, space := 3 }
end Cause

/-- BOUNDS reasons (R391). -/
abbrev rNOTCONV : Nat := 0x01
/-- No matrix context. -/
abbrev rNOCTX : Nat := 0x02
/-- Outside a pair. -/
abbrev rNOPAIR : Nat := 0x03
/-- Formats that do not pair. -/
abbrev rFMTPAIR : Nat := 0x04
/-- A half of a full plane. -/
abbrev rHALF : Nat := 0x05
/-- Handle of the wrong type. -/
abbrev rHTYPE : Nat := 0x06
/-- Handle that fails its checks. -/
abbrev rHANDLE : Nat := 0x07
/-- Registers past v1023. -/
abbrev rREGS : Nat := 0x08
/-- Shapes that do not agree. -/
abbrev rSHAPE : Nat := 0x09
/-- An index beyond the array under FAULT edge mode. -/
abbrev rEDGE : Nat := 0x0A
/-- A malformed DCT. -/
abbrev rDCTFMT : Nat := 0x0B
/-- A bad copy descriptor. -/
abbrev rDESC : Nat := 0x0C
/-- Slices that do not agree. -/
abbrev rSLICE : Nat := 0x0D
/-- A bad multicast mask. -/
abbrev rMCMASK : Nat := 0x0E
/-- A barrier already armed. -/
abbrev rBARARMED : Nat := 0x0F
/-- A barrier count out of range. -/
abbrev rBARCNT : Nat := 0x10
/-- A barrier in the wrong state. -/
abbrev rBARSTATE : Nat := 0x11
/-- A queue too short. -/
abbrev rQSHORT : Nat := 0x12
/-- A queue of another owner. -/
abbrev rQOWN : Nat := 0x13
/-- A queue in the wrong state. -/
abbrev rQSTATE : Nat := 0x14
/-- A region not bound. -/
abbrev rNOBIND : Nat := 0x15
/-- A reserved format. -/
abbrev rFMT : Nat := 0x16
/-- An address outside its space. -/
abbrev rADDR : Nat := 0x17
/-- A `pair` that R108 refuses. -/
abbrev rPAIRIDS : Nat := 0x18
/-- An operand outside its range. -/
abbrev rARG : Nat := 0x19
/-- `eret` outside a handler. -/
abbrev rNOTRAP : Nat := 0x1A

/-! ### Lanes and candidates -/

/-- The lanes 0 to 31. -/
def lanes32 : List Nat := List.range 32

/-- The mask of the lanes that meet a test. -/
def maskOf (p : Nat → Bool) : Mask := BitVec.ofNat 32 (lanes32.foldr (fun l acc => (if p l then 2 ^ l else 0) + acc) 0)

/-- The lanes of a mask, rising. -/
def lanesOf (m : Mask) : List Nat := lanes32.filter fun l => m.getLsbD l

/-- The lowest lane of a mask. -/
def lowest (m : Mask) : Option Nat := lanes32.find? fun l => m.getLsbD l

/-- A lane that has exited (R82). -/
def Lane.gone : Lane := { pc := 0xFFFFFFFF, tag := 0, st := .exited, strict := false, wake := 0 }

/-- A lane of a group. -/
def Group.lane (g : Group) (l : Nat) : Lane := g.lanes.getD l Lane.gone

/-- The lanes of a mask changed. -/
def mapLanes (ls : List Lane) (m : Mask) (f : Nat → Lane → Lane) : List Lane :=
  ls.mapIdx fun l a => if m.getLsbD l then f l a else a

/-- The lanes of a group that have not exited. -/
def Group.live (g : Group) : Mask := maskOf fun l => (g.lane l).st != .exited

/-- The lanes of a group in state RUN. -/
def Group.running (g : Group) : Mask := maskOf fun l => (g.lane l).st == .run

/-- The lanes that take part in issue: those in state RUN, and in a handler those of X that wait in no `eret` (R389, R406). -/
def Group.issuable (g : Group) : Mask :=
  match g.trap with
  | none => g.running
  | some t => g.running &&& t.x &&& ~~~t.erets

/-- The key of a lane as one number: PC first, then the trip tag (R83). -/
def Lane.key (a : Lane) : Nat := a.pc.toNat * 2 ^ 16 + a.tag.toNat

/-- The smallest key among the lanes of a mask. -/
def Group.minKey (g : Group) (m : Mask) : Option Nat :=
  (lanesOf m).foldl (fun acc l =>
    match acc with
    | none => some (g.lane l).key
    | some k => some (min k (g.lane l).key)) none

/-- The lanes of a mask that hold a key. -/
def Group.atKey (g : Group) (m : Mask) (k : Nat) : Mask := maskOf fun l => m.getLsbD l && (g.lane l).key == k

/-- The issuing lane set of a candidate (R84, R92): the lanes at the smallest key, or at the smallest key of
the lanes that have priority. -/
def Group.issueSet (g : Group) (c : SubG) : Mask :=
  if g.held != 0 then (if c.lanes &&& g.held = 0 then 0 else g.held) else
  let run := g.issuable &&& c.lanes
  let pri := c.hprio &&& run
  match g.minKey (if pri = 0 then run else pri) with
  | none => 0
  | some k => g.atKey run k

/-- Every non-exited lane of a mask is in state RUN with one key (R87). -/
def Group.convergedOn (g : Group) (m : Mask) : Bool :=
  let live := g.live &&& m
  live &&& ~~~g.issuable == 0 &&
  (match g.minKey live with
    | none => true
    | some k => g.atKey live k == live)

/-- A group that is one candidate and converged (R93). -/
def Group.converged (g : Group) : Bool := g.subs.length == 1 && g.convergedOn (BitVec.allOnes 32)

/-- Two candidates that are converged at one key made one, once each, in order (R87). -/
def fuseInto (g : Group) (c : SubG) : List SubG → List SubG
  | [] => [c]
  | d :: t =>
    if g.convergedOn c.lanes && g.convergedOn d.lanes && g.minKey (g.live &&& c.lanes) == g.minKey (g.live &&& d.lanes) then
      { lanes := c.lanes ||| d.lanes, back := 0, hprio := 0, lastX := 0 } :: t
    else d :: fuseInto g c t

/-- The candidates after an issue: those without a live lane removed, those at one key fused (R87). -/
def Group.tidy (g : Group) : Group :=
  let alive := g.subs.filter fun c => c.lanes &&& g.live != 0
  let subs := alive.foldl (fun acc c => fuseInto g c acc) []
  let subs := subs.map fun c => { c with hprio := c.hprio &&& g.running }
  { g with subs := if subs.isEmpty then g.subs.take 1 else subs }

/-- Every latch invalid (R23). -/
def Group.loseLatches (g : Group) : Group := { g with latches := g.latches.map fun l => { l with valid := false } }

/-- The predicate a PRED field selects, with PNEG (R20). -/
def Group.predMask (g : Group) (p : Nat) : Mask := if p = 0 then BitVec.allOnes 32 else Tbl.get g.preds p 0

/-- The code a grid fetches in a cycle: as it stood at its launch, but that a unit the grid has written reads as either of
its values (log entry 11). -/
def Grid.codeAt (g : Grid) (now : Nat) : List Byte :=
  g.newUnits.foldl (fun bs p =>
    if Config.newUnit now p.1 && decide (4 * p.1 + 4 ≤ bs.length) then bs.take (4 * p.1) ++ unitBytes [p.2] ++ bs.drop (4 * p.1 + 4)
    else bs) g.code

/-- The 32-bit unit of some code at a byte offset, where it lies inside (R15, R387). -/
def codeUnit (code : List Byte) (pc : Nat) : Option W32 :=
  if pc % 4 = 0 then unitAt (code.drop pc) else none

/-- The issue of a party at a PC of its code: its units, or as many as could be fetched (R387, R390). -/
def fetchCur (code : List Byte) (by_ : Issuer) (cand : Nat) (lanes : Mask) (pc : Nat) : Cur × Bool :=
  let c : Cur := { by_ := by_, cand := cand, lanes := lanes, pc := pc, len := 1, u0 := 0, u1 := 0, u2 := 0, stalled := false }
  match codeUnit code pc with
  | none => (c, false)
  | some u0 =>
    let len := unitsOf u0
    let o1 := if 2 ≤ len then codeUnit code (pc + 4) else some 0
    let o2 := if 3 ≤ len then codeUnit code (pc + 8) else some 0
    ({ c with len := len, u0 := u0, u1 := o1.getD 0, u2 := o2.getD 0 }, o1.isSome && o2.isSome)

/-- The lanes for which the predicate of an instruction is 1 (R20). -/
def Group.predLanes (g : Group) (x : Args) : Mask :=
  let m := g.predMask x.pred.toNat
  if x.pneg then ~~~m else m

/-- Writes the bits of a predicate in some lanes; a write to p0 is discarded (R148). -/
def Group.setPred (g : Group) (p : Nat) (lanes val : Mask) : Group :=
  if p = 0 then g
  else { g with preds := Tbl.set g.preds p ((Tbl.get g.preds p 0 &&& ~~~lanes) ||| (val &&& lanes)) }

/-! ### Ending grids, teams and contexts -/

/-- The grids below a grid, by depth of search. -/
def descendants (grids : Tbl Grid) (n : Nat) : Nat → List Nat
  | 0 => []
  | d + 1 =>
    let kids := (Tbl.keep grids fun _ g => match g.parent with
      | some (_, p) => p == n
      | none => false).map (·.1)
    kids ++ kids.flatMap fun k => descendants grids k d

/-- The streams of a team stopped and its queues freed, the copies still collecting dropped; locks they hold
released (R332, R336, R360). -/
def Core.dropTeam (k : Core) (t : Nat) : Core :=
  let mine := (Tbl.keep k.streams fun _ st => st.team == t).map (·.1)
  let dems := (Tbl.keep k.demands fun _ d => d.team == t).map (·.1)
  let cops := (Tbl.keep k.copies fun _ c => c.team == t && c.st == .collecting).map (·.1)
  { k with
    streams := Tbl.keep k.streams fun _ st => st.team != t
    copies := Tbl.keep k.copies fun e _ => !cops.contains e
    locks := Tbl.keep k.locks fun e l => if e < 64 then !cops.contains e else !((decide (l.owner < 8) && mine.contains l.owner) || dems.contains e)
    queues := k.queues.map fun q => if q.team == t && q.st != .free then { st := .free, team := 0, stream := 0, entries := [] } else q
    mats := k.mats.map fun m => if m.owner == some t then { m with owner := none, clearing := true } else m
    mctxWait := k.mctxWait.filter (· != t)
    demands := Tbl.keep k.demands fun _ d => d.team != t
    entryWait := k.entryWait.filter (·.1 != (1, t)) }

/-- The slots of some groups taken out of the sub-cores' sets. -/
def dropSlots (s : State) (gs : List Nat) : State :=
  gs.foldl (fun s g => s.updSub (coreOfGroup g) (subOfGroup g) fun b =>
    { b with active := Tbl.erase b.active (slotOfGroup g), pending := Tbl.erase b.pending (slotOfGroup g) }) s

/-- A group's slot, header store, cells and spill stack freed. -/
def freeGroup (s : State) (g : Nat) : State :=
  let core := coreOfGroup g
  let head := (((s.core core).path.head?).map (·.grp)) == some g
  let s := (dropSlots s [g]).forget fun p => p == (0, g) || (head && p == (5, core))
  let orphan (c : Copy) : Copy := { c with issuers := c.issuers.filter fun i => i.1 != (0, g) }
  { s with
    groups := Tbl.erase s.groups g
    mem := Memory.clear s.mem ((Space.spill g).key 0) (2 ^ 32)
    cores := Tbl.mapVal s.cores fun c k =>
      if c = coreOfGroup g then
        { k with copies := Tbl.mapVal k.copies (fun _ c => orphan c), path := k.path.filter (fun r => r.grp != g), spillPages := k.spillPages.filter (fun p => p.1 != g),
                 spillWait := k.spillWait.filter (fun p => p.1 != g), spillBacked := k.spillBacked.filter (fun p => p.1 != g), entryWait := k.entryWait.filter (·.1 != (0, g)) }
      else k }

/-- A team ended by a fault, a kill or the loss of its die: its groups and its Wick stop at once. -/
def killTeam (s : State) (t : Nat) : State :=
  let gs := (s.groupsOf t).map (·.1)
  let c := coreOfTeam t
  let mine := (Tbl.keep (s.core c).streams fun _ st => st.team == t).map fun p => c * 8 + p.1
  let s := (gs.foldl freeGroup s).forget fun p => p == (1, t) || (p.1 == 2 && mine.contains p.2)
  (s.updCore (coreOfTeam t) fun k => k.dropTeam t).updTeam t fun tm =>
    { tm with wst := .ended, dqClosed := true, killed := true, wait := none, mctx := none, stop := none }

/-- The teams of a grid. -/
def State.teamsOf (s : State) (n : Nat) : List Nat := (Tbl.keep s.teams fun _ t => t.grid == n).map (·.1)

/-- One grid ended with a status; a grid that has ended keeps its own. -/
def endOne (s : State) (n status seq : Nat) : State :=
  match Tbl.get? s.grids n with
  | none => s
  | some g =>
    if g.st == .retired || g.st == .ending then s
    else
      let s := (s.teamsOf n).foldl killTeam s
      let s := s.updCtx g.ctx fun c => { c with queue := c.queue.filter (· != n) }
      s.updGrid n fun g => { g with st := .ending, status := status, seq := if g.seq = 0 then seq else g.seq, grants := [] }

/-- A grid ended with a status, its descendants with KILLED (R46, R54). -/
def endGrid (s : State) (n status seq : Nat) : State :=
  (descendants s.grids n 11).foldl (fun s d => endOne s d 3 0) (endOne s n status seq)

/-- Every grid of a context ended. -/
def endGrids (s : State) (ctx status seq : Nat) : State :=
  ((Tbl.keep s.grids fun _ g => g.ctx == ctx).map (·.1)).foldl (fun s n => endOne s n status seq) s

/-- A context ended by a fault: every grid of it ends FAULT, and the context is ENDED (R394, R397). -/
def endContext (s : State) (ctx seq : Nat) : State :=
  (endGrids s ctx 1 seq).updCtx ctx fun x => { x with st := .ended, request := false, thaw := false }

/-! ### Records of groups and Wick contexts -/

/-- The record of a fault of a group (R470, R484). -/
def groupRec (s : State) (g : Nat) (code cls sev recov : Nat) : RecIn :=
  match Tbl.get? s.groups g with
  | none => { code := code, cls := cls, sev := sev, recov := recov }
  | some grp =>
    let t := Tbl.get? s.teams grp.team
    { code := code, cls := cls, sev := sev, recov := recov
      engine := coreEngine (coreOfGroup g) 0 (16 * subOfGroup g + slotOfGroup g)
      ctx := s.ctxOfTeam grp.team, grid := (t.map (·.grid)).getD 0, team := (t.map (·.lin)).getD 0xFFFFFFFF
      iaddr := s.cur.pc, group := grp.idx }

/-- The record of a fault of a Wick context. -/
def wickRec (s : State) (t : Nat) (code cls sev recov : Nat) : RecIn :=
  match Tbl.get? s.teams t with
  | none => { code := code, cls := cls, sev := sev, recov := recov }
  | some tm =>
    { code := code, cls := cls, sev := sev, recov := recov
      engine := coreEngine (coreOfTeam t) 1 (t % 8)
      ctx := s.ctxOfTeam t, grid := tm.grid, team := tm.lin, iaddr := s.cur.pc }

/-- ADDR of a record of a user fault: the address with its space (R470). -/
def Cause.recAddr (c : Cause) : Nat := if c.akind = 2 then c.space * 2 ^ 32 + c.addr % 2 ^ 32 else c.addr

/-! ### Taking a trap and returning from one -/

/-- The ECAUSE word of R390. -/
def causeWord (c : Cause) (len : Nat) : W64 :=
  BitVec.ofNat 64 (c.code * 2 ^ 16 + len * 2 ^ 10 + (if c.half then 2 ^ 9 else 0) + c.num)

/-- Trap entry in a group whose vector is set and which is in no handler (R389, R390): `x` is the issuing
set of the faulting instruction. The handler is the one candidate of the group, so that no instruction of it issues while the group is
split (log entry 45). -/
def enterTrap (cur : Cur) (x : Mask) (c : Cause) (g : Group) : Group :=
  { g.loseLatches with
    epc := BitVec.ofNat 64 (if c.after then cur.pc + 4 * cur.len else cur.pc)
    ecause := causeWord c cur.len
    edetail := BitVec.ofNat 64 c.detail
    eaddr := BitVec.ofNat 64 c.addr
    elanes := x.zeroExtend 64
    einst := join64 (if 2 ≤ cur.len then cur.u1 else 0) cur.u0
    elit := if cur.len = 3 then cur.u2.zeroExtend 64 else 0
    trap := some { x := x, erets := 0, skips := 0, tags := g.lanes.map fun a => (a.tag, a.strict), subs := g.subs }
    lanes := mapLanes g.lanes x fun _ a => { a with pc := lo32 g.tvec, tag := 0, st := .run, strict := false }
    subs := [{ lanes := x, back := 0, hprio := 0, lastX := 0 }]
    lastSub := 0
    wait := none
    protect := 0 }

/-- A pair split (R94), in both members. -/
def splitPair (s : State) (g : Nat) : State :=
  match Tbl.get? s.groups g with
  | none => s
  | some grp =>
    match grp.pair with
    | none => s
    | some b =>
      let unjoin : Group → Group := fun q => { q with pair := q.pair.map fun b => { b with joined := false } }
      let s := s.updGroup g unjoin
      match s.groupAt grp.team b.partner with
      | none => s
      | some p => s.updGroup p unjoin

/-- A handle register of a team; every one is zero when the team starts (R281). -/
def State.handle (s : State) (t n : Nat) : BitVec 512 :=
  match Tbl.get? s.teams t with
  | some tm => Tbl.get tm.handles n 0
  | none => 0

/-- A handle register written. -/
def State.setHandle (s : State) (t n : Nat) (v : BitVec 512) : State :=
  s.updTeam t fun tm => { tm with handles := Tbl.set tm.handles n v }

/-- A bit of STATUS set in a handle register (R294, R295). -/
def State.setStatus (s : State) (t n bit : Nat) : State :=
  s.setHandle t n (s.handle t n ||| 1#512 <<< (480 + bit))

/-- A user-route fault in a group (R388, R389, R392): the handler is entered, or the grid ends where no
vector is set or a handler is running already. -/
def raise (g : Nat) (x : Mask) (c : Cause) (s : State) : State :=
  match Tbl.get? s.groups g with
  | none => s
  | some grp =>
    let s := match c.malf with
      | some h => s.setStatus grp.team h 4
      | none => s
    let grid := ((Tbl.get? s.teams grp.team).map (·.grid)).getD 0
    let r := { groupRec s g c.code 1 2 3 with akind := c.akind, addr := c.recAddr, lane := c.lane }
    match grp.trap with
    | some _ =>
      let (s, seq) := logRecord s { r with detail := grp.epc.toNat % 2 ^ 32 * 2 ^ 32 + c.detail % 2 ^ 32 } true
      endGrid s grid 1 seq
    | none =>
      if grp.tvec = 0 then
        let (s, seq) := logRecord s { r with detail := c.detail } true
        endGrid s grid 1 seq
      else
        let (s, _) := logRecord s { r with detail := c.detail, sev := 0, recov := 0 } false
        s.updGroup g (enterTrap s.cur x c)

/-- What a lane takes back when its handler returns (R406). -/
def returnLane (g : Group) (t : TrapFrame) (l : Nat) (a : Lane) : Lane :=
  let len := bits g.ecause.toNat 10 2
  let pc := if t.skips.getLsbD l then lo32 g.epc + BitVec.ofNat 32 (4 * len) else lo32 g.epc
  let (tag, strict) := t.tags.getD l (0, false)
  { a with pc := pc, tag := tag, strict := strict, st := .run }

/-- The return from a handler once every non-exited lane of it has executed `eret` (R406). -/
def leaveTrap (g : Group) : Group :=
  match g.trap with
  | none => g
  | some t =>
    if g.live &&& t.x &&& ~~~t.erets != 0 then g
    else
      { g.loseLatches with
        lanes := mapLanes g.lanes (t.erets &&& g.live) (returnLane g t)
        subs := t.subs
        lastSub := 0
        trap := none }.tidy

/-- Whether an engine operation that a Wick context has issued is under way (R46). -/
def wickBusy (s : State) (t : Nat) : Bool :=
  let k := s.core (coreOfTeam t)
  (k.copies.any fun c => c.2.st != .collecting && c.2.issuers.any fun i => i.1 == (1, t)) ||
    (k.demands.any fun d => d.2.issuer == (1, t)) || k.streams.any fun x => x.2.issuer == (1, t) && x.2.st == .running

/-- The grid of a Wick context that has stopped on a fault ends, with the record of the fault (R46). -/
def wickEnds (t : Nat) (r : RecIn) (s : State) : State :=
  match Tbl.get? s.teams t with
  | none => s
  | some tm =>
    let (s, seq) := logRecord s r true
    endGrid s tm.grid 1 seq

/-- A Wick context stops on a fault (R46): the grid ends once the engine operations that the context has issued have completed. -/
def wickStops (t : Nat) (r : RecIn) (s : State) : State :=
  if wickBusy s t then s.updTeam t fun tm => { tm with stop := some r } else wickEnds t r s

/-- A user fault of a Wick context; a malformed tile sets MALF at once (R46, R297). -/
def wickFault (t : Nat) (c : Cause) (s : State) : State :=
  let s := match c.malf with
    | some h => s.setStatus t h 4
    | none => s
  wickStops t { wickRec s t c.code 1 2 3 with akind := c.akind, addr := c.recAddr, detail := c.detail } s

/-! ### Registers -/

/-- A lane register's entry (R112). -/
def Group.reg (g : Group) (j : Nat) : Reg :=
  Tbl.get g.regs j { runs := Runs.zero, spilled := none, stamp := 0, pend := none }

/-- The bytes of the spill region of a group, from an offset on (R194). -/
def spillBase (s : State) (g : Nat) : Nat :=
  match Tbl.get? s.groups g with
  | none => 0
  | some grp => ((s.headerOf grp.team).map (·.spill)).getD 0 / 2

/-- The run list of a register, read from its image where it is spilled (R122). -/
def runsOf (s : State) (g : Nat) (grp : Group) (j : Nat) : Runs :=
  let r := grp.reg j
  match r.spilled with
  | none => r.runs
  | some h =>
    cellsOf h.n (Memory.readN s.mem ((Space.spill g).key (spillBase s g + h.off + 8)) (5 * h.n))

/-- A k register. -/
def Group.k (g : Group) (r : Nat) : W64 := Tbl.get g.ks r 0
/-- An s register of a team. -/
def State.sreg (s : State) (t r : Nat) : W64 :=
  match Tbl.get? s.teams t with
  | some tm => Tbl.get tm.sregs r 0
  | none => 0
/-- A k register written. -/
def Group.setK (g : Group) (r : Nat) (v : W64) : Group := { g with ks := Tbl.set g.ks r v }

/-- The cells in use (R116). -/
def Group.inUse (g : Group) : Nat :=
  g.regs.foldl (fun n p => n + (if p.2.spilled.isSome then 0 else Runs.cells p.2.runs)) 0

/-- A register's entry set; {0:32} with nothing pending and never touched needs none. -/
def Group.putReg (g : Group) (j : Nat) (r : Reg) : Group := { g with regs := Tbl.set g.regs j r }

/-- The recency of some registers renewed (R123). -/
def Group.touch (g : Group) (now : Nat) (js : List Nat) : Group :=
  js.foldl (fun g j => g.putReg j { g.reg j with stamp := now }) g

/-- PEAK at a boundary (R147). -/
def Group.notePeak (g : Group) : Group := { g with peak := max g.peak g.inUse }

/-! ### Spilling and restoring (R122 to R126) -/

/-- The pages of some bytes of a spill stack. -/
def pagesOf (off n : Nat) : List Nat := (List.range ((off + n + 4095) / 4096 - off / 4096)).map fun i => off / 4096 + i

/-- The pages of some bytes that a group has accessed become the most recently used of its core (R196). -/
def touchPages (s : State) (g off n : Nat) : State :=
  let mine := ((pagesOf off n).map fun i => (g, i))
  s.updCore (coreOfGroup g) fun k =>
    { k with spillPages := (k.spillPages.filter mine.contains) ++ k.spillPages.filter fun p => !mine.contains p }

/-- Whether the spill pages of some bytes of a group's stack are resident (R196). -/
def pagesResident (s : State) (g off n : Nat) : Bool :=
  let ps := (s.core (coreOfGroup g)).spillPages
  (pagesOf off n).all fun i => ps.any fun p => p.1 == g && p.2 == i

/-- An access waits for those of some pages of a group's stack that are not resident (R196). -/
def awaitPages (s : State) (g : Nat) (ps : List Nat) : State :=
  s.updCore (coreOfGroup g) fun k =>
    { k with spillWait := k.spillWait ++ (ps.eraseDups.map fun i => (g, i)).filter fun p =>
        !k.spillPages.contains p && !k.spillWait.contains p }

/-- The bytes that the images of a group take (R195). -/
def Group.imageBytes (g : Group) : Nat :=
  g.regs.foldl (fun n p => n + (match p.2.spilled with
    | some h => imageSize h.n
    | none => 0)) 0

/-- The images of a group placed anew from the start of the region, in register order, as each spill does first (R195; log
entry 36). -/
def compactImages (g base : Nat) (grp : Group) (m : Memory) : Group × Memory :=
  let held := grp.regs.filterMap fun p => p.2.spilled.map fun h => (p.1, p.2, h)
  let imgs := held.map fun q => (q.1, q.2.1, q.2.2, Memory.readN m ((Space.spill g).key (base + q.2.2.off)) (imageSize q.2.2.n))
  let r := imgs.foldl (fun (acc : Nat × Group × Memory) q =>
    (acc.1 + imageSize q.2.2.1.n,
     acc.2.1.putReg q.1 { q.2.1 with spilled := some { q.2.2.1 with off := acc.1 } },
     Memory.writeN acc.2.2 ((Space.spill g).key (base + acc.1)) q.2.2.2)) (0, grp, m)
  (r.2.1, r.2.2)

/-- What spilling one register came to. -/
inductive SpillRes where
  | ok (s : State)
  /-- Some of these pages of the region are not resident yet. -/
  | page (ps : List Nat)
  /-- SPILLOVF (R124). -/
  | overflow (size : Nat)

/-- Spills register `j` of a group: its image is written, SPILLED set, its cells freed (R123, R124, R206). -/
def spillReg (s : State) (g j : Nat) : SpillRes :=
  match Tbl.get? s.groups g with
  | none => .ok s
  | some grp =>
    let r := grp.reg j
    let size := imageSize r.runs.length
    let base := spillBase s g
    if base < grp.imageBytes + size then .overflow size
    else
      let (grp, mem) := compactImages g base grp s.mem
      let off := grp.imageBytes
      if pagesResident s g base (off + size) then
        let mem := Memory.writeN mem ((Space.spill g).key (base + off)) (spillImage off r.runs)
        let r' := { r with runs := Runs.zero, spilled := some { n := r.runs.length, spl := Runs.spl r.runs, off := off } }
        .ok (touchPages { s with mem := mem, groups := Tbl.set s.groups g (grp.putReg j r') } g base (off + size))
      else .page (pagesOf base (off + size))

/-- Brings a spilled register back (R122). -/
def restoreReg (s : State) (g j : Nat) : State :=
  match Tbl.get? s.groups g with
  | none => s
  | some grp =>
    match (grp.reg j).spilled with
    | none => s
    | some h =>
      touchPages { s with groups := Tbl.set s.groups g (grp.putReg j { grp.reg j with runs := runsOf s g grp j, spilled := none }) }
        g (spillBase s g + h.off) (imageSize h.n)

/-- The victim of R123: the least recently read register with two or more runs that is no operand and awaits
nothing; ties go to the lowest number. -/
def victim (grp : Group) (operands : List Nat) : Option Nat :=
  (grp.regs.foldl (fun (best : Option (Nat × Nat)) p =>
    if p.2.spilled.isNone && decide (2 ≤ p.2.runs.length) && p.2.pend.isNone && !operands.contains p.1 then
      match best with
      | none => some (p.1, p.2.stamp)
      | some (_, t) => if p.2.stamp < t then some (p.1, p.2.stamp) else best
    else best) none).map (·.1)

/-- What making room came to; the spills made stand in each case (R123, R124). -/
inductive RoomRes where
  | ok (s : State)
  | wait (s : State)
  | overflow (size : Nat) (s : State)

/-- Spills victims until `need` more cells fit the quota (R123), at most `fuel` of them. -/
def makeRoom (g : Nat) (operands : List Nat) (old need : Nat) (s : State) : Nat → RoomRes
  | 0 => .wait s
  | fuel + 1 =>
    match Tbl.get? s.groups g with
    | none => .ok s
    | some grp =>
      if grp.inUse - old + need ≤ grp.quota then .ok s
      else
        match victim grp operands with
        | none => .wait s
        | some j =>
          match spillReg s g j with
          | .ok s => makeRoom g operands old need s fuel
          | .page ps => .wait (awaitPages s g ps)
          | .overflow n => .overflow n s

/-- The detail word of a RUNOVF (R127). -/
def ovfDetail (reg : Nat) (restore foot : Bool) (quota inUse need : Nat) : Nat :=
  reg * 2 ^ 53 + (if restore then 2 ^ 52 else 0) + (if foot then 2 ^ 51 else 0) + quota * 2 ^ 34 + inUse * 2 ^ 17 + need % 2 ^ 17

/-! ### What an instruction comes to for one member -/

/-- The effect of an instruction for the party that issues it. -/
inductive GEff where
  /-- Done; the issuing lanes, or the Wick, go on to the next instruction. -/
  | done (s : State)
  /-- Done; the instruction has moved the lanes or the Wick itself. -/
  | jump (s : State)
  /-- Done for every group the instruction joins (R107), lanes and all. -/
  | all (s : State)
  /-- Not ready, or parked; the instruction is issued again later. -/
  | wait (s : State)
  /-- A user-route fault; nothing has changed. -/
  | fault (c : Cause)

/-- One member's issue: the group, its issuing set, its active lanes, the address and the next one. -/
structure Mem where
  g : Nat
  x : Mask
  act : Mask
  pc : Nat
  next : Nat
  /-- The second half of a P64. -/
  half : Bool := false
  deriving DecidableEq, Repr

/-- BOUNDS of a whole instruction, with the lowest lane it acts for (R391). -/
def Mem.bounds (m : Mem) (reason : Nat) : Cause :=
  Cause.bounds reason ((lowest m.act).getD ((lowest m.x).getD 0))

/-- The wait of an instruction in the middle of its spills, its restores or the fills of its pages: the spills and restores made
stand, and nothing else of the group issues before it is done (R123, R125, R147, R196). -/
def holdStep (m : Mem) (s : State) : GEff := .wait (s.updGroup m.g fun q => { q.notePeak with held := m.x })

/-- A system fault of a group or a Wick: the record is logged and the party parked (R394). -/
def parkGroup (s : State) (g page : Nat) (r : RecIn) : State :=
  let (s, _) := logRecord s r true
  s.updGroup g fun q => { q with parked := some page }

/-- SPILLOVF: the record is logged and every grid of the context ends (R124, R394). -/
def spillOverflow (s : State) (g size : Nat) : State :=
  match Tbl.get? s.groups g with
  | none => s
  | some grp =>
    let (s', seq) := logRecord s { groupRec s g 0x020A 2 3 4 with detail := size } true
    endContext s' (s.ctxOfTeam grp.team) seq

/-- The cells a group has in use. -/
def State.inUse (s : State) (g : Nat) : Nat := ((Tbl.get? s.groups g).map (·.inUse)).getD 0

/-- The footprint of an instruction (R122): the cells of its result and of the registers it reads. -/
def footprint (s : State) (g : Nat) (grp : Group) (reads : List Nat) (new : Nat) : Nat :=
  new + (reads.eraseDups.map fun i => Runs.cells (runsOf s g grp i)).sum

/-- The pages of the images of those of some registers that are spilled. -/
def imagePages (s : State) (g : Nat) (js : List Nat) : List Nat :=
  match Tbl.get? s.groups g with
  | none => []
  | some grp => js.flatMap fun j => ((grp.reg j).spilled.map fun h => pagesOf (spillBase s g + h.off) (imageSize h.n)).getD []

/-- Restores the spilled registers of a list in rising order (R122), whose pages are resident. `reads` and the cells of the
result, `new`, make the footprint; no operand is a victim; `used` are the cells in use before the instruction (R127). A
register that `rcoal vj, vj` reads is restored like any other, with RUNOVF where it does not fit (log entry 49). -/
def restoreAll (m : Mem) (reads operands : List Nat) (new used : Nat) : List Nat → State → GEff
  | [], s => .done s
  | j :: js, s =>
    match Tbl.get? s.groups m.g with
    | none => .done s
    | some grp =>
      match (grp.reg j).spilled with
      | none => restoreAll m reads operands new used js s
      | some h =>
        let cells := if h.n ≤ 1 then 0 else h.n
        if grp.inUse + cells ≤ grp.quota then restoreAll m reads operands new used js (restoreReg s m.g j)
        else
          let trap := ((s.headerOf grp.team).map (·.trap)).getD false
          let foot := decide (grp.quota < footprint s m.g grp reads new)
          if trap || foot then .fault (Cause.runOvf (ovfDetail j true foot grp.quota used cells))
          else
            match makeRoom m.g operands 0 cells s 1024 with
            | .ok s => restoreAll m reads operands new used js (restoreReg s m.g j)
            | .wait s => holdStep m s
            | .overflow n s => .wait (spillOverflow s m.g n)

/-- The same, once every page that holds one of the images is resident (R125, R196). -/
def restoreRegs (m : Mem) (reads operands : List Nat) (new used : Nat) (js : List Nat) (s : State) : GEff :=
  let ps := imagePages s m.g js
  if ps.all fun i => (s.core (coreOfGroup m.g)).spillPages.contains (m.g, i) then restoreAll m reads operands new used js s
  else holdStep m (awaitPages s m.g ps)

/-- Writes the run lists of some registers, under the test of R121 and the policies of R123 and R126. `reads`
are the registers the instruction reads; `keep` those of which lanes outside the written ones keep their values. The
footprint counts only where a restore or the test of R121 fails (log entry 49). -/
def writeRegs (m : Mem) (reads : List Nat) (keep : List Nat) (news : List (Nat × Runs)) (s : State) : GEff :=
  let dests := news.map (·.1)
  let operands := reads ++ dests
  let newCells := (news.map fun p => Runs.cells p.2).sum
  let toRestore := (List.range 1024).filter fun j => reads.contains j || keep.contains j
  let used := s.inUse m.g
  match restoreRegs m reads operands newCells used toRestore s with
  | .done s =>
    match Tbl.get? s.groups m.g with
    | none => .done s
    | some grp =>
      let old := (dests.map fun j => if (grp.reg j).spilled.isSome then 0 else Runs.cells (grp.reg j).runs).sum
      let commit : State → GEff := fun s =>
        .done (s.updGroup m.g fun q =>
          let q := q.touch s.now reads
          (news.foldl (fun q p => q.putReg p.1 { q.reg p.1 with runs := p.2, spilled := none, stamp := s.now }) q).notePeak)
      if grp.inUse - old + newCells ≤ grp.quota then commit s
      else
        let trap := ((s.headerOf grp.team).map (·.trap)).getD false
        let foot := decide (grp.quota < footprint s m.g grp reads newCells)
        let low := (dests.foldl (fun a j => min a j) 1023)
        if trap || foot then .fault (Cause.runOvf (ovfDetail low false foot grp.quota used (newCells - old)))
        else
          match makeRoom m.g operands old newCells s 1024 with
          | .ok s => commit s
          | .wait s => holdStep m s
          | .overflow n s => .wait (spillOverflow s m.g n)
  | e => e

/-- Reads registers: spilled ones are restored first, and their recency is renewed. -/
def readRegs (m : Mem) (reads : List Nat) (s : State) : GEff := writeRegs m reads [] [] s

/-- Reads registers of an instruction that cannot raise RUNOVF (R204, R227, R353): where a restore would, the register is
read from its image and stays spilled. -/
def readRegsFree (m : Mem) (reads : List Nat) (s : State) : GEff :=
  match readRegs m reads s with
  | .fault _ => .done s
  | e => e

/-- A result enters the latch chain (R22). -/
def Group.pushLatch (g : Group) (rs : Runs) : Group :=
  { g with latches := ({ valid := true, runs := rs, pend := none } :: g.latches).take 6 }

/-! ### Issue -/

/-- The partner of a JOINED member, by slot (R94). -/
def joinedPartner (s : State) (grp : Group) : Option Nat :=
  match grp.pair with
  | some b => if b.joined then s.groupAt grp.team b.partner else none
  | none => none

/-- The latch a source names. -/
def latchOf : Src → Option Nat
  | .latch n => some n.toNat
  | _ => none

/-- The sources of an instruction, or of both halves of a P64. -/
def srcsOf (xs : List Args) : List Src := xs.flatMap fun x => [x.a, x.b, x.c]

/-- The first latch an instruction names that is invalid (R25), and whether the second half of a P64 names it. -/
def lostLatch (g : Group) (xs : List Args) : Option Cause :=
  (xs.zipIdx.flatMap fun p => ([p.1.a, p.1.b, p.1.c].filterMap latchOf).map fun n => (n, p.2)).find?
    (fun p => !((g.latches[p.1]?.map (·.valid)).getD false)) |>.map fun p => { Cause.latchLost p.1 with half := p.2 == 1 }

/-- The k register a source names. -/
def kOf : Src → Option Nat
  | .k r => some r.toNat
  | _ => none

/-- The s register a source of group code names. -/
def sOf : Src → Option Nat
  | .s r => some r.toNat
  | _ => none

/-- The s register a source of Wick code names. -/
def wsOf : Src → Option Nat
  | .v r => some r.toNat
  | _ => none

/-- Whether some s registers of a team hold the token of an unfinished copy (R363). -/
def tokensPending (s : State) (t : Nat) (rs : List Nat) : Bool :=
  match Tbl.get? s.teams t with
  | none => false
  | some tm => rs.any fun r => Tbl.get tm.stok r 0 != 0

/-- What stands for a predicate in a list of k registers. -/
def predKey (n : Nat) : Nat := 1000 + n

/-- Whether a result under way holds the instruction (R78, R310, R363): a register it reads or writes, a k register, a
predicate or a latch awaits one, or a register holds the token of an unfinished copy. -/
def awaiting (s : State) (g : Group) (xs : List Args) (vs ks : List Nat) : Bool :=
  let named := ks ++ (srcsOf xs).filterMap kOf
  (vs.any fun j => (g.reg j).pend.isSome) ||
  (g.pending.any fun p => (match p.2.kreg with
    | some k => named.contains k
    | none => false) || (match p.2.pred with
    | some n => ks.contains (predKey n) || xs.any fun x => x.pred.toNat == n
    | none => false)) ||
  (named.any fun k => Tbl.get g.ktok k 0 != 0) ||
  tokensPending s g.team ((srcsOf xs).filterMap sOf) ||
  (((srcsOf xs).filterMap latchOf).any fun n => (g.latches[n]?.map (·.pend.isSome)).getD false)

/-- The candidate of an issue changed. -/
def Group.updSubG (g : Group) (c : Nat) (f : SubG → SubG) : Group := { g with subs := updAt g.subs c f }

/-- The candidate that holds the lowest lane of an issuing set. -/
def Group.candOf (g : Group) (x : Mask) : Nat :=
  (g.subs.findIdx? fun c => c.lanes &&& x != 0).getD 0

/-- What an issue does before the instruction: a changed issuing set loses the latches and resets the count (R23, R91), and
the latch-reading instructions in a row are counted (R24). -/
def Group.freshen (g : Group) (xs : List Args) (x : Mask) : Group :=
  let g := if x = g.lastX then g else g.loseLatches
  { g.updSubG (g.candOf x) (fun c => if c.lastX = x then c else { c with back := 0 }) with
    lastX := x, held := 0, protect := if (srcsOf xs).filterMap latchOf != [] then g.protect + 1 else 1 }

/-- A register named by number that an instruction writes and that holds a pending token makes it wait, unless it faults and
so writes nothing (R363; log entry 39). -/
def GEff.unlessOwed (owed : Bool) (s : State) (e : GEff) : GEff :=
  match e with
  | .fault c => .fault c
  | e => if owed then .wait s else e

/-- Whether a k register of some holds the token of an unfinished copy. -/
def Group.owes (g : Group) (ks : List Nat) : Bool := ks.any fun k => Tbl.get g.ktok k 0 != 0

/-- Whether demand requests of a group are still to be performed (R312). -/
def State.asksPath (s : State) (g : Nat) : Bool := (s.core (coreOfGroup g)).path.any fun r => r.grp == g

/-- A fault is taken once the demand requests the group has issued are performed (R314). -/
def GEff.afterPath (s : State) (g : Nat) (e : GEff) : GEff :=
  match e with
  | .fault c => if s.asksPath g then .wait s else .fault c
  | e => e

/-- One member's part of an instruction: the latch check, the operands' readiness, then the meaning. -/
def runMember (xs : List Args) (vs ks : List Nat) (body : Mem → State → GEff) (g : Nat) (lanes : Mask) (s : State) : GEff :=
  match Tbl.get? s.groups g with
  | none => .wait s
  | some grp =>
    if grp.parked.isSome || grp.debug then .wait s
    else
      let s := s.updGroup g fun q => q.freshen xs lanes
      match Tbl.get? s.groups g with
      | none => .wait s
      | some grp =>
        match lostLatch grp xs with
        | some c => (GEff.fault c).afterPath s g
        | none =>
          if awaiting s grp xs vs (ks.filter fun k => !grp.owes [k]) then .wait s
          else
            (body { g := g, x := lanes, act := lanes &&& grp.predLanes (xs.headD Args.bare), pc := s.cur.pc, next := s.cur.pc + 4 * s.cur.len }
              s |>.unlessOwed (grp.owes ks) s).afterPath s g

/-- The issuing lanes go to the next instruction. -/
def advance (g : Nat) (x : Mask) (next : Nat) (s : State) : State :=
  s.updGroup g fun q => { q with lanes := mapLanes q.lanes x fun _ a => { a with pc := BitVec.ofNat 32 next } }

/-- The place of the candidate that issued last among those that remain, `i` being its place before; where it is gone, that
of the one before it, so that the rotation goes on with the one after it (R79). -/
def lastIssued (before : List SubG) (i : Nat) (g : Group) : Nat :=
  let mine := (before[i]?.map (·.lanes)).getD 0
  let earlier := (before.take i).foldl (fun a c => a ||| c.lanes) 0
  let n := (g.subs.filter fun c => c.lanes &&& earlier != 0).length
  (g.subs.findIdx? fun c => c.lanes &&& mine != 0).getD (if n = 0 then g.subs.length - 1 else n - 1)

/-- A group is the one of its sub-core that issued last, and the one that did before loses its latches (R23, R79). -/
def issuedLast (g : Nat) (s : State) : State :=
  let c := coreOfGroup g
  let b := subOfGroup g
  let last := ((s.core c).subs[b]?.bind (·.last))
  let s := match last with
    | some o => if o = slotOfGroup g then s else s.updGroup (c * 64 + b * 16 + o) Group.loseLatches
    | none => s
  s.updSub c b fun q => { q with last := some (slotOfGroup g) }

/-- The candidates tidied where something other than an issue has moved lanes: the one that issued last keeps its place in
the rotation (R79). -/
def Group.retidy (before g : Group) : Group := { g.tidy with lastSub := lastIssued before.subs before.lastSub g.tidy }

/-- What an issue does after the instruction: the sub-core's order and the other group's latches (R23, R79), the
candidates (R87, R91, R92). -/
def settle (g : Nat) (lanes : Mask) (s : State) : State :=
  let s := ((issuedLast g s).dropReplies (0, g)).leaveEntryWait (coreOfGroup g) (0, g) lanes
  s.updGroup g fun q =>
    let i := q.candOf lanes
    let q := q.updSubG i fun k => { k with lastX := lanes, hprio := if k.hprio &&& lanes = 0 then k.hprio else k.hprio ||| lanes }
    { q.tidy with lastSub := lastIssued q.subs i q.tidy, wait := none, held := 0 }

/-- A pair whose members no longer agree becomes SPLIT (R94). -/
def recheckPair (s : State) (g : Nat) : State :=
  match Tbl.get? s.groups g with
  | none => s
  | some grp =>
    match joinedPartner s grp with
    | none => s
    | some p =>
      match Tbl.get? s.groups p with
      | none => s
      | some q =>
        let all := BitVec.allOnes 32
        if grp.converged && q.converged && grp.live != 0 && q.live != 0 &&
            grp.minKey (grp.live &&& all) == q.minKey (q.live &&& all) then s
        else splitPair s g

/-- Whether accesses of a group's instruction are with other devices. -/
def State.asking (s : State) (g : Nat) : Bool :=
  (s.txns.any fun t => t.2.party == (0, g)) || s.replies.any fun r => r.party == (0, g)

/-- A group that waits: as it was before the issue, but for what the wait itself records. -/
def unissued (m : Nat × Mask) (before after : State) : State :=
  match Tbl.get? before.groups m.1 with
  | none => after
  | some old => after.updGroup m.1 fun q =>
    { q with latches := old.latches, lastX := old.lastX, subs := old.subs, protect := old.protect
             held := if after.asking m.1 then m.2 else q.held }

/-- The state of an issue that waits. -/
def stall (m : Nat × Mask) (before after : State) : State :=
  let s := unissued m before after
  { s with cur := { s.cur with stalled := true } }

/-- Whether a group stands in the wait of a collective instruction (R107, R264). -/
def standsWaiting (s : State) (g : Nat) : Bool := ((Tbl.get? s.groups g).bind (·.wait)).isSome

/-- A member's part that has been done, with its lanes moved on. -/
def GEff.finish (m : Nat × Mask) (next : Nat) : GEff → Option State
  | .done s => some (settle m.1 m.2 (advance m.1 m.2 next s))
  | .jump s => some (settle m.1 m.2 s)
  | _ => none

/-- The issuing set of a JOINED partner: all its lanes that can issue. -/
def partnerSet (s : State) (p : Nat) : Mask :=
  match Tbl.get? s.groups p with
  | some q => q.issuable
  | none => 0

/-- A fault delivered, with the issue settled. -/
def deliver (g : Nat) (lanes : Mask) (c : Cause) (s : State) : State :=
  settle g lanes (raise g lanes c s)

/-- Issues an instruction in the two members of a JOINED pair, the conditional one first, so that its request comes first to
the demand path (R38, R94, R100, R314; log entry 49). While a member is
not ready neither issues, and what its wait records stands; a fault of one member while the other has come to a collective
wait leaves that one waiting (R264). -/
def issuePair (xs : List Args) (vs ks : List Nat) (body : Mem → State → GEff) (m1 m2 : Nat × Mask) (s : State) :
    Host.Outcome State Fault Refusal :=
  let next := s.cur.pc + 4 * s.cur.len
  match runMember xs vs ks body m1.1 m1.2 s with
  | .all s' => .next (recheckPair s' m1.1)
  | .wait s' =>
    -- a collective wait may end in the other member
    (match runMember xs vs ks body m2.1 m2.2 s' with
      | .all s2 => .next (recheckPair s2 m1.1)
      | .wait s2 => .next (stall m1 s (stall m2 s' s2))
      | .fault c2 =>
        if standsWaiting s' m1.1 then .next (deliver m2.1 m2.2 c2 (splitPair (unissued m1 s s') m1.1)) else .next (stall m1 s s')
      | _ => .next (stall m1 s s'))
  | .fault c1 =>
    match runMember xs vs ks body m2.1 m2.2 s with
    | .all s' => .next (recheckPair s' m1.1)
    | .wait s' =>
      if standsWaiting s' m2.1 then .next (deliver m1.1 m1.2 c1 (splitPair (unissued m2 s s') m1.1)) else .next (stall m2 s s')
    | .fault c2 => .next (recheckPair (deliver m2.1 m2.2 c2 (deliver m1.1 m1.2 c1 s)) m1.1)
    | e =>
      match e.finish m2 next with
      | some s2 => .next (deliver m1.1 m1.2 c1 (splitPair s2 m1.1))
      | none => .next s
  | e1 =>
    match e1.finish m1 next with
    | none => .next s
    | some s1 =>
      match runMember xs vs ks body m2.1 m2.2 s1 with
      | .wait _ =>
        match runMember xs vs ks body m2.1 m2.2 s with
        | .wait s2 => .next (stall m2 s s2)
        | _ => .next { s with cur := { s.cur with stalled := true } }
      | .fault c2 => .next (deliver m2.1 m2.2 c2 (splitPair s1 m1.1))
      | e2 =>
        match e2.finish m2 next with
        | some s2 => .next (recheckPair s2 m1.1)
        | none => .next s

/-- Issues a group instruction, or a P64 of two: in the one group that issues, or in both members of a JOINED pair.
`vs` are the v registers and `ks` the k registers that must await nothing. -/
def issueHalves (xs : List Args) (vs ks : List Nat) (body : Mem → State → GEff) (s : State) : Host.Outcome State Fault Refusal :=
  match s.cur.by_ with
  | .group g =>
    match Tbl.get? s.groups g with
    | none => .fault .noIssuer
    | some grp =>
      match joinedPartner s grp with
      | some p =>
        let me := (g, s.cur.lanes)
        let you := (p, partnerSet s p)
        let cond := (grp.pair.map (·.cond)).getD true
        if cond then issuePair xs vs ks body me you s else issuePair xs vs ks body you me s
      | none =>
        match runMember xs vs ks body g s.cur.lanes s with
        | .all s' => .next s'
        | .wait s' => .next (stall (g, s.cur.lanes) s s')
        | .fault c => .next (deliver g s.cur.lanes c (splitPair s g))
        | e =>
          match e.finish (g, s.cur.lanes) (s.cur.pc + 4 * s.cur.len) with
          | some s' => .next s'
          | none => .next s
  | _ => .fault .noIssuer

/-- Issues one group instruction. -/
def issueGroup (x : Args) (vs ks : List Nat) (body : Mem → State → GEff) (s : State) : Host.Outcome State Fault Refusal :=
  issueHalves [x] vs ks body s

/-- Issues a Wick instruction (R41, R46); `ws` are the s registers it names by number. -/
def issueWick (x : Args) (ws : List Nat) (body : Nat → State → GEff) (s : State) : Host.Outcome State Fault Refusal :=
  match s.cur.by_ with
  | .wick t =>
    match Tbl.get? s.teams t with
    | none => .fault .noIssuer
    | some tm =>
      if tm.parked.isSome || tokensPending s t ([x.a, x.b, x.c].filterMap wsOf) then
        .next { s with cur := { s.cur with stalled := true } }
      else
        let leave : State → State := fun s =>
          (((s.updCore (coreOfTeam t) fun k => { k with wickLast := t % 8 }).updTeam t fun tm => { tm with wait := none }).dropReplies
            (1, t)).leaveEntryWait (coreOfTeam t) (1, t) 0
        match (body t s).unlessOwed (tokensPending s t ws) s with
        | .done s' => .next (leave (s'.updTeam t fun tm => { tm with wpc := s.cur.pc + 4 * s.cur.len }))
        | .jump s' => .next (leave s')
        | .all s' => .next (leave s')
        | .wait s' => .next { s' with cur := { s'.cur with stalled := true } }
        | .fault c => .next (leave (wickFault t c s))
  | _ => .fault .noIssuer

/-! ### Parties that issue instructions legal in group and Wick code -/

/-- Who issues: a member of a group issue, or the Wick of a team. -/
inductive Who where
  | group (m : Mem)
  | wick (t : Nat)
  deriving DecidableEq, Repr

/-- The team of a party. -/
def Who.team (w : Who) (s : State) : Nat :=
  match w with
  | .wick t => t
  | .group m => ((Tbl.get? s.groups m.g).map (·.team)).getD 0

/-- The core of a party. -/
def Who.core : Who → Nat
  | .wick t => coreOfTeam t
  | .group m => coreOfGroup m.g

/-- The issuing lanes of a party; none for the Wick. -/
def Who.lanes : Who → Mask
  | .wick _ => 0
  | .group m => m.x

/-- Whether a party acts: the Wick always, a group with an active lane. -/
def Who.acts : Who → Bool
  | .wick _ => true
  | .group m => m.act != 0

/-- The lowest active lane of a party, 0 for the Wick. -/
def Who.lane : Who → Nat
  | .wick _ => 0
  | .group m => (lowest m.act).getD 0

/-- The record of a party (R470). -/
def Who.record (w : Who) (s : State) (code cls sev recov : Nat) : RecIn :=
  match w with
  | .group m => { groupRec s m.g code cls sev recov with lane := (lowest m.act).getD 255 }
  | .wick t => wickRec s t code cls sev recov

/-- A uniform operand as 64 bits, a literal sign-extended (R17, R21, R34). -/
def Who.uni (w : Who) (s : State) : Src → W64
  | .v r => (match w with
    | .wick t => s.sreg t r.toNat
    | .group _ => 0)
  | .k r => (match w with
    | .group m => ((Tbl.get? s.groups m.g).map (·.k r.toNat)).getD 0
    | .wick _ => 0)
  | .s r => s.sreg (w.team s) r.toNat
  | .zero => 0
  | .ones => BitVec.allOnes 64
  | .lit l => l.signExtend 64
  | .num n => n.zeroExtend 64
  | .latch _ => 0
  | .none => 0

/-- A uniform operand as 64 bits, a literal zero-extended. -/
def Who.uniZ (w : Who) (s : State) : Src → W64
  | .lit l => l.zeroExtend 64
  | x => w.uni s x

/-- Writes the k register, or in Wick code the s register, of a number (R61). -/
def Who.setNum (w : Who) (n : Nat) (v : W64) (s : State) : State :=
  match w with
  | .group m => s.updGroup m.g fun q => q.setK n v
  | .wick t => s.updTeam t fun tm => { tm with sregs := Tbl.set tm.sregs n v }

/-- Issues an instruction that group code and Wick code may both hold; `ks` are the k registers, in Wick code the
s registers, it names by number. -/
def issueAny (x : Args) (vs ks : List Nat) (body : Who → State → GEff) (s : State) : Host.Outcome State Fault Refusal :=
  match s.cur.by_ with
  | .wick _ => issueWick x ks (fun t s => body (.wick t) s) s
  | _ => issueGroup x vs ks (fun m s => if m.act = 0 then .done s else body (.group m) s) s

/-- Resets the backward-branch count of the issuing candidate (R91). -/
def resetBack (m : Mem) (s : State) : State :=
  s.updGroup m.g fun q => q.updSubG (q.candOf m.x) fun c => { c with back := 0 }

/-- The same for any party. -/
def Who.resetBack (w : Who) (s : State) : State :=
  match w with
  | .group m => Machine.resetBack m s
  | .wick _ => s

end Sys2Proof.Machine
end

