-- ==== Sys2Proof/Machine/Operands.lean ====
section
/-! DEFINITION. Every operand form of a group instruction as lane values, and the one way in which a lane
result is formed, written and latched (R17 to R22, R117 to R122, R133). -/

namespace Sys2Proof.Machine

/-- The v registers a source reads; with `wide` a pair (R133). -/
def srcRegs (wide : Bool) : Src → List Nat
  | .v r => if wide then [r.toNat, r.toNat + 1] else [r.toNat]
  | _ => []

/-- A source as a run list of 32-bit values: its own for a v register or latch, one run otherwise (R17, R117). -/
def laneRuns (m : Mem) (s : State) (src : Src) : Runs :=
  match Tbl.get? s.groups m.g with
  | none => Runs.zero
  | some grp =>
    match src with
    | .v r => runsOf s m.g grp r.toNat
    | .latch n => (grp.latches[n.toNat]?.map (·.runs)).getD Runs.zero
    | .none => Runs.zero
    | x => Runs.const (lo32 ((Who.group m).uni s x))

/-- The high words of a source on 64-bit lanes (R133): the odd register of a pair, the sign of a latch's word,
the upper half of a uniform operand. -/
def laneRunsHi (m : Mem) (s : State) (src : Src) : Runs :=
  match Tbl.get? s.groups m.g with
  | none => Runs.zero
  | some grp =>
    match src with
    | .v r => runsOf s m.g grp (r.toNat + 1)
    | .latch n => ((grp.latches[n.toNat]?.map (·.runs)).getD Runs.zero).map fun q =>
        { q with val := if q.val.getLsbD 31 then BitVec.allOnes 32 else 0 }
    | .none => Runs.zero
    | x => Runs.const (hi32 ((Who.group m).uni s x))

/-- A source read per lane: 64 bits where `wide`, else 32 bits zero-extended; and where its runs begin. -/
structure Operand where
  lo : Runs
  hi : Runs
  wide : Bool
  deriving DecidableEq, Repr

/-- The operand of a source. -/
def operand (m : Mem) (s : State) (wide : Bool) (src : Src) : Operand :=
  { lo := laneRuns m s src, hi := if wide then laneRunsHi m s src else Runs.zero, wide := wide }

/-- The value of an operand in a lane. -/
def Operand.at (o : Operand) (l : Nat) : W64 :=
  if o.wide then join64 (Runs.val o.hi l) (Runs.val o.lo l) else (Runs.val o.lo l).zeroExtend 64

/-- The 32-bit value of an operand in a lane. -/
def Operand.at32 (o : Operand) (l : Nat) : W32 := Runs.val o.lo l

/-- Whether a run of an operand begins at a lane (R117, R120). -/
def Operand.cuts (o : Operand) (l : Nat) : Bool := Runs.starts o.lo l || (o.wide && Runs.starts o.hi l)

/-- The C bit of MOD (R18). -/
def cBit (x : Args) : Bool := x.mod.getLsbD 0
/-- The U bit of MOD. -/
def uBit (x : Args) : Bool := x.mod.getLsbD 1
/-- The rounding mode of MOD. -/
def rmOf (x : Args) : RM := RM.of (x.mod.toNat / 4)
/-- Bits of MOD as a number. -/
def modBits (x : Args) (lo n : Nat) : Nat := bits x.mod.toNat lo n

/-- The registers a lane result with a v destination writes. -/
def dstRegs (x : Args) (wide : Bool) : List Nat :=
  if x.dsel then [] else if wide then [x.dst.toNat, x.dst.toNat + 1] else [x.dst.toNat]

/-- The low word of a piece. -/
def pieceLo (v : W64) : W32 := lo32 v
/-- The high word of a piece. -/
def pieceHi (v : W64) : W32 := hi32 v

/-- How an instruction forms its lane result (R117 to R122): the registers it reads, the lanes it writes, where
pieces are cut, whether C merges them, and each lane's value. -/
structure LaneOp where
  reads : List Nat
  wset : Mask
  wide : Bool
  cut : Nat → Bool
  merge : Bool
  op : Nat → W64
  /-- All equal neighbours of the result merge and no SPLICE bit stays (R146). -/
  coal : Bool := false

/-- The run list that one word of a result gives a register. -/
def LaneOp.form (o : LaneOp) (old : Runs) (proj : W64 → W32) : Runs :=
  let rs := spliceRuns o.wset old proj (pieces o.wset o.cut o.merge o.op)
  if o.coal then mergeRuns rs else rs

/-- The registers a lane result writes with their new run lists, the low word first. -/
def LaneOp.news (o : LaneOp) (m : Mem) (grp : Group) (d : Nat) (s : State) : List (Nat × Runs) :=
  let lo := (d, o.form (runsOf s m.g grp d) pieceLo)
  if o.wide then [lo, (d + 1, o.form (runsOf s m.g grp (d + 1)) pieceHi)] else [lo]

/-- Whether lanes outside the written ones keep their values. -/
def LaneOp.keeps (o : LaneOp) : Bool := o.wset != BitVec.allOnes 32

/-- A k result of a lane instruction (R19): the value of the lowest lane written, or what the register holds. -/
def LaneOp.kVal (o : LaneOp) (old : W64) : W64 :=
  match lowest o.wset with
  | some l => o.op l
  | none => old

/-- Writes a lane result (R19, R22): to a v register, a pair of them, a k register, or nothing, and to the latches. -/
def laneDo (m : Mem) (x : Args) (o : LaneOp) (s : State) : GEff :=
  match Tbl.get? s.groups m.g with
  | none => .done s
  | some grp =>
    if x.dsel then
      let kd := x.dst.toNat - 32
      let v := o.kVal (grp.k kd)
      match readRegs m o.reads s with
      | .done s => .done (s.updGroup m.g fun q => (if x.nwb then q else q.setK kd v).pushLatch (Runs.const (lo32 v)))
      | e => e
    else
      let news := o.news m grp x.dst.toNat s
      let e :=
        if x.nwb then readRegs m (if o.keeps then o.reads ++ news.map (·.1) else o.reads) s
        else writeRegs m o.reads (if o.keeps then news.map (·.1) else []) news s
      match e with
      | .done s => .done (s.updGroup m.g fun q => q.pushLatch ((news.head?.map (·.2)).getD Runs.zero))
      | e => e

/-- The lane result of an NWB form that cannot raise RUNOVF (R227). -/
def laneFree (m : Mem) (x : Args) (o : LaneOp) (s : State) : GEff :=
  match Tbl.get? s.groups m.g with
  | none => .done s
  | some grp =>
    let rs := if x.dsel then Runs.const (lo32 (o.kVal (grp.k (x.dst.toNat - 32)))) else o.form (runsOf s m.g grp x.dst.toNat) pieceLo
    match readRegsFree m o.reads s with
    | .done s => .done (s.updGroup m.g fun q => q.pushLatch rs)
    | e => e

/-- A lane result given by its parts. -/
def laneResult (m : Mem) (x : Args) (wide : Bool) (reads : List Nat) (wset : Mask) (cut : Nat → Bool) (merge : Bool)
    (op : Nat → W64) (s : State) : GEff :=
  laneDo m x { reads := reads, wset := wset, wide := wide, cut := cut, merge := merge, op := op } s

/-- A uniform result of a k number in the dst field: it enters no latch (R153, R200). -/
def setKResult (m : Mem) (n : Nat) (v : W64) (s : State) : State := s.updGroup m.g fun q => q.setK n v

/-- An elementwise instruction of one source. -/
def op1 (x : Args) (wide : Bool) (f : W64 → W64) (m : Mem) (s : State) : LaneOp :=
  let a := operand m s wide x.a
  { reads := srcRegs wide x.a, wset := m.act, wide := wide, cut := a.cuts, merge := cBit x, op := fun l => f (a.at l) }

/-- An elementwise instruction of two sources. -/
def op2 (x : Args) (wide : Bool) (f : W64 → W64 → W64) (m : Mem) (s : State) : LaneOp :=
  let a := operand m s wide x.a
  let b := operand m s wide x.b
  { reads := srcRegs wide x.a ++ srcRegs wide x.b, wset := m.act, wide := wide
    cut := fun l => a.cuts l || b.cuts l, merge := cBit x, op := fun l => f (a.at l) (b.at l) }

/-- An elementwise instruction of three sources; C comes with the opcode (R18). -/
def op3 (x : Args) (merge : Bool) (f : W32 → W32 → W32 → W32) (m : Mem) (s : State) : LaneOp :=
  let a := operand m s false x.a
  let b := operand m s false x.b
  let c := operand m s false x.c
  { reads := srcRegs false x.a ++ srcRegs false x.b ++ srcRegs false x.c, wset := m.act, wide := false
    cut := fun l => a.cuts l || b.cuts l || c.cuts l, merge := merge
    op := fun l => (f (a.at32 l) (b.at32 l) (c.at32 l)).zeroExtend 64 }

/-- A function of 32-bit words on lane values. -/
def on32 (f : W32 → W32) (a : W64) : W64 := (f (lo32 a)).zeroExtend 64
/-- A function of two 32-bit words on lane values. -/
def on32x2 (f : W32 → W32 → W32) (a b : W64) : W64 := (f (lo32 a) (lo32 b)).zeroExtend 64

/-- The v registers an instruction reads or writes: what must await nothing before it issues. -/
def touched (x : Args) (wide : Bool) : List Nat :=
  srcRegs wide x.a ++ srcRegs wide x.b ++ srcRegs wide x.c ++ dstRegs x wide

/-- The k register that DSEL = 1 names. -/
def dselK (x : Args) : List Nat := if x.dsel then [x.dst.toNat - 32] else []

/-- Issues a lane instruction. -/
def issueLane (x : Args) (wide : Bool) (body : Mem → State → GEff) (s : State) : Host.Outcome State Fault Refusal :=
  issueGroup x (touched x wide) (dselK x) body s

/-- Issues an instruction whose whole effect is a lane result. -/
def issueOp (x : Args) (wide : Bool) (f : Mem → State → LaneOp) (s : State) : Host.Outcome State Fault Refusal :=
  issueLane x wide (fun m s => laneDo m x (f m s) s) s

/-- An instruction that writes a predicate: the bits of the active lanes (R135, R149). -/
def predResult (m : Mem) (x : Args) (reads : List Nat) (f : Nat → Bool) (s : State) : GEff :=
  match readRegs m reads s with
  | .done s => .done (s.updGroup m.g fun q => q.setPred x.dst.toNat m.act (maskOf f))
  | e => e

/-- The same for an instruction that never raises RUNOVF (R178). -/
def predResultFree (m : Mem) (x : Args) (reads : List Nat) (f : Nat → Bool) (s : State) : GEff :=
  match readRegsFree m reads s with
  | .done s => .done (s.updGroup m.g fun q => q.setPred x.dst.toNat m.act (maskOf f))
  | e => e

/-- A uniform 64-bit operand of either kind of code: of a v register the pair from it on, of a latch its word
sign-extended, in the lowest active lane, with 0 above v1023 (log entry 18); a literal is sign-extended (R21). -/
def wholeValue (w : Who) (s : State) (src : Src) : W64 :=
  match w, src with
  | .group m, .v r => (operand m s true (.v r)).at w.lane
  | .group m, .latch n => (operand m s true (.latch n)).at w.lane
  | w, src => w.uni s src

end Sys2Proof.Machine
end

