-- ==== Sys2Proof/Machine/Flags.lean ====
section
/-! DEFINITION. Every flag the device computes: the relations that set predicate bits and s registers, and the
group status register with its write-one-to-clear bits (R64, R98, R135, R141). -/

namespace Sys2Proof.Machine

/-- The relation COND between two integers of one width, signed or unsigned (R64, R135). -/
def intCond {w : Nat} (cond : Nat) (unsigned : Bool) (a b : BitVec w) : Bool :=
  let lt := if unsigned then decide (a.toNat < b.toNat) else decide (a.toInt < b.toInt)
  match cond with
  | 0 => a == b
  | 1 => a != b
  | 2 => lt
  | 3 => lt || a == b
  | 4 => !(lt || a == b)
  | _ => !lt

/-- The number of candidates less one, SUBG (R98); a trap handler is one candidate (log entry 45). -/
def Group.subg (g : Group) : Nat := (g.subs.length - 1) % 8

/-- gsr as it reads (R98). -/
def Group.gsr (g : Group) : W64 :=
  let b (v : Bool) (i : Nat) : Nat := if v then 2 ^ i else 0
  BitVec.ofNat 64
    (b g.pdis 15 + b ((g.pair.map (·.cond)).getD false) 14 + b ((g.pair.map (·.joined)).getD false) 13 +
      b g.pair.isSome 12 + g.subg * 2 ^ 8 + b g.spin 3 + b g.dqend 2 + b g.jto 1 + b g.empty 0)

/-- The W1C bits of gsr that a word names cleared; every other bit is left (R98, R407). -/
def Group.clearGsr (g : Group) (w : W64) : Group :=
  { g with pdis := g.pdis && !w.getLsbD 15, spin := g.spin && !w.getLsbD 3, jto := g.jto && !w.getLsbD 1
           empty := g.empty && !w.getLsbD 0 }

/-- EMPTY set where a reduction, vote or scan had no active lane (R156, R164). -/
def Group.noteEmpty (g : Group) (a : Mask) : Group := if a = 0 then { g with empty := true } else g

/-- The pair word of `kstat.pair` (R111). -/
def Group.pairWord (g : Group) : W64 :=
  match g.pair with
  | none => 0
  | some p => BitVec.ofNat 64 (p.partner % 32 + 2 ^ 8 + (if p.joined then 2 ^ 9 else 0) + (if p.cond then 2 ^ 10 else 0))

/-- TSTAT (R407). -/
def Group.tstat (g : Group) : W64 := if g.trap.isSome then 1 else 0

end Sys2Proof.Machine
end

