-- ==== Sys2Proof/Machine/FloatAlu.lean ====
section
/-! DEFINITION. The elementwise floating-point instructions (R137 to R142), each with its compact form (R28). -/

namespace Sys2Proof.Machine

/-- `fadd` (R137). -/
def opFadd (x : Args) : Mem → State → LaneOp := op2 x false (on32x2 (fAdd (rmOf x)))
/-- `fsub` (R137). -/
def opFsub (x : Args) : Mem → State → LaneOp := op2 x false (on32x2 (fSub (rmOf x)))
/-- `fmul` (R137). -/
def opFmul (x : Args) : Mem → State → LaneOp := op2 x false (on32x2 (fMul (rmOf x)))
/-- `fmin` (R140). -/
def opFmin (x : Args) : Mem → State → LaneOp := op2 x false (on32x2 fMin)
/-- `fmax` (R140). -/
def opFmax (x : Args) : Mem → State → LaneOp := op2 x false (on32x2 fMax)
/-- `fabs` (R140). -/
def opFabs (x : Args) : Mem → State → LaneOp := op1 x false (on32 fun a => a &&& 0x7FFFFFFF)
/-- `fneg` (R140). -/
def opFneg (x : Args) : Mem → State → LaneOp := op1 x false (on32 fun a => a ^^^ 0x80000000)
/-- `frcp` (R139). -/
def opFrcp (x : Args) : Mem → State → LaneOp := op1 x false (on32 (fRcp (rmOf x)))
/-- `frsq` (R139). -/
def opFrsq (x : Args) : Mem → State → LaneOp := op1 x false (on32 (fRsq (rmOf x)))
/-- `fsqrt` (R139). -/
def opFsqrt (x : Args) : Mem → State → LaneOp := op1 x false (on32 (fSqrt (rmOf x)))
/-- `fexp2` (R139). -/
def opFexp2 (x : Args) : Mem → State → LaneOp := op1 x false (on32 (fExp2 (rmOf x)))
/-- `flog2` (R139). -/
def opFlog2 (x : Args) : Mem → State → LaneOp := op1 x false (on32 (fLog2 (rmOf x)))

/-- R137: `fadd`. -/
def execFadd (x : Args) (s : State) : Host.Outcome State Fault Refusal := issueOp x false (opFadd x) s
/-- R28: compact `fadd`. -/
def execFaddC32 (x : Args) (s : State) : Host.Outcome State Fault Refusal := issueOp x false (opFadd x) s
/-- R137: `fsub`. -/
def execFsub (x : Args) (s : State) : Host.Outcome State Fault Refusal := issueOp x false (opFsub x) s
/-- R28: compact `fsub`. -/
def execFsubC32 (x : Args) (s : State) : Host.Outcome State Fault Refusal := issueOp x false (opFsub x) s
/-- R137: `fmul`. -/
def execFmul (x : Args) (s : State) : Host.Outcome State Fault Refusal := issueOp x false (opFmul x) s
/-- R28: compact `fmul`. -/
def execFmulC32 (x : Args) (s : State) : Host.Outcome State Fault Refusal := issueOp x false (opFmul x) s
/-- R140: `fmin`. -/
def execFmin (x : Args) (s : State) : Host.Outcome State Fault Refusal := issueOp x false (opFmin x) s
/-- R28: compact `fmin`. -/
def execFminC32 (x : Args) (s : State) : Host.Outcome State Fault Refusal := issueOp x false (opFmin x) s
/-- R140: `fmax`. -/
def execFmax (x : Args) (s : State) : Host.Outcome State Fault Refusal := issueOp x false (opFmax x) s
/-- R28: compact `fmax`. -/
def execFmaxC32 (x : Args) (s : State) : Host.Outcome State Fault Refusal := issueOp x false (opFmax x) s
/-- R140: `fabs`. -/
def execFabs (x : Args) (s : State) : Host.Outcome State Fault Refusal := issueOp x false (opFabs x) s
/-- R28: compact `fabs`. -/
def execFabsC32 (x : Args) (s : State) : Host.Outcome State Fault Refusal := issueOp x false (opFabs x) s
/-- R140: `fneg`. -/
def execFneg (x : Args) (s : State) : Host.Outcome State Fault Refusal := issueOp x false (opFneg x) s
/-- R28: compact `fneg`. -/
def execFnegC32 (x : Args) (s : State) : Host.Outcome State Fault Refusal := issueOp x false (opFneg x) s
/-- R139: `frcp`. -/
def execFrcp (x : Args) (s : State) : Host.Outcome State Fault Refusal := issueOp x false (opFrcp x) s
/-- R28: compact `frcp`. -/
def execFrcpC32 (x : Args) (s : State) : Host.Outcome State Fault Refusal := issueOp x false (opFrcp x) s
/-- R139: `frsq`. -/
def execFrsq (x : Args) (s : State) : Host.Outcome State Fault Refusal := issueOp x false (opFrsq x) s
/-- R28: compact `frsq`. -/
def execFrsqC32 (x : Args) (s : State) : Host.Outcome State Fault Refusal := issueOp x false (opFrsq x) s
/-- R139: `fsqrt`. -/
def execFsqrt (x : Args) (s : State) : Host.Outcome State Fault Refusal := issueOp x false (opFsqrt x) s
/-- R28: compact `fsqrt`. -/
def execFsqrtC32 (x : Args) (s : State) : Host.Outcome State Fault Refusal := issueOp x false (opFsqrt x) s
/-- R139: `fexp2`. -/
def execFexp2 (x : Args) (s : State) : Host.Outcome State Fault Refusal := issueOp x false (opFexp2 x) s
/-- R28: compact `fexp2`. -/
def execFexp2C32 (x : Args) (s : State) : Host.Outcome State Fault Refusal := issueOp x false (opFexp2 x) s
/-- R139: `flog2`. -/
def execFlog2 (x : Args) (s : State) : Host.Outcome State Fault Refusal := issueOp x false (opFlog2 x) s
/-- R28: compact `flog2`. -/
def execFlog2C32 (x : Args) (s : State) : Host.Outcome State Fault Refusal := issueOp x false (opFlog2 x) s
/-- R137: `ffma`. -/
def execFfma (x : Args) (s : State) : Host.Outcome State Fault Refusal := issueOp x false (op3 x false fFma) s
/-- R137: `ffma.c`. -/
def execFfmaC (x : Args) (s : State) : Host.Outcome State Fault Refusal := issueOp x false (op3 x true fFma) s

/-- R141: `fcmp`. -/
def execFcmp (x : Args) (s : State) : Host.Outcome State Fault Refusal :=
  issueGroup x (srcRegs false x.a ++ srcRegs false x.b) [predKey x.dst.toNat] (fun m s =>
    let a := operand m s false x.a
    let b := operand m s false x.b
    predResult m x (srcRegs false x.a ++ srcRegs false x.b) (fun l => fCond (modBits x 5 3) (a.at32 l) (b.at32 l)) s) s

/-- R142: `fclass`. -/
def execFclass (x : Args) (s : State) : Host.Outcome State Fault Refusal := issueOp x false (op1 x false (on32 fClass)) s

end Sys2Proof.Machine
end

