-- ==== Sys2Proof/Machine/IntAlu.lean ====
section
/-! DEFINITION. The elementwise integer instructions (R134 to R136), the moves and broadcasts (R143 to R145)
and run management (R146, R147), each with its compact form (R28). -/

namespace Sys2Proof.Machine

/-- W of MOD (R18). -/
def wBit (x : Args) : Bool := x.mod.getLsbD 4

/-- The shift amount of a 64-bit shift, or of a 32-bit one (R134). -/
def shiftBy (wide : Bool) (b : W64) : Nat := b.toNat % (if wide then 64 else 32)

/-- A value of 32 or 64 bits that counts as negative by its top bit, as a whole number. -/
def signedOf (wide : Bool) (a : W64) : Int := if wide then a.toInt else (lo32 a).toInt

/-- The lesser of two words, signed or unsigned (R134). -/
def lessInt (wide unsigned : Bool) (a b : W64) : Bool :=
  if unsigned then decide (a.toNat < b.toNat) else decide (signedOf wide a < signedOf wide b)

/-- A 32-bit result where the instruction is not wide: the upper half is no part of it. -/
def narrow (wide : Bool) (a : W64) : W64 := if wide then a else (lo32 a).zeroExtend 64

/-! ### What each operation forms -/

/-- `iadd` (R134). -/
def opIadd (x : Args) : Mem → State → LaneOp := op2 x (wBit x) fun a b => narrow (wBit x) (a + b)
/-- `isub` (R134). -/
def opIsub (x : Args) : Mem → State → LaneOp := op2 x (wBit x) fun a b => narrow (wBit x) (a - b)
/-- `imul` (R134). -/
def opImul (x : Args) : Mem → State → LaneOp := op2 x false (on32x2 fun a b => a * b)
/-- The high word of a product, signed or unsigned (R134). -/
def mulHigh (unsigned : Bool) (a b : W32) : W32 :=
  if unsigned then BitVec.ofNat 32 (a.toNat * b.toNat / 2 ^ 32) else BitVec.ofInt 32 (a.toInt * b.toInt / 2 ^ 32)
/-- `imulh` (R134). -/
def opImulh (x : Args) : Mem → State → LaneOp := op2 x false (on32x2 (mulHigh (uBit x)))
/-- `iabs` (R134). -/
def opIabs (x : Args) : Mem → State → LaneOp := op1 x false (on32 fun a => if a.getLsbD 31 then -a else a)
/-- `imin` (R134). -/
def opImin (x : Args) : Mem → State → LaneOp :=
  op2 x (wBit x) fun a b => if lessInt (wBit x) (uBit x) b a then b else a
/-- `imax` (R134). -/
def opImax (x : Args) : Mem → State → LaneOp :=
  op2 x (wBit x) fun a b => if lessInt (wBit x) (uBit x) a b then b else a
/-- `and` (R134). -/
def opAnd (x : Args) : Mem → State → LaneOp := op2 x (wBit x) fun a b => a &&& b
/-- `or` (R134). -/
def opOr (x : Args) : Mem → State → LaneOp := op2 x (wBit x) fun a b => a ||| b
/-- `xor` (R134). -/
def opXor (x : Args) : Mem → State → LaneOp := op2 x (wBit x) fun a b => a ^^^ b
/-- `not` (R134). -/
def opNot (x : Args) : Mem → State → LaneOp := op1 x (wBit x) fun a => narrow (wBit x) (~~~a)
/-- `shl` (R134). -/
def opShl (x : Args) : Mem → State → LaneOp := op2 x (wBit x) fun a b => narrow (wBit x) (a <<< shiftBy (wBit x) b)
/-- `shr` (R134). -/
def opShr (x : Args) : Mem → State → LaneOp := op2 x (wBit x) fun a b => a >>> shiftBy (wBit x) b
/-- `sra` (R134). -/
def opSra (x : Args) : Mem → State → LaneOp :=
  op2 x (wBit x) fun a b =>
    if wBit x then a.sshiftRight (shiftBy true b) else ((lo32 a).sshiftRight (shiftBy false b)).zeroExtend 64
/-- `rol` (R134). -/
def opRol (x : Args) : Mem → State → LaneOp := op2 x false (on32x2 fun a b => a.rotateLeft (b.toNat % 32))
/-- `popc` (R134). -/
def opPopc (x : Args) : Mem → State → LaneOp :=
  op1 x false (on32 fun a => BitVec.ofNat 32 ((lanesOf a).length))
/-- `clz` (R134). -/
def opClz (x : Args) : Mem → State → LaneOp :=
  op1 x false (on32 fun a => BitVec.ofNat 32 (if a = 0 then 32 else 31 - a.toNat.log2))
/-- `mov` (R143). -/
def opMov (x : Args) : Mem → State → LaneOp := op1 x (wBit x) id
/-- `rcoal` (R146). -/
def opRcoal (x : Args) (m : Mem) (s : State) : LaneOp := { op1 x false id m s with merge := false, coal := true }

/-! ### The instructions -/

/-- R134: `iadd`. -/
def execIadd (x : Args) (s : State) : Host.Outcome State Fault Refusal := issueOp x (wBit x) (opIadd x) s
/-- R28: compact `iadd`. -/
def execIaddC32 (x : Args) (s : State) : Host.Outcome State Fault Refusal := issueOp x (wBit x) (opIadd x) s
/-- R134: `isub`. -/
def execIsub (x : Args) (s : State) : Host.Outcome State Fault Refusal := issueOp x (wBit x) (opIsub x) s
/-- R28: compact `isub`. -/
def execIsubC32 (x : Args) (s : State) : Host.Outcome State Fault Refusal := issueOp x (wBit x) (opIsub x) s
/-- R134: `imul`. -/
def execImul (x : Args) (s : State) : Host.Outcome State Fault Refusal := issueOp x false (opImul x) s
/-- R28: compact `imul`. -/
def execImulC32 (x : Args) (s : State) : Host.Outcome State Fault Refusal := issueOp x false (opImul x) s
/-- R134: `imulh`. -/
def execImulh (x : Args) (s : State) : Host.Outcome State Fault Refusal := issueOp x false (opImulh x) s
/-- R28: compact `imulh`. -/
def execImulhC32 (x : Args) (s : State) : Host.Outcome State Fault Refusal := issueOp x false (opImulh x) s
/-- R134: `imad`. -/
def execImad (x : Args) (s : State) : Host.Outcome State Fault Refusal :=
  issueOp x false (op3 x false fun a b c => a * b + c) s
/-- R134: `imad.c`. -/
def execImadC (x : Args) (s : State) : Host.Outcome State Fault Refusal :=
  issueOp x false (op3 x true fun a b c => a * b + c) s
/-- R134: `iabs`. -/
def execIabs (x : Args) (s : State) : Host.Outcome State Fault Refusal := issueOp x false (opIabs x) s
/-- R28: compact `iabs`. -/
def execIabsC32 (x : Args) (s : State) : Host.Outcome State Fault Refusal := issueOp x false (opIabs x) s
/-- R134: `imin`. -/
def execImin (x : Args) (s : State) : Host.Outcome State Fault Refusal := issueOp x (wBit x) (opImin x) s
/-- R28: compact `imin`. -/
def execIminC32 (x : Args) (s : State) : Host.Outcome State Fault Refusal := issueOp x (wBit x) (opImin x) s
/-- R134: `imax`. -/
def execImax (x : Args) (s : State) : Host.Outcome State Fault Refusal := issueOp x (wBit x) (opImax x) s
/-- R28: compact `imax`. -/
def execImaxC32 (x : Args) (s : State) : Host.Outcome State Fault Refusal := issueOp x (wBit x) (opImax x) s
/-- R134: `and`. -/
def execAnd (x : Args) (s : State) : Host.Outcome State Fault Refusal := issueOp x (wBit x) (opAnd x) s
/-- R28: compact `and`. -/
def execAndC32 (x : Args) (s : State) : Host.Outcome State Fault Refusal := issueOp x (wBit x) (opAnd x) s
/-- R134: `or`. -/
def execOr (x : Args) (s : State) : Host.Outcome State Fault Refusal := issueOp x (wBit x) (opOr x) s
/-- R28: compact `or`. -/
def execOrC32 (x : Args) (s : State) : Host.Outcome State Fault Refusal := issueOp x (wBit x) (opOr x) s
/-- R134: `xor`. -/
def execXor (x : Args) (s : State) : Host.Outcome State Fault Refusal := issueOp x (wBit x) (opXor x) s
/-- R28: compact `xor`. -/
def execXorC32 (x : Args) (s : State) : Host.Outcome State Fault Refusal := issueOp x (wBit x) (opXor x) s
/-- R134: `not`. -/
def execNot (x : Args) (s : State) : Host.Outcome State Fault Refusal := issueOp x (wBit x) (opNot x) s
/-- R28: compact `not`. -/
def execNotC32 (x : Args) (s : State) : Host.Outcome State Fault Refusal := issueOp x (wBit x) (opNot x) s
/-- R134: `shl`. -/
def execShl (x : Args) (s : State) : Host.Outcome State Fault Refusal := issueOp x (wBit x) (opShl x) s
/-- R28: compact `shl`. -/
def execShlC32 (x : Args) (s : State) : Host.Outcome State Fault Refusal := issueOp x (wBit x) (opShl x) s
/-- R134: `shr`. -/
def execShr (x : Args) (s : State) : Host.Outcome State Fault Refusal := issueOp x (wBit x) (opShr x) s
/-- R28: compact `shr`. -/
def execShrC32 (x : Args) (s : State) : Host.Outcome State Fault Refusal := issueOp x (wBit x) (opShr x) s
/-- R134: `sra`. -/
def execSra (x : Args) (s : State) : Host.Outcome State Fault Refusal := issueOp x (wBit x) (opSra x) s
/-- R28: compact `sra`. -/
def execSraC32 (x : Args) (s : State) : Host.Outcome State Fault Refusal := issueOp x (wBit x) (opSra x) s
/-- R134: `rol`. -/
def execRol (x : Args) (s : State) : Host.Outcome State Fault Refusal := issueOp x false (opRol x) s
/-- R28: compact `rol`. -/
def execRolC32 (x : Args) (s : State) : Host.Outcome State Fault Refusal := issueOp x false (opRol x) s
/-- R134: `popc`. -/
def execPopc (x : Args) (s : State) : Host.Outcome State Fault Refusal := issueOp x false (opPopc x) s
/-- R28: compact `popc`. -/
def execPopcC32 (x : Args) (s : State) : Host.Outcome State Fault Refusal := issueOp x false (opPopc x) s
/-- R134: `clz`. -/
def execClz (x : Args) (s : State) : Host.Outcome State Fault Refusal := issueOp x false (opClz x) s
/-- R28: compact `clz`. -/
def execClzC32 (x : Args) (s : State) : Host.Outcome State Fault Refusal := issueOp x false (opClz x) s
/-- R143: `mov`. -/
def execMov (x : Args) (s : State) : Host.Outcome State Fault Refusal := issueOp x (wBit x) (opMov x) s
/-- R28: compact `mov`. -/
def execMovC32 (x : Args) (s : State) : Host.Outcome State Fault Refusal := issueOp x (wBit x) (opMov x) s
/-- R146: `rcoal`. -/
def execRcoal (x : Args) (s : State) : Host.Outcome State Fault Refusal := issueOp x false (opRcoal x) s
/-- R28: compact `rcoal`. -/
def execRcoalC32 (x : Args) (s : State) : Host.Outcome State Fault Refusal := issueOp x false (opRcoal x) s

/-- R135: `icmp`. -/
def execIcmp (x : Args) (s : State) : Host.Outcome State Fault Refusal :=
  let wide := wBit x
  issueGroup x (srcRegs wide x.a ++ srcRegs wide x.b) [predKey x.dst.toNat] (fun m s =>
    let a := operand m s wide x.a
    let b := operand m s wide x.b
    predResult m x (srcRegs wide x.a ++ srcRegs wide x.b) (fun l =>
      if wide then intCond (modBits x 5 3) (uBit x) (a.at l) (b.at l)
      else intCond (modBits x 5 3) (uBit x) (a.at32 l) (b.at32 l)) s) s

/-- R136: `sel`; the predicate cuts pieces at its own run boundaries. -/
def execSel (x : Args) (s : State) : Host.Outcome State Fault Refusal :=
  issueGroup x (touched x (wBit x)) (predKey (modBits x 5 4) :: dselK x) (fun m s =>
    let o := op2 x (wBit x) (fun a _ => a) m s
    let b := operand m s (wBit x) x.b
    let p := ((Tbl.get? s.groups m.g).map (·.predMask (modBits x 5 4))).getD 0
    laneDo m x { o with cut := fun l => o.cut l || (l != 0 && p.getLsbD l != p.getLsbD (l - 1))
                        op := fun l => if p.getLsbD l then o.op l else b.at l } s) s

/-- R144: `vbc`. -/
def execVbc (x : Args) (s : State) : Host.Outcome State Fault Refusal :=
  issueOp x false (fun m s =>
    let j := ((Who.group m).uni s x.b).toNat % 32
    let v := (operand m s false x.a).at j
    { reads := srcRegs false x.a, wset := m.act, wide := false, cut := fun _ => false, merge := cBit x, op := fun _ => v }) s

/-- R145: `vli`. -/
def execVli (x : Args) (s : State) : Host.Outcome State Fault Refusal :=
  issueOp x false (fun m s =>
    let v := (operand m s false x.b).at 0
    { reads := [], wset := m.act, wide := false, cut := fun _ => false, merge := cBit x, op := fun _ => v }) s

/-- The header word of `rstat` (R147). -/
def headerWord (g : Group) (j : Nat) : W64 :=
  let r := g.reg j
  let (n, spl, cells) := match r.spilled with
    | some h => (h.n, h.spl, 0)
    | none => (r.runs.length, Runs.spl r.runs, Runs.cells r.runs)
  BitVec.ofNat 64 (cells * 2 ^ 13 + (if r.spilled.isSome then 2 ^ 12 else 0) + spl * 2 ^ 6 + n)

/-- The totals of a group (R147). -/
def totalsWord (g : Group) : W64 :=
  BitVec.ofNat 64 (g.peak * 2 ^ 45 + (g.regs.filter fun p => p.2.spilled.isSome).length * 2 ^ 34 + g.quota * 2 ^ 17 + g.inUse)

/-- R147: `rstat`, a k result that restores nothing and renews no recency. -/
def execRstat (x : Args) (s : State) : Host.Outcome State Fault Refusal :=
  issueLane x false (fun m s =>
    match Tbl.get? s.groups m.g with
    | none => .done s
    | some g =>
      let v := if modBits x 4 1 = 1 then totalsWord g else
        match x.a with
        | .v r => headerWord g r.toNat
        | _ => 0
      laneResult m x false [] m.act (fun _ => false) false (fun _ => v) s) s

end Sys2Proof.Machine
end

