-- ==== Sys2Proof/Machine/Lanes.lean ====
section
/-! DEFINITION. Lane movement, masks, reductions and scans (R148 to R166). -/

namespace Sys2Proof.Machine

/-- The number of the run of a list that covers a lane. -/
def Runs.idx (rs : Runs) (l : Nat) : Nat := ((List.range (l + 1)).filter fun i => Runs.starts rs i).length

/-- A predicate register of the issuing group. -/
def predOf (m : Mem) (s : State) (p : Nat) : Mask := ((Tbl.get? s.groups m.g).map (·.predMask p)).getD 0

/-- The predicate number a source field holds. -/
def predNum : Src → Nat
  | .num n => n.toNat
  | _ => 0

/-- The predicate a source field names, among what an instruction waits for. -/
def predKeys : Src → List Nat
  | .num n => [predKey n.toNat]
  | _ => []

/-! ### Mask operations (R155) -/

/-- The mask of a predicate source, inverted where asked. -/
def predSrc (m : Mem) (s : State) (neg : Bool) (src : Src) : Mask :=
  let p := match src with
    | .num n => predOf m s n.toNat
    | y => lo32 ((Who.group m).uni s y)
  if neg then ~~~p else p

/-- An instruction that writes a predicate from a mask. -/
def issueMask (x : Args) (f : Mem → State → Mask) (s : State) : Host.Outcome State Fault Refusal :=
  issueGroup x [] (predKey x.dst.toNat :: (predKeys x.a ++ predKeys x.b)) (fun m s =>
    let v := f m s
    .done (s.updGroup m.g fun q => q.setPred x.dst.toNat m.act v)) s

/-- NA of MOD. -/
def naBit (x : Args) : Bool := x.mod.getLsbD 5
/-- NB of MOD. -/
def nbBit (x : Args) : Bool := x.mod.getLsbD 6

/-- R155: `pand`. -/
def execPand (x : Args) (s : State) : Host.Outcome State Fault Refusal :=
  issueMask x (fun m s => predSrc m s (naBit x) x.a &&& predSrc m s (nbBit x) x.b) s
/-- R155: `por`. -/
def execPor (x : Args) (s : State) : Host.Outcome State Fault Refusal :=
  issueMask x (fun m s => predSrc m s (naBit x) x.a ||| predSrc m s (nbBit x) x.b) s
/-- R155: `pxor`. -/
def execPxor (x : Args) (s : State) : Host.Outcome State Fault Refusal :=
  issueMask x (fun m s => predSrc m s (naBit x) x.a ^^^ predSrc m s (nbBit x) x.b) s
/-- R155: `pnot`. -/
def execPnot (x : Args) (s : State) : Host.Outcome State Fault Refusal :=
  issueMask x (fun m s => ~~~predSrc m s false x.a) s
/-- R155: `pmov`. -/
def execPmov (x : Args) (s : State) : Host.Outcome State Fault Refusal :=
  issueMask x (fun m s => predSrc m s (naBit x) x.a) s

/-! ### Votes and counts (R156) -/

/-- An instruction that writes kD directly, once per issue even with no active lane, and sets EMPTY there. -/
def issueCount (x : Args) (f : Mask → Mask → W64) (s : State) : Host.Outcome State Fault Refusal :=
  issueGroup x [] (x.dst.toNat :: predKeys x.a) (fun m s =>
    let p := predOf m s (predNum x.a)
    .done (s.updGroup m.g fun q => (q.setK x.dst.toNat (f m.act p)).noteEmpty m.act)) s

/-- The word of `vote` by KIND. -/
def voteWord (kind : Nat) (a p : Mask) : W64 :=
  let any := a &&& p != 0
  let all := a &&& ~~~p == 0
  match kind with
  | 0 => if any then 1 else 0
  | 1 => if all then 1 else 0
  | 2 => (a &&& p).zeroExtend 64
  | _ => if all || !any then 1 else 0

/-- R156: `vote`. -/
def execVote (x : Args) (s : State) : Host.Outcome State Fault Refusal := issueCount x (voteWord (modBits x 5 2)) s
/-- R156: `pcnt`. -/
def execPcnt (x : Args) (s : State) : Host.Outcome State Fault Refusal :=
  issueCount x (fun a p => BitVec.ofNat 64 (lanesOf (a &&& p)).length) s
/-- R156: `pfirst`. -/
def execPfirst (x : Args) (s : State) : Host.Outcome State Fault Refusal :=
  issueCount x (fun a p => match lowest (a &&& p) with
    | some l => BitVec.ofNat 64 l
    | none => BitVec.allOnes 64) s

/-! ### Lane identifiers, shuffles, compaction (R157 to R161) -/

/-- R157: `lid`. -/
def execLid (x : Args) (s : State) : Host.Outcome State Fault Refusal :=
  issueOp x false (fun m _ =>
    let size := match modBits x 5 2 with
      | 0 => 1
      | 1 => 4
      | _ => 8
    { reads := [], wset := m.act, wide := false, cut := fun l => l % size == 0, merge := cBit x
      op := fun l => BitVec.ofNat 64 (l / size) }) s

/-- The source lane of a shuffle (R158). -/
def shuffleLane (mode : Nat) (l b : Nat) : Nat :=
  match mode with
  | 0 => b % 32
  | 1 => if b ≤ l then l - b else l
  | 2 => if l + b ≤ 31 then l + b else l
  | _ => l ^^^ (b % 32)

/-- R158: `shfl`; a uniform vA is cut at the run boundaries of b too (log entry 45). -/
def execShfl (x : Args) (s : State) : Host.Outcome State Fault Refusal :=
  issueOp x false (fun m s =>
    let a := laneRuns m s x.a
    let b := operand m s false x.b
    let j := fun l => shuffleLane (modBits x 5 2) l (b.at32 l).toNat
    { reads := srcRegs false x.a ++ srcRegs false x.b, wset := m.act, wide := false, merge := cBit x
      cut := fun l => b.cuts l || Runs.idx a (j l) != Runs.idx a (j (l - 1))
      op := fun l => (Runs.val a (j l)).zeroExtend 64 }) s

/-- R159: `shflx`. -/
def execShflx (x : Args) (s : State) : Host.Outcome State Fault Refusal :=
  issueGroup x (srcRegs true x.a ++ srcRegs false x.b ++ dstRegs x false) (dselK x) (fun m s =>
    let lo := laneRuns m s x.a
    let hi := laneRunsHi m s x.a
    let b := operand m s false x.b
    let j := fun l => (b.at32 l).toNat % 64
    let place := fun l => if j l < 32 then (0, Runs.idx lo (j l)) else (1, Runs.idx hi (j l - 32))
    laneResult m x false (srcRegs true x.a ++ srcRegs false x.b) m.act
      (fun l => b.cuts l || place l != place (l - 1)) (cBit x)
      (fun l => (if j l < 32 then Runs.val lo (j l) else Runs.val hi (j l - 32)).zeroExtend 64) s) s

/-- The source lane that comes to each lane when the i-th lane of one list goes to the i-th of another. -/
def mapped (dst src : List Nat) (l : Nat) : Nat := src.getD (dst.findIdx (· == l)) 0

/-- A movement of vA by a lane map: written lanes and each one's source. -/
def moveOp (x : Args) (w : Mask) (j : Nat → Nat) (m : Mem) (s : State) : LaneOp :=
  let a := laneRuns m s x.a
  { reads := srcRegs false x.a, wset := w, wide := false, merge := cBit x
    cut := fun l => Runs.idx a (j l) != Runs.idx a (j (l - 1)), op := fun l => (Runs.val a (j l)).zeroExtend 64 }

/-- R160: `vcomp`. -/
def execVcomp (x : Args) (s : State) : Host.Outcome State Fault Refusal :=
  issueOp x false (fun m s =>
    let xs := lanesOf m.x
    let as_ := lanesOf m.act
    let w := maskOf fun l => (xs.take as_.length).contains l
    moveOp x w (mapped xs as_) m s) s

/-- R161: `vexp`. -/
def execVexp (x : Args) (s : State) : Host.Outcome State Fault Refusal :=
  issueOp x false (fun m s => moveOp x m.act (mapped (lanesOf m.act) (lanesOf m.x)) m s) s

/-! ### Reductions (R162 to R164) -/

/-- The combination of FP32 values under OP (R162); the identity of R164 for none. -/
def foldF (op : Nat) (vs : List W32) : W32 :=
  if vs.any isNaN32 then nan32
  else
    match op, vs with
    | 0, _ => ofFV .rn (FV.sumList (vs.map fv))
    | 1, [] => 0x7F800000
    | 1, v :: t => t.foldl fMin v
    | _, [] => 0xFF800000
    | _, v :: t => t.foldl fMax v

/-- A lane value as a whole number: signed unless U (R163). -/
def laneInt (wide unsigned : Bool) (a : W64) : Int :=
  match unsigned, wide with
  | true, _ => a.toNat
  | false, true => a.toInt
  | false, false => (lo32 a).toInt

/-- The combination of integer lanes under OP as a 64-bit word (R163, R164): `min` and `max` extend by the
signedness, the bitwise ones by zeros. -/
def foldI (wide unsigned : Bool) (op : Nat) (vs : List W64) : W64 :=
  let ones : W64 := if wide then BitVec.allOnes 64 else 0xFFFFFFFF
  let top : Int := if wide then (if unsigned then 2 ^ 64 - 1 else 2 ^ 63 - 1) else (if unsigned then 2 ^ 32 - 1 else 2 ^ 31 - 1)
  let bot : Int := if unsigned then 0 else if wide then -2 ^ 63 else -2 ^ 31
  let ints := vs.map (laneInt wide unsigned)
  match op with
  | 0 => BitVec.ofInt 64 ints.sum
  | 1 => BitVec.ofInt 64 (ints.foldl min top)
  | 2 => BitVec.ofInt 64 (ints.foldl max bot)
  | 3 => vs.foldl (· &&& ·) ones
  | 4 => vs.foldl (· ||| ·) 0
  | _ => vs.foldl (· ^^^ ·) 0

/-- An instruction that reduces the active lanes of srcA into kD. -/
def issueRed (x : Args) (wide : Bool) (f : List W64 → W64) (s : State) : Host.Outcome State Fault Refusal :=
  issueGroup x (srcRegs wide x.a) [x.dst.toNat] (fun m s =>
    let a := operand m s wide x.a
    let v := f ((lanesOf m.act).map a.at)
    match readRegs m (srcRegs wide x.a) s with
    | .done s => .done (s.updGroup m.g fun q => (q.setK x.dst.toNat v).noteEmpty m.act)
    | e => e) s

/-- R162: `red.f`. -/
def execRedF (x : Args) (s : State) : Host.Outcome State Fault Refusal :=
  issueRed x false (fun vs => (foldF (modBits x 5 3) (vs.map lo32)).zeroExtend 64) s
/-- R163: `red.i`. -/
def execRedI (x : Args) (s : State) : Host.Outcome State Fault Refusal :=
  let wide := x.mod.getLsbD 4
  issueRed x wide (foldI wide (uBit x) (modBits x 5 3)) s

/-! ### Scans (R165, R166) -/

/-- The active lanes a scan's prefix covers at a lane: up to it, or strictly below it with X. -/
def prefixLanes (excl : Bool) (a : Mask) (l : Nat) : List Nat :=
  (lanesOf a).filter fun i => if excl then i < l else i ≤ l

/-- A scan: one piece per active lane; with no active lane it only sets EMPTY. -/
def issueScan (x : Args) (wide : Bool) (f : List W64 → W64) (s : State) : Host.Outcome State Fault Refusal :=
  issueLane x wide (fun m s =>
    let a := operand m s wide x.a
    match laneResult m x wide (srcRegs wide x.a) m.act (fun _ => true) (cBit x)
        (fun l => f ((prefixLanes (x.mod.getLsbD 8) m.act l).map a.at)) s with
    | .done s => .done (s.updGroup m.g fun q => q.noteEmpty m.act)
    | e => e) s

/-- R165: `scan.f`. -/
def execScanF (x : Args) (s : State) : Host.Outcome State Fault Refusal :=
  issueScan x false (fun vs => (foldF (modBits x 5 3) (vs.map lo32)).zeroExtend 64) s
/-- R165: `scan.i`. -/
def execScanI (x : Args) (s : State) : Host.Outcome State Fault Refusal :=
  let wide := x.mod.getLsbD 4
  issueScan x wide (fun vs =>
    let v := foldI wide (uBit x) (modBits x 5 3) vs
    if wide then v else (lo32 v).zeroExtend 64) s

end Sys2Proof.Machine
end

