-- ==== Sys2Proof/Machine/Access.lean ====
section
/-! DEFINITION. Accesses to the on-chip spaces: address checks, the range-lock check, reading and writing in
each space, and results under way (R193, R198, R202, R203). -/

namespace Sys2Proof.Machine

/-- What a party may address on chip. Spaces are numbered as records do (R470): 0 `.sh`, 1 `.sp`, 2 `.st`. -/
structure Area where
  core : Nat
  team : Nat
  group : Nat
  shared : Nat
  /-- Bytes of the program area of the spill stack (R194). -/
  spill : Nat
  deriving DecidableEq, Repr

/-- The area of a party. -/
def areaOf (s : State) (w : Who) : Area :=
  let t := w.team s
  { core := w.core, team := t
    group := match w with
      | .group m => m.g
      | .wick _ => 0
    shared := ((Tbl.get? s.teams t).map (·.shared)).getD 0
    spill := ((s.headerOf t).map (·.spill)).getD 0 / 2 }

/-- Whether n bytes at an address lie in a space (R193). -/
def Area.ok (a : Area) (space addr n : Nat) : Bool :=
  match space with
  | 0 => addr + n ≤ a.shared
  | 1 => bits addr 26 3 == 0 && addr % 2 ^ 26 + n ≤ Config.scratchBytes && addr / 2 ^ 29 < Config.dies
  | _ => addr + n ≤ a.spill

/-- The memory key of an address. -/
def Area.key (a : Area) (space addr : Nat) : Nat :=
  match space with
  | 0 => (Space.shared a.team).key addr
  | 1 => (Space.scratch (addr / 2 ^ 29)).key (addr % 2 ^ 26)
  | _ => (Space.spill a.group).key addr

/-- The unit of a range lock an address lies in: a team's shared memory, or `.sp` as one space (R364). -/
def Area.unit (a : Area) (space : Nat) : Nat := if space = 0 then a.team else 0

/-- Whether an interval conflicts with an access (R198): a load with written ranges, a store with any. -/
def LockIv.hits (i : LockIv) (space unit lo n : Nat) (store : Bool) : Bool :=
  i.space == space && i.unit == unit && (store || i.write) && decide (lo < i.hi) && decide (i.lo < lo + n)

/-- The first entry of a core's range-lock table that an access hits, which a fault names where it hits several (R198; log entry 49). -/
def lockHit (s : State) (core space unit lo n : Nat) (store : Bool) : Option Nat :=
  Tbl.findKey (s.core core).locks fun _ e => e.ivs.any fun i => i.hits space unit lo n store

/-- The entry an on-chip access hits; the spill stack is never checked. -/
def Area.lockHit (s : State) (a : Area) (space addr n : Nat) (store : Bool) : Option Nat :=
  if space = 2 then none else Machine.lockHit s a.core space (a.unit space) addr n store

/-- One access of a lane: the lane and the addresses of its words. -/
abbrev LaneWords := List (Nat × List Nat)

/-- The first check of R202 that fails, for the lowest lane that fails it; all words are `n` bytes wide. -/
def checkWords (s : State) (a : Area) (space n : Nat) (store : Bool) (ws : LaneWords) : Option Cause :=
  let bad (p : Nat → Bool) : Option (Nat × Nat) := ws.findSome? fun w => (w.2.find? p).map fun x => (w.1, x)
  match bad fun x => x % n != 0 with
  | some (l, x) => some (Cause.align l x space)
  | none =>
    match bad fun x => !a.ok space x n with
    | some (l, x) => some (Cause.boundsAddr l x space)
    | none =>
      match bad fun x => (a.lockHit s space x n store).isSome with
      | some (l, x) => some (Cause.rangeLock l ((a.lockHit s space x n store).getD 0) x space)
      | none => none

/-- Whether the accesses can be performed now: spill pages resident, scratchpads of dies that are up (R196, R463). -/
def wordsReady (s : State) (a : Area) (space n : Nat) (ws : LaneWords) : Bool :=
  ws.all fun w => w.2.all fun x =>
    match space with
    | 0 => true
    | 1 => (s.die (x / 2 ^ 29)).up
    | _ => pagesResident s a.group x n

/-- The pages that accesses to a spill stack touch become the most recently used (R196). -/
def touchWords (a : Area) (space n : Nat) (ws : LaneWords) (s : State) : State :=
  if space = 2 then ws.foldl (fun s w => w.2.foldl (fun s x => touchPages s a.group x n) s) s else s

/-- The first address in the scratchpad of a die that stays lost. -/
def lostWord (s : State) (ws : LaneWords) : Option Nat := ws.findSome? fun w => w.2.find? fun x => (s.die (x / 2 ^ 29)).gone

/-- What an access that cannot be performed yet comes to: it waits for the pages of the spill stack, the group not ready
meanwhile (R196); or for its home, where it ends with REMOTEFAIL if the die stays lost (R463). -/
def notReady (w : Who) (space : Nat) (ws : LaneWords) (s : State) : GEff :=
  match (if space = 1 then lostWord s ws else none) with
  | none => (match w with
    | .group m => if space = 2 then holdStep m (awaitPages s m.g (ws.flatMap fun p => p.2.map (· / 4096))) else .wait s
    | .wick _ => .wait s)
  | some addr =>
    let r := { w.record s 0x0402 4 2 3 with akind := 2, addr := 2 ^ 32 + addr }
    match w with
    | .wick t => .wait (wickStops t r s)
    | .group _ =>
      let (s, seq) := logRecord s r true
      .wait (endGrid s (((Tbl.get? s.teams (w.team s)).map (·.grid)).getD 0) 1 seq)

/-- The little-endian value at an address. -/
def Area.load (s : State) (a : Area) (space addr n : Nat) : Nat := Memory.readLE s.mem (a.key space addr) n

/-- A value stored at an address. -/
def Area.store (a : Area) (space addr n v : Nat) (s : State) : State :=
  { s with mem := Memory.writeLE s.mem (a.key space addr) n v }

/-- A value of some bytes extended to 64 bits, by its sign or by zeros. -/
def extendBytes (n : Nat) (unsigned : Bool) (v : Nat) : W64 :=
  if unsigned || v < 2 ^ (8 * n - 1) then BitVec.ofNat 64 v else BitVec.ofInt 64 ((v : Int) - 2 ^ (8 * n))

/-- The entries of the decision queue that every group with a live lane has popped are freed (R69). -/
def freeDq (s : State) (t : Nat) : State :=
  let ptrs := ((s.groupsOf t).filter fun p => p.2.live != 0).map (·.2.dqPtr)
  s.updTeam t fun tm =>
    let tail := tm.dqBase + tm.dq.length
    let low := ptrs.foldl min tail
    { tm with dq := tm.dq.drop (low - tm.dqBase), dqBase := max tm.dqBase low }

/-! ### Results under way -/

/-- The registers, the k register and with `latch` L0 made to await a result (R203). -/
def Group.await (g : Group) (p : Pending) (latch : Bool) : Group :=
  let id := (Tbl.freeKey g.pending (g.pending.length + 1)).getD 0
  let g := p.regs.foldl (fun g j => g.putReg j { g.reg j with pend := some id }) g
  { g with
    pending := Tbl.set g.pending id p
    latches := if latch then updAt g.latches 0 fun l => { l with pend := some id } else g.latches }

/-- Runs of a landed result merged within the intervals of the written lanes, where `same` says that a run that
begins at a lane equals the one before it (R118). -/
def landRuns (A : Mask) (same : Nat → Bool) : Runs → Nat → Runs
  | [], _ => []
  | r :: t, l =>
    match landRuns A same t (l + r.cnt) with
    | [] => [r]
    | q :: u =>
      let j := l + r.cnt
      if A.getLsbD j && A.getLsbD (j - 1) && same j then { r with cnt := r.cnt + q.cnt } :: u else r :: q :: u

/-- Whether a lane's value in a list equals that of the lane before it. -/
def Runs.same (rs : Runs) (l : Nat) : Bool := Runs.val rs l == Runs.val rs (l - 1)

/-- A result under way has come (R203, R227): merged under C, and its registers await nothing. -/
def Group.land (g : Group) (id : Nat) : Group :=
  match Tbl.get? g.pending id with
  | none => g
  | some p =>
    let same := fun j l => Runs.same (g.reg j).runs l
    let merged (j : Nat) : Runs :=
      let rs := (g.reg j).runs
      if !p.merge then rs
      else if p.wide then
        let base := (p.regs.head?.getD j)
        landRuns p.lanes (fun l => same base l && same (base + 1) l) rs 0
      else landRuns p.lanes (same j) rs 0
    let regs := p.regs.foldl (fun acc j => Tbl.set acc j { g.reg j with runs := merged j, pend := none }) g.regs
    { g with
      regs := regs
      pending := Tbl.erase g.pending id
      latches := g.latches.map fun l =>
        if l.pend = some id then
          { l with pend := none, runs :=
              if p.merge then landRuns p.lanes (fun i => Runs.same l.runs i && (!p.wide || p.hiSame.getLsbD i)) l.runs 0
              else l.runs }
        else l }

/-- The lanes whose high word equals that of the lane before it. -/
def hiSameOf (v : Nat → W64) : Mask := maskOf fun l => l != 0 && hi32 (v l) == hi32 (v (l - 1))

/-- An address operand of every active lane: Low32(A + b) (R200). -/
def laneAddrs (m : Mem) (s : State) (x : Args) : Nat → Nat :=
  let a := operand m s false x.a
  let b := operand m s false x.b
  fun l => (a.at32 l + b.at32 l).toNat

/-- Runs of the two address operands begin at a lane. -/
def addrCuts (m : Mem) (s : State) (x : Args) : Nat → Bool :=
  let a := operand m s false x.a
  let b := operand m s false x.b
  fun l => a.cuts l || b.cuts l

end Sys2Proof.Machine
end

