-- ==== Sys2Proof/Machine/OnChip.lean ====
section
/-! DEFINITION. The on-chip memory instructions (R193 to R207). -/

namespace Sys2Proof.Machine

/-- SPACE of MOD (R200). -/
def spaceBits (x : Args) : Nat := modBits x 8 2
/-- The bytes of an access: W, else SZ (R200). -/
def accessBytes (x : Args) : Nat :=
  if x.mod.getLsbD 4 then 8
  else match modBits x 5 2 with
    | 0 => 4
    | 1 => 2
    | _ => 1

/-- Registers read for an address. -/
def addrRegs (x : Args) : List Nat := srcRegs false x.a ++ srcRegs false x.b

/-- The words of the active lanes: n words of 4 bytes, or one of any width. -/
def laneWords (m : Mem) (s : State) (x : Args) (n : Nat) : LaneWords :=
  let addr := laneAddrs m s x
  (lanesOf m.act).map fun l => (l, (List.range n).map fun i => (addr l + 4 * i) % 2 ^ 32)

/-- What the scratchpad makes a long-latency wait (R197). -/
def longSpace (space : Nat) : Bool := space == 1

/-- A store by an active lane resets the backward-branch count (R91). -/
def storeReset (m : Mem) (s : State) : State := if m.act = 0 then s else resetBack m s

/-- A lane result of an issue with no active lane that cannot fault (R202, R226): L0 receives what the destination `d` holds,
and nothing is restored. -/
def idleResult (m : Mem) (x : Args) (d : Nat) (s : State) : GEff :=
  .done (s.updGroup m.g fun q =>
    q.pushLatch (if x.dsel then Runs.const (lo32 (q.k (x.dst.toNat - 32))) else runsOf s m.g q d))

/-- A lane load of words of `n` bytes (R203): performed, with its registers left to await the data; `free` where it cannot
raise RUNOVF (R227). -/
def loadLanes (x : Args) (space n : Nat) (unsigned free : Bool) (m : Mem) (s : State) : GEff :=
  let wide := n == 8
  let a := areaOf s (.group m)
  let ws := laneWords m s x 1
  if m.act = 0 then idleResult m x x.dst.toNat s else
  match checkWords s a space n false ws with
  | some c => .fault c
  | none =>
    if !wordsReady s a space n ws then notReady (.group m) space ws s
    else
      let addr := laneAddrs m s x
      let v := fun l =>
        let w := extendBytes n unsigned (a.load s space (addr l) n)
        if wide then w else (lo32 w).zeroExtend 64
      let o : LaneOp := { reads := addrRegs x, wset := m.act, wide := wide, cut := addrCuts m s x, merge := false, op := v }
      match (if free then laneFree m x o (touchWords a space n ws s) else laneDo m x o (touchWords a space n ws s)) with
      | .done s =>
        .done (s.updGroup m.g fun q => q.await
          { regs := if x.nwb then [] else dstRegs x wide, lanes := m.act, merge := cBit x, wide := wide, hiSame := hiSameOf v
            kreg := if x.dsel && !x.nwb then some (x.dst.toNat - 32) else none, demand := false
            long := longSpace space } true)
      | e => e

/-- The registers a lane store of words of `n` bytes reads as data. -/
def dataRegs (x : Args) (n : Nat) : List Nat := if n = 8 then [x.dst.toNat, x.dst.toNat + 1] else [x.dst.toNat]

/-- A lane store of words of `n` bytes, lanes in ascending order (R199, R203). -/
def storeLanes (x : Args) (space n : Nat) (m : Mem) (s : State) : GEff :=
  let a := areaOf s (.group m)
  let ws := laneWords m s x 1
  if m.act = 0 then .done s else
  match checkWords s a space n true ws with
  | some c => .fault c
  | none =>
    if !wordsReady s a space n ws then notReady (.group m) space ws s
    else
      let addr := laneAddrs m s x
      let v := operand m s (n == 8) (.v x.dst)
      match readRegs m (addrRegs x ++ dataRegs x n) (touchWords a space n ws s) with
      | .done s =>
        .done (resetBack m ((lanesOf m.act).foldl (fun s l => a.store space (addr l) n ((v.at l).toNat % 2 ^ (8 * n)) s) s))
      | e => e

/-- R203: `ld`. -/
def execLd (x : Args) (s : State) : Host.Outcome State Fault Refusal :=
  issueGroup x (addrRegs x ++ dstRegs x (accessBytes x == 8)) (dselK x) (loadLanes x (spaceBits x) (accessBytes x) (uBit x) false) s

/-- R203: `st`. -/
def execSt (x : Args) (s : State) : Host.Outcome State Fault Refusal :=
  issueGroup x (addrRegs x ++ dataRegs x (accessBytes x)) [] (storeLanes x (spaceBits x) (accessBytes x)) s

/-- The one word of `ldk` and `stk`: the lowest active lane's. -/
def lowestWord (m : Mem) (s : State) (x : Args) : LaneWords := (laneWords m s x 1).take 1

/-- R204: `ldk`. -/
def execLdk (x : Args) (s : State) : Host.Outcome State Fault Refusal :=
  let n := accessBytes x
  issueGroup x (addrRegs x) [x.dst.toNat] (fun m s =>
    let a := areaOf s (.group m)
    match lowestWord m s x with
    | [] => .done s
    | w :: _ =>
      match checkWords s a (spaceBits x) n false [w] with
      | some c => .fault c
      | none =>
        if !wordsReady s a (spaceBits x) n [w] then notReady (.group m) (spaceBits x) [w] s
        else
          let addr := w.2.headD 0
          let v := extendBytes n (uBit x) (a.load s (spaceBits x) addr n)
          match readRegsFree m (addrRegs x) (touchWords a (spaceBits x) n [w] s) with
          | .done s => .done (s.updGroup m.g fun q => (q.setK x.dst.toNat v).await
            { regs := [], lanes := m.act, merge := false, wide := false, kreg := some x.dst.toNat, demand := false
              long := longSpace (spaceBits x) } false)
          | e => e) s

/-- R204: `stk`. -/
def execStk (x : Args) (s : State) : Host.Outcome State Fault Refusal :=
  let n := accessBytes x
  issueGroup x (addrRegs x) [x.dst.toNat] (fun m s =>
    let a := areaOf s (.group m)
    match lowestWord m s x with
    | [] => .done s
    | w :: _ =>
      match checkWords s a (spaceBits x) n true [w] with
      | some c => .fault c
      | none =>
        if !wordsReady s a (spaceBits x) n [w] then notReady (.group m) (spaceBits x) [w] s
        else
          let v := ((Tbl.get? s.groups m.g).map (·.k x.dst.toNat)).getD 0
          match readRegsFree m (addrRegs x) (touchWords a (spaceBits x) n [w] s) with
          | .done s => .done (resetBack m (a.store (spaceBits x) (w.2.headD 0) n (v.toNat % 2 ^ (8 * n)) s))
          | e => e) s

/-- The words of a wide access: CNT holds n - 1 (R200). -/
def wideCount (x : Args) : Nat := modBits x 4 4 + 1

/-- The first check of R202 that a wide access fails; the record names the address of the lane's access (R193, R390;
log entry 40). -/
def checkWide (m : Mem) (s : State) (x : Args) (store : Bool) : Option Cause :=
  (checkWords s (areaOf s (.group m)) (spaceBits x) 4 store (laneWords m s x (wideCount x))).map fun c =>
    { c with addr := laneAddrs m s x c.lane }

/-- R205: `ld.w`. -/
def execLdW (x : Args) (s : State) : Host.Outcome State Fault Refusal :=
  let n := wideCount x
  let ds := if x.dsel then [] else (List.range n).map fun i => x.dst.toNat + i
  issueGroup x (addrRegs x ++ ds) (dselK x) (fun m s =>
    let a := areaOf s (.group m)
    let ws := laneWords m s x n
    if m.act = 0 then idleResult m x (x.dst.toNat + n - 1) s else
    match checkWide m s x false with
    | some c => .fault c
    | none =>
      if !wordsReady s a (spaceBits x) 4 ws then notReady (.group m) (spaceBits x) ws s
      else
        let s := touchWords a (spaceBits x) 4 ws s
        match Tbl.get? s.groups m.g with
        | none => .done s
        | some grp =>
          let addr := laneAddrs m s x
          let word := fun i l => BitVec.ofNat 64 (a.load s (spaceBits x) ((addr l + 4 * i) % 2 ^ 32) 4)
          let op := fun i => ({ reads := addrRegs x, wset := m.act, wide := false, cut := addrCuts m s x, merge := false, op := word i } : LaneOp)
          let last := op (n - 1)
          if x.dsel then laneDo m x last s |> landing m []
          else
            let news := (List.range n).flatMap fun i => (op i).news m grp (x.dst.toNat + i) s
            let e := if x.nwb then readRegs m (if last.keeps then addrRegs x ++ ds else addrRegs x) s else writeRegs m (addrRegs x) (if last.keeps then ds else []) news s
            match e with
            | .done s => landing m (if x.nwb then [] else ds)
                (.done (s.updGroup m.g fun q => q.pushLatch ((news.getLast?.map (·.2)).getD Runs.zero)))
            | e => e) s
where
  /-- The results are under way. -/
  landing (m : Mem) (ds : List Nat) : GEff → GEff
    | .done s =>
      .done (s.updGroup m.g fun q => q.await
        { regs := ds, lanes := m.act, merge := cBit x, wide := false
          kreg := if x.dsel && !x.nwb then some (x.dst.toNat - 32) else none, demand := false
          long := longSpace (spaceBits x) } true)
    | e => e

/-- R205: `st.w`. -/
def execStW (x : Args) (s : State) : Host.Outcome State Fault Refusal :=
  let n := wideCount x
  let vs := (List.range n).map fun i => x.dst.toNat + i
  issueGroup x (addrRegs x ++ vs) [] (fun m s =>
    let a := areaOf s (.group m)
    let ws := laneWords m s x n
    if m.act = 0 then .done s else
    match checkWide m s x true with
    | some c => .fault c
    | none =>
      if !wordsReady s a (spaceBits x) 4 ws then notReady (.group m) (spaceBits x) ws s
      else
        let addr := laneAddrs m s x
        let v := fun i => operand m s false (.v (BitVec.ofNat 10 (x.dst.toNat + i)))
        match readRegs m (addrRegs x ++ vs) (touchWords a (spaceBits x) 4 ws s) with
        | .done s =>
          .done (resetBack m ((lanesOf m.act).foldl (fun s l =>
            (List.range n).foldl (fun s i =>
              a.store (spaceBits x) ((addr l + 4 * i) % 2 ^ 32) 4 ((v i).at32 l).toNat s) s) s))
        | e => e) s

/-- R206: `spush`. -/
def execSpush (x : Args) (s : State) : Host.Outcome State Fault Refusal :=
  issueGroup x (srcRegs false x.a) [] (fun m s =>
    match Tbl.get? s.groups m.g, srcRegs false x.a with
    | some g, [j] =>
      let r := g.reg j
      if m.act = 0 || r.spilled.isSome || r.runs.length ≤ 1 then .done s
      else
        match spillReg s m.g j with
        | .ok s => .done s
        | .page ps => holdStep m (awaitPages s m.g ps)
        | .overflow n => .wait (spillOverflow s m.g n)
    | _, _ => .done s) s

/-- R207: `spop`. -/
def execSpop (x : Args) (s : State) : Host.Outcome State Fault Refusal :=
  issueGroup x (srcRegs false x.a) [] (fun m s =>
    let regs := srcRegs false x.a
    if m.act = 0 then .done s
    else
      match restoreRegs m regs regs 0 (s.inUse m.g) regs s with
      | .done s => .done (s.updGroup m.g Group.notePeak)
      | e => e) s

/-! ### Landing and paging events -/

/-- Whether a result awaits rows that are still queued to the matrix array (R262); a pass lands it. -/
def matrixOwes (s : State) (grp id : Nat) : Bool :=
  (s.core (coreOfGroup grp)).mats.any fun mc =>
    mc.queue.any fun r => (r.deliver.map fun d => (d.1, d.2.1)) == some (grp, id)

/-- Whether a result awaits a demand request that its core's path still holds (R295). -/
def pathOwes (s : State) (grp id : Nat) : Bool :=
  (s.core (coreOfGroup grp)).path.any fun r => r.grp == grp && r.id == id

/-- A result under way comes to its registers; one that the matrix array or the demand path owes does not come by these
events. -/
def landEvent (grp id : Nat) (demand : Bool) (s : State) : Host.Outcome State Fault Refusal :=
  match Tbl.get? s.groups grp with
  | none => .next s
  | some g =>
    match Tbl.get? g.pending id with
    | none => .next s
    | some p => if p.demand == demand && !matrixOwes s grp id && !pathOwes s grp id then .next (s.updGroup grp fun q => q.land id) else .next s

/-- R203: the data of a load arrive. -/
def execLoadResultLand (grp id : Nat) (s : State) : Host.Outcome State Fault Refusal := landEvent grp id false s

/-- A page that becomes resident in a core's spill SRAM of 128 pages; the least recently used is written back to the backing
area where there is no room (R196). -/
def pageIn (s : State) (grp page : Nat) : State :=
  s.updCore (coreOfGroup grp) fun k =>
    { k with
      spillPages := ((grp, page) :: k.spillPages).take 128
      spillWait := k.spillWait.filter (· != (grp, page))
      spillBacked := k.spillBacked ++ (k.spillPages.drop 127).filter fun p => !k.spillBacked.contains p }

/-- R196: a page that an access waits for becomes resident, fresh with every byte zero or filled from the backing area; paging
changes no value. -/
def execSpillPageFill (grp page : Nat) (s : State) : Host.Outcome State Fault Refusal :=
  let k := s.core (coreOfGroup grp)
  if k.spillWait.contains (grp, page) && !k.spillPages.contains (grp, page) then .next (pageIn s grp page) else .next s

end Sys2Proof.Machine
end

