-- ==== Sys2Proof/Machine/Crypto.lean ====
section
/-! DEFINITION. The block cipher SM4, the digest SM3 and the verification of SM2 signatures, which R13, R432, R435 and R460 name: as
their published standards define them, PRESUMED (log entry 6). Byte 0 of a block, a key or a digest is its bits 7 to 0, and the first in the standards' order. -/

namespace Sys2Proof.Machine

/-- Byte i of a number, the least significant first. -/
def byteOf (n i : Nat) : Nat := n / 256 ^ i % 256

/-- The four 32-bit words of 16 bytes, each with its first byte the most significant. -/
def wordsBE (n : Nat) (k : Nat) : List W32 :=
  (List.range k).map fun j =>
    BitVec.ofNat 32 (byteOf n (4 * j) * 2 ^ 24 + byteOf n (4 * j + 1) * 2 ^ 16 + byteOf n (4 * j + 2) * 2 ^ 8 + byteOf n (4 * j + 3))

/-- The bytes of some words, as a number. -/
def joinBE (ws : List W32) : Nat :=
  ws.foldr (fun w n =>
    byteOf w.toNat 3 + 2 ^ 8 * (byteOf w.toNat 2 + 2 ^ 8 * (byteOf w.toNat 1 + 2 ^ 8 * (byteOf w.toNat 0 + 2 ^ 8 * n)))) 0

/-! ### SM4 -/

/-- The substitution box: row r holds the bytes of 16 r to 16 r + 15, the first the least significant. -/
def sm4Rows : List Nat :=
  [0x052cfb28c214b616b73de1ccfee990d6, 0x99068649261344aac304be2a769a672b,
  0x62accfed430b54337a98ef91f450429c, 0xa63f8f75fa94df8095e808c9a91cb3e4,
  0xa84f85e6193c5983ba1773f3fca70747, 0x359d56704b0febf88bda6471b2816b68,
  0x877821013b7c2225a2d158635e0e241e, 0x9ec8c4a0e702364c5227d39f574600d4,
  0xa11561f9cef2f7a3b538c740d28abfea, 0xe3b18cf5303293ad551a349ba45daee0,
  0x6f4e530dab2329c060ca66822ee2f61d, 0x515b6c6d726aff032f8efdde4537dbd5,
  0xd85a101f415cd9117fbcddbb92af1b8d, 0xb0b4e5b812d0742dbd7bcda58831c10a,
  0x84c66ec509f1b9657e77960c4a976989, 0x4839cbd73e5fee79204ddc3aec7df018]

/-- A byte substituted. -/
def sm4Sub (b : Nat) : Nat := byteOf (sm4Rows.getD (b / 16) 0) (b % 16)

/-- The bytes of a word substituted. -/
def sm4Tau (w : W32) : W32 :=
  BitVec.ofNat 32 ((List.range 4).foldl (fun n i => n + sm4Sub (byteOf w.toNat i) * 256 ^ i) 0)

/-- The round function of the cipher. -/
def sm4T (w : W32) : W32 :=
  let b := sm4Tau w
  b ^^^ b.rotateLeft 2 ^^^ b.rotateLeft 10 ^^^ b.rotateLeft 18 ^^^ b.rotateLeft 24

/-- The round function of the key schedule. -/
def sm4Tk (w : W32) : W32 :=
  let b := sm4Tau w
  b ^^^ b.rotateLeft 13 ^^^ b.rotateLeft 23

/-- The constant of round i of the key schedule. -/
def sm4Ck (i : Nat) : W32 :=
  BitVec.ofNat 32 ((List.range 4).foldl (fun n j => n * 256 + (4 * i + j) * 7 % 256) 0)

/-- A step of the four-word register with a round's word. -/
def sm4Step (f : W32 → W32) (x : List W32) (r : W32) : List W32 :=
  match x with
  | [a, b, c, d] => [b, c, d, a ^^^ f (b ^^^ c ^^^ d ^^^ r)]
  | _ => x

/-- The round keys of a key. -/
def sm4Keys (key : BitVec 128) : List W32 :=
  let start := List.zipWith (· ^^^ ·) (wordsBE key.toNat 4) [0xA3B1BAC6, 0x56AA3350, 0x677D9197, 0xB27022DC]
  ((List.range 32).foldl (fun (acc : List W32 × List W32) i =>
    let x := sm4Step sm4Tk acc.1 (sm4Ck i)
    (x, acc.2 ++ [x.getD 3 0])) (start, [])).2

/-- A block enciphered. -/
def sm4 (key block : BitVec 128) : BitVec 128 :=
  BitVec.ofNat 128 (joinBE ((sm4Keys key).foldl (sm4Step sm4T) (wordsBE block.toNat 4)).reverse)

/-! ### SM3 -/

/-- The message padded to a multiple of 64 bytes. -/
def sm3Pad (bs : List Byte) : List Byte :=
  let n := bs.length
  bs ++ [0x80] ++ List.replicate ((119 - n % 64) % 64) 0 ++ (List.range 8).map fun i => BitVec.ofNat 8 (8 * n / 256 ^ (7 - i))

/-- The words that a block's 16 are expanded to, up to 68. -/
def sm3Expand : Nat → List W32 → List W32
  | 0, w => w
  | n + 1, w =>
    let at_ (i : Nat) : W32 := w.getD (w.length - i) 0
    let x := at_ 16 ^^^ at_ 9 ^^^ (at_ 3).rotateLeft 15
    sm3Expand n (w ++ [x ^^^ x.rotateLeft 15 ^^^ x.rotateLeft 23 ^^^ (at_ 13).rotateLeft 7 ^^^ at_ 6])

/-- One round of the compression. -/
def sm3Round (w : List W32) (v : List W32) (j : Nat) : List W32 :=
  match v with
  | [a, b, c, d, e, f, g, h] =>
    let t : W32 := if j < 16 then 0x79CC4519 else 0x7A879D8A
    let s1 := (a.rotateLeft 12 + e + t.rotateLeft (j % 32)).rotateLeft 7
    let s2 := s1 ^^^ a.rotateLeft 12
    let ff := if j < 16 then a ^^^ b ^^^ c else (a &&& b) ||| (a &&& c) ||| (b &&& c)
    let gg := if j < 16 then e ^^^ f ^^^ g else (e &&& f) ||| (~~~e &&& g)
    let t1 := ff + d + s2 + (w.getD j 0 ^^^ w.getD (j + 4) 0)
    let t2 := gg + h + s1 + w.getD j 0
    [t1, a, b.rotateLeft 9, c, t2 ^^^ t2.rotateLeft 9 ^^^ t2.rotateLeft 17, e, f.rotateLeft 19, g]
  | _ => v

/-- The blocks of a padded message compressed, `fuel` of them. -/
def sm3Blocks : Nat → List Byte → List W32 → List W32
  | 0, _, v => v
  | fuel + 1, bs, v =>
    let w := sm3Expand 52 ((List.range 16).map fun j =>
      BitVec.ofNat 32 (((bs.drop (4 * j)).take 4).foldl (fun n b => n * 256 + b.toNat) 0))
    sm3Blocks fuel (bs.drop 64) (List.zipWith (· ^^^ ·) v ((List.range 64).foldl (sm3Round w) v))

/-- The digest of a message. -/
def sm3 (message : List Byte) : BitVec 256 :=
  let p := sm3Pad message
  BitVec.ofNat 256 (joinBE (sm3Blocks (p.length / 64) p
    [0x7380166F, 0x4914B2B9, 0x172442D7, 0xDA8A0600, 0xA96F30BC, 0x163138AA, 0xE38DEE4D, 0xB0FB0E4E]))

/-! ### SM2 -/

/-- The prime of the curve y² = x³ - 3 x + b, its b, the order of its base point, and that point. -/
def sm2P : Nat := 0xFFFFFFFEFFFFFFFFFFFFFFFFFFFFFFFFFFFFFFFF00000000FFFFFFFFFFFFFFFF
def sm2B : Nat := 0x28E9FA9E9D9F5E344D5A9E4BCF6509A7F39789F515AB8F92DDBCBD414D940E93
def sm2N : Nat := 0xFFFFFFFEFFFFFFFFFFFFFFFFFFFFFFFF7203DF6B21C6052B53BBF40939D54123
def sm2Gx : Nat := 0x32C4AE2C1F1981195F9904466A39C9948FE30BBFF2660BE1715A4589334C74C7
def sm2Gy : Nat := 0xBC3736A2F4F6779C59BDCEE36B692153D0A9877CC62A474002DF32E52139F0A0

/-- A difference modulo the prime. -/
def sm2Sub (a b : Nat) : Nat := (a + sm2P - b % sm2P) % sm2P

/-- A point in Jacobian coordinates; z = 0 is the point at infinity. -/
structure JPoint where
  x : Nat
  y : Nat
  z : Nat
  deriving DecidableEq, Repr

/-- A point doubled. -/
def JPoint.dbl (a : JPoint) : JPoint :=
  let yy := a.y * a.y % sm2P
  let s := 4 * a.x * yy % sm2P
  let zz := a.z * a.z % sm2P
  let m := 3 * sm2Sub (a.x * a.x) (zz * zz) % sm2P
  let x := sm2Sub (m * m) (2 * s)
  { x := x, y := sm2Sub (m * sm2Sub s x) (8 * yy * yy), z := 2 * a.y * a.z % sm2P }

/-- The sum of two points. -/
def JPoint.add (a b : JPoint) : JPoint :=
  if a.z = 0 then b
  else if b.z = 0 then a
  else
    let za := a.z * a.z % sm2P
    let zb := b.z * b.z % sm2P
    let u := a.x * zb % sm2P
    let h := sm2Sub (b.x * za) u
    let v := a.y * (zb * b.z % sm2P) % sm2P
    let r := sm2Sub (b.y * (za * a.z % sm2P)) v
    if h = 0 then (if r = 0 then a.dbl else { x := 1, y := 1, z := 0 })
    else
      let hh := h * h % sm2P
      let hhh := hh * h % sm2P
      let w := u * hh % sm2P
      let x := sm2Sub (r * r) (hhh + 2 * w)
      { x := x, y := sm2Sub (r * sm2Sub w x) (v * hhh), z := h * (a.z * b.z % sm2P) % sm2P }

/-- A multiple of a point, by the bits of a number below 2^256, the highest first. -/
def JPoint.times (a : JPoint) (k : Nat) : JPoint :=
  (List.range 256).reverse.foldl (fun r i => if k.testBit i then r.dbl.add a else r.dbl) { x := 1, y := 1, z := 0 }

/-- The inverse modulo the prime. -/
def sm2Inv (a : Nat) : Nat :=
  (List.range 256).reverse.foldl (fun r i => if (sm2P - 2).testBit i then r * r % sm2P * a % sm2P else r * r % sm2P) 1

/-- Bytes as a number, the first the most significant. -/
def ofBE (bs : List Byte) : Nat := bs.foldl (fun n b => n * 256 + b.toNat) 0

/-- The 32 bytes of a number, the first the most significant. -/
def toBE (n : Nat) : List Byte := (List.range 32).map fun i => BitVec.ofNat 8 (byteOf n (31 - i))

/-- The bytes of a digest, in order. -/
def digestBytes (d : BitVec 256) : List Byte := (List.range 32).map fun i => BitVec.ofNat 8 (byteOf d.toNat i)

/-- The digest of the default distinguishing identifier, the curve and a public key. -/
def sm2Z (pub : List Byte) : List Byte :=
  digestBytes (sm3 ([0x00, 0x80] ++ [0x31, 0x32, 0x33, 0x34, 0x35, 0x36, 0x37, 0x38, 0x31, 0x32, 0x33, 0x34, 0x35, 0x36, 0x37, 0x38] ++
    toBE (sm2P - 3) ++ toBE sm2B ++ toBE sm2Gx ++ toBE sm2Gy ++ pub))

/-- Whether a signature (r, s) of some bytes verifies under a public key (x, y), a point of the curve (R13, R460). -/
def sm2Verify (pub message sig : List Byte) : Bool :=
  let x := ofBE (pub.take 32)
  let y := ofBE (pub.drop 32)
  let r := ofBE (sig.take 32)
  let s := ofBE (sig.drop 32)
  let t := (r + s) % sm2N
  let e := ofBE (digestBytes (sm3 (sm2Z pub ++ message)))
  let q := (JPoint.times { x := sm2Gx, y := sm2Gy, z := 1 } s).add (JPoint.times { x := x, y := y, z := 1 } t)
  let zi := sm2Inv q.z
  decide (x < sm2P) && decide (y < sm2P) && y * y % sm2P == (x * x % sm2P * x + (sm2P - 3) * x + sm2B) % sm2P &&
    r != 0 && decide (r < sm2N) && s != 0 && decide (s < sm2N) && t != 0 && q.z != 0 &&
    (e + q.x * (zi * zi % sm2P) % sm2P) % sm2N == r

end Sys2Proof.Machine
end

