-- ==== Sys2Proof/Machine/Port.lean ====
section
/-! DEFINITION. The memory port (R419 to R438): buffer-table entries, page maps, channels, ECC and poison,
encryption and integrity, and accesses forwarded to remote devices. -/

namespace Sys2Proof.Machine

/-! ### Buffer-table entries -/

/-- A buffer-table entry, decoded (R419). -/
structure BufEntry where
  valid : Bool
  owner : Nat
  length : Nat
  rembuf : Nat
  remctx : Nat
  remdev : Nat
  cgroup : Nat
  stripe : Nat
  home : Nat
  enc : Bool
  rights : Nat
  pmap : Nat
  plbase : Nat
  /-- No reserved field is nonzero. -/
  clean : Bool
  deriving DecidableEq, Repr

/-- The fields of a 32-byte entry. -/
def BufEntry.of (e : BitVec 256) : BufEntry :=
  let w (i : Nat) : Nat := bits e.toNat (64 * i) 64
  { valid := bit (w 0) 55, owner := bits (w 0) 48 7, length := bits (w 0) 0 48
    rembuf := bits (w 1) 32 16, remctx := bits (w 1) 26 6, remdev := bits (w 1) 16 10
    cgroup := bits (w 1) 10 6, stripe := bits (w 1) 8 2, home := bits (w 1) 6 2, enc := bit (w 1) 5
    rights := bits (w 1) 0 5, pmap := w 2, plbase := bits (w 3) 0 42
    clean := bits (w 0) 56 8 == 0 && bits (w 1) 48 16 == 0 && bits (w 3) 42 22 == 0 }

/-- The sealed right. -/
def BufEntry.sealed (e : BufEntry) : Bool := bit e.rights 4

/-- Malformed entries (R420); they act as VALID = 0. -/
def BufEntry.malformed (firmware : Bool) (e : BufEntry) : Bool :=
  !e.clean || e.stripe == 3 || e.home == 3 ||
  (e.home == 1 && 767 < e.remdev) ||
  (e.home == 0 && e.sealed && !e.enc) ||
  (e.home == 2 && e.sealed) ||
  (e.enc && e.home != 0) ||
  32 < e.cgroup ||
  (firmware && e.home == 0 && e.pmap != 0)

/-- The entry of a buffer index of a context; one that was never written is all zero. -/
def bufEntry (s : State) (ctx buf : Nat) : BufEntry := BufEntry.of (Tbl.get (s.ctx ctx).bufs buf 0)

/-! ### Channels (R425 to R427) -/

/-- Bytes of a stripe code. -/
def stripeBytes (code : Nat) : Nat :=
  match code with
  | 0 => 256
  | 1 => 4096
  | _ => 131072

/-- The live channels of a channel group, in order (R426). -/
def liveChannels (s : State) (cgroup : Nat) : List Nat :=
  let all := Config.hbmStacks * Config.channelsPerStack
  let range :=
    if cgroup = 0 then List.range all
    else if cgroup ≤ 8 then (List.range 96).map fun i => (cgroup - 1) * 96 + i
    else (List.range 32).map fun i => (cgroup - 9) * 32 + i
  range.filter fun c => !s.untrained.contains c

/-- The channel and channel address of a device address (R425); none where it lies beyond its channel. -/
def channelOf (s : State) (cgroup stripe d : Nat) : Option (Nat × Nat) :=
  let live := liveChannels s cgroup
  let c := live.length
  let b := stripeBytes stripe
  let q := d / b
  if c = 0 || 32 < cgroup || stripe = 3 then none
  else
    let a := q / c * b + d % b
    if a < Config.channelBytes then (live[q % c]?).map fun ch => (ch, a) else none

/-- The memory key of a device address. -/
def deviceKey (s : State) (cgroup stripe d : Nat) : Option Nat :=
  (channelOf s cgroup stripe d).map fun p => (Space.channel p.1).key p.2

/-- Whether a key lies in a channel, and which with the address. -/
def keyChannel (k : Nat) : Option (Nat × Nat) :=
  if 4 * 2 ^ 68 ≤ k && k < 5 * 2 ^ 68 then
    let o := k - 4 * 2 ^ 68
    some (o / 2 ^ 32, o % 2 ^ 32)
  else none

/-- Word 6 of a record for a place in a channel (R470). -/
def placeWord (k : Nat) : Nat :=
  match keyChannel k with
  | some (c, a) => 2 ^ 63 + c / 96 * 2 ^ 60 + c % 96 * 2 ^ 53 + (Config.dramPlace c a).toNat
  | none => 0

/-! ### What an access comes to -/

/-- The kinds of access (R422); each names its right and its bit of KIND (R396). -/
inductive AKind where
  | read
  | write
  | atomic
  /-- A fetch of lantern code. -/
  | exec
  /-- A `bcp.v` read of a sealed buffer, which needs no other right. -/
  | verify
  deriving DecidableEq, Repr

/-- The bit of KIND. -/
def AKind.code : AKind → Nat
  | .read => 1
  | .write => 2
  | .atomic => 4
  | .exec => 8
  | .verify => 1

/-- Whether the rights of an entry allow an access (R422). -/
def AKind.allowed (k : AKind) (e : BufEntry) : Bool :=
  match k with
  | .read => bit e.rights 0
  | .write => bit e.rights 1 && !e.sealed
  | .atomic => bit e.rights 2 && !e.sealed
  | .exec => bit e.rights 3
  | .verify => e.sealed

/-- A failure at a port (R421, R438). -/
structure PFault where
  code : Nat
  kind : Nat := 0
  size : Nat := 0
  /-- The buffer pointer of the access. -/
  ptr : Nat := 0
  /-- AKIND of its record. -/
  akind : Nat := 1
  place : Nat := 0
  detail : Nat := 0
  deriving DecidableEq, Repr

/-- What an access at a port comes to. -/
inductive PRes (α : Type) where
  | ok (a : α) (s : State)
  /-- A remote answer is awaited. -/
  | wait (s : State)
  | fail (f : PFault) (s : State)

/-- Goes on where the access was performed. -/
def PRes.bind {α β : Type} (r : PRes α) (f : α → State → PRes β) : PRes β :=
  match r with
  | .ok a s => f a s
  | .wait s => .wait s
  | .fail e s => .fail e s

/-! ### ECC and poison (R429 to R431) -/

/-- The ECC granule of a key, or none outside the channels. -/
def granuleOf (k : Nat) : Option Nat := if (keyChannel k).isSome then some (k / 32) else none

/-- A correctable error met by a read (R429): rewritten, and recorded at most once per channel per millisecond, with the symbol
as a free value (log entry 5). -/
def correct (s : State) (g : Nat) : State :=
  if s.badCE.contains g then
    let k := g * 32
    let c := ((keyChannel k).map (·.1)).getD 0
    let r : RecIn := { code := 0x020B, cls := 2, sev := 1, recov := 0
                       engine := engineOf (c / 96) 63 6 (c % 96 / 32), place := placeWord k, detail := (Config.ceSymbol g s.now).toNat }
    let again := s.errLog.any fun w =>
      match w with
      | w0 :: w1 :: _ :: _ :: _ :: _ :: w6 :: _ =>
        w0.toNat / 2 ^ 48 == 0x020B && bits w6.toNat 53 10 == bits (placeWord k) 53 10 && decide (w1.toNat ≤ s.ts) && decide (s.ts < w1.toNat + 1000000)
      | _ => false
    let s := { s with badCE := s.badCE.filter (· != g) }
    if again then s else (logRecord s r true).1
  else s

/-- The granules of some bytes from a key on. -/
def granules (k n : Nat) : List Nat :=
  if n = 0 then [] else (List.range ((k + n - 1) / 32 - k / 32 + 1)).filterMap fun i => granuleOf ((k / 32 + i) * 32)

/-- Whether a key lies in a channel that has failed (R427). -/
def channelFailed (s : State) (k : Nat) : Bool := ((keyChannel k).map fun c => s.failed.contains c.1).getD false

/-- Whether some words are a record of a correction (R429). -/
def isCorrection (r : ErrRec) : Bool := ((r.head?.map fun w => w.toNat / 2 ^ 48).getD 0) == 0x020B

/-- What stays where the rest of an access is undone: the granules it has poisoned, the errors it has corrected and the
records of that (R429, R430). -/
def keepErrors (old new : State) : State :=
  (new.errLog.filter fun r => isCorrection r && !old.errLog.contains r).foldl
    (fun s r => appendRec s fun n => match r with
      | w :: ws => BitVec.ofNat 64 (w.toNat / 2 ^ 32 * 2 ^ 32 + n) :: ws
      | [] => [])
    { old with poison := new.poison.filter (fun g => !old.poison.contains g) ++ old.poison
               badUE := old.badUE.filter fun g => !new.poison.contains g
               badCE := old.badCE.filter new.badCE.contains }

/-- The port whose home a key is, one per stack (R5). -/
def keyPort (k : Nat) : Nat := ((keyChannel k).map (·.1 / 32)).getD (Config.hbmStacks)

/-- The first n elements of a list that meet a test, and all that do not. -/
def keepNewest {α : Type} (p : α → Bool) : Nat → List α → List α
  | _, [] => []
  | 0, a :: t => if p a then keepNewest p 0 t else a :: keepNewest p 0 t
  | n + 1, a :: t => if p a then a :: keepNewest p n t else a :: keepNewest p (n + 1) t

/-- A line of a channel that its port's cache now holds newer than HBM; the oldest of a full cache is written back (R5). -/
def noteDirty (ds : List Nat) (k : Nat) : List Nat :=
  if (keyChannel k).isNone then ds
  else keepNewest (fun l => keyPort (64 * l) == keyPort k) Config.portLines (k / 64 :: ds.filter (· != k / 64))

/-- Of an access that has failed or has to wait, what it had performed is undone. -/
def PRes.undone {α : Type} (r : PRes α) (old : State) : PRes α :=
  match r with
  | .ok a s => .ok a s
  | .wait s => .wait (keepErrors old s)
  | .fail f s => .fail f (keepErrors old s)

/-- The die of the port that owns a key's channel. -/
def keyDie (k : Nat) : Option Nat := (keyChannel k).map (·.1 / 96)

/-- What an access to a key comes to where the die of its port does not answer: it waits while the die resets, and ends
with REMOTEFAIL where the die stays lost (R463). -/
def atHome {α : Type} (k : Nat) (s : State) (f : PRes α) : PRes α :=
  match keyDie k with
  | none => f
  | some d => if (s.die d).up then f else if (s.die d).gone then .fail { code := 0x0402 } s else .wait s

/-- Reads bytes behind a port: POISON, or MEMUE, which poisons the granule; `rmw` says that the read is part of a
partial write (R430, R431). -/
def eccRead (k n : Nat) (rmw : Bool) (s : State) : PRes (List Byte) :=
  if channelFailed s k then .fail { code := 0x0206, place := placeWord k } s
  else match (granules k n).find? fun g => s.poison.contains g || s.badUE.contains g with
  | some g =>
    let f : PFault := { code := 0x0205, place := placeWord (g * 32), detail := g % 2 * 32 }
    if s.poison.contains g then .fail f s
    else .fail { f with code := if rmw then 0x0207 else 0x0206 } { s with poison := g :: s.poison, badUE := s.badUE.filter (· != g) }
  | none => .ok (Memory.readN s.mem k n) ((granules k n).foldl correct s)

/-- Writes bytes behind a port, into its cache: a whole granule clears its errors, a part of one is a read-modify-write
(R431). -/
def eccWrite (k : Nat) (bs : List Byte) (s : State) : PRes Unit :=
  if channelFailed s k then .fail { code := 0x0206, place := placeWord k } s else
  let n := bs.length
  let whole (g : Nat) : Bool := decide (k ≤ g * 32 && g * 32 + 32 ≤ k + n)
  let gs := granules k n
  match gs.find? fun g => !whole g && (s.poison.contains g || s.badUE.contains g) with
  | some g =>
    let f : PFault := { code := 0x0205, place := placeWord (g * 32), detail := g % 2 * 32 }
    if s.poison.contains g then .fail f s
    else .fail { f with code := 0x0207 } { s with poison := g :: s.poison, badUE := s.badUE.filter (· != g) }
  | none =>
    let s := (gs.filter fun g => !whole g).foldl correct s
    let full := gs.filter whole
    .ok () { s with
      mem := Memory.writeN s.mem k bs
      dirty := if n = 0 then s.dirty else noteDirty s.dirty k
      poison := s.poison.filter fun g => !full.contains g
      badUE := s.badUE.filter fun g => !full.contains g
      badCE := s.badCE.filter fun g => !full.contains g }

/-! ### Encryption and integrity (R432 to R434) -/

/-- Sixteen bytes as a cipher block, least significant byte first. -/
def toBlock (bs : List Byte) : BitVec 128 := BitVec.ofNat 128 (ofBytes (bs.take 16))
/-- The bytes of a cipher block. -/
def ofBlock (b : BitVec 128) : List Byte := toBytes b.toNat 16
/-- The four blocks of a line. -/
def chunksOf (bs : List Byte) : List (BitVec 128) := (List.range 4).map fun j => toBlock (bs.drop (16 * j))

/-- The initial value of a line's chunk (R432); `low` fills bits [7:2]. -/
def lineIV (ctx buf line ctr low j : Nat) : BitVec 128 :=
  BitVec.ofNat 128 (ctx % 64 * 2 ^ 122 + buf * 2 ^ 106 + line % 2 ^ 42 * 2 ^ 64 + ctr * 2 ^ 8 + low * 4 + j)

/-- The MAC of 64 bytes under Km (R432). -/
def macOf (km : BitVec 128) (iv : BitVec 128) (bs : List Byte) : Nat :=
  ((chunksOf bs).foldl (fun x c => sm4 km (x ^^^ c)) (sm4 km iv)).toNat % 2 ^ 64

/-- What the protection of a context rests on: its number, keys and NPL. -/
structure Shield where
  ctx : Nat
  kd : BitVec 128
  km : BitVec 128
  npl : Nat

/-- Counter blocks of level k (R433). -/
def levelBlocks (npl : Nat) : Nat → Nat
  | 0 => (npl + 7) / 8
  | k + 1 => (levelBlocks npl k + 7) / 8

/-- The number of stored levels: those before the first with at most 8 blocks. -/
def storedLevels (npl : Nat) : Nat := ((List.range 16).find? fun k => levelBlocks npl k ≤ 8).getD 16

/-- Where level k begins in the metadata buffer. -/
def levelBase (npl : Nat) (k : Nat) : Nat :=
  (8 * npl + 63) / 64 * 64 + 64 * ((List.range k).map (levelBlocks npl)).sum

/-- The MAC of a counter block under its own counter, with its MAC field taken as zero. -/
def Shield.blockMac (h : Shield) (k b ctr : Nat) (bs : List Byte) : Nat :=
  macOf h.km (lineIV h.ctx 0xFFFF b ctr k 0) (bs.take 56 ++ List.replicate 8 0)

/-! ### Translation (R423, R424) -/

/-- The key of an offset of a firmware buffer, whose entries are direct (R385). -/
def fwKey (s : State) (buf off : Nat) : Option Nat :=
  let e := bufEntry s Config.firmwareCtx buf
  if e.malformed true || !e.valid || e.home != 0 then none else deviceKey s e.cgroup e.stripe off

/-- A page-map entry (R423): read behind the port, through the firmware buffer its pointer names. -/
def pmapEntry (s : State) (e : BufEntry) (page : Nat) : Option W64 :=
  let o := e.pmap % 2 ^ 48 + 8 * page
  let buf := e.pmap / 2 ^ 48
  if (bufEntry s Config.firmwareCtx buf).length < o + 8 then none
  else (fwKey s buf o).map fun k => BitVec.ofNat 64 (Memory.readLE s.mem k 8)

/-- PRESENT. -/
def pmPresent (w : W64) : Bool := w.getLsbD 0
/-- TIER. -/
def pmTier (w : W64) : Bool := w.getLsbD 1
/-- SIZE. -/
def pmSize (w : W64) : Nat := bits w.toNat 2 2
/-- FRAME. -/
def pmFrame (w : W64) : Nat := bits w.toNat 16 36
/-- Pages of a run by SIZE. -/
def runPages (size : Nat) : Nat :=
  match size with
  | 0 => 1
  | 1 => 16
  | _ => 512
/-- A malformed page-map entry (R424). -/
def pmMalformed (w : W64) : Bool :=
  bits w.toNat 52 12 != 0 || bits w.toNat 5 11 != 0 || pmSize w == 3 || pmFrame w % runPages (pmSize w) != 0

/-- The page whose page-map entry maps a page (R424). -/
def mappingPage (s : State) (e : BufEntry) (page : Nat) : Nat :=
  let at_ (p : Nat) : W64 := (pmapEntry s e p).getD 0
  let two := at_ (page / 16 * 16)
  let big := at_ (page / 512 * 512)
  if pmSize two == 2 && pmPresent two then page / 16 * 16
  else if pmSize big == 2 && pmPresent big then page / 512 * 512
  else if pmSize two == 1 then page / 16 * 16
  else page

/-- The page-map entry that maps a page (R424). -/
def mappingEntry (s : State) (e : BufEntry) (page : Nat) : Option W64 := pmapEntry s e (mappingPage s e page)

/-- Where a page-map entry of a buffer stands. -/
def pmapKey (s : State) (e : BufEntry) (page : Nat) : Option Nat := fwKey s (e.pmap / 2 ^ 48) (e.pmap % 2 ^ 48 + 8 * page)

/-- A page-map entry read at its home (R423), where the read may wait or meet a bad granule (R430, R463); 0 beyond the map. -/
def readMapEntry (s : State) (e : BufEntry) (page : Nat) : PRes W64 :=
  match (pmapEntry s e page).bind fun _ => pmapKey s e page with
  | none => .ok 0 s
  | some k => atHome k s ((eccRead k 8 false s).bind fun bs s => .ok (BitVec.ofNat 64 (ofBytes bs)) s)

/-- The entry that maps a page, found as the port finds it (R424): the heads of the 2 MiB and the 64 MiB run are read, then, where
neither maps it, its own entry. -/
def readMapping (s : State) (e : BufEntry) (page : Nat) : PRes W64 :=
  (readMapEntry s e (page / 16 * 16)).bind fun two s => (readMapEntry s e (page / 512 * 512)).bind fun big s =>
    if pmSize two == 2 && pmPresent two then .ok two s
    else if pmSize big == 2 && pmPresent big then .ok big s
    else if pmSize two == 1 then .ok two s
    else readMapEntry s e page

/-- The page name of a pointer of a context (R401). -/
def pageName (ctx ptr : Nat) : Nat :=
  let fw := ctx == Config.firmwareCtx
  (if fw then 2 ^ 41 else ctx * 2 ^ 58) + ptr / 2 ^ 48 * 2 ^ 42 + ptr % 2 ^ 48 / 2 ^ 17

/-- The context of a page or buffer name (R401). -/
def nameCtx (n : Nat) : Nat := if bit n 41 then Config.firmwareCtx else bits n 58 6

/-- The core whose translation cache serves a party, where there is one (R395). -/
def partyCore (p : Party) : Option Nat :=
  match p.1 with
  | 0 => some (coreOfGroup p.2)
  | 1 => some (coreOfTeam p.2)
  | 2 => some (p.2 / 8)
  | 3 => some (p.2 / 64)
  | 5 => some p.2
  | _ => none

/-- The page-map entry that the cache of a party's core holds for a page, which is never refreshed from memory (R395). -/
def cachedWord (s : State) (p : Party) (name : Nat) : Option W64 :=
  (partyCore p).bind fun c => ((s.core c).tcache.find? fun e => e.1 == name).map (·.2)

/-- The memory key of an offset that a page-map entry maps; none is XLATE (R424). -/
def wordKey (s : State) (e : BufEntry) (w : W64) (off : Nat) : Option Nat :=
  if !pmPresent w || pmMalformed w then none
  else
    let a := pmFrame w * 2 ^ 17 + off % (runPages (pmSize w) * 2 ^ 17)
    if pmTier w then some (Space.host.key a) else deviceKey s e.cgroup e.stripe a

/-- The memory key of an offset of a local or host-direct buffer whose page an entry maps. -/
def entryKey (s : State) (ctx : Nat) (e : BufEntry) (off : Nat) (w : Option W64) : Option Nat :=
  if e.home = 2 then some (Space.host.key ((e.pmap + off) % 2 ^ 64))
  else if ctx = Config.firmwareCtx then deviceKey s e.cgroup e.stripe off
  else w.bind fun w => wordKey s e w off

/-- The memory key of an offset by the page map as it stands. -/
def bufKey (s : State) (ctx : Nat) (e : BufEntry) (off : Nat) : Option Nat :=
  entryKey s ctx e off (mappingEntry s e (off / 2 ^ 17))

/-- The memory key of an offset for a party: by what its core's cache holds, else by the page map (R395). -/
def keyFor (s : State) (p : Party) (ctx buf : Nat) (e : BufEntry) (off : Nat) : Option Nat :=
  entryKey s ctx e off (cachedWord s p (pageName ctx (buf * 2 ^ 48 + off)) <|> mappingEntry s e (off / 2 ^ 17))

/-- The metadata buffer of a context, where its entry stands; a malformed one acts as none (R420, R433). -/
def metaBuf (s : State) (ctx : Nat) : Option BufEntry :=
  let m := bufEntry s ctx 65534
  if m.valid && !m.malformed (ctx == Config.firmwareCtx) && m.home != 1 then some m else none

/-- The protection of a context's ENC buffers (R432, R433). -/
def shieldOf (s : State) (ctx : Nat) : Shield :=
  let c := s.ctx ctx
  { ctx := ctx, kd := c.kd, km := c.km, npl := ((metaBuf s ctx).map (·.plbase)).getD 0 }

/-- Where an offset of a context's metadata buffer lies, its page map read as for any access (R423, R430). -/
def metaAt (ctx off : Nat) (s : State) : PRes (Option Nat) :=
  match metaBuf s ctx with
  | none => .ok none s
  | some m =>
    if m.home != 0 || ctx == Config.firmwareCtx then .ok (entryKey s ctx m off none) s
    else (readMapping s m (off / 2 ^ 17)).bind fun w s => .ok (entryKey s ctx m off (some w)) s

/-! ### The counter cache (R434) -/

/-- The counter of a child in the bytes of its block. -/
def ctrAt (bs : List Byte) (i : Nat) : Nat := bits (ofBytes bs) (56 * (i % 8)) 56

/-- The block's bytes with the counter of a child set. -/
def setCtr (bs : List Byte) (i v : Nat) : List Byte :=
  let o := 7 * (i % 8)
  bs.take o ++ toBytes v 7 ++ bs.drop (o + 7)

/-- Whether a cached block is one of a context, level and number. -/
def CtrBlock.is (b : CtrBlock) (ctx k n : Nat) : Bool := b.ctx == ctx && b.level == k && b.block == n

/-- The offset of a counter block in the metadata buffer (R433). -/
def ctrOff (s : State) (ctx k n : Nat) : Nat := levelBase (shieldOf s ctx).npl k + 64 * n

/-- Where a counter block lies in memory, by the page map as it stands. -/
def ctrKey (s : State) (ctx k n : Nat) : Option Nat := (metaBuf s ctx).bind fun m => bufKey s ctx m (ctrOff s ctx k n)

/-- The counter of child i of level k set: in the root register, or in a cached block, which memory then has still to receive. -/
def putCounter (ctx k i v : Nat) (s : State) : State :=
  if storedLevels (shieldOf s ctx).npl ≤ k then s.updCtx ctx fun x => { x with root := Tbl.set x.root i v }
  else { s with counters := s.counters.map fun b => if b.is ctx k (i / 8) then { b with bytes := setCtr b.bytes i v, dirty := true } else b }

/-- The block that leaves a port's full counter cache: the least recently used of that port. -/
def ctrVictim (s : State) (port : Nat) : Option CtrBlock :=
  let mine := s.counters.filter fun b => ((ctrKey s b.ctx b.level b.block).map keyPort).getD Config.hbmStacks == port
  if mine.length < Config.counterBlocks then none else mine.getLast?

/-- The counter of child i of level k of a context, brought into the cache with its chain: each block that is not cached is
verified against its parent, up to a cached block or the root register. A block that has to leave is written back where memory
has still to receive it, its counter in the parent raised and its MAC formed anew (R434). `fuel` bounds the chain. -/
def bringCounter : Nat → Nat → Nat → Nat → State → PRes Nat
  | 0, _, k, _, s => .fail { code := 0x0209, detail := k } s
  | fuel + 1, ctx, k, i, s =>
    let h := shieldOf s ctx
    if storedLevels h.npl ≤ k then .ok (Tbl.get (s.ctx ctx).root i 0) s
    else
      match s.counters.find? fun b => b.is ctx k (i / 8) with
      | some b => .ok (ctrAt b.bytes i) { s with counters := b :: s.counters.filter fun b => !b.is ctx k (i / 8) }
      | none =>
        (metaAt ctx (ctrOff s ctx k (i / 8)) s).bind fun at_ s =>
        match at_ with
        | none => .fail { code := 0x0209, detail := k } s
        | some key =>
          (bringCounter fuel ctx (k + 1) (i / 8) s).bind fun c s =>
          (atHome key s (eccRead key 64 false s)).bind fun bs s =>
            if h.blockMac k (i / 8) c bs != ofBytes (bs.drop 56) then .fail { code := 0x0209, detail := k, place := placeWord key } s
            else
              let hold (s : State) : State :=
                { s with counters := { ctx := ctx, level := k, block := i / 8, bytes := bs.take 56, dirty := false } :: s.counters }
              match ctrVictim s (keyPort key) with
              | none => .ok (ctrAt bs i) (hold s)
              | some v =>
                let s := { s with counters := s.counters.filter fun b => !b.is v.ctx v.level v.block }
                if !v.dirty then .ok (ctrAt bs i) (hold s)
                else
                  (bringCounter fuel v.ctx (v.level + 1) v.block s).bind fun c s =>
                  (writeBlock v (c + 1) s).bind fun _ s => .ok (ctrAt bs i) (hold s)
where
  /-- A block written back under its raised counter. -/
  writeBlock (v : CtrBlock) (c : Nat) (s : State) : PRes Unit :=
    (metaAt v.ctx (ctrOff s v.ctx v.level v.block) s).bind fun at_ s =>
    match at_ with
    | none => .fail { code := 0x0209, detail := v.level } s
    | some key =>
      if 2 ^ 56 ≤ c then .fail { code := 0x0209, detail := v.level, place := placeWord key } s
      else
        atHome key s <| eccWrite key (v.bytes ++ toBytes ((shieldOf s v.ctx).blockMac v.level v.block c v.bytes) 8) (putCounter v.ctx (v.level + 1) v.block c s)

/-- A block of the cache written back, which stays in it (R434). -/
def cleanBlock (v : CtrBlock) (s : State) : PRes Unit :=
  (bringCounter 40 v.ctx (v.level + 1) v.block s).bind fun c s =>
  (bringCounter.writeBlock v (c + 1) s).bind fun _ s =>
    .ok () { s with counters := s.counters.map fun b => if b.is v.ctx v.level v.block then { b with dirty := false } else b }

/-- Whether a cache writes a block back before an access, which it may do at any time, is a free value (log entry 16). -/
def freeCleaning (s : State) : PRes Unit :=
  match s.counters.filter (·.dirty) with
  | [] => .ok () s
  | bs =>
    let s' := { s with draws := s.draws + 1 }
    match (Config.ctrLeaves s.draws).bind fun i => bs[i]? with
    | none => .ok () s'
    | some b => cleanBlock b s'

/-- An encrypted line read: 64 bytes at a key, protected line p, buffer and offset (R432, R434); `rmw` says that it is part of
a partial write (R431). -/
def encRead (ctx key p buf off : Nat) (rmw : Bool) (s : State) : PRes (List Byte) :=
  let h := shieldOf s ctx
  if h.npl ≤ p then .fail { code := 0x0209, detail := 0, place := placeWord key } s
  else
    (eccRead key 64 rmw s).bind fun cs s =>
    (freeCleaning s).bind fun _ s =>
    (bringCounter 40 ctx 0 p s).bind fun ctr s =>
      (metaAt ctx (8 * p) s).bind fun at_ s =>
      match at_ with
      | none => .fail { code := 0x0208, place := placeWord key } s
      | some mk =>
        (atHome mk s (eccRead mk 8 rmw s)).bind fun mac s =>
          if macOf h.km (lineIV ctx buf (off / 64) ctr 0 0) cs != ofBytes mac then .fail { code := 0x0208, place := placeWord key } s
          else .ok ((List.range 4).flatMap fun j =>
            ofBlock (toBlock (cs.drop (16 * j)) ^^^ sm4 h.kd (lineIV ctx buf (off / 64) ctr 0 j))) s

/-- An encrypted line written whole, under its raised counter. -/
def encWrite (ctx key p buf off : Nat) (plain : List Byte) (s : State) : PRes Unit :=
  let h := shieldOf s ctx
  if h.npl ≤ p then .fail { code := 0x0209, detail := 0, place := placeWord key } s
  else
    (freeCleaning s).bind fun _ s =>
    (bringCounter 40 ctx 0 p s).bind fun old s =>
      let ctr := old + 1
      (metaAt ctx (8 * p) s).bind fun at_ s =>
      match at_ with
      | none => .fail { code := 0x0209, detail := 0, place := placeWord key } s
      | some mk =>
        if 2 ^ 56 ≤ ctr then .fail { code := 0x0209, detail := 0, place := placeWord key } s
        else
          let cs := (List.range 4).flatMap fun j =>
            ofBlock (toBlock (plain.drop (16 * j)) ^^^ sm4 h.kd (lineIV ctx buf (off / 64) ctr 0 j))
          (atHome mk s <| eccWrite mk (toBytes (macOf h.km (lineIV ctx buf (off / 64) ctr 0 0) cs) 8) (putCounter ctx 0 p ctr s)).bind fun _ s =>
            eccWrite key cs s

/-! ### Local accesses -/

/-- The parts of an access within lines of 64 bytes: offset and length. -/
def lineParts (off n : Nat) : List (Nat × Nat) :=
  if n = 0 then []
  else (List.range ((off + n - 1) / 64 - off / 64 + 1)).map fun i =>
    let lo := max off ((off / 64 + i) * 64)
    let hi := min (off + n) ((off / 64 + i) * 64 + 64)
    (lo, hi - lo)

/-- Reads one part behind the port. -/
def readPart (p : Party) (ctx buf : Nat) (e : BufEntry) (off n : Nat) (s : State) : PRes (List Byte) :=
  match keyFor s p ctx buf e off with
  | none => .fail { code := 0x0201 } s
  | some k =>
    atHome k s <|
    if e.enc then
      (encRead ctx (k - off % 64) (e.plbase + off / 64) buf off false s).bind fun bs s => .ok ((bs.drop (off % 64)).take n) s
    else eccRead k n false s

/-- Writes one part behind the port; part of an encrypted line is merged into the decrypted line first. -/
def writePart (q : Party) (ctx buf : Nat) (e : BufEntry) (off : Nat) (bs : List Byte) (s : State) : PRes Unit :=
  match keyFor s q ctx buf e off with
  | none => .fail { code := 0x0201 } s
  | some k =>
    atHome k s <|
    if e.enc then
      let p := e.plbase + off / 64
      let key := k - off % 64
      if bs.length = 64 then encWrite ctx key p buf off bs s
      else
        (encRead ctx key p buf off true s).bind fun old s =>
          encWrite ctx key p buf off (old.take (off % 64) ++ bs ++ old.drop (off % 64 + bs.length)) s
    else eccWrite k bs s

/-- Reads of several parts, one after another. -/
def readParts (p : Party) (ctx buf : Nat) (e : BufEntry) : List (Nat × Nat) → State → PRes (List Byte)
  | [], s => .ok [] s
  | (o, n) :: t, s => (readPart p ctx buf e o n s).bind fun bs s => (readParts p ctx buf e t s).bind fun r s => .ok (bs ++ r) s

/-- Writes of several parts, one after another. -/
def writeParts (p : Party) (ctx buf : Nat) (e : BufEntry) : List (Nat × Nat) → List Byte → State → PRes Unit
  | [], _, s => .ok () s
  | (o, n) :: t, bs, s => (writePart p ctx buf e o (bs.take n) s).bind fun _ s => writeParts p ctx buf e t (bs.drop n) s

/-- The translation of a page that an access needs (R395, R423): held by the cache of the party's core, else read from the page
map, where the read may wait for its home or meet a bad granule (R430, R463), and, where it maps the page, held from then on. -/
def readMapOf (p : Party) (ctx buf : Nat) (e : BufEntry) (page : Nat) (s : State) : PRes Unit :=
  if e.home != 0 || ctx == Config.firmwareCtx then .ok () s
  else
    let name := pageName ctx (buf * 2 ^ 48 + page * 2 ^ 17)
    let got : PRes W64 := match cachedWord s p name with
      | some w => .ok w s
      | none => readMapping s e page
    got.bind fun w s => .ok () (match partyCore p with
      | none => s
      | some c =>
        if !pmPresent w || pmMalformed w then s
        else s.updCore c fun q => { q with tcache := ((name, w) :: q.tcache.filter fun e => e.1 != name).take Config.tcacheEntries })

/-- Check 4 of R421 on every part of an access: each page is mapped present. -/
def checkPages (p : Party) (ctx buf : Nat) (e : BufEntry) : List (Nat × Nat) → State → PRes Unit
  | [], s => .ok () s
  | (o, _) :: t, s =>
    (readMapOf p ctx buf e (o / 2 ^ 17) s).bind fun _ s =>
      match keyFor s p ctx buf e o with
      | none => .fail { code := 0x0201, ptr := buf * 2 ^ 48 + o } s
      | some k => atHome k s (checkPages p ctx buf e t s)

/-- Check 5 of R421 on every part of an access: no granule it reads is bad. A write reads what it covers in part only, and an
encrypted line as a whole (R431). -/
def checkGranules (p : Party) (ctx buf : Nat) (e : BufEntry) (store : Bool) : List (Nat × Nat) → State → PRes Unit
  | [], s => .ok () s
  | (o, n) :: t, s =>
    let here : PRes Unit := match keyFor s p ctx buf e o with
      | none => .ok () s
      | some k =>
        if e.enc then (if store && n == 64 then .ok () s else (eccRead (k - o % 64) 64 store s).bind fun _ s => .ok () s)
        else if store then
          let ends := (granuleOf k).toList.filter (fun g => g * 32 < k || k + n < g * 32 + 32) ++
            (granuleOf (k + n - 1)).toList.filter fun g => k + n < g * 32 + 32
          ends.foldl (fun r g => r.bind fun _ s => (eccRead (g * 32) 32 true s).bind fun _ s => .ok () s) (.ok () s)
        else (eccRead k n false s).bind fun _ s => .ok () s
    here.bind fun _ s => checkGranules p ctx buf e store t s

/-- An access at its home, checked whole before any of it is performed (R421); of one that then fails or has to wait, what it
has performed is undone. -/
def checked {α : Type} (p : Party) (ctx buf : Nat) (e : BufEntry) (store : Bool) (parts : List (Nat × Nat)) (s : State)
    (k : State → PRes α) : PRes α :=
  (checkPages p ctx buf e parts s).bind fun _ s => (checkGranules p ctx buf e store parts s).bind fun _ s =>
    (k s).undone s

/-- Checks 1 to 3 of R421: the entry, or the code of the first check that fails. `own` says that a tenant's own
instruction makes the access, which may not name the reserved indices. -/
def checkEntry (s : State) (ctx : Nat) (ptr n : Nat) (kind : AKind) (own : Bool) : Except Nat BufEntry :=
  let buf := ptr / 2 ^ 48
  let e := bufEntry s ctx buf
  if !e.valid || e.malformed (ctx == Config.firmwareCtx) || e.owner != ctx ||
      (own && ctx != Config.firmwareCtx && 65534 ≤ buf) then .error 0x0202
  else if e.length < ptr % 2 ^ 48 + n then .error 0x0203
  else if !kind.allowed e then .error 0x0204
  else .ok e

/-- The failure of an access, with what its record gives. -/
def PFault.at (f : PFault) (ptr n : Nat) (kind : AKind) : PFault :=
  { f with ptr := if f.code = 0x0201 && f.ptr != 0 then f.ptr else ptr, kind := kind.code, size := n
           detail := if 0x0202 ≤ f.code && f.code ≤ 0x0204 then kind.code + n % 2 ^ 16 * 2 ^ 16 else f.detail }

/-- A failed access with its pointer. -/
def PRes.named {α : Type} (r : PRes α) (ptr n : Nat) (kind : AKind) : PRes α :=
  match r with
  | .fail f s => .fail (f.at ptr n kind) s
  | r => r

/-! ### Remote accesses (R448, R451 to R453) -/

/-- The CRC register after some bits, the first bit first. -/
def crcBits : List Bool → W32 → W32
  | [], c => c
  | b :: bs, c => if c.getLsbD 0 != b then crcBits bs ((c >>> 1) ^^^ 0x82F63B78) else crcBits bs (c >>> 1)

/-- CRC-32C of some bytes (R372), each taken from its bit 0 on. -/
def crc32c (bs : List Byte) : W32 := ~~~(crcBits (bs.flatMap fun b => (List.range 8).map b.getLsbD) 0xFFFFFFFF)

/-- The guard tag of a block (R372). -/
def guardTag (version addr : Nat) (bs : List Byte) : BitVec 80 :=
  BitVec.ofNat 80 (version % 256 * 2 ^ 72 + addr % 2 ^ 40 * 2 ^ 32 + (crc32c bs).toNat)

/-- The words of a block padded to 256 bytes (R449). -/
def blockWords (bs : List Byte) : List Nat :=
  let p := bs ++ List.replicate (256 - bs.length) 0
  (List.range 64).map fun i => ofBytes ((p.drop (4 * i)).take 4)

/-- The tag and data of a word after the one before it (R449, R450). -/
def wordTag (p w : Nat) : Nat × List Byte :=
  if w = 0 then (0, [])
  else if w = p then (1, [])
  else if w / 2 ^ 16 = p / 2 ^ 16 then (2, toBytes w 2)
  else (3, toBytes w 4)

/-- A block as the sending port encodes it (R450). -/
def compress (bs : List Byte) : List Byte :=
  let ws := blockWords bs
  if ws.all (· == 0) then [1]
  else
    let tags := (ws.zip (0 :: ws)).map fun q => wordTag q.2 q.1
    let enc := 2 :: toBytes ((tags.zipIdx.map fun t => t.1.1 * 4 ^ t.2).sum) 16 ++ tags.flatMap (·.2)
    if enc.length < 257 then enc else 0 :: ws.flatMap fun w => toBytes w 4

/-- The words of a WORD encoding, from its tags and data. -/
def expandWords : List Nat → Nat → List Byte → Option (List Nat × List Byte)
  | [], _, bs => some ([], bs)
  | t :: ts, p, bs =>
    let n := if t = 2 then 2 else if t = 3 then 4 else 0
    if bs.length < n then none
    else
      let w := match t with
        | 0 => 0
        | 1 => p
        | 2 => p / 2 ^ 16 * 2 ^ 16 + ofBytes (bs.take 2)
        | _ => ofBytes (bs.take 4)
      (expandWords ts w (bs.drop n)).map fun r => (w :: r.1, r.2)

/-- The 256 bytes an encoding stands for (R449). -/
def expand (bs : List Byte) : Option (List Byte) :=
  match bs with
  | [] => none
  | m :: t =>
    match m.toNat with
    | 0 => if t.length = 256 then some t else none
    | 1 => if t.isEmpty then some (List.replicate 256 0) else none
    | 2 =>
      if t.length < 16 then none
      else
        let map := ofBytes (t.take 16)
        match expandWords ((List.range 64).map fun i => map / 4 ^ i % 4) 0 (t.drop 16) with
        | some (ws, []) => some (ws.flatMap fun w => toBytes w 4)
        | _ => none
    | _ => none

/-- The key of the counter of the engine that sends a party's packets: the demand path of its core for a group or a Wick context, else
the stream slot, the copy, the launch unit or the controller (R372, R471; log entry 12). -/
def versionKey (p : Party) : Nat :=
  match p.1 with
  | 0 => 5 * 2 ^ 20 + coreOfGroup p.2
  | 1 => 5 * 2 ^ 20 + coreOfTeam p.2
  | 4 => 4 * 2 ^ 20 + p.2 % 128
  | k => k * 2 ^ 20 + p.2

/-- The counter raised at the start of an operation (R372). -/
def startVersion (p : Party) (s : State) : State :=
  { s with versions := Tbl.set s.versions (versionKey p) ((Tbl.get s.versions (versionKey p) 0 + 1) % 256) }

/-- The VERSION of a packet of a party. A copy, an access of a stream and a request on a demand path have raised the counter when
they began; an operation of another party raises it with its first packet, whose value its later packets carry. -/
def packetVersion (s : State) (p : Party) : Nat × State :=
  let going := (s.txns.find? fun t => t.2.party == p).map (·.2.version) <|>
    (s.replies.find? fun r => r.party == p && r.ctx != 127).map (·.version)
  let now (s : State) : Nat := Tbl.get s.versions (versionKey p) 0
  match p.1 with
  | 2 | 3 => (now s, s)
  | 5 => (((s.core p.2).path.head?.bind (·.version)).getD (now s), s)
  | _ =>
    match going with
    | some v => (v, s)
    | none => (now (startVersion p s), startVersion p s)

/-- A free transaction number, 12 bits (R448). -/
def freeTxid (s : State) : Option Nat :=
  ((List.range 4096).map fun i => (s.nextTx + i) % 4096).find? fun i => (Tbl.get? s.txns i).isNone

/-- The bytes of a packet (R448). -/
def packetBytes (p : Packet) : List Byte :=
  toBytes (p.ctx % 64 * 2 ^ 250 + p.buf % 2 ^ 16 * 2 ^ 234 + p.offset % 2 ^ 48 * 2 ^ 186 + p.aop % 256 * 2 ^ 178 +
    p.dest % 1024 * 2 ^ 118 + p.src % 1024 * 2 ^ 108 + p.op % 64 * 2 ^ 102 + p.payload.length % 512 * 2 ^ 93 +
    p.txid % 4096 * 2 ^ 81 + p.guard.toNat) 32 ++ p.payload

/-- A flit of up to 240 packet bytes, the rest fill, with its trailer (R446). -/
def flitOf (seq ack : Nat) (nak : Bool) (credit : Nat) (body : List Byte) : List Byte :=
  let head := body.take 240 ++ List.replicate (240 - body.length) 0
  let tail := (toBytes (seq % 4096 * 2 ^ 116 + ack % 4096 * 2 ^ 104 + (if nak then 2 ^ 103 else 0) + credit % 128 * 2 ^ 96) 16).drop 4
  head ++ toBytes (crc32c (head ++ tail)).toNat 4 ++ tail

/-- The last flit a port received in order and intact. -/
def VPort.ack (v : VPort) : Nat := (v.rxSeq + 4095) % 4096

/-- What goes into some room of a flit: bytes of packets, back to back, the packets that end there, and those left, with how much of
the first has gone. No packet begins where fewer than 32 bytes are left (R448; log entry 33). -/
def packFlit : List (List Byte) → Nat → Nat → List Byte × List (List Byte) × List (List Byte) × Nat
  | [], _, _ => ([], [], [], 0)
  | p :: ps, cut, room =>
    let left := p.drop cut
    if cut = 0 && room < 32 then ([], [], p :: ps, 0)
    else if left.length ≤ room then
      let r := packFlit ps 0 (room - left.length)
      (left ++ r.1, p :: r.2.1, r.2.2)
    else (left.take room, [], p :: ps, cut + room)

/-- A port sends the next flit and keeps it until it is acknowledged (R446, R447). -/
def VPort.send (v : VPort) : VPort :=
  let r := packFlit v.waiting v.cut 240
  let credit := min 127 v.freed
  let f := flitOf v.txSeq v.ack v.nak credit r.1
  { v with
    unacked := v.unacked ++ [{ seq := v.txSeq, bytes := f, replays := 0 }], txSeq := (v.txSeq + 1) % 4096
    packets := v.packets ++ r.2.1.map (v.txSeq, ·), waiting := r.2.2.1, cut := r.2.2.2
    nak := false, freed := v.freed - credit, wire := v.wire ++ [f] }

/-- A port sends what it has, while it keeps fewer than 512 flits. -/
def VPort.pump : Nat → VPort → VPort
  | 0, v => v
  | n + 1, v => if v.up && (v.nak || !v.waiting.isEmpty) && v.unacked.length < 512 then v.send.pump n else v

/-- What the ports put on the wire as a turn begins. -/
def pumpPorts (s : State) : State := { s with ports := Tbl.mapVal s.ports fun _ v => { v with wire := [] }.pump 512 }

/-- The VFL ports that carry traffic. -/
def livePorts (s : State) : List Nat := (s.ports.filter fun p => p.2.up && decide (p.1 < Config.vflPorts)).map (·.1)

/-- The port a packet takes: the pair's one route, or for a block of a copy any of them (R451). -/
def portOf (s : State) (spread : Bool) (txid : Nat) : Option Nat :=
  let live := livePorts s
  live[if spread then txid % live.length else 0]?

/-- A packet given to its port; without a port that is up it goes nowhere (R453). -/
def sendPacket (spread : Bool) (pk : Packet) (s : State) : State :=
  match portOf s spread pk.txid with
  | none => s
  | some q => { s with
      outbox := s.outbox ++ [pk], ports := Tbl.upd s.ports q fun v => { v with waiting := v.waiting ++ [packetBytes pk] } }

/-- The code of a failed answer: 0x1303 is a page whose verification failed there (R371), a guard tag one of a copy's
(R372). -/
def Reply.code (r : Reply) : Nat :=
  if r.how = 1 then 0x1303 else if r.how = 2 && r.party.1 == 3 then 0x0302 else 0x0402

/-- One access of a party sent to a remote device, once; its answer where it has come. `op` is the packet's OP, and
`data` what it carries. -/
def remoteCall (p : Party) (tag op aop : Nat) (e : BufEntry) (ptr n : Nat) (data : List Byte) (s : State) : PRes (List Byte) :=
  match s.replies.find? fun r => r.party == p && r.tag == tag && r.ptr.toNat == ptr % 2 ^ 64 with
  | some r => if r.ok then .ok r.data s else .fail { code := r.code, detail := r.seq } s
  | none =>
    if s.txns.any fun t => t.2.party == p && t.2.tag == tag && t.2.ptr.toNat == ptr % 2 ^ 64 then .wait s
    else
      match freeTxid s with
      | none => .wait s
      | some id =>
        let spread := p.1 == 3 && (op == 1 || op == 3)
        let (v, s) := packetVersion s p
        let off := ptr % 2 ^ 48
        let pk : Packet :=
          { ctx := e.remctx, buf := e.rembuf, offset := off, aop := aop, dest := e.remdev, src := s.devId, op := op, txid := id
            guard := if op = 1 then BitVec.ofNat 80 (v * 2 ^ 72) else guardTag v off data
            reserved := false, len := n, payload := if op = 1 then [] else compress data }
        .wait (sendPacket spread pk { s with
          txns := Tbl.set s.txns id { op := op, dev := e.remdev, party := p, tag := tag, ptr := BitVec.ofNat 64 ptr, n := n, sent := s.ts, version := v, ctx := e.owner }
          nextTx := (id + 1) % 4096 })

/-! ### Code that a grid writes itself (R15) -/

/-- The grid of the party that writes, where it has one. -/
def partyGrid (s : State) (p : Party) : Option Nat :=
  let ofTeam (t : Nat) : Option Nat := (Tbl.get? s.teams t).map (·.grid)
  match p.1 with
  | 0 => (Tbl.get? s.groups p.2).bind fun g => ofTeam g.team
  | 1 => ofTeam p.2
  | 2 => (Tbl.get? (s.core (p.2 / 8)).streams (p.2 % 8)).bind fun st => ofTeam st.team
  | 3 => (Tbl.get? (s.core (p.2 / 64)).copies (p.2 % 64)).map (·.grid)
  | _ => none

/-- A written range of a grid's own code buffer: its units keep the new values beside the old. -/
def noteCode (p : Party) (ctx ptr n : Nat) (s : State) : State :=
  match (partyGrid s p).bind fun i => (Tbl.get? s.grids i).map fun g => (i, g) with
  | none => s
  | some (i, g) =>
    let base := g.launch.kernel % 2 ^ 48
    let off := ptr % 2 ^ 48
    if g.ctx != ctx || g.launch.kernel / 2 ^ 48 != ptr / 2 ^ 48 || off + n ≤ base || base + g.code.length ≤ off then s
    else
      let e := bufEntry s ctx (ptr / 2 ^ 48)
      let first := (off - base) / 4
      (List.range ((off + n - base + 3) / 4 - first)).foldl (fun s j =>
        match readParts p ctx (ptr / 2 ^ 48) e (lineParts (base + 4 * (first + j)) 4) s with
        | .ok bs _ => s.updGrid i fun g => { g with newUnits := Tbl.set g.newUnits (first + j) (BitVec.ofNat 32 (ofBytes bs)) }
        | _ => s) s

/-- A write that has been done, with what it left in the writer's own code. -/
def PRes.wrote {α : Type} (r : PRes α) (p : Party) (ctx ptr n : Nat) : PRes α :=
  r.bind fun a s => .ok a (noteCode p ctx ptr n s)

/-! ### Accesses -/

/-- The AOP field of an atomic packet (log entry 12): the code, U in bit 6. -/
def aopField (code : Nat) (unsigned : Bool) : Nat := code + (if unsigned then 64 else 0)

/-- A read of main memory (R421); one of kind `atomic` is the probe of an operation that updates what it finds (R422), and
goes to a remote device as an atomic that changes nothing (log entry 12). -/
def portRead (p : Party) (tag ctx ptr n : Nat) (kind : AKind) (own : Bool) (s : State) : PRes (List Byte) :=
  match checkEntry s ctx ptr n kind own with
  | .error c => .fail ({ code := c : PFault }.at ptr n kind) s
  | .ok e =>
    if e.home = 1 then
      (match kind with
        | .atomic => remoteCall p tag 5 (aopField 4 false) e ptr n (toBytes 0 n) s
        | .verify => remoteCall p tag 1 1 e ptr n [] s
        | .exec => remoteCall p tag 1 2 e ptr n [] s
        | _ => remoteCall p tag 1 0 e ptr n [] s).named ptr n kind
    else
      let parts := lineParts (ptr % 2 ^ 48) n
      (checked p ctx (ptr / 2 ^ 48) e false parts s (readParts p ctx (ptr / 2 ^ 48) e parts)).named ptr n kind

/-- A write of main memory. -/
def portWrite (p : Party) (tag ctx ptr : Nat) (bs : List Byte) (kind : AKind) (own : Bool) (s : State) : PRes Unit :=
  match checkEntry s ctx ptr bs.length kind own with
  | .error c => .fail ({ code := c : PFault }.at ptr bs.length kind) s
  | .ok e =>
    if e.home = 1 then ((remoteCall p tag 3 0 e ptr bs.length bs s).bind fun _ s => .ok () s).named ptr bs.length kind
    else
      let parts := lineParts (ptr % 2 ^ 48) bs.length
      ((checked p ctx (ptr / 2 ^ 48) e true parts s (writeParts p ctx (ptr / 2 ^ 48) e parts bs)).named ptr bs.length kind).wrote
        p ctx ptr bs.length

/-- An FP32 contribution added to a narrow element, rounded once (R315). -/
def splatAdd (f : Fmt) (old x : Nat) : Nat := f.encode .rn (FV.add .rn (f.decode old) (Fmt.f32.decode x))

/-- The bytes of the operand an atomic carries: 4 for a contribution to a narrow element (log entry 12). -/
def atomOperandBytes (code n : Nat) : Nat := if 21 ≤ code && code ≤ 24 then 4 else n

/-- An atomic operation by its code: the opcode less 0x240 (R223), with U, on words of some bytes: the new value from
the old one, the operand and, for `atomcas`, the compare value first. -/
def atomOp (code : Nat) (unsigned : Bool) (n old x y : Nat) : Nat :=
  let sgn (v : Nat) : Int := if v < 2 ^ (8 * n - 1) then v else (v : Int) - 2 ^ (8 * n)
  let less (a b : Nat) : Bool := if unsigned then decide (a < b) else decide (sgn a < sgn b)
  let f (g : W32 → W32 → W32) : Nat := (g (BitVec.ofNat 32 old) (BitVec.ofNat 32 x)).toNat
  match code with
  | 0 => (old + x) % 2 ^ (8 * n)
  | 1 => if less x old then x else old
  | 2 => if less old x then x else old
  | 3 => old &&& x
  | 4 => old ||| x
  | 5 => old ^^^ x
  | 6 => x
  | 7 => if old = x then y else old
  | 8 => f (fAdd .rn)
  | 9 => f fMin
  | 10 => f fMax
  | 11 => max old (x % 2 ^ 31)
  | 12 => 0
  | 17 => (old + 1) % 2 ^ (8 * n)
  | 21 => splatAdd .bf16 old x
  | 22 => splatAdd .f16 old x
  | 23 => splatAdd .e4m3 old x
  | 24 => splatAdd .e5m2 old x
  | 65 => min old x
  | _ => x

/-- A read-modify-write of main memory at its home (R221, R229): the old value. -/
def portAtomic (p : Party) (tag ctx ptr n code : Nat) (unsigned : Bool) (x y : Nat) (own : Bool) (s : State) : PRes Nat :=
  match checkEntry s ctx ptr n .atomic own with
  | .error c => .fail ({ code := c : PFault }.at ptr n .atomic) s
  | .ok e =>
    if e.home = 1 then
      ((remoteCall p tag 5 (aopField code unsigned) e ptr n (toBytes x (atomOperandBytes code n) ++ (if code = 7 then toBytes y n else [])) s).bind
        fun bs s => .ok (ofBytes bs) s).named ptr n .atomic
    else
      ((checked p ctx (ptr / 2 ^ 48) e false (lineParts (ptr % 2 ^ 48) n) s fun s =>
        (readParts p ctx (ptr / 2 ^ 48) e (lineParts (ptr % 2 ^ 48) n) s).bind fun bs s =>
        let old := ofBytes bs
        (writeParts p ctx (ptr / 2 ^ 48) e (lineParts (ptr % 2 ^ 48) n) (toBytes (atomOp code unsigned n old x y) n) s).bind
          fun _ s => .ok old s).named ptr n .atomic).wrote p ctx ptr n

/-! ### System faults (R394 to R396) -/

/-- The record class, severity and recovery of a port failure (R473). -/
def PFault.record (f : PFault) (base : RecIn) : RecIn :=
  let (cls, sev, recov) :=
    if f.code = 0x0201 then (2, 2, 2)
    else if f.code = 0x0402 then (4, 2, 3)
    else if f.code = 0x0302 then (3, 1, 1)
    else if 0x0208 ≤ f.code && f.code ≤ 0x020A then (2, 3, 4)
    else (2, 2, 3)
  { base with code := f.code, cls := cls, sev := sev, recov := recov, akind := f.akind, addr := f.ptr, place := f.place, detail := f.detail }

/-- The entry of a die's fault buffer with a page joined by one more access. -/
def joinFault (fs : List FaultEntry) (page kind : Nat) (p : Party) : List FaultEntry :=
  fs.map fun f => if f.page.toNat = page then { f with kind := f.kind ||| kind, parked := f.parked ++ [p] } else f

/-- An access parked on XLATE (R395, R396); nothing where the fault buffer is full, and the access tries again. -/
def parkAccess (die ctx : Nat) (p : Party) (f : PFault) (base : RecIn) (s : State) : Option State :=
  let page := pageName ctx f.ptr
  let fs := (s.die die).faults
  let inLine (s : State) : State := { s with replay := s.replay.filter (fun q => q.1 != p) ++ [(p, false)] }
  if fs.any fun e => e.page.toNat = page then some (inLine (s.updDie die fun d => { d with faults := joinFault d.faults page f.kind p }))
  else if 4096 ≤ fs.length then none
  else
    let index := ((List.range 4096).find? fun i => fs.all fun e => e.index != i).getD 0
    let (s, seq) := logRecord s { f.record base with detail := index } true
    some (inLine (s.updDie die fun d => { d with faults := d.faults ++
      [{ index := index, page := BitVec.ofNat 64 page, kind := f.kind, first := base.engine, time := s.ts, seq := seq, parked := [p] }] }))

/-- Whether a party has an access parked. -/
def isParked (s : State) (p : Party) : Bool := s.dies.any fun d => d.2.faults.any fun f => f.parked.contains p

/-- Whether a party has packets outstanding, or answers not yet used. -/
def busyParty (s : State) (p : Party) : Bool := (s.txns.any fun t => t.2.party == p) || s.replies.any fun r => r.party == p

/-- Whether a context's parties run (R397). -/
def ctxRuns (s : State) (c : Nat) : Bool := (s.ctx c).st == .running

/-- Whether a party of a context may go on: once a freeze or save is requested, only to finish what it has under way (R398). -/
def mayRun (s : State) (c : Nat) (p : Party) : Bool := (s.ctx c).st == .running && (!(s.ctx c).request || busyParty s p)

/-- The party of a Lantern stream. -/
def streamParty (core slot : Nat) : Party := (2, core * 8 + slot)

/-- Whether a party whose access is to be issued again can go on now. -/
def canReplay (s : State) (p : Party) : Bool :=
  !isParked s p &&
  match p.1 with
  | 0 => (Tbl.get? s.groups p.2).any fun g =>
      g.parked.isNone && !g.debug && (s.die (dieOfCore (coreOfGroup p.2))).up && mayRun s (s.ctxOfTeam g.team) p
  | 1 => (Tbl.get? s.teams p.2).any fun t =>
      t.parked.isNone && (s.die (dieOfCore (coreOfTeam p.2))).up && mayRun s (s.ctxOfTeam p.2) p
  | 2 => (Tbl.get? (s.core (p.2 / 8)).streams (p.2 % 8)).any fun st => st.st == .running && mayRun s st.ctx p
  | 3 => (Tbl.get? (s.core (p.2 / 64)).copies (p.2 % 64)).any fun c => c.st == .running
  | 4 => p.2 < 128 || (Tbl.get? s.grids (p.2 / 128 - 1)).isSome
  | 5 => !(s.core p.2).path.isEmpty
  | _ => false

/-- Whether a party stands back: parked, or its access is to be issued again after that of another, parked before it, that can go
on (R396; log entry 17). -/
def standsBack (s : State) (p : Party) : Bool :=
  isParked s p ||
    (s.replay.contains (p, true) && (s.replay.takeWhile (· != (p, true))).any fun q => q.2 && canReplay s q.1)

/-- A party issues: its access is one to be issued again no longer. -/
def State.replayed (s : State) (p : Party) : State := { s with replay := s.replay.filter (· != (p, true)) }

/-- The party of an issue. -/
def Who.party : Who → Party
  | .group m => (0, m.g)
  | .wick t => (1, t)

/-- The access of an instruction failed at a port: XLATE parks its party, anything else ends the grid, that of a Wick context once
its engine operations have completed (R46), or the context where integrity is lost (R394; log entry 17). -/
def portFailAs (w : Who) (base : RecIn) (f : PFault) (s : State) : State :=
  let t := w.team s
  let ctx := s.ctxOfTeam t
  if f.code = 0x0201 then
    match parkAccess (dieOfCore w.core) ctx w.party f base s with
    | none => s
    | some s =>
      let s := s.leaveEntryWait w.core w.party w.lanes
      match w with
      | .group m => s.updGroup m.g fun q => { q with parked := some (pageName ctx f.ptr) }
      | .wick t => s.updTeam t fun tm => { tm with parked := some (pageName ctx f.ptr) }
  else if 0x0208 ≤ f.code && f.code ≤ 0x020A then
    let (s, seq) := logRecord s (f.record base) true
    endContext s ctx seq
  else
    match w with
    | .wick t => wickStops t (f.record base) s
    | .group _ =>
      let (s, seq) := logRecord s (f.record base) true
      endGrid s (((Tbl.get? s.teams t).map (·.grid)).getD 0) 1 seq

/-- The same for an access of the party itself. -/
def portFail (w : Who) (f : PFault) (s : State) : State := portFailAs w (w.record s f.code 2 2 3) f s

/-- What an access comes to for the party that issues it. -/
def PRes.eff {α : Type} (r : PRes α) (w : Who) (k : α → State → GEff) : GEff :=
  match r with
  | .ok a s => k a s
  | .wait s => .wait s
  | .fail f s => .wait (portFail w f s)

end Sys2Proof.Machine
end

