-- ==== Sys2Proof/Machine/Sync.lean ====
section
/-! DEFINITION. Atomics, ordered loads and stores, fences, regions and sync objects (R219 to R238). Spaces are
numbered 0 `.sh`, 1 `.sp`, 2 `.mm`. -/

namespace Sys2Proof.Machine

/-! ### Words of the three spaces -/

/-- The bytes of an atomic: 8 under W (R223). -/
def atomBytes (x : Args) : Nat := if x.mod.getLsbD 4 then 8 else 4

/-- Context and buffer of a pointer as the unit of a main-memory lock (R364). -/
def mmUnit (ctx ptr : Nat) : Nat := ctx * 65536 + ptr / 2 ^ 48

/-- RANGELOCK of a main-memory address (R222). -/
def lockCauseMM (lane entry ptr : Nat) : Cause := { Cause.rangeLock lane entry ptr 0 with akind := 1, space := 0 }

/-- The entry that an access to main memory hits: any range an engine operation reads or writes (R222). -/
def lockHitMM (s : State) (core ctx ptr n : Nat) : Option Nat :=
  lockHit s core 2 (mmUnit ctx ptr) (ptr % 2 ^ 48) n true

/-- The checks 1 to 3 of R226 on main-memory pointers, naming the lowest lane that fails; only an access that writes is
checked against the locks (R222). -/
def checkMM (s : State) (core ctx n : Nat) (rmw : Bool) (ws : LaneWords) : Option Cause :=
  let hit (x : Nat) : Option Nat := if rmw then lockHitMM s core ctx x n else none
  let bad (p : Nat → Bool) : Option (Nat × Nat) := ws.findSome? fun w => (w.2.find? p).map fun x => (w.1, x)
  match bad fun x => x % n != 0 with
  | some (l, x) => some (Cause.alignMM l x)
  | none =>
    match bad fun x => (hit x).isSome with
    | some (l, x) => some (lockCauseMM l ((hit x).getD 0) x)
    | none => none

/-- What stays of an access that has not completed: packets under way, granules found bad and errors corrected; the rest is
undone. -/
def rollback (old new : State) : State :=
  { keepErrors old new with
    txns := new.txns, nextTx := new.nextTx, outbox := new.outbox, ports := new.ports, versions := new.versions }

/-- One read-modify-write of a word (R221, R229): the old value, and what the word becomes. -/
structure Rmw where
  addr : Nat
  code : Nat
  unsigned : Bool
  x : Nat
  y : Nat
  deriving DecidableEq, Repr

/-- A read-modify-write on chip. -/
def Rmw.onChip (r : Rmw) (a : Area) (space n : Nat) (s : State) : Nat × State :=
  let old := a.load s space r.addr n
  (old, a.store space r.addr n (atomOp r.code r.unsigned n old r.x r.y) s)

/-- Read-modify-writes on chip, one after another: the old values by lane. -/
def rmwsOnChip (a : Area) (space n : Nat) : List (Nat × Rmw) → State → Tbl Nat × State
  | [], s => ([], s)
  | (l, r) :: t, s =>
    let (old, s) := r.onChip a space n s
    let (m, s) := rmwsOnChip a space n t s
    (Tbl.set m l old, s)

/-- Read-modify-writes of main memory, one after another; the tag of each is its lane. -/
def rmwsMain (p : Party) (ctx n : Nat) : List (Nat × Rmw) → State → PRes (Tbl Nat)
  | [], s => .ok [] s
  | (l, r) :: t, s =>
    (portAtomic p l ctx r.addr n r.code r.unsigned r.x r.y true s).bind fun old s =>
      (rmwsMain p ctx n t s).bind fun m s => .ok (Tbl.set m l old) s

/-- The failure that some of the accesses would meet on this device, found before any of them is performed (R226). -/
def probeMain (p : Party) (ctx n : Nat) : List (Nat × Rmw) → State → Option (PFault × State)
  | [], _ => none
  | (l, r) :: t, s =>
    match checkEntry s ctx r.addr n .atomic true with
    | .error c => some (({ code := c : PFault }.at r.addr n .atomic), s)
    | .ok e =>
      if e.home = 1 then probeMain p ctx n t s
      else
        match portAtomic p l ctx r.addr n r.code r.unsigned r.x r.y true s with
        | .ok _ s => probeMain p ctx n t s
        | .fail f s => some (f, s)
        | .wait s => probeMain p ctx n t s

/-- The accesses whose home is another device. -/
def remoteOf (s : State) (ctx : Nat) (rs : List (Nat × Rmw)) : List (Nat × Rmw) :=
  rs.filter fun r => (bufEntry s ctx (r.2.addr / 2 ^ 48)).home == 1

/-- Where several accesses go to other devices, each is probed there by an atomic that changes nothing before any is sent, so that one
that fails leaves no lane's write performed (R226; log entry 12). -/
def probeRemote (p : Party) (ctx n : Nat) : List (Nat × Rmw) → State → PRes Unit
  | [], s => .ok () s
  | (l, r) :: t, s => (portRead p (64 + l) ctx r.addr n .atomic true s).bind fun _ s => probeRemote p ctx n t s

/-- The read-modify-writes of an instruction in a space; none of them happens unless all do. -/
def rmws (w : Who) (space n : Nat) (rs : List (Nat × Rmw)) (s : State) (k : Tbl Nat → State → GEff) : GEff :=
  if space = 2 then
    let ctx := s.ctxOfTeam (w.team s)
    match probeMain w.party ctx n rs s with
    | some (f, s') => .wait (portFail w f (rollback s s'))
    | none =>
      let far := remoteOf s ctx rs
      match (probeRemote w.party ctx n (if far.length < 2 then [] else far) s).bind fun _ s => rmwsMain w.party ctx n rs s with
      | .ok m s => k m s
      | .wait s' => .wait (rollback s s')
      | .fail f s' => .wait (portFail w f (rollback s s'))
  else
    let (m, s) := rmwsOnChip (areaOf s w) space n rs s
    k m s

/-- Whether demand requests that a party has issued are still to be performed: its releases and release fences wait for them
(R213, R312). -/
def Who.owesPath (w : Who) (s : State) : Bool :=
  match w with
  | .wick _ => false
  | .group m => s.asksPath m.g

/-! ### Atomics on lanes (R226 to R231) -/

/-- The registers an atomic's address reads. -/
def atomAddrRegs (x : Args) : List Nat := srcRegs (spaceBits x == 2) x.a

/-- The address of each lane: 32 bits on chip, a pointer of 64 bits in main memory (R223). -/
def atomAddr (m : Mem) (s : State) (x : Args) : Nat → Nat :=
  let a := operand m s (spaceBits x == 2) x.a
  fun l => if spaceBits x = 2 then (a.at l).toNat else (a.at32 l).toNat

/-- A lane atomic: `vals` gives operand and second operand of each lane, `reads` the registers they lie in. -/
def atomLanes (x : Args) (code : Nat) (reads : List Nat) (vals : Mem → State → Nat → Nat × Nat) (m : Mem) (s : State) : GEff :=
  let n := atomBytes x
  let wide := n == 8
  let space := spaceBits x
  let addr := atomAddr m s x
  let ws : LaneWords := (lanesOf m.act).map fun l => (l, [addr l])
  let regs := atomAddrRegs x ++ reads
  if m.act = 0 then idleResult m x x.dst.toNat s else
  let check :=
    if space = 2 then checkMM s (coreOfGroup m.g) (s.ctxOfTeam ((Who.group m).team s)) n true ws
    else checkWords s (areaOf s (.group m)) space n true ws
  match check with
  | some c => .fault c
  | none =>
    if space != 2 && !wordsReady s (areaOf s (.group m)) space n ws then notReady (.group m) space ws s
    else if 2 ≤ modBits x 2 2 && (Who.group m).owesPath s then .wait s
    else
      let op (v : Nat → W64) : LaneOp := { reads := regs, wset := m.act, wide := wide, cut := fun _ => true, merge := false, op := v }
      let result (v : Nat → W64) (s : State) : GEff := if x.nwb then laneFree m x (op v) s else laneDo m x (op v) s
      match result (fun _ => 0) s with
      | .done _ =>
        let v := vals m s
        let rs := (lanesOf m.act).map fun l => (l, ({ addr := addr l, code := code, unsigned := uBit x, x := (v l).1, y := (v l).2 } : Rmw))
        rmws (.group m) space n rs s fun old s =>
          let v := fun l => BitVec.ofNat 64 (Tbl.get old l 0)
          match result v s with
          | .done s =>
            .done (resetBack m (s.updGroup m.g fun q => q.await
              { regs := if x.nwb then [] else dstRegs x wide, lanes := m.act, merge := cBit x, wide := wide, hiSame := hiSameOf v
                kreg := if x.dsel && !x.nwb then some (x.dst.toNat - 32) else none, demand := false
                long := space != 0 } true))
          | e => e
      | e => e

/-- Issues an atomic of one operand. -/
def issueAtom (x : Args) (code : Nat) (s : State) : Host.Outcome State Fault Refusal :=
  let wide := atomBytes x == 8
  let reads := srcRegs wide x.b
  issueGroup x (atomAddrRegs x ++ reads ++ dstRegs x wide) (dselK x)
    (atomLanes x code reads fun m s =>
      let b := operand m s wide x.b
      fun l => ((b.at l).toNat, 0)) s

/-- R229: `atom.add`. -/
def execAtomAdd (x : Args) (s : State) : Host.Outcome State Fault Refusal := issueAtom x 0 s
/-- R229: `atom.min`. -/
def execAtomMin (x : Args) (s : State) : Host.Outcome State Fault Refusal := issueAtom x 1 s
/-- R229: `atom.max`. -/
def execAtomMax (x : Args) (s : State) : Host.Outcome State Fault Refusal := issueAtom x 2 s
/-- R229: `atom.and`. -/
def execAtomAnd (x : Args) (s : State) : Host.Outcome State Fault Refusal := issueAtom x 3 s
/-- R229: `atom.or`. -/
def execAtomOr (x : Args) (s : State) : Host.Outcome State Fault Refusal := issueAtom x 4 s
/-- R229: `atom.xor`. -/
def execAtomXor (x : Args) (s : State) : Host.Outcome State Fault Refusal := issueAtom x 5 s
/-- R229: `atom.exch`. -/
def execAtomExch (x : Args) (s : State) : Host.Outcome State Fault Refusal := issueAtom x 6 s
/-- R230: `atom.f.add`. -/
def execAtomFAdd (x : Args) (s : State) : Host.Outcome State Fault Refusal := issueAtom x 8 s
/-- R230: `atom.f.min`. -/
def execAtomFMin (x : Args) (s : State) : Host.Outcome State Fault Refusal := issueAtom x 9 s
/-- R230: `atom.f.max`. -/
def execAtomFMax (x : Args) (s : State) : Host.Outcome State Fault Refusal := issueAtom x 10 s
/-- R231: `amax.f32`. -/
def execAmaxF32 (x : Args) (s : State) : Host.Outcome State Fault Refusal := issueAtom x 11 s

/-- The register some places after the one a source names. -/
def srcAfter (n : Nat) : Src → Src
  | .v r => .v (r + BitVec.ofNat 10 n)
  | y => y

/-- R229: `atomcas`, the compare value in vB and the new value after it. -/
def execAtomcas (x : Args) (s : State) : Host.Outcome State Fault Refusal :=
  let wide := atomBytes x == 8
  let next := srcAfter (if wide then 2 else 1) x.b
  let reads := srcRegs wide x.b ++ srcRegs wide next
  issueGroup x (atomAddrRegs x ++ reads ++ dstRegs x wide) (dselK x)
    (atomLanes x 7 reads fun m s =>
      let b := operand m s wide x.b
      let c := operand m s wide next
      fun l => ((b.at l).toNat, (c.at l).toNat)) s

/-- R203, R227, R233: `ld.acq`; on-chip loads are performed in order, and an acquire adds nothing to that. -/
def execLdAcq (x : Args) (s : State) : Host.Outcome State Fault Refusal :=
  issueGroup x (addrRegs x ++ dstRegs x (atomBytes x == 8)) (dselK x) (loadLanes x (spaceBits x) (atomBytes x) false x.nwb) s

/-- R233: `st.rel`. -/
def execStRel (x : Args) (s : State) : Host.Outcome State Fault Refusal :=
  issueGroup x (addrRegs x ++ dataRegs x (atomBytes x)) [] (fun m s =>
    if m.act != 0 && (Who.group m).owesPath s then .wait s else storeLanes x (spaceBits x) (atomBytes x) m s) s

/-! ### Words at uniform addresses -/

/-- The checks of one word at a uniform address, ALIGN, BOUNDS, then the locks: a hit is RANGELOCK in group code
and a wait in Wick code (R68, R198). -/
def checkUniform (w : Who) (space n : Nat) (store : Bool) (addr : Nat) (s : State) (k : State → GEff) : GEff :=
  let ws : LaneWords := [(w.lane, [addr])]
  let c := if space = 2 then checkMM s w.core (s.ctxOfTeam (w.team s)) n store ws else checkWords s (areaOf s w) space n store ws
  match c with
  | some c =>
    (match w with
      | .group _ => .fault c
      | .wick _ => if c.code = 0x0107 then .wait s else .fault { c with lane := 255 })
  | none => if space != 2 && !wordsReady s (areaOf s w) space n ws then notReady w space ws s else k s

/-- A uniform address in a space: 32 bits on chip (R223). -/
def uniAddr (w : Who) (s : State) (space : Nat) (src : Src) : Nat :=
  if space = 2 then (w.uni s src).toNat else (lo32 (w.uni s src)).toNat

/-- The aligned 8-byte word at an address, read as a thread reads it. -/
def readWord (w : Who) (space addr : Nat) (s : State) (k : Nat → State → GEff) : GEff :=
  if space = 2 then
    (portRead w.party 0 (s.ctxOfTeam (w.team s)) addr 8 .read true s).eff w fun bs s => k (ofBytes bs) s
  else k ((areaOf s w).load s space addr 8) s

/-- An operand `b` that is read once (R223): a literal zero-extended, and of a v register or a latch the lowest
active lane (log entry 18). -/
def onceValue (w : Who) (s : State) (src : Src) : W64 :=
  match w, src with
  | .group m, .v r => (operand m s true (.v r)).at w.lane
  | .group m, .latch n => (operand m s true (.latch n)).at w.lane
  | w, src => w.uniZ s src

/-- The v registers such an operand reads in group code. -/
def onceRegs (src : Src) : List Nat := srcRegs true src

/-- Registers read by a party before it acts; in Wick code there are none. -/
def Who.reading (w : Who) (regs : List Nat) (s : State) (k : State → GEff) : GEff :=
  match w with
  | .wick _ => k s
  | .group m =>
    match readRegs m regs s with
    | .done s => k s
    | e => e

/-! ### Invalidation (R219) -/

/-- Whether a line of main memory lies in a region. -/
def Region.holds (r : Region) (ctx : Nat) (l : FcLine) : Bool :=
  r.space == 2 && l.ctx == ctx && l.buf == r.base / 2 ^ 48 &&
    decide (r.base % 2 ^ 48 / 64 ≤ l.line) && decide (l.line < (r.base % 2 ^ 48 + r.len) / 64)

/-- The lines of a region invalidated in a core. -/
def invalidateRegion (core ctx : Nat) (r : Region) (s : State) : State :=
  s.updCore core fun k => { k with fcache := k.fcache.filter fun l => !r.holds ctx l }

/-- Every line of a core invalidated. -/
def invalidateAll (core : Nat) (s : State) : State := s.updCore core fun k => { k with fcache := [] }

/-! ### amaxr, fence, bind and unbind -/

/-- R232: `amaxr`. -/
def execAmaxr (x : Args) (s : State) : Host.Outcome State Fault Refusal :=
  issueGroup x [] [x.dst.toNat] (fun m s =>
    if m.act = 0 then .done s
    else
      let w := Who.group m
      let space := spaceBits x
      let addr := uniAddr w s space x.a
      checkUniform w space 4 true addr s fun s =>
        if 2 ≤ modBits x 2 2 && w.owesPath s then .wait s else
        rmws w space 4 [(0, { addr := addr, code := 12, unsigned := false, x := 0, y := 0 })] s fun old s =>
          .done (resetBack m (s.updGroup m.g fun q => (q.setK x.dst.toNat (BitVec.ofNat 64 (Tbl.get old 0 0))).await
            { regs := [], lanes := m.act, merge := false, wide := false, kreg := some x.dst.toNat, demand := false
              long := space != 0 } false))) s

/-- R234: `fence`. Accesses are performed as they issue, but for those of demand requests (R312); the rest of it is the
invalidation of R219. -/
def execFence (x : Args) (s : State) : Host.Outcome State Fault Refusal :=
  issueAny x [] [] (fun w s =>
    let kind := modBits x 2 2
    if kind != 1 && w.owesPath s then .wait s else
    let s := if kind = 1 then s else w.resetBack s
    .done (if kind != 2 && 5 ≤ modBits x 5 3 then invalidateAll w.core s else s)) s

/-- The fault of a `bind`, if any: ALIGN before BOUNDS (R235). -/
def bindFault (w : Who) (s : State) (r : Region) : Option Cause :=
  let a := areaOf s w
  let l := w.lane
  let align (space addr : Nat) : Cause := if space = 2 then Cause.alignMM l addr else Cause.align l addr space
  if r.base % 64 != 0 || r.len % 64 != 0 then some (align r.space r.base)
  else if r.obj % 8 != 0 then some (align r.ospace r.obj)
  else if r.len = 0 then some (Cause.bounds rARG l)
  else if r.space != 2 && !a.ok r.space r.base r.len then some (Cause.boundsAddr l r.base r.space)
  else if r.ospace != 2 && !a.ok r.ospace r.obj 8 then some (Cause.boundsAddr l r.obj r.ospace)
  else none

/-- R235: `bind`. -/
def execBind (x : Args) (s : State) : Host.Outcome State Fault Refusal :=
  issueAny x (onceRegs x.b) [] (fun w s =>
    let d := x.dst.toNat
    let rs := bits d 4 2
    let os := bits d 6 2
    let r : Region :=
      { space := rs, base := uniAddr w s rs x.a, len := (onceValue w s x.b).toNat % 2 ^ 48
        ospace := os, obj := uniAddr w s os x.c }
    match bindFault w s r with
    | some c => .fault { c with lane := match w with
        | .group _ => c.lane
        | .wick _ => 255 }
    | none => w.reading (onceRegs x.b) s fun s =>
        .done (s.updTeam (w.team s) fun tm => { tm with regions := Tbl.set tm.regions (d % 16) r })) s

/-- R235: `unbind`. -/
def execUnbind (x : Args) (s : State) : Host.Outcome State Fault Refusal :=
  issueAny x [] [] (fun w s =>
    .done (s.updTeam (w.team s) fun tm => { tm with regions := Tbl.erase tm.regions (x.dst.toNat % 16) })) s

/-! ### acq, rel, sigwait and sigset -/

/-- The region an instruction names, BOUNDS where its entry is empty (R236). -/
def withRegion (w : Who) (x : Args) (s : State) (k : Region → GEff) : GEff :=
  match (Tbl.get? s.teams (w.team s)).bind fun tm => Tbl.get? tm.regions (x.dst.toNat % 16) with
  | some r => k r
  | none =>
    match w with
    | .group m => .fault (m.bounds rNOBIND)
    | .wick _ => .fault (Cause.bounds rNOBIND 0)

/-- R236: `acq`. -/
def execAcq (x : Args) (s : State) : Host.Outcome State Fault Refusal :=
  issueAny x (onceRegs x.b) [] (fun w s =>
    withRegion w x s fun r =>
      checkUniform w r.ospace 8 false r.obj s fun s =>
        readWord w r.ospace r.obj s fun v s =>
          if v < (onceValue w s x.b).toNat then .wait (s.dropReplies w.party)
          else w.reading (onceRegs x.b) s fun s =>
            .done (invalidateRegion w.core (s.ctxOfTeam (w.team s)) r s)) s

/-- R236: `rel`. -/
def execRel (x : Args) (s : State) : Host.Outcome State Fault Refusal :=
  issueAny x [] [] (fun w s =>
    withRegion w x s fun r =>
      checkUniform w r.ospace 8 true r.obj s fun s =>
        if w.owesPath s then .wait s else rmws w r.ospace 8 [(0, { addr := r.obj, code := 17, unsigned := false, x := 0, y := 0 })] s fun _ s =>
          .done (w.resetBack s)) s

/-- Whether a relation holds, by COND of R64, unsigned. -/
def signalCond (cond v b : Nat) : Bool := intCond cond true (BitVec.ofNat 64 v) (BitVec.ofNat 64 b)

/-- The regions whose object is a word invalidated (R237). -/
def invalidateObject (w : Who) (space addr : Nat) (s : State) : State :=
  let t := w.team s
  let rs := ((Tbl.get? s.teams t).map (·.regions)).getD []
  (rs.filter fun r => r.2.ospace == space && r.2.obj == addr).foldl
    (fun s r => invalidateRegion w.core (s.ctxOfTeam t) r.2 s) s

/-- R237: `sigwait`. -/
def execSigwait (x : Args) (s : State) : Host.Outcome State Fault Refusal :=
  issueAny x (onceRegs x.b) [x.dst.toNat] (fun w s =>
    let space := spaceBits x
    let addr := uniAddr w s space x.a
    checkUniform w space 8 false addr s fun s =>
      readWord w space addr s fun v s =>
        let ok := signalCond (modBits x 5 3) v (onceValue w s x.b).toNat
        if !ok && modBits x 4 1 = 0 then .wait (s.dropReplies w.party)
        else w.reading (onceRegs x.b) s fun s =>
          let s := w.setNum x.dst.toNat (BitVec.ofNat 64 v) s
          .done (if ok then invalidateObject w space addr s else s)) s

/-- A signal word stored or added to at its home; at a remote one by a signal packet, with OP in bit 0 of AOP (R448). -/
def signalRmw (w : Who) (space addr : Nat) (add : Bool) (v : Nat) (s : State) (k : State → GEff) : GEff :=
  let here : GEff := rmws w space 8 [(0, { addr := addr, code := if add then 0 else 6, unsigned := false, x := v, y := 0 })] s fun _ s => k s
  if space != 2 then here
  else
    match checkEntry s (s.ctxOfTeam (w.team s)) addr 8 .atomic true with
    | .ok e =>
      if e.home = 1 then
        ((remoteCall w.party 0 7 (if add then 1 else 0) e addr 8 (toBytes v 8) s).named addr 8 .atomic).eff w fun _ s => k s
      else here
    | .error _ => here

/-- R238: `sigset`, which stores or adds as one read-modify-write; either needs the atomic right (R422). -/
def execSigset (x : Args) (s : State) : Host.Outcome State Fault Refusal :=
  issueAny x (onceRegs x.b) [] (fun w s =>
    let space := spaceBits x
    let addr := uniAddr w s space x.a
    let add := modBits x 5 1 = 1
    let v := (onceValue w s x.b).toNat
    checkUniform w space 8 true addr s fun s =>
      if w.owesPath s then .wait s else
      w.reading (onceRegs x.b) s fun s =>
        signalRmw w space addr add v s fun s => .done (w.resetBack s)) s

/-- R227: the results of an atomic arrive. -/
def execAtomicResultLand (grp id : Nat) (s : State) : Host.Outcome State Fault Refusal := landEvent grp id false s

end Sys2Proof.Machine
end

