-- ==== Sys2Proof/Machine/Engine.lean ====
section
/-! DEFINITION. Accesses of engine operations (R208, R218, R312, R365): held by the range-lock table, served by the
footprint cache, performed at their homes. Homes are numbered 0 `.sh`, 1 `.sp`, 2 `.mm`. -/

namespace Sys2Proof.Machine

/-- An engine operation: the party it acts for, where it runs, and the stream whose own entries do not hold it. -/
structure Eng where
  party : Party
  core : Nat
  team : Nat
  ctx : Nat
  area : Area
  own : Option Nat
  /-- The lane a fault of its names. -/
  lane : Nat
  /-- Its accesses are recorded as they are performed, so that it goes on from there where one of them has to wait. -/
  log : Bool := false
  deriving DecidableEq, Repr

/-- A demand request of a party. -/
def Who.eng (w : Who) (s : State) : Eng :=
  { party := w.party, core := w.core, team := w.team s, ctx := s.ctxOfTeam (w.team s), area := areaOf s w, own := none
    lane := w.lane }

/-- The unit of range locks an address lies in. -/
def Eng.unit (e : Eng) (home addr : Nat) : Nat := if home = 2 then mmUnit e.ctx addr else e.area.unit home
/-- The offset of an address in its unit. -/
def homeOff (home addr : Nat) : Nat := if home = 2 then addr % 2 ^ 48 else addr

/-- Whether a live entry of another operation conflicts with an access (R312, R330, R365). -/
def Eng.held (e : Eng) (s : State) (home addr n : Nat) (store : Bool) : Bool :=
  (s.core e.core).locks.any fun p =>
    !(decide (64 ≤ p.1) && e.own.isSome && e.own == some p.2.owner) &&
      p.2.ivs.any fun i => i.hits home (e.unit home addr) (homeOff home addr) n store

/-- Whether the home of an address answers: a scratchpad's die must be up (R463). -/
def homeUp (s : State) (home addr : Nat) : Bool := home != 1 || (s.die (addr / 2 ^ 29)).up

/-- What an access of an engine whose home does not answer comes to (R463). -/
def awayHome {α : Type} (s : State) (addr : Nat) : PRes α :=
  if (s.die (addr / 2 ^ 29)).gone then .fail { code := 0x0402, akind := 2, ptr := 2 ^ 32 + addr } s else .wait s

/-! ### The footprint cache (R218) -/

/-- A line held in a core's footprint cache. -/
def fcFind (s : State) (core ctx ptr : Nat) : Option FcLine :=
  (s.core core).fcache.find? fun l => l.ctx == ctx && l.buf == ptr / 2 ^ 48 && l.line == ptr % 2 ^ 48 / 64

/-- Where the line of a pointer lies behind the port, for the parties of a core. -/
def lineKey (s : State) (core ctx ptr : Nat) : Nat :=
  (keyFor s (5, core) ctx (ptr / 2 ^ 48) (bufEntry s ctx (ptr / 2 ^ 48)) (ptr % 2 ^ 48 / 64 * 64)).getD 0

/-- The lines of some bytes no longer held, by whatever buffer they were read (R312). -/
def fcDrop (core ctx ptr n : Nat) (s : State) : State :=
  let keys := (lineParts (ptr % 2 ^ 48) n).map fun p => lineKey s core ctx (ptr / 2 ^ 48 * 2 ^ 48 + p.1)
  s.updCore core fun k => { k with fcache := k.fcache.filter fun l => !keys.contains l.key }

/-- The line of an address read into the cache, where it can be read; the oldest of a full cache leaves it (log entry 8). -/
def fcFill (e : Eng) (ptr : Nat) (s : State) : State :=
  match portRead e.party 0 e.ctx (ptr / 64 * 64) 64 .read true s with
  | .ok bs s => (fcDrop e.core e.ctx (ptr / 64 * 64) 64 s).updCore e.core fun k =>
      { k with fcache := ({ ctx := e.ctx, buf := ptr / 2 ^ 48, line := ptr % 2 ^ 48 / 64, key := lineKey s e.core e.ctx ptr, bytes := bs } ::
          k.fcache).take Config.footprintLines }
  | _ => s

/-- A part of a read within one line, with its bytes where the footprint cache serves it. -/
structure ReadPlan where
  off : Nat
  n : Nat
  hit : Option (List Byte)
  deriving DecidableEq, Repr

/-- Which parts of a read from a buffer the cache serves: of those it holds, the ones that a free value names (log entry 8). -/
def Eng.served (e : Eng) (base : Nat) : List (Nat × Nat) → State → List ReadPlan × State
  | [], s => ([], s)
  | (o, n) :: t, s =>
    match fcFind s e.core e.ctx (base + o) with
    | none =>
      let r := e.served base t s
      ({ off := o, n := n, hit := none } :: r.1, r.2)
    | some l =>
      let r := e.served base t { s with draws := s.draws + 1 }
      ({ off := o, n := n, hit := if Config.staleHit s.draws then some ((l.bytes.drop (o % 64)).take n) else none } :: r.1, r.2)

/-- The parts of a read brought together, those that the cache does not serve read at their homes. -/
def Eng.gather (e : Eng) (buf : Nat) (ent : BufEntry) : List ReadPlan → State → PRes (List Byte)
  | [], s => .ok [] s
  | p :: t, s =>
    (match p.hit with
      | some bs => PRes.ok bs s
      | none => (readPart e.party e.ctx buf ent p.off p.n s).bind fun bs s => .ok bs (fcFill e (buf * 2 ^ 48 + p.off) s)).bind fun bs s =>
      (e.gather buf ent t s).bind fun r s => .ok (bs ++ r) s

/-- A read of main memory by an engine, one access, checked as a whole where it goes to its home (R218, R421). -/
def Eng.readMain (e : Eng) (tag ptr n : Nat) (kind : AKind) (s : State) : PRes (List Byte) :=
  match checkEntry s e.ctx ptr n kind true with
  | .error c => .fail ({ code := c : PFault }.at ptr n kind) s
  | .ok ent =>
    if ent.home = 1 then portRead e.party tag e.ctx ptr n kind true s
    else
      let buf := ptr / 2 ^ 48
      let (plan, s) := e.served (buf * 2 ^ 48) (lineParts (ptr % 2 ^ 48) n) s
      let miss := (plan.filter (·.hit.isNone)).map fun p => (p.off, p.n)
      (checked e.party e.ctx buf ent false miss s (e.gather buf ent plan)).named ptr n kind

/-! ### Reads, writes and read-modify-writes -/

/-- An access of an operation whose accesses are recorded: the answer it has had, or it is performed now, unless the step has
performed all that it may (log entry 20), and recorded under its tag. -/
def Eng.once (e : Eng) (tag addr : Nat) (s : State) (f : State → PRes (List Byte)) : PRes (List Byte) :=
  if !e.log then f s
  else
    match s.replies.find? fun r => r.party == e.party && r.tag == tag && r.ptr.toNat == addr % 2 ^ 64 with
    | some r => if r.ok then .ok r.data s else f s
    | none =>
      if s.split = some 0 then .wait s
      else (f s).bind fun bs s => .ok bs { s with
        split := s.split.map (· - 1)
        replies := s.replies ++
          [{ party := e.party, tag := tag, ptr := BitVec.ofNat 64 addr, data := bs, ok := true, how := 0, seq := 0, ctx := 127 }] }

/-- An access of a stream is an operation of its own, which raises the counter of its engine as it begins (R372). -/
def Eng.begins (e : Eng) (s : State) : State := if e.party.1 = 2 then startVersion e.party s else s

/-- A demand request that has completed without a packet has raised its engine's counter all the same (R372). -/
def Who.countDemand (w : Who) (s : State) : State := if busyParty s w.party then s else startVersion w.party s

/-- A read of an engine operation; kind `atomic` for the probe of one that updates what it finds (R422). -/
def Eng.read (e : Eng) (home tag addr n : Nat) (s : State) (kind : AKind := .read) : PRes (List Byte) :=
  if n = 0 then .ok [] s
  else e.once tag addr (e.begins s) fun s =>
    if e.held s home addr n false then .wait s
    else if !homeUp s home addr then awayHome s addr
    else if home = 2 then e.readMain tag addr n kind s
    else .ok (Memory.readN s.mem (e.area.key home addr) n) s

/-- A write of an engine operation. -/
def Eng.write (e : Eng) (home tag addr : Nat) (bs : List Byte) (s : State) : PRes Unit :=
  if bs.isEmpty then .ok () s
  else (e.once tag addr (e.begins s) fun s =>
    if e.held s home addr bs.length true then .wait s
    else if !homeUp s home addr then awayHome s addr
    else if home = 2 then
      (portWrite e.party tag e.ctx addr bs .write true s).bind fun _ s => .ok [] (fcDrop e.core e.ctx addr bs.length s)
    else .ok [] { s with mem := Memory.writeN s.mem (e.area.key home addr) bs }).bind fun _ s => .ok () s

/-- A read-modify-write of an engine operation: the old value. -/
def Eng.rmw (e : Eng) (home tag addr n code : Nat) (x y : Nat) (s : State) : PRes Nat :=
  (e.once tag addr (e.begins s) fun s =>
    if e.held s home addr n true then .wait s
    else if !homeUp s home addr then awayHome s addr
    else if home = 2 then
      (portAtomic e.party tag e.ctx addr n code false x y true s).bind fun old s => .ok (toBytes old n) (fcDrop e.core e.ctx addr n s)
    else
      let k := e.area.key home addr
      let old := Memory.readLE s.mem k n
      .ok (toBytes old n) { s with mem := Memory.writeLE s.mem k n (atomOp code false n old x y) }).bind fun bs s => .ok (ofBytes bs) s

/-- Goes on where the access was performed and no user fault arose. -/
def PRes.tryBind {α β : Type} (r : PRes (Except Cause α)) (f : α → State → PRes (Except Cause β)) : PRes (Except Cause β) :=
  r.bind fun a s =>
    match a with
    | .error c => .ok (.error c) s
    | .ok a => f a s

/-- A demand request as part of the instruction of the party that makes it: nothing of it stands unless all of it is
performed (log entry 20). -/
def demand {α : Type} (w : Who) (old : State) (r : PRes (Except Cause α)) (k : α → State → GEff) : GEff :=
  match r with
  | .ok (.ok a) s => k a s
  | .ok (.error c) _ => .fault c
  | .wait s => .wait (rollback old s)
  | .fail f s =>
    let s := rollback old s
    .wait (portFailAs w { w.record s f.code 2 2 3 with engine := coreEngine w.core 2 0 } f s)

/-- The same for a request that raises no user fault. -/
def demandOk {α : Type} (w : Who) (old : State) (r : PRes α) (k : α → State → GEff) : GEff :=
  demand w old (r.bind fun a s => .ok (Except.ok a : Except Cause α) s) k

end Sys2Proof.Machine
end

