-- ==== Sys2Proof/Machine/Control.lean ====
section
/-! DEFINITION. Group control (R99 to R111): branches, joins, strict loops, yields, the decision queue, sorting
a team's threads, guided pairs and the identifiers of a group. -/

namespace Sys2Proof.Machine

/-- The branch offset of an instruction, in bytes (R99). -/
def offBytes (m : Mem) (s : State) (src : Src) : W32 := lo32 ((Who.group m).uni s src) <<< 2

/-- The issuing candidate's priority ended (R92), and one taken backward transfer counted where `back` (R91). -/
def noteTransfer (m : Mem) (back : Bool) (g : Group) : Group :=
  g.updSubG (g.candOf m.x) fun c => { c with hprio := 0, back := if back then c.back + 1 else c.back }

/-- Every control transfer (R85): the active lanes go to their targets, the others of the issuing set fall through. -/
def transfer (m : Mem) (target : Nat → W32) (g : Group) : Group :=
  let back := (lanesOf m.act).any fun l => (target l).toNat ≤ m.pc
  noteTransfer m back { g with
    lanes := mapLanes g.lanes m.x fun l a => { a with pc := if m.act.getLsbD l then target l else BitVec.ofNat 32 m.next } }

/-- The lanes of a slice (R8). -/
def sliceMask (i : Nat) : Mask := maskOf fun l => l / 4 == i

/-- Whether a set of lanes consists of whole slices, an exited lane belonging to either part (R86). -/
def wholeSlices (g : Group) (a : Mask) : Bool :=
  (List.range 8).all fun i =>
    let live := g.live &&& sliceMask i
    live &&& a == 0 || live &&& ~~~a == 0

/-- Whether a `br` splits the candidate (R86). -/
def splits (split : Bool) (m : Mem) (g : Group) : Bool :=
  match g.subs[g.candOf m.x]? with
  | none => false
  | some c =>
    let mine := g.live &&& c.lanes
    split && m.x == (g.issuable &&& c.lanes) && mine == m.x && m.act != 0 && m.x &&& ~~~m.act != 0 &&
      wholeSlices g m.act && wholeSlices g (m.x &&& ~~~m.act)

/-- The candidate of an issue replaced by two: the lanes that branch and those that fall through (R86). -/
def splitCand (m : Mem) (g : Group) : Group :=
  let i := g.candOf m.x
  let part (l : Mask) : SubG := { lanes := l, back := 0, hprio := 0, lastX := 0 }
  let exited := match g.subs[i]? with
    | some c => c.lanes &&& ~~~g.live
    | none => 0
  { g with subs := g.subs.take i ++ [part (m.act ||| exited), part (m.x &&& ~~~m.act)] ++ g.subs.drop (i + 1) }

/-- R100: nothing but the issue. -/
def execNop (x : Args) (s : State) : Host.Outcome State Fault Refusal :=
  issueGroup x [] [] (fun _ s => .done s) s

/-- R28: compact `nop`. -/
def execNopC32 (x : Args) (s : State) : Host.Outcome State Fault Refusal :=
  issueGroup x [] [] (fun _ s => .done s) s

/-- R101: `br`. -/
def execBr (x : Args) (s : State) : Host.Outcome State Fault Refusal :=
  issueGroup x [] [] (fun m s =>
    let off := offBytes m s x.b
    .jump (s.updGroup m.g fun g =>
      let split := ((s.headerOf g.team).map (·.split)).getD false
      let g' := transfer m (fun _ => BitVec.ofNat 32 m.pc + off) g
      if splits split m g then splitCand m g' else g')) s

/-- R101: `brx`, each lane by its own offset. -/
def execBrx (x : Args) (s : State) : Host.Outcome State Fault Refusal :=
  issueGroup x (srcRegs false x.a) [] (fun m s =>
    let a := operand m s false x.a
    match readRegs m (srcRegs false x.a) s with
    | .done s => .jump (s.updGroup m.g (transfer m fun l => BitVec.ofNat 32 m.pc + (a.at32 l <<< 2)))
    | e => e) s

/-- ALIGN where an active lane's target is no multiple of 4 (R101, R390). -/
def targetFault (m : Mem) (target : Nat → W32) : Option Cause :=
  (lanesOf m.act).find? (fun l => (target l).toNat % 4 != 0) |>.map fun l => Cause.align l (target l).toNat 3

/-- R101: `jmp`, every lane to one target. -/
def execJmp (x : Args) (s : State) : Host.Outcome State Fault Refusal :=
  issueGroup x [] [] (fun m s =>
    let t := lo32 ((Who.group m).uni s x.a)
    match targetFault m fun _ => t with
    | some c => .fault c
    | none => .jump (s.updGroup m.g (transfer m fun _ => t))) s

/-- R101: `call`, with the link as a lane result before the lanes move (R128). -/
def execCall (x : Args) (s : State) : Host.Outcome State Fault Refusal :=
  issueLane x false (fun m s =>
    let off := offBytes m s x.b
    match laneResult m x false [] m.act (fun _ => false) (cBit x) (fun _ => BitVec.ofNat 64 m.next) s with
    | .done s => .jump (s.updGroup m.g (transfer m fun _ => BitVec.ofNat 32 m.pc + off))
    | e => e) s

/-- R101: `ret`, each lane to the address in its lane of vA. -/
def execRet (x : Args) (s : State) : Host.Outcome State Fault Refusal :=
  issueGroup x (srcRegs false x.a) [] (fun m s =>
    let a := operand m s false x.a
    match targetFault m a.at32 with
    | some c => .fault c
    | none =>
      match readRegs m (srcRegs false x.a) s with
      | .done s => .jump (s.updGroup m.g (transfer m a.at32))
      | e => e) s

/-! ### Exits and joins -/

/-- The lanes that a running handler has frozen (R389). -/
def Group.frozen (g : Group) : Mask :=
  match g.trap with
  | none => 0
  | some t => ~~~t.x

/-- Records whose awaited lanes are all parked let their lanes go to T; a LATE record that awaits nobody is freed (R88, R89).
A record waits while a handler has frozen parked lanes of it (R389). -/
def completeJoins (g : Group) : Group :=
  g.joins.foldl (fun (g : Group) (r : JoinRec) =>
    if r.parked &&& g.frozen != 0 then { g with joins := g.joins ++ [r] }
    else if r.late then (if r.awaited = 0 then g else { g with joins := g.joins ++ [r] })
    else if r.awaited &&& ~~~r.parked = 0 then
      { g with lanes := mapLanes g.lanes r.parked fun _ a => { a with pc := r.target, st := .run } }
    else { g with joins := g.joins ++ [r] }) { g with joins := [] }

/-- OPEN records whose time has passed, as their event leaves them (R89): strictly past, since an arrival in the
cycle of the timeout wins; none whose parked lanes a handler has frozen (R389). -/
def expireJoins (now : Nat) (due : Nat → Nat → Bool) (g : Group) : Group :=
  completeJoins (g.joins.foldl (fun (g : Group) (r : JoinRec) =>
    if !r.late && due (r.start + r.kt) now && r.parked &&& g.frozen == 0 then
      { g with
        jto := true
        lanes := mapLanes g.lanes r.parked fun _ a => { a with pc := r.target, st := .run }
        joins := g.joins ++ [{ r with late := true, awaited := r.awaited &&& ~~~r.parked, parked := 0 }] }
    else { g with joins := g.joins ++ [r] }) { g with joins := [] })

/-- Records that have timed out before now, and then those that are complete (R88, R89). -/
def dueJoins (now : Nat) (g : Group) : Group := expireJoins now (fun due now => due < now) g

/-- Lanes that exit leave every record (R88), after those that have timed out (R89). -/
def leaveJoins (now : Nat) (g : Group) (m : Mask) : Group :=
  let g := dueJoins now g
  completeJoins { g with joins := g.joins.map fun r => { r with awaited := r.awaited &&& ~~~m, parked := r.parked &&& ~~~m } }

/-- The return from a handler, where its last lane has returned or gone, with the joins that were held back (R389, R406). -/
def leaveHandler (now : Nat) (g : Group) : Group :=
  let h := leaveTrap g
  if g.trap.isSome && h.trap.isNone then (dueJoins now h).tidy else h

/-- R102: `exit`. -/
def execExit (x : Args) (s : State) : Host.Outcome State Fault Refusal :=
  issueGroup x [] [] (fun m s =>
    let s := s.updGroup m.g fun g =>
      let g := noteTransfer m false { g with
        lanes := mapLanes g.lanes m.x fun l a =>
          if m.act.getLsbD l then Lane.gone else { a with pc := BitVec.ofNat 32 m.next } }
      leaveHandler s.now (leaveJoins s.now g m.act)
    match Tbl.get? s.groups m.g with
    | none => .jump s
    | some g => .jump (freeDq (if g.live = 0 then dropSlots s [m.g] else s) g.team)) s

/-- The arrival of lanes at a `join` (R88): J, T and kT of the instruction. -/
def arrive (now : Nat) (j target : W32) (kt : Nat) (act : Mask) (g : Group) : Group :=
  let park (g : Group) : Group := { g with lanes := mapLanes g.lanes act fun _ a => { a with st := .parked } }
  let go (t : W32) (g : Group) : Group := { g with lanes := mapLanes g.lanes act fun _ a => { a with pc := t } }
  match g.joins.find? fun r => r.j == j with
  | none =>
    if g.joins.length < 4 then
      park { g with joins := g.joins ++ [{ j := j, target := target, awaited := g.live, parked := act, start := now, kt := kt, late := false }] }
    else go target { g with jto := true }
  | some r =>
    let put (r' : JoinRec) : Group := { g with joins := g.joins.map fun q => if q.j == j then r' else q }
    if r.late then go r.target (put { r with awaited := r.awaited &&& ~~~act })
    else park (put { r with parked := r.parked ||| act })

/-- R103: `join`. -/
def execJoin (x : Args) (s : State) : Host.Outcome State Fault Refusal :=
  issueGroup x [] [] (fun m s =>
    let kt := (lo32 ((Who.group m).uni s x.a)).toNat
    let target := BitVec.ofNat 32 m.pc + offBytes m s x.b
    .jump (s.updGroup m.g fun g =>
      let g := dueJoins s.now g
      let g := { g with lanes := mapLanes g.lanes (m.x &&& ~~~m.act) fun _ a => { a with pc := BitVec.ofNat 32 m.next } }
      if m.act = 0 then g
      else completeJoins (noteTransfer m false (arrive s.now (BitVec.ofNat 32 m.pc) target kt m.act g)))) s

/-- R103: `fuse`: the group is one candidate again, whatever lanes are active. -/
def execFuse (x : Args) (s : State) : Host.Outcome State Fault Refusal :=
  issueGroup x [] [] (fun m s =>
    .done (s.updGroup m.g fun g =>
      { g with subs := [{ lanes := g.subs.foldl (fun a c => a ||| c.lanes) 0, back := 0, hprio := 0, lastX := 0 }] })) s

/-! ### Yield, sleep and strict loops -/

/-- A lane set at a PC yields (R92): the RUN lanes of its candidate at the smallest greater PC get priority. -/
def yieldFrom (g : Group) (c p : Nat) : Group :=
  g.updSubG c fun k =>
    let ahead := maskOf fun l => (g.issuable &&& k.lanes).getLsbD l && decide (p < (g.lane l).pc.toNat)
    let low := (lanesOf ahead).foldl (fun a l => min a (g.lane l).pc.toNat) (2 ^ 32)
    { k with back := 0, hprio := maskOf fun l => ahead.getLsbD l && (g.lane l).pc.toNat == low }

/-- R104: `yield`. -/
def execYield (x : Args) (s : State) : Host.Outcome State Fault Refusal :=
  issueGroup x [] [] (fun m s =>
    let s := advance m.g m.x m.next s
    .jump (s.updGroup m.g fun g =>
      let g := noteTransfer m false g
      if m.act = 0 then g else yieldFrom g (g.candOf m.x) m.next)) s

/-- R104: `sleep`. -/
def execSleep (x : Args) (s : State) : Host.Outcome State Fault Refusal :=
  issueGroup x [] [] (fun m s =>
    let c := min ((Who.group m).uniZ s x.b).toNat (2 ^ 20)
    if c = 0 then .done s
    else if m.act = 0 then .done (s.updGroup m.g fun g => g.updSubG (g.candOf m.x) fun k => { k with hprio := 0 })
    else .done (s.updGroup m.g fun g =>
      let g := { g with lanes := mapLanes g.lanes m.act fun _ a => { a with st := .asleep, wake := s.now + c } }
      g.updSubG (g.candOf m.x) fun k => { k with back := 0, hprio := 0 })) s

/-- R90, R105: `loop.strict`. -/
def execLoopStrict (x : Args) (s : State) : Host.Outcome State Fault Refusal :=
  issueGroup x [] [] (fun m s =>
    .done (s.updGroup m.g fun g => { g with lanes := mapLanes g.lanes m.act fun _ a => { a with tag := 0, strict := true } })) s

/-- R90, R105: `lend`. -/
def execLend (x : Args) (s : State) : Host.Outcome State Fault Refusal :=
  issueGroup x [] [] (fun m s =>
    let off := offBytes m s x.b
    .jump (s.updGroup m.g fun g =>
      let g := { g with lanes := mapLanes g.lanes m.x fun l a =>
        if m.act.getLsbD l then (if a.strict then { a with tag := a.tag + 1 } else a) else { a with tag := 0, strict := false } }
      transfer m (fun _ => BitVec.ofNat 32 m.pc + off) g)) s

/-! ### The decision queue -/

/-- R106: `dqpop`. -/
def execDqpop (x : Args) (s : State) : Host.Outcome State Fault Refusal :=
  issueGroup x [] [x.dst.toNat] (fun m s =>
    if m.act = 0 then .done s
    else
      match Tbl.get? s.groups m.g with
      | none => .done s
      | some g =>
        match Tbl.get? s.teams g.team with
        | none => .wait s
        | some tm =>
          match tm.dq[g.dqPtr - tm.dqBase]? with
          | some v =>
            .done (freeDq (s.updGroup m.g fun g => { g.setK x.dst.toNat v with dqPtr := g.dqPtr + 1, dqend := false }) g.team)
          | none =>
            if tm.dqClosed then .done (s.updGroup m.g fun g => { g.setK x.dst.toNat 0 with dqend := true })
            else .wait s) s

/-! ### Team and pair collectives -/

/-- Whether an issue is of every non-exited lane, all active, in a group that has not split (R96). -/
def collective (m : Mem) (g : Group) : Bool := m.x == g.live && m.act == m.x && g.subs.length == 1

/-- A thread of `rsort`: key, tid, group and lane. -/
structure Thread where
  key : Nat
  tid : Nat
  g : Nat
  l : Nat
  deriving DecidableEq, Repr

/-- A thread put in its place by key, then tid. -/
def insertThread (t : Thread) : List Thread → List Thread
  | [] => [t]
  | u :: us => if t.key < u.key || (t.key == u.key && t.tid < u.tid) then t :: u :: us else u :: insertThread t us

/-- The threads that take part in `rsort`, in their new order (R107). -/
def sortedThreads (s : State) (gs : Tbl Group) (key : Nat) : List Thread :=
  (gs.flatMap fun p =>
    let rs := runsOf s p.1 p.2 key
    (lanesOf p.2.live).map fun l =>
      ({ key := (Runs.val rs l).toNat, tid := (p.2.tids.getD l 0).toNat, g := p.1, l := l } : Thread)).foldl
    (fun acc t => insertThread t acc) []

/-- The new run list of register `j` for a group that receives some threads, cut where the source positions are not
in one run of one register (R150; log entry 14). -/
def sortedRuns (s : State) (gs : Tbl Group) (j : Nat) (ts : List Thread) (old : Runs) : Runs :=
  let src (l : Nat) : Option (Thread × Runs) :=
    match ts[l]? with
    | some t => (Tbl.get? gs t.g).map fun q => (t, runsOf s t.g q j)
    | none => none
  let runIdx (rs : Runs) (l : Nat) : Nat := ((List.range (l + 1)).filter fun i => Runs.starts rs i).length
  let cut (l : Nat) : Bool :=
    match src (l - 1), src l with
    | some (t, rs), some (u, qs) => !(t.g == u.g && runIdx rs t.l == runIdx qs u.l)
    | _, _ => true
  let op (l : Nat) : W64 :=
    match src l with
    | some (t, rs) => (Runs.val rs t.l).zeroExtend 64
    | none => 0
  let w := maskOf fun l => decide (l < ts.length)
  spliceRuns w old pieceLo (pieces w cut false op)

/-- A group of a team after `rsort` (R107): the lanes up to the last thread resume, the others exit. Its join records are
dropped, since the threads of their lanes have moved (log entry 45), and its reuse latch is released (R260). -/
def sortedGroup (m : Mem) (ts : List Thread) (gs : Tbl Group) (g : Group) : Group :=
  let tid (l : Nat) : W32 := match ts[l]? with
    | some t => (match Tbl.get? gs t.g with
      | some q => q.tids.getD t.l 0
      | none => 0)
    | none => g.tids.getD l 0
  { g with
    tids := lanes32.map tid
    lanes := lanes32.map fun l =>
      if l < ts.length then { pc := BitVec.ofNat 32 m.next, tag := 0, st := .run, strict := false, wake := 0 } else Lane.gone
    subs := [{ lanes := BitVec.allOnes 32, back := 0, hprio := 0, lastX := 0 }]
    joins := []
    reuse := none
    pdis := g.pdis || g.pair.isSome
    pair := none
    held := 0
    wait := none }

/-- The registers of every group of a team rebuilt (R107), group by group; a group whose registers do not fit takes RUNOVF, and
nothing else has changed. -/
def sortGroups (m : Mem) (key n : Nat) (old : State) (gs : Tbl Group) : List (Nat × List Thread) → State → GEff
  | [], s => .done s
  | (g, ts) :: rest, s =>
    match Tbl.get? gs g with
    | none => sortGroups m key n old gs rest s
    | some grp =>
      let news := (List.range n).map fun j => (j, sortedRuns old gs j ts (runsOf old g grp j))
      let m' : Mem := { m with g := g, x := grp.live }
      match writeRegs m' [key] (if ts.length < 32 then List.range n else []) news s with
      | .done s => sortGroups m key n old gs rest (s.updGroup g (sortedGroup m ts gs))
      | .fault c => .all (deliver g grp.live c (splitPair old g))
      | .wait _ =>
        -- the spills this group has made stand, and no group is rebuilt yet
        match writeRegs m' [key] (if ts.length < 32 then List.range n else []) news old with
        | .wait s => .wait s
        | _ => .wait old
      | e => e

/-- A waiting group's instruction does not agree with another's: its wait ends in BOUNDS. -/
def refuse (s : State) (g : Nat) : State :=
  s.updGroup g fun q => { q with wait := q.wait.map fun (w : Wait) => { w with kind := .refused } }

/-- R107: `rsort`. -/
def execRsort (x : Args) (s : State) : Host.Outcome State Fault Refusal :=
  issueGroup x (srcRegs false x.a) [] (fun m s =>
    match Tbl.get? s.groups m.g with
    | none => .done s
    | some g =>
      let n := ((Who.group m).uniZ s x.b).toNat
      let key := match x.a with
        | .v r => r.toNat
        | _ => 0
      if !collective m g then .fault (m.bounds rNOTCONV)
      else if n = 0 || 32 < n then .fault (m.bounds rARG)
      else if (g.wait.map (·.kind)) == some .refused then .fault (m.bounds rNOTCONV)
      else
        let w : Wait := { kind := .rsort key n, pc := m.pc, next := m.next, start := s.now, bound := 0 }
        let s' := s.updGroup m.g fun g => { g with wait := if g.wait.isSome then g.wait else some w }
        let gs := (s'.groupsOf g.team).filter fun p => p.2.live != 0
        let here (p : Nat × Group) : Bool := match p.2.wait with
          | some v => (match v.kind with
            | .rsort _ _ => true
            | _ => false)
          | none => false
        let agrees (p : Nat × Group) : Bool := match p.2.wait with
          | some v => v.pc == m.pc && (match v.kind with
            | .rsort _ n' => n' == n
            | _ => false)
          | none => false
        if !gs.all here then .wait s'
        else if !gs.all agrees then
          -- every group raises BOUNDS; the others when they are next selected
          let mates := m.g :: (joinedPartner s g).toList
          let others := (gs.map (·.1)).filter fun g => !mates.contains g
          .all (mates.foldl (fun s g => deliver g (partnerSet s g) (m.bounds rNOTCONV) s) (others.foldl refuse s'))
        -- a register whose data have still to come is not moved (R249)
        else if gs.any fun p => (List.range n).any fun j => (p.2.reg j).pend.isSome then .wait s'
        else
          let ts := sortedThreads s' gs key
          let order := (gs.map fun p => (p.2.idx, p.1)).foldl (fun acc p => Tbl.set acc p.1 p.2) ([] : Tbl Nat)
          let parts := order.mapIdx fun i p => (p.2, (ts.drop (32 * i)).take 32)
          match sortGroups m key n s' gs parts s' with
          | .done s2 =>
            let gone := parts.filter fun p => p.2.isEmpty
            .all (issuedLast m.g (freeDq (dropSlots s2 (gone.map (·.1))) g.team))
          | .wait s2 => .wait s2
          | e => e) s

/-- Sibling sub-cores (R93). -/
def siblings (c u : Nat) : Bool := c % 4 != u % 4 && c % 4 / 2 == u % 4 / 2

/-- Whether a wait has run past its bound (R108, R109): an arrival in the last cycle still counts. -/
def Wait.over (w : Wait) (now : Nat) : Bool := w.start + w.bound < now

/-- Two groups leave their wait as members of a JOINED pair (R108, R109). -/
def bindPair (s : State) (g p : Nat) (cond : Bool) (idxG idxP nextG nextP : Nat) : State :=
  let s := s.updGroup g fun q =>
    { q with wait := none, pair := some { partner := idxP, cond := cond, joined := true }
             lanes := mapLanes q.lanes q.live fun _ a => { a with pc := BitVec.ofNat 32 nextG } }
  let s := s.updGroup p fun q =>
    { q with wait := none, pair := some { partner := idxG, cond := !cond, joined := true }
             lanes := mapLanes q.lanes q.live fun _ a => { a with pc := BitVec.ofNat 32 nextP } }
  recheckPair s g

/-- R108: `pair`; BOUNDS with PAIRIDS where a bit of ids that must be zero is not (log entry 45). -/
def execPairBind (x : Args) (s : State) : Host.Outcome State Fault Refusal :=
  issueGroup x [] [] (fun m s =>
    match Tbl.get? s.groups m.g with
    | none => .done s
    | some g =>
      let ids := ((Who.group m).uniZ s x.b).toNat
      let c := ids % 32
      let u := ids / 256 % 32
      let kt := (lo32 ((Who.group m).uni s x.a)).toNat
      let other := if g.idx = c then u else c
      let groups := ((s.headerOf g.team).map (·.groups)).getD 0
      let partner := (s.groupAt g.team other).bind fun p => (Tbl.get? s.groups p).map fun q => (p, q)
      let paired := g.pair.isSome || ((partner.map (·.2.pair.isSome)).getD false)
      if !collective m g then .fault (m.bounds rNOTCONV)
      else if ids != c + 256 * u || groups ≤ c || groups ≤ u || c == u || !siblings c u || (g.idx != c && g.idx != u) || paired then
        .fault (m.bounds rPAIRIDS)
      else
        match g.wait with
        | some w =>
          if w.kind == .refused then .fault (m.bounds rPAIRIDS)
          else if w.over s.now then .fault (Cause.pairTimeout false) else pairMeet x m g w.bound ids c partner s
        | none => pairMeet x m g kt ids c partner s) s
where
  /-- The partner is looked at: a match, a `pair` with other ids, or the wait goes on. -/
  pairMeet (_x : Args) (m : Mem) (g : Group) (kt ids c : Nat) (partner : Option (Nat × Group)) (s : State) : GEff :=
    let w : Wait := { kind := .pair ids, pc := m.pc, next := m.next, start := s.now, bound := kt }
    let waiting := s.updGroup m.g fun q => { q with wait := if q.wait.isSome then q.wait else some w }
    match partner with
    | none => .wait waiting
    | some (p, q) =>
      match q.wait with
      | none => .wait waiting
      | some v =>
        match v.kind with
        | .pair ids' =>
          if v.over s.now then .wait waiting
          else if ids' = ids then .jump (bindPair s m.g p (g.idx == c) g.idx q.idx m.next v.next)
          else .all (deliver m.g m.x (m.bounds rPAIRIDS) (refuse s p))
        | _ => .wait waiting

/-- The partner of a group's pair, by slot, where it is resident. -/
def partnerOf (s : State) (g : Group) : Option (Nat × Group) :=
  match g.pair with
  | none => none
  | some b => (s.groupAt g.team b.partner).bind fun p => (Tbl.get? s.groups p).map fun q => (p, q)

/-- R109: `pjoin`. -/
def execPjoin (x : Args) (s : State) : Host.Outcome State Fault Refusal :=
  issueGroup x [] [] (fun m s =>
    match Tbl.get? s.groups m.g with
    | none => .done s
    | some g =>
      if !collective m g then .fault (m.bounds rNOTCONV)
      else if (g.wait.map (·.kind)) == some .broken then .fault (Cause.pairTimeout false)
      else
        match g.pair with
        | none => .done s
        | some b =>
          if b.joined then .done s
          else
            match partnerOf s g with
            | none => .fault (Cause.pairTimeout true)
            | some (p, q) =>
              if q.live = 0 then .fault (Cause.pairTimeout true)
              else
                let kt := (lo32 ((Who.group m).uni s x.a)).toNat
                let w : Wait := (g.wait.filter fun w => w.kind == .pjoin && w.pc == m.pc).getD
                  { kind := .pjoin, pc := m.pc, next := m.next, start := s.now, bound := kt }
                if w.over s.now then .fault (Cause.pairTimeout false)
                else
                  match q.wait with
                  | some v =>
                    if v.kind == .pjoin && v.pc == m.pc && !v.over s.now && q.trap.isNone && g.trap.isNone then
                      .jump (bindPair s m.g p b.cond g.idx q.idx m.next v.next)
                    else .wait (s.updGroup m.g fun q => { q with wait := some w })
                  | none => .wait (s.updGroup m.g fun q => { q with wait := some w })) s

/-- A pair dissolved by one member (R95, R110): PDIS in the other unless the pair was JOINED, and a wait of the
other in `pjoin` or `gdrain` ends. -/
def dissolve (s : State) (g : Nat) (grp : Group) : State :=
  let joined := (grp.pair.map (·.joined)).getD false
  let s := match partnerOf s grp with
    | none => s
    | some (p, _) => s.updGroup p fun q =>
      { q with pair := none, pdis := q.pdis || !joined
               wait := q.wait.map fun (w : Wait) => if w.kind == WaitKind.pjoin || w.kind == WaitKind.gdrain then { w with kind := .broken } else w }
  s.updGroup g fun q => { q with pair := none }

/-- R110: `unpair`. -/
def execUnpair (x : Args) (s : State) : Host.Outcome State Fault Refusal :=
  issueGroup x [] [] (fun m s =>
    match Tbl.get? s.groups m.g with
    | none => .done s
    | some g => if !collective m g then .fault (m.bounds rNOTCONV) else .done (dissolve s m.g g)) s

/-! ### Identifiers and status -/

/-- R111: `rdpcv`. -/
def execRdpcv (x : Args) (s : State) : Host.Outcome State Fault Refusal :=
  issueLane x false (fun m s =>
    match Tbl.get? s.groups m.g with
    | none => .done s
    | some g =>
      laneResult m x false [] m.act (fun _ => false) (cBit x)
        (fun l => if modBits x 4 1 = 0 then (g.lane l).pc.zeroExtend 64 else (g.lane l).tag.zeroExtend 64) s) s

/-- R111: `rdid`; tids differ from lane to lane, so each is a piece of its own. -/
def execRdid (x : Args) (s : State) : Host.Outcome State Fault Refusal :=
  issueLane x false (fun m s =>
    match Tbl.get? s.groups m.g with
    | none => .done s
    | some g =>
      let sel := modBits x 4 3
      laneResult m x false [] m.act (fun _ => sel == 0) (cBit x)
        (fun l => match sel with
          | 0 => (g.tids.getD l 0).zeroExtend 64
          | 1 => BitVec.ofNat 64 g.idx
          | 2 => BitVec.ofNat 64 (subOfGroup m.g)
          | _ => BitVec.ofNat 64 (slotOfGroup m.g)) s) s

/-- R111: `kstat`. -/
def execKstat (x : Args) (s : State) : Host.Outcome State Fault Refusal :=
  issueGroup x [] [x.dst.toNat] (fun m s =>
    if m.act = 0 then .done s
    else .done (s.updGroup m.g fun g =>
      if modBits x 4 1 = 1 then g.setK x.dst.toNat g.pairWord
      else
        let w := g.gsr
        (if modBits x 5 1 = 1 then g.clearGsr w else g).setK x.dst.toNat w)) s

end Sys2Proof.Machine
end

