-- ==== Sys2Proof/Machine/Convert.lean ====
section
/-! DEFINITION. Number formats, conversion, quantisation and random masks (R167 to R192). -/

namespace Sys2Proof.Machine

/-- A format code of SF or DF (R181). -/
def fmtOf (c : Nat) : Fmt :=
  match c with
  | 0 => Fmt.f32
  | 1 => Fmt.bf16
  | 2 => Fmt.f16
  | 3 => Fmt.e4m3
  | _ => Fmt.e5m2

/-- A value of a format converted to another, rounded once (R174, R175, R181). -/
def convertFmt (sf df : Fmt) (rm : RM) (w : W32) : W32 :=
  BitVec.ofNat 32 (df.encode rm (sf.decode (w.toNat % 2 ^ sf.width)))

/-- R181: `cvt.ff`. -/
def execCvtFf (x : Args) (s : State) : Host.Outcome State Fault Refusal :=
  issueOp x false (op1 x false (on32 (convertFmt (fmtOf (modBits x 4 3)) (fmtOf (modBits x 7 3)) (rmOf x)))) s

/-- The range of an integer destination (R170, R176). -/
def intRange (s8 unsigned : Bool) : Int × Int :=
  match s8, unsigned with
  | false, false => (-2 ^ 31, 2 ^ 31 - 1)
  | false, true => (0, 2 ^ 32 - 1)
  | true, false => (-128, 127)
  | true, true => (0, 255)

/-- S8 of MOD. -/
def s8Bit (x : Args) : Bool := x.mod.getLsbD 4

/-- `cvt.fi` (R182). -/
def opCvtFi (x : Args) : Mem → State → LaneOp :=
  op1 x false (on32 fun a => BitVec.ofInt 32 (fToInt (rmOf x) (intRange (s8Bit x) (uBit x)).1 (intRange (s8Bit x) (uBit x)).2 a))

/-- The integer `cvt.if` reads (R182). -/
def intIn (s8 unsigned : Bool) (a : W32) : Int :=
  let b : BitVec 8 := a.truncate 8
  match s8, unsigned with
  | false, false => a.toInt
  | false, true => a.toNat
  | true, false => b.toInt
  | true, true => b.toNat

/-- `cvt.if` (R182). -/
def opCvtIf (x : Args) : Mem → State → LaneOp :=
  op1 x false (on32 fun a => intToF (rmOf x) (intIn (s8Bit x) (uBit x) a))

/-- R182: `cvt.fi`. -/
def execCvtFi (x : Args) (s : State) : Host.Outcome State Fault Refusal := issueOp x false (opCvtFi x) s
/-- R28: compact `cvt.fi`. -/
def execCvtFiC32 (x : Args) (s : State) : Host.Outcome State Fault Refusal := issueOp x false (opCvtFi x) s
/-- R182: `cvt.if`. -/
def execCvtIf (x : Args) (s : State) : Host.Outcome State Fault Refusal := issueOp x false (opCvtIf x) s
/-- R28: compact `cvt.if`. -/
def execCvtIfC32 (x : Args) (s : State) : Host.Outcome State Fault Refusal := issueOp x false (opCvtIf x) s

/-- R183: `fround`. -/
def execFround (x : Args) (s : State) : Host.Outcome State Fault Refusal :=
  issueOp x false (op1 x false (on32 (fRound (rmOf x)))) s

/-- The stochastic rounding of R184. -/
def fRint (x r : W32) : W32 :=
  match fv x with
  | .nan => nan32
  | .inf _ => x
  | .fin neg m e =>
    if 0 ≤ e then x
    else
      let k := (-e).toNat
      let low := m % 2 ^ k
      if low = 0 then x
      else
        let whole : Int := m / 2 ^ k
        let n : Int := if neg then -whole - 1 else whole
        let frac := if neg then 2 ^ k - low else low
        let y := if r.toNat % 2 ^ 24 < frac * 2 ^ 24 / 2 ^ k then n + 1 else n
        if y = 0 && neg then 0x80000000 else intToF .rn y

/-- R184: `rint`. -/
def execRint (x : Args) (s : State) : Host.Outcome State Fault Refusal := issueOp x false (op2 x false (on32x2 fRint)) s

/-! ### Q4 blocks (R171 to R173, R185 to R187) -/

/-- Twice the magnitude index table of a signed TYPE, in units of 2^-6 (R172). -/
def q4Mags (t : Nat) : List Nat :=
  match t with
  | 1 => [0, 32, 64, 96, 128, 192, 256, 384]
  | 2 => [0, 1, 2, 4, 8, 16, 32, 64]
  | _ => [0, 64, 128, 192, 256, 384, 512, 768]

/-- Max(TYPE) of R173. -/
def q4Max (t : Nat) : Nat :=
  match t with
  | 0 => 7
  | 1 => 6
  | 2 => 1
  | _ => 12

/-- The value of an element of a block whose E is below 63 (R172). -/
def q4Value (t e c : Nat) : FV :=
  if t = 0 then
    if 8 ≤ c then .fin false (c - 8) (e - 32 : Int) else .fin true (8 - c) (e - 32 : Int)
  else .fin (decide (8 ≤ c)) ((q4Mags t).getD (c % 8) 0) (e - 38 : Int)

/-- The scale byte of R185. -/
def scaleByte (t : Nat) (x : W32) : W32 :=
  let e := match fv (x &&& 0x7FFFFFFF) with
    | .nan => 63
    | .inf _ => 62
    | .fin _ m e => ((List.range 63).find? fun i => decide (m * 2 ^ (e + 149).toNat ≤ q4Max t * 2 ^ (i + 117))).getD 62
  BitVec.ofNat 32 (t * 64 + e)

/-- R185: `qscale`. -/
def execQscale (x : Args) (s : State) : Host.Outcome State Fault Refusal :=
  issueOp x false (op1 x false (on32 (scaleByte (modBits x 4 2)))) s

/-- The index of the magnitude nearest to a value given in units of 2^-6 * 2^-k, ties to the even index, the
top where the value is beyond it (R186). -/
def nearestMag (mags : List Nat) (m k : Nat) : Nat :=
  ((mags.zip (List.range 8)).foldl (fun (best : Option (Nat × Nat)) p =>
    let d := if p.1 * 2 ^ k ≤ m then m - p.1 * 2 ^ k else p.1 * 2 ^ k - m
    match best with
    | none => some (d, p.2)
    | some (bd, bi) => if d < bd || (d == bd && p.2 % 2 == 0) then some (d, p.2) else some (bd, bi)) none).elim 0 (·.2)

/-- The code of one element (R186). -/
def q4Code (t e : Nat) (x : W32) : Nat :=
  let sign := if x.getLsbD 31 then 8 else 0
  match fv x with
  | .nan => 0
  | .inf neg => if t = 0 then (if neg then 0 else 15) else sign + 7
  | .fin neg m e2 =>
    -- |y| = m * 2^(e2 + 32 - e), with e2 + 32 - e at least -181
    if t = 0 then
      let y := roundInt .rn neg m (e2 + 32 - e)
      ((if y < -8 then -8 else if 7 < y then 7 else y) + 8).toNat
    else sign + nearestMag (q4Mags t) (m * 2 ^ (e2 + 218 - e).toNat) 180

/-- A block as the five words of R171. -/
def q4Words (codes : List Nat) (scale : Nat) : List W32 :=
  (List.range 4).map (fun w => BitVec.ofNat 32 (((codes.drop (8 * w)).take 8).foldr (fun c a => c + 16 * a) 0)) ++
    [BitVec.ofNat 32 scale]

/-- The block `pack4` makes of 32 lanes (R186). -/
def packBlock (s : Nat) (act : Mask) (v : Nat → W32) : List W32 :=
  let t := s / 64 % 4
  let e := s % 64
  if e = 63 || (lanesOf act).any fun l => isNaN32 (v l) then q4Words (List.replicate 32 0) (t * 64 + 63)
  else q4Words (lanes32.map fun l => q4Code t e (if act.getLsbD l then v l else 0)) (s % 256)

/-- R186: `pack4`. -/
def execPack4 (x : Args) (s : State) : Host.Outcome State Fault Refusal :=
  issueLane x false (fun m s =>
    match Tbl.get? s.groups m.g with
    | none => .done s
    | some g =>
      if 1 < g.subs.length then .fault (m.bounds rNOTCONV)
      else
        let a := operand m s false x.a
        let block := packBlock (((Who.group m).uni s x.b).toNat % 256) m.act a.at32
        laneResult m x false (srcRegs false x.a) (if m.act = 0 then 0 else 0x1F) (fun _ => true) (cBit x)
          (fun l => (block.getD l 0).zeroExtend 64) s) s

/-- Element j of the block in lanes 0 to 4 as FP32 (R187). -/
def unpackElem (v : Nat → W32) (j : Nat) : W32 :=
  let sc := (v 4).toNat % 256
  let c := (v (j / 8)).toNat / 16 ^ (j % 8) % 16
  if sc % 64 = 63 then nan32 else ofFV .rn (q4Value (sc / 64) (sc % 64) c)

/-- R187: `unpack4`. -/
def execUnpack4 (x : Args) (s : State) : Host.Outcome State Fault Refusal :=
  issueOp x false (fun m s =>
    let a := operand m s false x.a
    { reads := srcRegs false x.a, wset := m.act, wide := false, merge := cBit x
      cut := fun _ => (a.at32 4).toNat % 64 != 63, op := fun l => (unpackElem a.at32 l).zeroExtend 64 }) s

/-! ### Random masks and words (R188 to R191) -/

/-- The hash of R188. -/
def dropHash (x seed : W32) : W32 :=
  let h := (x ^^^ seed) * 0x2C1B3C6D
  let h := (h ^^^ (h >>> 16)) * 0x297A2D39
  h ^^^ (h >>> 15)

/-- R188: `dmask`. -/
def execDmask (x : Args) (s : State) : Host.Outcome State Fault Refusal :=
  issueGroup x (srcRegs false x.a ++ srcRegs false x.b) [predKey x.dst.toNat] (fun m s =>
    let a := operand m s false x.a
    let b := operand m s false x.b
    let seed := lo32 ((Who.group m).uni s x.c)
    predResultFree m x (srcRegs false x.a ++ srcRegs false x.b)
      (fun l => (dropHash (a.at32 l) seed).toNat % 65536 < min (b.at32 l).toNat 65536) s) s

/-- Step of R189. -/
def rngStep (x : W64) : W64 :=
  let x := x ^^^ (x <<< 13)
  let x := x ^^^ (x >>> 7)
  x ^^^ (x <<< 17)

/-- Step applied n times. -/
def rngSteps : Nat → W64 → W64
  | 0, x => x
  | n + 1, x => rngStep (rngSteps n x)

/-- R190: `rngx`, SEL 00. -/
def execRngx (x : Args) (s : State) : Host.Outcome State Fault Refusal :=
  issueLane x false (fun m s =>
    match Tbl.get? s.groups m.g with
    | none => .done s
    | some g =>
      if m.act = 0 then .done s
      else
        let word := fun l => let w := rngSteps (l + 1) g.gen
          lo32 w ^^^ hi32 w
        match laneResult m x false [] m.act (fun _ => true) (cBit x) (fun l => (word l).zeroExtend 64) s with
        | .done s => .done (s.updGroup m.g fun q => { q with gen := rngSteps 32 g.gen })
        | e => e) s

/-- R190: `rngx.seed`; of a v register or a latch the seed is the lowest active lane's (log entry 18). -/
def execRngxSeed (x : Args) (s : State) : Host.Outcome State Fault Refusal :=
  issueGroup x (srcRegs true x.b) [] (fun m s =>
    if m.act = 0 then .done s
    else
      let v := wholeValue (.group m) s x.b
      match readRegs m (srcRegs true x.b) s with
      | .done s => .done (s.updGroup m.g fun q => { q with gen := if v = 0 then 1 else v })
      | e => e) s

/-- R190: `rngx.st`. -/
def execRngxSt (x : Args) (s : State) : Host.Outcome State Fault Refusal :=
  issueGroup x [] [x.dst.toNat] (fun m s =>
    if m.act = 0 then .done s else .done (s.updGroup m.g fun q => q.setK x.dst.toNat q.gen)) s

/-! ### Packing moves (R192) -/

/-- The destination as a source: its run list, or the k register that DSEL names. -/
def destOperand (m : Mem) (s : State) (x : Args) : Operand :=
  operand m s false (if x.dsel then .k (BitVec.ofNat 5 (x.dst.toNat - 32)) else .v x.dst)

/-- A packing move: a field of some width of the destination replaced. -/
def opPack (x : Args) (width at_ : Nat) (m : Mem) (s : State) : LaneOp :=
  let a := operand m s false x.a
  let d := destOperand m s x
  let ones : W32 := BitVec.ofNat 32 (2 ^ width - 1)
  { reads := srcRegs false x.a ++ dstRegs x false, wset := m.act, wide := false, merge := cBit x
    cut := fun l => a.cuts l || d.cuts l
    op := fun l => (((d.at32 l) &&& ~~~(ones <<< at_)) ||| ((a.at32 l &&& ones) <<< at_)).zeroExtend 64 }

/-- R192: `pk16`. -/
def execPk16 (x : Args) (s : State) : Host.Outcome State Fault Refusal :=
  issueOp x false (opPack x 16 (16 * modBits x 4 1)) s
/-- R192: `pk8`. -/
def execPk8 (x : Args) (s : State) : Host.Outcome State Fault Refusal :=
  issueOp x false (opPack x 8 (8 * modBits x 4 2)) s
/-- R192: `xt16`. -/
def execXt16 (x : Args) (s : State) : Host.Outcome State Fault Refusal :=
  issueOp x false (op1 x false (on32 fun a =>
    let v : BitVec 16 := (a >>> (16 * modBits x 4 1)).truncate 16
    if uBit x then v.zeroExtend 32 else v.signExtend 32)) s
/-- R192: `xt8`. -/
def execXt8 (x : Args) (s : State) : Host.Outcome State Fault Refusal :=
  issueOp x false (op1 x false (on32 fun a =>
    let v : BitVec 8 := (a >>> (8 * modBits x 4 2)).truncate 8
    if uBit x then v.zeroExtend 32 else v.signExtend 32)) s

end Sys2Proof.Machine
end

