-- ==== Sys2Proof/Machine/Matrix.lean ====
section
/-! DEFINITION. The matrix array (R250 to R277): contexts, planes, passes, accumulators and their drains. The moves
of tiles to and from memory stand with the handles. -/

namespace Sys2Proof.Machine

/-! ### Contexts -/

/-- A matrix context of a core. -/
def Core.mat (k : Core) (i : Nat) : MatCtx := k.mats.getD i MatCtx.fresh

/-- A matrix context changed. -/
def State.updMat (s : State) (c i : Nat) (f : MatCtx → MatCtx) : State :=
  s.updCore c fun k => { k with mats := updAt k.mats i f }

/-- The context a team holds. -/
def heldMat (s : State) (t : Nat) : Option Nat := (Tbl.get? s.teams t).bind (·.mctx)

/-- A tile's bytes. -/
def MatCtx.tile (m : MatCtx) (t : Nat) : List Byte := Tbl.get m.tiles t (List.replicate 8192 0)
/-- An operand that may span a tile and the next one (R253). -/
def MatCtx.operand (m : MatCtx) (t : Nat) : Array Byte := (m.tile t ++ m.tile (t + 1)).toArray
/-- An accumulator row. -/
def MatCtx.accRow (m : MatCtx) (block row : Nat) : List W32 := Tbl.get m.acc (block * 64 + row) (List.replicate 128 0)
/-- An accumulator row set. -/
def MatCtx.setAcc (m : MatCtx) (block row : Nat) (v : List W32) : MatCtx := { m with acc := Tbl.set m.acc (block * 64 + row) v }

/-- The lowest active lane's place in a BOUNDS of a party. -/
def Who.bounds (w : Who) (reason : Nat) : Cause :=
  match w with
  | .group m => m.bounds reason
  | .wick _ => Cause.bounds reason 0

/-- The context of the team that issues, BOUNDS with NOCTX where it holds none (R255). -/
def withMat (w : Who) (s : State) (k : Nat → MatCtx → GEff) : GEff :=
  match heldMat s (w.team s) with
  | none => .fault (w.bounds rNOCTX)
  | some i => k i ((s.core w.core).mat i)

/-- Whether a tile move through a handle keeps an operation off a tile (R257): a reader waits for writers, a writer
for all. -/
def tileBusy (s : State) (w : Who) (tile : Nat) (write : Bool) : Bool :=
  (s.core w.core).demands.any fun d => d.2.team == w.team s && d.2.tile == tile && (d.2.kind == 0 || (write && d.2.kind == 1))

/-- The reuse latch of a group released (R260). -/
def Who.release (w : Who) (s : State) : State :=
  match w with
  | .group m => s.updGroup m.g fun q => { q with reuse := none }
  | .wick _ => s

/-! ### Formats (R251, R253) -/

/-- Bits of an element by format code: BF16, E4M3, E5M2, Q4. -/
def elemBits (f : Nat) : Nat :=
  match f with
  | 0 => 16
  | 3 => 4
  | _ => 8

/-- B elements of a column of a full plane. -/
def planeK (f : Nat) : Nat :=
  match f with
  | 0 => 64
  | 3 => 256
  | _ => 128

/-- Products of a cell, where the formats pair. -/
def pairP (a b : Nat) : Option Nat :=
  if a = 0 && b = 0 then some 1
  else if (a = 1 || a = 2) && (b = 1 || b = 2) then some 2
  else if a != 0 && b = 3 then some 4
  else none

/-- The exact value of a code with a scale byte (R167, R172). -/
def elemValue (f scale code : Nat) : FV :=
  match f with
  | 0 => Fmt.bf16.decode code
  | 1 => Fmt.e4m3.decode code
  | 2 => Fmt.e5m2.decode code
  | _ => if scale % 64 = 63 then .nan else q4Value (scale / 64 % 4) (scale % 64) (code % 16)

/-- +0. -/
def zeroFV : FV := .fin false 0 0

/-- The code at an offset counted in elements of a width. -/
def codeAt (bs : Array Byte) (width i : Nat) : Nat :=
  match width with
  | 16 => (bs.getD (2 * i) 0).toNat + 256 * (bs.getD (2 * i + 1) 0).toNat
  | 4 => (bs.getD (i / 2) 0).toNat / 16 ^ (i % 2) % 16
  | _ => (bs.getD i 0).toNat

/-- Column n of a B operand of `k` elements (R253). -/
def columnOf (bs sc : Array Byte) (f : Nat) (t : Bool) (k n : Nat) : List FV :=
  (List.range k).map fun i =>
    let scale := (sc.getD (if t then n * (k / 32) + i / 32 else i / 32 * 128 + n) 0).toNat
    elemValue f scale (codeAt bs (elemBits f) (if t then n * k + i else i * 128 + n))

/-- Row m of an A operand of `k` elements in a tile (R253); of one half, the rows stand `k` elements apart, `k` being the
elements of the half (log entry 49). -/
def tileRow (bs sc : Array Byte) (f : Nat) (t : Bool) (k m : Nat) : List FV :=
  (List.range k).map fun i =>
    let scale := (sc.getD (if t then i / 32 * 64 + m else m * (k / 32) + i / 32) 0).toNat
    elemValue f scale (codeAt bs (elemBits f) (if t then i * 64 + m else m * k + i))

/-- The bytes of an A row as elements, scales after the codes (R254). -/
def laneRow (bs : List Byte) (f k : Nat) : List FV :=
  let a := bs.toArray
  let w := k * elemBits f / 8
  (List.range k).map fun i => elemValue f (a.getD (w + i / 32) 0).toNat (codeAt a (elemBits f) i)

/-- Registers of an A row with its scales. -/
def rowRegs (f k : Nat) : Nat := k * elemBits f / 32 + (if f = 3 then (k / 32 + 3) / 4 else 0)

/-! ### Sums (R252, R261) -/

/-- Elements of the column of a plane, filled up with +0. -/
def Plane.col (p : Plane) (n : Nat) : List FV :=
  let c := p.cols.getD n []
  c ++ List.replicate (planeK p.fmt - c.length) zeroFV

/-- The exact sum of some products (R252), whose zeros keep their sign (R138). -/
def sumOf : List FV → FV
  | [] => zeroFV
  | p :: ps => ps.foldl (FV.add .rn) p

/-- The exact sums of the cells, P products each; `fuel` bounds them. -/
def cells (P : Nat) : Nat → List FV → List FV
  | 0, _ => []
  | _ + 1, [] => []
  | n + 1, ps => sumOf (ps.take P) :: cells P n (ps.drop P)

/-- The chain over the cells of a column: each sum rounded once (R261). -/
def chain (P : Nat) (as bs : List FV) : W32 :=
  (cells P 64 (List.zipWith FV.mul as bs)).foldl (fun p c => ofFV .rn (FV.add .rn (fv p) c)) 0

/-- What a row gives to column n: one sum, or two of a split plane (R261). -/
def rowResult (p : Plane) (r : MatRow) (n : Nat) : List W32 :=
  let P := (pairP r.afmt p.fmt).getD 1
  let k := planeK p.fmt
  let c := p.col n
  match r.half with
  | 1 => [chain P r.elems (c.take (k / 2))]
  | 2 => [chain P r.elems (c.drop (k / 2))]
  | _ =>
    if p.split then [chain P (r.elems.take (k / 2)) (c.take (k / 2)), chain P (r.elems.drop (k / 2)) (c.drop (k / 2))]
    else [chain P r.elems c]

/-- An accumulator row after a row of a pass. -/
def addRow (p : Plane) (r : MatRow) (old : List W32) : List W32 :=
  old.mapIdx fun n v => (rowResult p r n).foldl (fAdd .rn) v

/-- An accumulator element converted to OFMT (R272). -/
def toOfmt (ofmt : Nat) (v : W32) : W32 := if ofmt = 0 then v else convertFmt Fmt.f32 (fmtOf ofmt) .rn v

/-! ### Lane delivery (R262) -/

/-- 32 lanes, one piece each. -/
def lanePieces (vs : List W32) : Runs := vs.map fun v => { val := v, cnt := 1, splice := false }

/-- The registers that a row of a delivery goes to. -/
def deliverRegs (vd j : Nat) : List Nat := (List.range 4).map fun c => vd + 4 * j + c

/-- The run lists of a delivered row of 128 elements. -/
def deliverRuns (vd j : Nat) (row : List W32) : List (Nat × Runs) :=
  (List.range 4).map fun c => (vd + 4 * j + c, lanePieces ((row.drop (32 * c)).take 32))

/-- Whether a delivery of some rows names a register past v1023; rows that are not delivered count for nothing (R262; log
entry 49). -/
def deliverPast (vd : Nat) (rows : List Nat) : Bool := rows.any fun j => 1023 < vd + 4 * j + 3

/-- Rows delivered at once: 32 cells for each register in the test of R121, then merged under C. -/
def deliverNow (m : Mem) (c : Bool) (news : List (Nat × Runs)) (s : State) : GEff :=
  match writeRegs m [] [] news s with
  | .done s =>
    if c then .done (s.updGroup m.g fun q => news.foldl (fun q p => q.putReg p.1 { q.reg p.1 with runs := mergeRuns p.2 }) q)
    else .done s
  | e => e

/-! ### mwl and mwswap -/

/-- The plane that loading leaves (R256). -/
def loadPlane (old : Plane) (f hs : Nat) (cols : List (List FV)) : Plane :=
  let h := planeK f / 2
  let keep (n : Nat) : List FV := if old.fmt = f then old.col n else List.replicate (planeK f) zeroFV
  { fmt := f, split := hs != 0
    cols := cols.mapIdx fun n c =>
      match hs with
      | 0 => c
      | 1 => c ++ (keep n).drop h
      | _ => (keep n).take h ++ c }

/-- The number a field holds. -/
def numOf : Src → Nat
  | .num n => n.toNat
  | .v r => r.toNat
  | _ => 0

/-- Whether the other member of a JOINED pair has done the part of both already (R263): the conditional member
issues first, and acts if it has an active lane. -/
def partnerActed (m : Mem) (x : Args) (s : State) : Bool :=
  match Tbl.get? s.groups m.g with
  | none => false
  | some g =>
    match joinedPartner s g with
    | none => false
    | some p =>
      !((g.pair.map (·.cond)).getD false) &&
        (match Tbl.get? s.groups p with
          | some q => q.lastX &&& q.predLanes x != 0
          | none => false)

/-- The load of a `mwl`; where the partner has made it (R263), only its checks. -/
def startLoad (w : Who) (x : Args) (made : Bool) (s : State) : GEff :=
  let bf := modBits x 4 3
  let hs := modBits x 8 2
  let tp := numOf x.a
  let ts := numOf x.b
  if hs = 0 && tp % 2 != 0 then .fault Cause.undef
  else withMat w s fun i mc =>
    let tiles := (if hs = 0 then [tp, tp + 1] else [tp]) ++ (if bf = 3 then [ts] else [])
    if made then .done s
    else if mc.load.isSome || tiles.any fun t => tileBusy s w t false then .wait s
    else
      let k := if hs = 0 then planeK bf else planeK bf / 2
      let bs := mc.operand tp
      let sc := (mc.tile ts).toArray
      let cols := (List.range 128).map fun n => columnOf bs sc bf (modBits x 7 1 == 1) k n
      .done (s.updMat w.core i fun mc => { mc with load := some (loadPlane mc.shadow bf hs cols) })

/-- R268: `mwl`. -/
def execMwl (x : Args) (s : State) : Host.Outcome State Fault Refusal :=
  issueAny x [] [] (fun w s =>
    let s := w.release s
    match w with
    | .group m => startLoad w x (partnerActed m x s) s
    | .wick _ => startLoad w x false s) s

/-- R268: a load of the shadow plane completes. -/
def execMwlComplete (core mctx : Nat) (s : State) : Host.Outcome State Fault Refusal :=
  .next (s.updMat core mctx fun mc =>
    match mc.load with
    | some p => { mc with shadow := p, load := none }
    | none => mc)

/-- Whether a row goes through the old plane at an exchange of the planes: it has arrived, it is of the group that swaps, or
the new plane does not take it as it was checked (R265, R269; log entry 46). -/
def beforeSwap (w : Who) (mc : MatCtx) (s : State) (r : MatRow) : Bool :=
  let mine := match w with
    | .group m => r.issuer == m.g
    | .wick _ => false
  mine || decide (r.arrive ≤ s.now) || planeK mc.shadow.fmt != planeK mc.active.fmt || (pairP r.afmt mc.shadow.fmt).isNone ||
    (r.half != 0 && !mc.shadow.split)

/-- R269: `mwswap`; rows that arrived earlier have gone through the old plane. -/
def execMwswap (x : Args) (s : State) : Host.Outcome State Fault Refusal :=
  issueAny x [] [] (fun w s =>
    withMat w s fun i mc =>
      if mc.load.isSome || mc.queue.any (beforeSwap w mc s) then .wait s
      else .done ((w.release s).updMat w.core i fun mc => { mc with active := mc.shadow, shadow := mc.active })) s

/-! ### mma, mma.g and mma.v -/

/-- The bytes of a lane's row. -/
def laneBytes (m : Mem) (s : State) (va n l : Nat) : List Byte :=
  match Tbl.get? s.groups m.g with
  | none => []
  | some g => (List.range n).flatMap fun w => toBytes (Runs.val (runsOf s m.g g (va + w)) l).toNat 4

/-- What a matrix instruction on rows does with them. -/
inductive MatDest where
  | acc (block row : Nat)
  | lanes (vd : Nat)
  deriving DecidableEq, Repr

/-- The rows that the reuse latch gives an instruction with the same vA and active lanes (R260); a latch of shorter rows, read
for another length, gives none (log entry 49). -/
def reusedRows (m : Mem) (s : State) (va n : Nat) : Option (List (Nat × List Byte)) :=
  ((Tbl.get? s.groups m.g).bind (·.reuse)).bind fun r =>
    if r.va = va && r.act == m.act && r.rows.all fun p => decide (4 * n ≤ p.2.length) then
      some (r.rows.map fun p => (p.1, p.2.take (4 * n)))
    else none

/-- The rows of a lane-sourced instruction, from the reuse latch where it fits (R260). -/
def laneRows (m : Mem) (s : State) (va n : Nat) : List (Nat × List Byte) :=
  (reusedRows m s va n).getD ((lanesOf m.act).map fun l => (l, laneBytes m s va n l))

/-- The rows of a matrix instruction with the row numbers 0 to 31 they stand for; `rh` is the half of a tile's rows. -/
def matRows (m : Mem) (x : Args) (s : State) (mc : MatCtx) (rh f k : Nat) : List (Nat × List FV) :=
  if x.mod.getLsbD 5 then
    let bs := mc.operand (numOf x.a)
    let sc := (mc.tile (numOf x.b)).toArray
    (List.range 32).map fun j => (j, tileRow bs sc f (x.mod.getLsbD 6) k (32 * rh + j))
  else (laneRows m s (numOf x.a) (rowRegs f k)).map fun p => (p.1, laneRow p.2 f k)

/-- The reuse latch after a matrix instruction on rows (R260): one that takes its rows from the latch keeps it under the flag and
else releases it afterwards (log entry 49). -/
def setReuse (m : Mem) (x : Args) (n : Nat) (old s : State) : State :=
  let keep := x.mod.getLsbD 4 && !x.mod.getLsbD 5
  let read : Reuse := { va := numOf x.a, act := m.act, rows := laneRows m old (numOf x.a) n }
  s.updGroup m.g fun q => { q with
    reuse := if !keep then none else if (reusedRows m old (numOf x.a) n).isSome then q.reuse else some read }

/-- The faults of a matrix instruction on rows before any row enters, in the order of R265, then what it does with
the context, the A format and the length of a row. -/
def matChecks (m : Mem) (x : Args) (vd : Option Nat) (needPair : Bool) (s : State) (go : Nat → MatCtx → Nat → Nat → GEff) : GEff :=
  match Tbl.get? s.groups m.g with
  | none => .done s
  | some g =>
    let w := Who.group m
    let ta := x.mod.getLsbD 5
    let hb := modBits x 7 2
    let f := bits g.mfmt.toNat 0 3
    let rows := if ta then List.range 32 else lanesOf m.act
    let pastD := match vd with
      | some d => deliverPast d rows
      | none => false
    let len (mc : MatCtx) : Nat := planeK mc.active.fmt / (if hb = 0 then 1 else 2)
    let pastA := match heldMat s (w.team s) with
      | some i =>
        let mc := (s.core w.core).mat i
        if ta then decide (8192 < 8 * len mc * elemBits f) && numOf x.a % 2 != 0
        else decide (1024 < numOf x.a + rowRegs f (len mc))
      | none => false
    if pastD || pastA then .fault Cause.undef
    else withMat w s fun i mc =>
      if needPair && g.pair.isNone then .fault (m.bounds rNOPAIR)
      else if ta && 1 < g.subs.length then .fault (m.bounds rNOTCONV)
      else if (pairP f mc.active.fmt).isNone then .fault (m.bounds rFMTPAIR)
      else if hb != 0 && !mc.active.split then .fault (m.bounds rHALF)
      else if ta && ([numOf x.a, numOf x.a + 1, numOf x.b].any fun t => tileBusy s w t false) then .wait s
      else go i mc f (len mc)

/-- The A registers that an instruction reads when it issues: none from a tile or from the reuse latch (R260). -/
def aRegs (m : Mem) (s : State) (x : Args) (n : Nat) : List Nat :=
  if x.mod.getLsbD 5 || (reusedRows m s (numOf x.a) n).isSome then [] else (List.range n).map fun i => numOf x.a + i

/-- Whether a register of a list awaits a result under way. -/
def regsPending (s : State) (g : Nat) (rs : List Nat) : Bool :=
  match Tbl.get? s.groups g with
  | none => false
  | some q => rs.any fun r => (q.reg r).pend.isSome

/-- A row put behind all that arrive no later. -/
def insertRow (q : List MatRow) (r : MatRow) : List MatRow :=
  q.takeWhile (fun a => decide (a.arrive ≤ r.arrive)) ++ r :: q.dropWhile fun a => decide (a.arrive ≤ r.arrive)

/-- The cycle in which the rows of an instruction arrive (R259): W cycles after issue from registers, the next cycle from the
reuse latch or a tile; those of one group in its program order (R261). -/
def arrival (m : Mem) (x : Args) (s : State) (mc : MatCtx) (f k n : Nat) : Nat :=
  let t := s.now + (if x.mod.getLsbD 5 || (reusedRows m s (numOf x.a) n).isSome then 1 else k * elemBits f / 32)
  (mc.queue.filter (·.issuer == m.g)).foldl (fun a r => max a r.arrive) t

/-- Rows on their way to a context's array, in the order of their arrival. -/
def enqueue (w : Who) (i : Nat) (rows : List MatRow) (s : State) : State :=
  s.updMat w.core i fun mc => { mc with queue := rows.foldl insertRow mc.queue }

/-- A matrix instruction that adds rows into an accumulator block. -/
def mmaAcc (m : Mem) (x : Args) (needPair : Bool) (s : State) : GEff :=
  if m.act = 0 then .done ((Who.group m).release s)
  else matChecks m x none needPair s fun i mc f k =>
    let n := rowRegs f k
    if regsPending s m.g (aRegs m s x n) then .wait s
    else match readRegsFree m (aRegs m s x n) s with
    | .done s' =>
      let g := Tbl.get? s.groups m.g
      let uncond := needPair && !(((g.bind (·.pair)).map (·.cond)).getD true)
      let block := if uncond then bits x.dst.toNat 3 2 else bits x.dst.toNat 0 2
      let joined := needPair && (((g.bind (·.pair)).map (·.joined)).getD false)
      let rh := bits x.dst.toNat 2 1
      let rows := (matRows m x s mc rh f k).map fun p =>
        ({ acc := block, row := 32 * rh + p.1, elems := p.2, afmt := f, half := modBits x 7 2, tile := x.mod.getLsbD 5
           pair := joined, deliver := none, issuer := m.g, arrive := arrival m x s mc f k n } : MatRow)
      .done (setReuse m x n s (enqueue (.group m) i rows s'))
    | e => e

/-- R270: `mma`. -/
def execMma (x : Args) (s : State) : Host.Outcome State Fault Refusal :=
  issueGroup x [] [] (fun m s => mmaAcc m x false s) s

/-- R271: `mma.g`. -/
def execMmaG (x : Args) (s : State) : Host.Outcome State Fault Refusal :=
  issueGroup x [] [] (fun m s => mmaAcc m x true s) s

/-- R270: `mma.v`. -/
def execMmaV (x : Args) (s : State) : Host.Outcome State Fault Refusal :=
  issueGroup x [] [] (fun m s =>
    if m.act = 0 then .done ((Who.group m).release s)
    else matChecks m x (some x.dst.toNat) false s fun i mc f k =>
      let n := rowRegs f k
      let rows := matRows m x s mc 0 f k
      let regs := rows.flatMap fun p => deliverRegs x.dst.toNat p.1
      match Tbl.get? s.groups m.g with
      | none => .done s
      | some g =>
        if regsPending s m.g (aRegs m s x n ++ regs) then .wait s
        else
          let blank := regs.map fun r => (r, lanePieces (List.replicate 32 0))
          match writeRegs m (aRegs m s x n) [] blank s with
          | .done s' =>
            let id := (((Tbl.get? s'.groups m.g).map (·.pending)).bind fun p => Tbl.freeKey p (p.length + 1)).getD 0
            let s' := s'.updGroup m.g fun q => q.await
              { regs := regs, lanes := BitVec.allOnes 32, merge := cBit x, wide := false, kreg := none, demand := false, long := false } false
            let ofmt := bits g.mfmt.toNat 4 3
            let rs := rows.map fun p =>
              ({ acc := 4, row := p.1, elems := p.2, afmt := f, half := modBits x 7 2, tile := x.mod.getLsbD 5
                 pair := false, deliver := some (m.g, id, x.dst.toNat + 4 * p.1, ofmt), issuer := m.g
                 arrive := arrival m x s mc f k n } : MatRow)
            .done (setReuse m x n s (enqueue (.group m) i rs s'))
          | e => e) s

/-! ### Passes -/

/-- Whether two rows may go through the plane in one pass (R258). -/
def MatRow.fuses (a b : MatRow) : Bool := a.afmt == b.afmt && a.half == b.half && a.tile == b.tile

/-- One row of a pass performed: added into its accumulator row, or delivered to its registers. -/
def performRow (core i : Nat) (s : State) (r : MatRow) : State :=
  let p := ((s.core core).mat i).active
  match r.deliver with
  | none => s.updMat core i fun mc => mc.setAcc r.acc r.row (addRow p r (mc.accRow r.acc r.row))
  | some (g, _, vd, ofmt) =>
    let row := (addRow p r (List.replicate 128 0)).map (toOfmt ofmt)
    s.updGroup g fun q => (deliverRuns vd 0 row).foldl (fun q p => q.putReg p.1 { q.reg p.1 with runs := p.2 }) q

/-- The pending results whose last row has been delivered land (R262). -/
def landRows (core i : Nat) (s : State) (rows : List MatRow) : State :=
  let open_ := ((s.core core).mat i).queue
  rows.foldl (fun s r =>
    match r.deliver with
    | none => s
    | some (g, id, _, _) =>
      if open_.any fun q => (q.deliver.map fun d => (d.1, d.2.1)) == some (g, id) then s
      else s.updGroup g fun q => q.land id) s

/-- Whether a context has a pass ready: its oldest row has arrived in an earlier cycle (R259). -/
def passReady (s : State) (mc : MatCtx) : Bool :=
  !mc.clearing && (mc.queue.head?.map fun r => decide (r.arrive < s.now)) == some true

/-- Whether it is the turn of the other context, which has a pass ready too (R258). -/
def otherPass (s : State) (core mctx : Nat) : Bool :=
  (s.core core).passTurn == mctx && passReady s ((s.core core).mat (1 - mctx))

/-- R258, R259: a pass of the oldest rows of a context starts, no earlier than the cycle after their arrival, and all of it leaves
the array; passes of both contexts start in turn. -/
def execMatrixPassStart (core mctx rows : Nat) (s : State) : Host.Outcome State Fault Refusal :=
  let mc := (s.core core).mat mctx
  let rs := mc.queue.take rows
  match rs with
  | [] => .next s
  | r :: _ =>
    if (rs.all fun q => q.fuses r && decide (q.arrive < s.now)) && (rs.length ≤ 32 || (rs.length ≤ 64 && rs.all (·.pair))) && !mc.clearing &&
        !otherPass s core mctx then
      let s := (s.updMat core mctx fun mc => { mc with queue := mc.queue.drop rows }).updCore core fun k => { k with passTurn := mctx }
      let s := rs.foldl (performRow core mctx) s
      .next (landRows core mctx s rs)
    else .next s

/-! ### mdrain, mzero and gdrain -/

/-- Whether rows wait to be added into a block. -/
def blockBusy (mc : MatCtx) (block : Nat) : Bool := mc.queue.any fun r => r.deliver.isNone && r.acc == block

/-- Rows of an accumulator block set to +0. -/
def zeroRows (block : Nat) (rows : List Nat) (mc : MatCtx) : MatCtx :=
  { mc with acc := rows.foldl (fun a r => Tbl.erase a (block * 64 + r)) mc.acc }

/-- Bytes of an element of OFMT. -/
def ofmtBytes (ofmt : Nat) : Nat :=
  match ofmt with
  | 0 => 4
  | 1 => 2
  | 2 => 2
  | _ => 1

/-- Bytes put at the start of an operand of one or two tiles. -/
def putTiles (t : Nat) (bs : List Byte) (mc : MatCtx) : MatCtx :=
  let mc := { mc with tiles := Tbl.set mc.tiles t (bs.take 8192 ++ (mc.tile t).drop bs.length) }
  if bs.length ≤ 8192 then mc
  else { mc with tiles := Tbl.set mc.tiles (t + 1) ((bs.drop 8192).take 8192 ++ (mc.tile (t + 1)).drop (bs.length - 8192)) }

/-- R272: `mdrain`. -/
def execMdrain (x : Args) (s : State) : Host.Outcome State Fault Refusal :=
  issueGroup x [] [] (fun m s =>
    match Tbl.get? s.groups m.g with
    | none => .done s
    | some g =>
      let w := Who.group m
      let td := x.mod.getLsbD 6
      let block := numOf x.a
      let rh := modBits x 4 1
      let ofmt := bits g.mfmt.toNat 4 3
      let d := x.dst.toNat
      let clear (i : Nat) (rows : List Nat) (s : State) : State :=
        if modBits x 5 1 = 1 then s.updMat w.core i (zeroRows block (rows.map (32 * rh + ·))) else s
      if m.act = 0 then .done (w.release s)
      else if (td && ofmt == 0 && d % 2 != 0) || (!td && deliverPast d (lanesOf m.act)) then .fault Cause.undef
      else withMat w s fun i mc =>
        let row (j : Nat) : List W32 := (mc.accRow block (32 * rh + j)).map (toOfmt ofmt)
        if blockBusy mc block then .wait s
        else if td then
          let tiles := if ofmt = 0 then [d, d + 1] else [d]
          if tiles.any fun t => tileBusy s w t true then .wait s
          else
            let bs := (List.range 32).flatMap fun j => (row j).flatMap fun v => toBytes v.toNat (ofmtBytes ofmt)
            .done (w.release (clear i (List.range 32) (s.updMat w.core i (putTiles d bs))))
        else
          let rows := lanesOf m.act
          let news := rows.flatMap fun j => deliverRuns d j (row j)
          if news.any fun p => (g.reg p.1).pend.isSome then .wait s
          else
            match deliverNow m (cBit x) news s with
            | .done s => .done (w.release (clear i rows s))
            | e => e) s

/-- R273: `mzero`. -/
def execMzero (x : Args) (s : State) : Host.Outcome State Fault Refusal :=
  issueAny x [] [] (fun w s =>
    withMat w s fun i mc =>
      let block := x.dst.toNat
      let rs := modBits x 4 2
      let rows := (List.range 64).filter fun r => rs == 0 || (rs == 1) == decide (r < 32)
      if mc.queue.any fun q => q.deliver.isNone && q.acc == block && rows.contains q.row then .wait s
      else .done ((w.release s).updMat w.core i (zeroRows block rows))) s

/-- A row of the guided extrapolation (R264). -/
def guideRow (k : W32) (c u : List W32) : List W32 := List.zipWith (fun a b => fFma k (fSub .rn a b) b) c u

/-- The fault or the delivery of one member. -/
def gdPart (m : Mem) (x : Args) (rows : Nat → List W32) (s : State) : GEff :=
  match Tbl.get? s.groups m.g with
  | none => .done s
  | some g =>
    let lv := bits x.dst.toNat 3 1 = 1
    let vd := numOf x.a
    if lv && deliverPast vd (lanesOf m.act) then .fault Cause.undef
    else if !collective m g then .fault (m.bounds rNOTCONV)
    else if lv then
      let ofmt := bits g.mfmt.toNat 4 3
      let news := (lanesOf m.act).flatMap fun j => deliverRuns vd j ((rows j).map (toOfmt ofmt))
      if news.any fun p => (g.reg p.1).pend.isSome then .wait s else deliverNow m false news s
    else .done s

/-- A member left waiting at a `gdrain` as at a `pjoin`. -/
def waitAtDrain (m : Mem) (kt : Nat) (s : State) : State :=
  s.updGroup m.g fun q => { q with
    wait := some { kind := .gdrain, pc := m.pc, next := m.next, start := s.now, bound := kt }
    pair := q.pair.map fun b => { b with joined := false } }

/-- kT of a `gdrain`. -/
def drainBound (m : Mem) (x : Args) (s : State) : Nat := (hi32 ((Who.group m).uni s x.c)).toNat

/-- Both members stand at one `gdrain`: the pair is JOINED, and no bound runs (R264). -/
def joinAtDrain (a b : Nat) (s : State) : State :=
  let join (g : Nat) (s : State) : State :=
    s.updGroup g fun q => { q with wait := none, pair := q.pair.map fun b => { b with joined := true } }
  join b (join a s)

/-- The drain performed once for both members, the conditional one first; s is the conditional member's (R264; log entry 49). -/
def gdrainBoth (x : Args) (c u : Mem) (s : State) : GEff :=
  match heldMat s ((Who.group c).team s) with
  | none =>
    let why (m : Mem) : Cause :=
      if bits x.dst.toNat 3 1 = 1 && deliverPast (numOf x.a) (lanesOf m.act) then Cause.undef else m.bounds rNOCTX
    .all (deliver u.g u.x (why u) (deliver c.g c.x (why c) (splitPair s c.g)))
  | some i =>
    let core := coreOfGroup c.g
    let mc := (s.core core).mat i
    let ac := bits (numOf x.b) 0 2
    let au := bits (numOf x.b) 2 2
    let rh := bits x.dst.toNat 2 1
    if blockBusy mc ac || blockBusy mc au then .wait s
    else
      let k := lo32 ((Who.group c).uni s x.c)
      let row (j : Nat) : List W32 := guideRow k (mc.accRow ac (32 * rh + j)) (mc.accRow au (32 * rh + j))
      match gdPart c x row s, gdPart u x row s with
      | .wait s', _ => .wait s'
      | _, .wait s' => .wait s'
      | .fault a, .fault b => .all (deliver u.g u.x b (deliver c.g c.x a (splitPair s c.g)))
      | .fault a, _ => .all (deliver c.g c.x a (waitAtDrain u (drainBound u x s) (splitPair s c.g)))
      | _, .fault b => .all (deliver u.g u.x b (waitAtDrain c (drainBound c x s) (splitPair s c.g)))
      | .done s1, .done _ =>
        (match gdPart u x row s1 with
          | .done s2 =>
            let s2 := s2.updMat core i fun mc => (List.range 32).foldl (fun mc j => mc.setAcc (bits x.dst.toNat 0 2) (32 * rh + j) (row j)) mc
            let go (m : Mem) (s : State) : State :=
              settle m.g m.x (advance m.g m.x m.next (s.updGroup m.g fun q => { q with reuse := none }))
            .all (recheckPair (go u (go c (joinAtDrain c.g u.g s2))) c.g)
          | e => e)
      | _, _ => .wait s

/-- R264, R271: `gdrain`. -/
def execGdrain (x : Args) (s : State) : Host.Outcome State Fault Refusal :=
  issueGroup x [] [] (fun m s =>
    match Tbl.get? s.groups m.g with
    | none => .done s
    | some g =>
      let w := Who.group m
      if bits x.dst.toNat 3 1 = 1 && deliverPast (numOf x.a) (lanesOf m.act) && g.pair.isNone then .fault Cause.undef
      else if (heldMat s (w.team s)).isNone && g.pair.isNone then .fault (m.bounds rNOCTX)
      else if (g.wait.map (·.kind)) == some .broken then .fault (Cause.pairTimeout false)
      else
        match g.pair with
        | none => .fault (m.bounds rNOPAIR)
        | some b =>
          let stop : Option Cause :=
            if bits x.dst.toNat 3 1 = 1 && deliverPast (numOf x.a) (lanesOf m.act) then some Cause.undef
            else if (heldMat s (w.team s)).isNone then some (m.bounds rNOCTX)
            else if !collective m g then some (m.bounds rNOTCONV)
            else none
          match partnerOf s g with
          | none => .fault (stop.getD (Cause.pairTimeout true))
          | some (p, q) =>
            let you : Mem := { g := p, x := q.issuable, act := q.issuable &&& q.predLanes x, pc := m.pc, next := m.next }
            let both : GEff :=
              if q.parked.isSome || q.debug || awaiting s q [x] [] [] then .wait s
              else if b.cond then gdrainBoth x m you s else gdrainBoth x you m s
            if b.joined then both
            else if stop.isSome || q.live = 0 then .fault (stop.getD (Cause.pairTimeout true))
            else
              let wt : Wait := (g.wait.filter fun w => w.kind == .gdrain && w.pc == m.pc).getD
                { kind := .gdrain, pc := m.pc, next := m.next, start := s.now, bound := drainBound m x s }
              let waiting := s.updGroup m.g fun q => { q with wait := some wt }
              if wt.over s.now then .fault (Cause.pairTimeout false)
              else
                match q.wait with
                | some v => if v.kind == .gdrain && v.pc == m.pc && !v.over s.now && q.trap.isNone then
                    (match both with
                      | .wait _ => .wait (joinAtDrain m.g p s)
                      | e => e)
                  else .wait waiting
                | none => .wait waiting) s

/-! ### mctx and mfmt -/

/-- The free contexts of a core. -/
def freeMats (k : Core) : List Nat := (List.range 2).filter fun i => (k.mat i).owner.isNone && !(k.mat i).clearing

/-- The free context a team may take, the lowest first: those who began to wait before it go first (R274; log entry 49). -/
def offered (k : Core) (t : Nat) : Option Nat :=
  let ahead := (k.mctxWait.takeWhile (· != t)).length
  (freeMats k)[ahead]?

/-- A context claimed by a team. -/
def claim (core t i : Nat) (s : State) : State :=
  let s := s.updCore core fun k =>
    { k with mats := updAt k.mats i (fun m => { m with owner := some t }), mctxWait := k.mctxWait.filter (· != t) }
  s.updTeam t fun tm => { tm with mctx := some i }

/-- R274: `mctx.acq`. -/
def execMctxAcq (x : Args) (s : State) : Host.Outcome State Fault Refusal :=
  issueAny x [] [x.dst.toNat] (fun w s =>
    let t := w.team s
    let s := w.release s
    match heldMat s t with
    | some i => .done (w.setNum x.dst.toNat (BitVec.ofNat 64 i) s)
    | none =>
      match offered (s.core w.core) t with
      | some i => .done (w.setNum x.dst.toNat (BitVec.ofNat 64 i) (claim w.core t i s))
      | none => .wait (s.updCore w.core fun k => if k.mctxWait.contains t then k else { k with mctxWait := k.mctxWait ++ [t] })) s

/-- R274: `mctx.try`. -/
def execMctxTry (x : Args) (s : State) : Host.Outcome State Fault Refusal :=
  issueAny x [] [x.dst.toNat] (fun w s =>
    let t := w.team s
    let s := w.release s
    match heldMat s t with
    | some i => .done (w.setNum x.dst.toNat (BitVec.ofNat 64 i) s)
    | none =>
      match offered (s.core w.core) t with
      | some i => .done (w.setNum x.dst.toNat (BitVec.ofNat 64 i) (claim w.core t i s))
      | none => .done (w.setNum x.dst.toNat (BitVec.allOnes 64) s)) s

/-- R274: `mctx.rel`. -/
def execMctxRel (x : Args) (s : State) : Host.Outcome State Fault Refusal :=
  issueAny x [] [x.dst.toNat] (fun w s =>
    let t := w.team s
    let s := w.release s
    match heldMat s t with
    | none => .done (w.setNum x.dst.toNat 0 s)
    | some i =>
      let k := s.core w.core
      let mc := k.mat i
      if mc.queue != [] || mc.load.isSome || k.demands.any fun d => d.2.team == t && d.2.kind ≤ 1 then .wait s
      else
        let s := s.updMat w.core i fun mc => { mc with owner := none, clearing := true }
        .done (w.setNum x.dst.toNat 0 (s.updTeam t fun tm => { tm with mctx := none }))) s

/-- R255: a freed context has been cleared and can be claimed again. -/
def execContextFree (core mctx : Nat) (s : State) : Host.Outcome State Fault Refusal :=
  .next (s.updMat core mctx fun mc => if mc.clearing then MatCtx.fresh else mc)

/-- R275: `mfmt`, a matrix instruction like the others (R255, R260). -/
def execMfmt (x : Args) (s : State) : Host.Outcome State Fault Refusal :=
  issueGroup x (onceRegs x.b) [] (fun m s =>
    if m.act = 0 then .done s
    else
      let w := Who.group m
      let v := (onceValue w s x.b).toNat
      let afmt := bits v 0 3
      let ofmt := bits v 4 3
      withMat w s fun _ _ =>
      if 4 ≤ afmt || 5 ≤ ofmt then .fault (m.bounds rFMT)
      else w.reading (onceRegs x.b) s fun s =>
        .done (s.updGroup m.g fun q =>
          { q with mfmt := BitVec.ofNat 64 (ofmt * 16 + afmt), reuse := if bits q.mfmt.toNat 0 3 = afmt then q.reuse else none })) s

/-! ### tmov -/

/-- Bytes of row r of a tile. -/
def tileLine (bs : List Byte) (r : Nat) : List Byte := (bs.drop (128 * r)).take 128

/-- R277: `tmov`. -/
def execTmov (x : Args) (s : State) : Host.Outcome State Fault Refusal :=
  let sel := modBits x 4 2
  let rh := modBits x 6 1
  let va := numOf x.a
  let d := x.dst.toNat
  let src := (List.range 32).map fun w => va + w
  let dst := (List.range 32).map fun w => d + w
  issueGroup x (if sel = 1 then src else if sel = 2 then dst else []) [] (fun m s =>
    let w := Who.group m
    if m.act = 0 then .done (w.release s)
    else withMat w s fun i mc =>
      match sel with
      | 0 =>
        if tileBusy s w va false || tileBusy s w d true then .wait s
        else .done ((w.release s).updMat w.core i fun mc => { mc with tiles := Tbl.set mc.tiles d (mc.tile va) })
      | 1 =>
        if tileBusy s w d true then .wait s
        else
          let line (r : Nat) : List Byte :=
            if 32 * rh ≤ r && r < 32 * rh + 32 && m.act.getLsbD (r - 32 * rh) then laneBytes m s va 32 (r - 32 * rh)
            else tileLine (mc.tile d) r
          (match readRegs m src s with
            | .done s => .done ((w.release s).updMat w.core i fun mc => { mc with tiles := Tbl.set mc.tiles d ((List.range 64).flatMap line) })
            | e => e)
      | _ =>
        if tileBusy s w va false then .wait s
        else
          match Tbl.get? s.groups m.g with
          | none => .done s
          | some g =>
            let bs := (mc.tile va).toArray
            let word (n l : Nat) : W64 := BitVec.ofNat 64 (ofBytes ((List.range 4).map fun b => bs.getD (128 * (32 * rh + l) + 4 * n + b) 0))
            let runs (n : Nat) : Runs :=
              spliceRuns m.act (runsOf s m.g g (d + n)) pieceLo (pieces m.act (fun _ => true) (cBit x) (word n))
            let news := (List.range 32).map fun n => (d + n, runs n)
            -- the test takes 32 cells for each register
            (match writeRegs m [] (if m.act = BitVec.allOnes 32 then [] else dst)
                (dst.map fun r => (r, lanePieces (List.replicate 32 0))) s with
              | .done s => .done (w.release (s.updGroup m.g fun q => news.foldl (fun q p => q.putReg p.1 { q.reg p.1 with runs := p.2 }) q))
              | e => e)) s

end Sys2Proof.Machine
end

