-- ==== Sys2Proof/Machine/Wick.lean ====
section
/-! DEFINITION. The scalar instructions of the Wick (R62 to R71, R75, R76): arithmetic, branches, scalar loads and
stores, the decision queue, clocks and identifiers. -/

namespace Sys2Proof.Machine

/-- A Wick operand: a literal is sign-extended, or zero-extended under U (R60). -/
def wickIn (t : Nat) (s : State) (x : Args) (src : Src) : W64 :=
  if uBit x then (Who.wick t).uniZ s src else (Who.wick t).uni s src

/-- sD written. -/
def setS (t n : Nat) (v : W64) (s : State) : State := s.updTeam t fun tm => { tm with sregs := Tbl.set tm.sregs n v }

/-- A Wick instruction that writes a function of its operands. -/
def issueScalar (x : Args) (f : W64 → W64 → W64) (s : State) : Host.Outcome State Fault Refusal :=
  issueWick x [x.dst.toNat] (fun t s => .done (setS t x.dst.toNat (f (wickIn t s x x.a) (wickIn t s x x.b)) s)) s

/-- The high 64 bits of a product (R62). -/
def mulHigh64 (unsigned : Bool) (a b : W64) : W64 :=
  if unsigned then BitVec.ofNat 64 (a.toNat * b.toNat / 2 ^ 64) else BitVec.ofInt 64 (a.toInt * b.toInt / 2 ^ 64)

/-- `sdiv` (R63). -/
def wickDiv (unsigned : Bool) (a b : W64) : W64 :=
  if b = 0 then BitVec.allOnes 64
  else if unsigned then BitVec.ofNat 64 (a.toNat / b.toNat) else BitVec.ofInt 64 (Int.tdiv a.toInt b.toInt)

/-- `srem` (R63). -/
def wickRem (unsigned : Bool) (a b : W64) : W64 :=
  if b = 0 then a
  else if unsigned then BitVec.ofNat 64 (a.toNat % b.toNat) else BitVec.ofInt 64 (Int.tmod a.toInt b.toInt)

/-- R62: `sadd`. -/
def execSadd (x : Args) (s : State) : Host.Outcome State Fault Refusal := issueScalar x (fun a b => a + b) s
/-- R62: `ssub`. -/
def execSsub (x : Args) (s : State) : Host.Outcome State Fault Refusal := issueScalar x (fun a b => a - b) s
/-- R62: `smul`. -/
def execSmul (x : Args) (s : State) : Host.Outcome State Fault Refusal := issueScalar x (fun a b => a * b) s
/-- R62: `smulh`. -/
def execSmulh (x : Args) (s : State) : Host.Outcome State Fault Refusal := issueScalar x (mulHigh64 (uBit x)) s
/-- R63: `sdiv`. -/
def execSdiv (x : Args) (s : State) : Host.Outcome State Fault Refusal := issueScalar x (wickDiv (uBit x)) s
/-- R63: `srem`. -/
def execSrem (x : Args) (s : State) : Host.Outcome State Fault Refusal := issueScalar x (wickRem (uBit x)) s
/-- R62: `sand`. -/
def execSand (x : Args) (s : State) : Host.Outcome State Fault Refusal := issueScalar x (fun a b => a &&& b) s
/-- R62: `sor`. -/
def execSor (x : Args) (s : State) : Host.Outcome State Fault Refusal := issueScalar x (fun a b => a ||| b) s
/-- R62: `sxor`. -/
def execSxor (x : Args) (s : State) : Host.Outcome State Fault Refusal := issueScalar x (fun a b => a ^^^ b) s
/-- R62: `sshl`. -/
def execSshl (x : Args) (s : State) : Host.Outcome State Fault Refusal := issueScalar x (fun a b => a <<< (b.toNat % 64)) s
/-- R62: `sshr`. -/
def execSshr (x : Args) (s : State) : Host.Outcome State Fault Refusal := issueScalar x (fun a b => a >>> (b.toNat % 64)) s
/-- R62: `ssra`. -/
def execSsra (x : Args) (s : State) : Host.Outcome State Fault Refusal :=
  issueScalar x (fun a b => a.sshiftRight (b.toNat % 64)) s
/-- R62: `smin`. -/
def execSmin (x : Args) (s : State) : Host.Outcome State Fault Refusal :=
  issueScalar x (fun a b => if intCond 2 (uBit x) b a then b else a) s
/-- R62: `smax`. -/
def execSmax (x : Args) (s : State) : Host.Outcome State Fault Refusal :=
  issueScalar x (fun a b => if intCond 2 (uBit x) a b then b else a) s
/-- R64: `scmp`. -/
def execScmp (x : Args) (s : State) : Host.Outcome State Fault Refusal :=
  issueScalar x (fun a b => if intCond (modBits x 4 3) (uBit x) a b then 1 else 0) s
/-- R65: `ssel`; srcC is a register, so there is no MOD. -/
def execSsel (x : Args) (s : State) : Host.Outcome State Fault Refusal :=
  issueWick x [x.dst.toNat] (fun t s =>
    let w := Who.wick t
    .done (setS t x.dst.toNat (if w.uni s x.c != 0 then w.uni s x.a else w.uni s x.b) s)) s
/-- R65: `smov`. -/
def execSmov (x : Args) (s : State) : Host.Outcome State Fault Refusal := issueScalar x (fun a _ => a) s
/-- R65: `sli`. -/
def execSli (x : Args) (s : State) : Host.Outcome State Fault Refusal :=
  issueWick x [x.dst.toNat] (fun t s =>
    let v := wickIn t s x x.b
    .done (setS t x.dst.toNat
      (if modBits x 4 1 = 1 then join64 (lo32 v) (lo32 (s.sreg t x.dst.toNat)) else v) s)) s

/-! ### Branches (R66) -/

/-- The Wick goes to an address; ALIGN where it is no multiple of 4. -/
def wickGoto (t : Nat) (target : W32) (s : State) : GEff :=
  if target.toNat % 4 != 0 then .fault { Cause.align 0 target.toNat 3 with lane := 255 }
  else .jump (s.updTeam t fun tm => { tm with wpc := target.toNat })

/-- The target of a relative branch. -/
def wickTarget (t : Nat) (s : State) (x : Args) : W32 :=
  BitVec.ofNat 32 s.cur.pc + (lo32 ((Who.wick t).uni s x.b)) <<< 2

/-- R66: `sbr`. -/
def execSbr (x : Args) (s : State) : Host.Outcome State Fault Refusal :=
  issueWick x [] (fun t s =>
    let taken := ((Who.wick t).uni s x.a != 0) != (modBits x 4 1 == 1)
    if taken then wickGoto t (wickTarget t s x) s else .done s) s
/-- R66: `sjmp`. -/
def execSjmp (x : Args) (s : State) : Host.Outcome State Fault Refusal :=
  issueWick x [] (fun t s => wickGoto t (wickTarget t s x) s) s
/-- R66: `scall`; the target is formed before the link is written. -/
def execScall (x : Args) (s : State) : Host.Outcome State Fault Refusal :=
  issueWick x [x.dst.toNat] (fun t s =>
    wickGoto t (wickTarget t s x) (setS t x.dst.toNat (BitVec.ofNat 64 (s.cur.pc + 4 * s.cur.len)) s)) s
/-- R66: `sret`. -/
def execSret (x : Args) (s : State) : Host.Outcome State Fault Refusal :=
  issueWick x [] (fun t s =>
    let a := (Who.wick t).uni s x.a
    if a.toNat % 4 != 0 then .fault { Cause.align 0 a.toNat 3 with lane := 255 }
    else if hi32 a != 0 then .fault { Cause.boundsAddr 0 a.toNat 3 with lane := 255 }
    else wickGoto t (lo32 a) s) s

/-! ### Scalar memory access (R67, R68) -/

/-- WIDTH in bytes. -/
def wickBytes (x : Args) : Nat :=
  match modBits x 5 2 with
  | 0 => 8
  | 1 => 4
  | 2 => 2
  | _ => 1

/-- A checked Wick access: ALIGN, BOUNDS, then the range-lock check, a hit on which waits (R67, R68, R202). -/
def wickAccess (t : Nat) (space n align : Nat) (store : Bool) (addr : W64) (s : State) (k : Area → Nat → GEff) : GEff :=
  let a := areaOf s (.wick t)
  let x := (lo32 addr).toNat
  let wick (c : Cause) : GEff := .fault { c with lane := 255 }
  if addr.toNat % align != 0 then wick (Cause.align 0 x space)
  else if (space == 1 && hi32 addr != 0) || !a.ok space x n then wick (Cause.boundsAddr 0 x space)
  else if (a.lockHit s space x n store).isSome then .wait s
  else if !wordsReady s a space n [(0, [x])] then notReady (.wick t) space [(0, [x])] s
  else k a x

/-- R67: `sld`. -/
def execSld (x : Args) (s : State) : Host.Outcome State Fault Refusal :=
  issueWick x [x.dst.toNat] (fun t s =>
    let w := Who.wick t
    wickAccess t (modBits x 4 1) (wickBytes x) (wickBytes x) false (w.uni s x.a + wickIn t s x x.b) s fun a addr =>
      .done (setS t x.dst.toNat (extendBytes (wickBytes x) (uBit x) (a.load s (modBits x 4 1) addr (wickBytes x))) s)) s

/-- R67: `sst`. -/
def execSst (x : Args) (s : State) : Host.Outcome State Fault Refusal :=
  issueWick x [x.dst.toNat] (fun t s =>
    let w := Who.wick t
    wickAccess t (modBits x 4 1) (wickBytes x) (wickBytes x) true (w.uni s x.a + w.uni s x.b) s fun a addr =>
      .done (a.store (modBits x 4 1) addr (wickBytes x) ((s.sreg t x.dst.toNat).toNat % 2 ^ (8 * wickBytes x)) s)) s

/-! ### The decision queue and the end of the Wick program -/

/-- R69: `dqpush`; an entry no group is left to pop is freed at once. -/
def execDqpush (x : Args) (s : State) : Host.Outcome State Fault Refusal :=
  issueWick x [] (fun t s =>
    match Tbl.get? s.teams t with
    | none => .done s
    | some tm =>
      if 32 ≤ tm.dq.length then .wait s
      else
        let v := (Who.wick t).uni s x.a
        let s := s.updTeam t fun tm => { tm with dq := tm.dq ++ [v] }
        .done (freeDq s t)) s

/-- R70: `wend`. -/
def execWend (s : State) : Host.Outcome State Fault Refusal :=
  issueWick Args.bare [] (fun t s => .done (s.updTeam t fun tm => { tm with wst := .ended, dqClosed := true })) s

/-- The `dqpop` that stands at a PC of some code. -/
def dqpopAt (code : List Byte) (pc : Nat) : Option Args :=
  match decode .group false (code.drop pc) with
  | .ok (.one (.instr i), _) => (match i with
    | .dqpop x => some x
    | _ => none)
  | _ => none

/-- Whether a candidate is held at its `dqpop` (R106). -/
def heldAtDqpop (code : List Byte) (g : Group) (c : SubG) : Bool :=
  let x := g.issueSet c
  match lowest x with
  | none => false
  | some l =>
    match dqpopAt code (g.lane l).pc.toNat with
    | some a => x &&& g.predLanes a != 0
    | none => false

/-- Whether a group has exited or waits in `dqpop` at the tail of its team's queue (R71). -/
def waitsInDqpop (s : State) (tm : Team) (g : Group) : Bool :=
  let code := ((s.gridOf tm).map fun n => n.codeAt s.now).getD []
  g.live == 0 ||
    (g.dqPtr == tm.dqBase + tm.dq.length &&
      ((lanesOf g.live).all fun l => (g.lane l).st == .run && (dqpopAt code (g.lane l).pc.toNat).isSome) &&
      g.subs.all fun c => heldAtDqpop code g c)

/-- R71: `tbar`. -/
def execTbar (s : State) : Host.Outcome State Fault Refusal :=
  issueWick Args.bare [] (fun t s =>
    match Tbl.get? s.teams t with
    | none => .done s
    | some tm => if (s.groupsOf t).all fun p => waitsInDqpop s tm p.2 && !s.asksPath p.1 then .done s else .wait s) s

/-! ### Clocks and identifiers -/

/-- R75: `sclk`. -/
def execSclk (x : Args) (s : State) : Host.Outcome State Fault Refusal :=
  issueWick x [x.dst.toNat] (fun t s =>
    let v := if modBits x 4 1 = 1 then s.ts else s.now - (s.core (coreOfTeam t)).clkBase
    .done (setS t x.dst.toNat (BitVec.ofNat 64 v) s)) s

/-- The identifier SEL names (R76). -/
def teamIdent (s : State) (t : Nat) (sel : Nat) : Nat :=
  match Tbl.get? s.teams t with
  | none => 0
  | some tm =>
    match s.gridOf tm with
    | none => 0
    | some g =>
      let l := tm.lin
      let r := g.launch
      match sel with
      | 0 => l % r.gx
      | 1 => l / r.gx % r.gy
      | 2 => l / (r.gx * r.gy)
      | 3 => l
      | 4 => r.gx
      | 5 => r.gy
      | 6 => r.gz
      | 7 => r.gx * r.gy * r.gz
      | 8 => g.depth
      | 9 => tm.grid
      | 10 => l % g.header.cluster
      | 11 => g.header.cluster
      | 12 => dieOfCore (coreOfTeam t)
      | 13 => coreOfTeam t % Config.coresPerDie
      | 14 => t % 8
      | _ => g.header.groups

/-- R76: `sgrid`. -/
def execSgrid (x : Args) (s : State) : Host.Outcome State Fault Refusal :=
  issueWick x [x.dst.toNat] (fun t s => .done (setS t x.dst.toNat (BitVec.ofNat 64 (teamIdent s t (modBits x 4 5))) s)) s

end Sys2Proof.Machine
end

