-- ==== Sys2Proof/Machine/Handles.lean ====
section
/-! DEFINITION. Handles and array formats (R278 to R301), the loads of handles, and tiles moved on chip or through a
handle (R276, R296, R297). -/

namespace Sys2Proof.Machine

/-! ### The image (R278 to R280) -/

/-- A handle register as an operation takes it. -/
structure Handle where
  num : Nat
  img : BitVec 512
  deriving DecidableEq, Repr

namespace Handle
/-- A field of the image. -/
def field (h : Handle) (lo n : Nat) : Nat := bits h.img.toNat lo n
/-- TYPE: 0 DENSE, 1 HASHX, 2 HASHK, 3 TABLE, 4 OCT, 5 DCT, 6 LIST. -/
def typ (h : Handle) : Nat := h.field 64 3
/-- FMT. -/
def fmt (h : Handle) : Nat := h.field 67 3
/-- CH. -/
def ch (h : Handle) : Nat := h.field 70 2 + 1
/-- DIM. -/
def dim (h : Handle) : Nat := h.field 72 2 + 1
/-- HOME. -/
def home (h : Handle) : Nat := h.field 74 2
/-- FIXED. -/
def fixed (h : Handle) : Bool := h.field 76 1 == 1
/-- FIXE. -/
def fixE (h : Handle) : Int := (BitVec.ofNat 7 (h.field 78 7)).toInt
/-- The edge mode of a dimension. -/
def edge (h : Handle) (d : Nat) : Nat := h.field (88 + 3 * d) 3
/-- LOGT. -/
def logT (h : Handle) : Nat := h.field 100 5
/-- PROBE. -/
def probe (h : Handle) : Nat := h.field 105 7
/-- DEPTH. -/
def depth (h : Handle) : Nat := h.field 112 5
/-- BASE. -/
def base (h : Handle) : Nat := h.field 0 64
/-- SIZE of a dimension. -/
def size (h : Handle) (d : Nat) : Nat := h.field (128 + 24 * d) 24
/-- ORIGIN of a dimension. -/
def origin (h : Handle) (d : Nat) : W32 := BitVec.ofNat 32 (h.field (224 + 32 * d) 32)
/-- INVSP of a dimension. -/
def inv (h : Handle) (d : Nat) : W32 := BitVec.ofNat 32 (h.field (352 + 32 * d) 32)
/-- CURSOR. -/
def cursor (h : Handle) : Nat := h.field 224 32
/-- T. -/
def slots (h : Handle) : Nat := 2 ^ h.logT
/-- NCAP. -/
def ncap (h : Handle) : Nat := h.size 3
/-- LCAP. -/
def lcap (h : Handle) : Nat := h.field 320 32

/-- The size of an element (R283). -/
def elem (h : Handle) : Nat :=
  if h.fixed then 8
  else match h.fmt with
    | 0 => 4
    | 1 => 2
    | 2 => 2
    | _ => 1

/-- The bytes of all channels of an element. -/
def cell (h : Handle) : Nat := h.ch * h.elem

/-- The product of the SIZE fields of the dimensions. -/
def count (h : Handle) : Nat := (List.range h.dim).foldl (fun n d => n * h.size d) 1

/-- The extent (R285). -/
def extent (h : Handle) : Nat :=
  match h.typ with
  | 1 => h.slots * h.cell
  | 2 => 8 * h.slots + h.slots * h.cell
  | 4 => 64 + 64 * h.ncap + h.lcap * h.cell
  | 5 => 64
  | _ => h.count * h.cell

/-! ### The check of R281 -/

/-- What R280 gives a type: dimensions from and to, FIXED, EDGE, LOGT, PROBE, DEPTH, and whether ORIGIN and INVSP
of its dimensions are given. -/
structure Shape where
  lo : Nat
  hi : Nat
  fixed : Bool
  edge : Bool := true
  logT : Bool := false
  probe : Bool := false
  depth : Bool := false
  coords : Bool := true
  deriving DecidableEq, Repr

/-- The row of R280 of a type. -/
def shape (t : Nat) : Option Shape :=
  match t with
  | 0 => some { lo := 1, hi := 4, fixed := true }
  | 1 => some { lo := 1, hi := 3, fixed := true, logT := true }
  | 2 => some { lo := 1, hi := 3, fixed := true, logT := true, probe := true }
  | 3 => some { lo := 1, hi := 1, fixed := true }
  | 4 => some { lo := 3, hi := 3, fixed := true, depth := true }
  | 5 => some { lo := 2, hi := 2, fixed := false, edge := false, coords := false }
  | 6 => some { lo := 1, hi := 1, fixed := false, edge := false, coords := false }
  | _ => none

/-- A field of a type: within its range where the type has it, else zero. -/
def given (has : Bool) (v lo hi : Nat) : Bool := if has then decide (lo ≤ v) && decide (v ≤ hi) else v == 0

/-- Whether a word is a finite FP32. -/
def finite (w : W32) : Bool := bits w.toNat 23 8 != 255

/-- The SIZE fields of a type (R280). -/
def sizesOk (h : Handle) : Bool :=
  if h.typ = 4 then
    ((List.range 3).all fun d => h.size d == 2 ^ h.depth) && decide (2 ≤ h.ncap) && decide (2 ≤ h.lcap)
  else (List.range 4).all fun d =>
    if d < h.dim then decide (1 ≤ h.size d) && (h.typ != 2 || decide (h.size d ≤ 2 ^ 20)) else h.size d == 0

/-- The ORIGIN and INVSP fields of a type (R280). -/
def coordsOk (h : Handle) (p : Shape) : Bool :=
  (List.range 4).all fun d =>
    if p.coords && decide (d < h.dim) then finite (h.origin d) && finite (h.inv d) && bits (h.inv d).toNat 0 31 != 0
    else h.inv d == 0 &&
      (h.origin d == 0 || (d == 3 && (h.typ == 1 || h.typ == 2 || h.typ == 4)) || (d == 0 && h.typ == 5))

/-- R281, but for the place of the array. -/
def fieldsOk (h : Handle) : Bool :=
  match shape h.typ with
  | none => false
  | some p =>
    h.field 488 24 == 0 && h.field 485 2 == 0 && h.field 481 1 == 0 &&
    h.field 117 11 == 0 && h.field 85 3 == 0 && h.field 77 1 == 0 &&
    decide (h.fmt ≤ 4) && h.home != 3 &&
    decide (p.lo ≤ h.dim) && decide (h.dim ≤ p.hi) && (h.typ != 5 || h.ch == 1) &&
    (!h.fixed || (p.fixed && h.fmt == 0)) && (h.fixed || h.field 78 7 == 0) &&
    ((List.range 4).all fun d => given (p.edge && (h.typ == 1 || h.typ == 2 || h.typ == 4 || decide (d < h.dim))) (h.edge d) 0 4) &&
    given p.logT h.logT 1 28 && given p.probe h.probe 1 64 && given p.depth h.depth 1 21 &&
    h.sizesOk && h.coordsOk p && h.base % 64 == 0

/-- R281: whether a handle may be used, with the place of an array on chip. -/
def ok (h : Handle) (a : Area) : Bool :=
  h.fieldsOk && (h.home == 2 || (decide (h.base < 2 ^ 32) && a.ok h.home h.base h.extent))

/-- FMT as a format. -/
def format (h : Handle) : Fmt := fmtOf h.fmt

/-- The value of an element as FP32 (R308). -/
def value (h : Handle) (bs : List Byte) : W32 :=
  if h.fixed then
    let n := (BitVec.ofNat 64 (ofBytes bs)).toInt
    BitVec.ofNat 32 (Fmt.f32.roundS .rn (decide (n < 0)) n.natAbs h.fixE false)
  else BitVec.ofNat 32 (Fmt.f32.encode .rn (h.format.decode (ofBytes bs)))

/-- The linear index of an element (R284). -/
def linear (h : Handle) (is : List Nat) : Nat :=
  (is.getD 0 0) + h.size 0 * (is.getD 1 0 + h.size 1 * (is.getD 2 0 + h.size 2 * is.getD 3 0))

/-- The start slot of some indices (R286). -/
def hash (h : Handle) (is : List Nat) : Nat :=
  let w (i : Nat) : W32 := BitVec.ofNat 32 (is.getD i 0)
  ((w 0 * 0x9E3779B1) ^^^ (w 1 * 0x7FEB352D) ^^^ (w 2 * 0x846CA68B) ^^^ h.origin 3).toNat % h.slots

/-- The key of some indices (R288). -/
def key (is : List Nat) : Nat :=
  let p (i : Nat) : Nat := (is.getD i 0 + 2 ^ 20) % 2 ^ 21
  2 ^ 63 + p 0 * 2 ^ 42 + p 1 * 2 ^ 21 + p 2

/-! ### Accesses of the array -/

/-- The mirror of a TABLE handle (R293). -/
def mirror (h : Handle) (s : State) (t : Nat) : Option (Nat × List Byte) :=
  if h.field 487 1 = 1 then (Tbl.get? s.teams t).bind fun tm => Tbl.get? tm.mirrors h.num else none

/-- An access beyond the last offset of a buffer: it fails at the port. -/
def past (h : Handle) (off n : Nat) : Bool := h.home == 2 && decide (2 ^ 48 < h.base % 2 ^ 48 + off + n)

/-- The failure of such an access. -/
def pastFault (h : Handle) (n : Nat) (kind : AKind) : PFault := ({ code := 0x0203 } : PFault).at h.base n kind

/-- Reads n bytes at an offset from BASE. -/
def read (h : Handle) (e : Eng) (tag off n : Nat) (s : State) (kind : AKind := .read) : PRes (List Byte) :=
  match h.mirror s e.team with
  | some m => .ok ((m.2.drop off).take n) s
  | none => if h.past off n then .fail (h.pastFault n kind) s else e.read h.home tag (h.base + off) n s kind

/-- Writes bytes at an offset from BASE. -/
def write (h : Handle) (e : Eng) (tag off : Nat) (bs : List Byte) (s : State) : PRes Unit :=
  if h.past off bs.length then .fail (h.pastFault bs.length .write) s else e.write h.home tag (h.base + off) bs s

/-- A read-modify-write at an offset from BASE, at the home: the old value. -/
def rmwHome (h : Handle) (e : Eng) (tag off n code x y : Nat) (s : State) : PRes Nat :=
  if h.past off n then .fail (h.pastFault n .atomic) s else e.rmw h.home tag (h.base + off) n code x y s

/-- The same of a splat or an insert, whose own contribution the mirror receives too; of other parties' writes the mirror learns
at the next `hld` only (R293). -/
def rmw (h : Handle) (e : Eng) (tag off n code x y : Nat) (s : State) : PRes Nat :=
  (h.rmwHome e tag off n code x y s).bind fun old s =>
    match h.mirror s e.team with
    | none => .ok old s
    | some m =>
      let new := toBytes (atomOp code false n (ofBytes ((m.2.drop off).take n)) x y) n
      .ok old (s.updTeam e.team fun tm =>
        { tm with mirrors := Tbl.set tm.mirrors h.num (m.1, m.2.take off ++ new ++ m.2.drop (off + n)) })
end Handle

/-- The handle register an operation takes (R295). -/
def takeHandle (s : State) (t n : Nat) : Handle := { num := n, img := s.handle t n }

/-! ### hst and hinfo -/

/-- The address A + b of an access that acts once, of n bytes and aligned to them: checked as a group access (R202) or a
Wick access (R67, R68), and in main memory for alignment alone. -/
def onceAddr (w : Who) (x : Args) (space n align : Nat) (store : Bool) (s : State) (k : Nat → GEff) : GEff :=
  if space = 2 then
    let a := (w.uni s x.a + wholeValue w s x.b).toNat
    if a % align != 0 then .fault (match w with
      | .group _ => Cause.alignMM w.lane a
      | .wick _ => { Cause.alignMM 0 a with lane := 255 })
    else k a
  else
    match w with
    | .wick t => wickAccess t space n align store (w.uni s x.a + w.uni s x.b) s fun _ a => k a
    | .group m =>
      let ar := areaOf s w
      let addr := laneAddrs m s x w.lane
      if addr % align != 0 then .fault (Cause.align w.lane addr space)
      else if !ar.ok space addr n then .fault (Cause.boundsAddr w.lane addr space)
      else
        match ar.lockHit s space addr n store with
        | some e => .fault (Cause.rangeLock w.lane e addr space)
        | none => if homeUp s space addr then k addr else notReady w space [(w.lane, [addr])] s

/-- The registers of an address A + b. -/
def onceAddrRegs (x : Args) (space : Nat) : List Nat :=
  if space = 2 then srcRegs false x.a ++ srcRegs true x.b else addrRegs x

/-- Whether a core's demand path holds requests, behind which any other operation on a handle arrives (R295). -/
def pathBusy (s : State) (core : Nat) : Bool := !(s.core core).path.isEmpty

/-- The reserved bits of an image, which `hst` and `hinfo` read as zero; the register keeps what was loaded, for the check of R281
(R2, R278, R279, R294). -/
def reservedBits : BitVec 512 :=
  0xFFFFFF#512 <<< 488 ||| 0x62#512 <<< 480 ||| 0x7FF#512 <<< 117 ||| 7#512 <<< 85 ||| 1#512 <<< 77

/-- R300: `hst`. -/
def execHst (x : Args) (s : State) : Host.Outcome State Fault Refusal :=
  let space := modBits x 4 2
  issueAny x (onceAddrRegs x space) [] (fun w s =>
    onceAddr w x space 64 64 true s fun addr =>
      w.reading (onceAddrRegs x space) s fun s' =>
        let bs := toBytes (s'.handle (w.team s') x.dst.toNat &&& ~~~reservedBits).toNat 64
        if pathBusy s w.core then .wait s
        else demandOk w s ((w.eng s').write space 0 addr bs s') fun _ s =>
          .done (w.resetBack (if space = 2 then w.countDemand s else s))) s

/-- The W1C bits of STATUS. -/
def stickyBits : BitVec 512 := 0x1D#512 <<< 480

/-- R301: `hinfo`. -/
def execHinfo (x : Args) (s : State) : Host.Outcome State Fault Refusal :=
  issueAny x [] [x.dst.toNat] (fun w s =>
    if pathBusy s w.core then .wait s else
    let t := w.team s
    let n := numOf x.a
    let h := s.handle t n
    let s := if modBits x 7 1 = 1 then s.setHandle t n (h &&& ~~~stickyBits) else s
    .done (w.setNum x.dst.toNat (BitVec.ofNat 64 (bits (h &&& ~~~reservedBits).toNat (64 * modBits x 4 3) 64)) s)) s

/-! ### hld and the function-table memory (R74, R293) -/

/-- The stretches of function-table memory of a core that mirrors hold: first unit, and the unit after the last. -/
def mirrorUse (s : State) (core : Nat) : List (Nat × Nat) :=
  (Tbl.keep s.teams fun t _ => coreOfTeam t == core).flatMap fun p =>
    p.2.mirrors.map fun m => (m.2.1, m.2.1 + (m.2.2.length + 255) / 256)

/-- The first place where n units are free. -/
def mirrorRoom (s : State) (core n : Nat) : Option Nat :=
  (List.range 256).find? fun u => decide (u + n ≤ 256) && (mirrorUse s core).all fun p => decide (u + n ≤ p.1) || decide (p.2 ≤ u)

/-- The bytes of a table, read in blocks of 256. -/
def readTable (h : Handle) (e : Eng) (n : Nat) : Nat → Nat → State → PRes (List Byte)
  | 0, _, s => .ok [] s
  | fuel + 1, i, s =>
    if n ≤ 256 * i then .ok [] s
    else (h.read e (1 + i) (256 * i) (min 256 (n - 256 * i)) s).bind fun bs s =>
      (readTable h e n fuel (i + 1) s).bind fun r s => .ok (bs ++ r) s

/-- The failures that leave a table without a mirror and let `hld` go on (R293): refusals at the port, poison and
uncorrectable granules, here or at a remote port, which then gives the sequence of its record (R453). -/
def mirrorGivesUp (f : PFault) : Bool :=
  (decide (0x0202 ≤ f.code) && decide (f.code ≤ 0x0206)) || (f.code == 0x0402 && f.detail != 0)

/-- A handle register loaded with an image (R74, R282, R293). -/
def loadHandle (t n : Nat) (img : BitVec 512) (old s : State) : GEff :=
  let w := Who.wick t
  let h : Handle := { num := n, img := img &&& ~~~(1#512 <<< 487) }
  let s := (s.setHandle t n h.img).updTeam t fun tm => { tm with mirrors := Tbl.erase tm.mirrors n }
  if h.typ != 3 || decide (65536 < h.extent) || !h.ok (areaOf s w) then .done s
  else
    match mirrorRoom s w.core ((h.extent + 255) / 256) with
    | none => .done s
    | some u =>
      match readTable h (w.eng s) h.extent 256 0 s with
      | .ok bs s => .done ((s.updTeam t fun tm => { tm with mirrors := Tbl.set tm.mirrors n (u, bs) }).setStatus t n 7)
      | .wait s' => .wait (rollback old s')
      | .fail f s' =>
        let base := { w.record s f.code 2 2 3 with engine := coreEngine w.core 2 0 }
        if mirrorGivesUp f then .done (logRecord (keepErrors s s') (f.record base) true).1
        else .wait (portFailAs w base f (rollback old s'))

/-- R74: `hld`. -/
def execHld (x : Args) (s : State) : Host.Outcome State Fault Refusal :=
  let space := modBits x 4 2
  issueWick x [] (fun t s =>
    let w := Who.wick t
    onceAddr w x space 64 64 false s fun addr =>
      if pathBusy s w.core then .wait s
      else demandOk w s ((w.eng s).read space 0 addr 64 s) fun bs s' =>
        loadHandle t x.dst.toNat (BitVec.ofNat 512 (ofBytes bs)) s (if space = 2 then w.countDemand s' else s')) s

/-! ### Lantern entries of the range-lock table (R331) -/

/-- The free Lantern entries of a core. -/
def freeEntries (k : Core) : List Nat := ((List.range 32).map (64 + ·)).filter fun e => (Tbl.get? k.locks e).isNone

/-- Entries taken by a party that needs some: it goes on with them, or waits behind those that began to wait before
it; none are needed where no range is locked (R331). -/
def takeEntries (w : Who) (need : Nat) (s : State) (k : List Nat → State → GEff) : GEff :=
  let c := s.core w.core
  let free := freeEntries c
  let mine (p : Party × Mask) : Bool := p.1 == w.party && (p.1.1 != 0 || p.2 &&& w.lanes != 0)
  let first := match c.entryWait.head? with
    | none => true
    | some p => mine p
  if need = 0 then k [] s
  else if first && decide (need ≤ free.length) then k (free.take need) (s.leaveEntryWait w.core w.party w.lanes)
  else .wait (s.updCore w.core fun c =>
    if c.entryWait.any mine then c else { c with entryWait := c.entryWait ++ [(w.party, w.lanes)] })

/-- An interval of an array's home. -/
def homeIv (e : Eng) (home addr n : Nat) (write : Bool) : LockIv :=
  { space := home, unit := e.unit home addr, lo := homeOff home addr, hi := homeOff home addr + n, write := write }

/-- A demand operation registered with the entry that locks its ranges until it completes. -/
def startDemand (core entry : Nat) (ivs : List LockIv) (d : DemandOp) (s : State) : State :=
  s.updCore core fun k =>
    { k with locks := Tbl.set k.locks entry { ivs := ivs.filter (fun i => i.lo < i.hi), owner := entry }
             demands := Tbl.set k.demands entry d }

/-! ### Dense tiles (R276) -/

/-- The part of a DENSE array that a tile covers: columns and rows, from and to. -/
structure TileWin where
  c0 : Int
  r0 : Int
  cLo : Nat
  cHi : Nat
  deriving DecidableEq, Repr

/-- The window of a tile whose first element is given by b. -/
def Handle.window (h : Handle) (b : W64) : TileWin :=
  let c0 := (lo32 b).toInt
  { c0 := c0, r0 := (hi32 b).toInt, cLo := (max c0 0).toNat, cHi := (min (h.size 0 : Int) (c0 + 128 / h.elem)).toNat }

/-- The row of the array that a tile row covers, where there is one. -/
def Handle.winRow (h : Handle) (v : TileWin) (r : Nat) : Option Nat :=
  let i := v.r0 + r
  if 0 ≤ i && i < h.size 1 && decide (v.cLo < v.cHi) then some i.toNat else none

/-- The interval from the first to the last byte that a tile covers. -/
def Handle.winIv (h : Handle) (e : Eng) (v : TileWin) (write : Bool) : List LockIv :=
  let rows := (List.range 64).filterMap (h.winRow v)
  match rows.head?, rows.getLast? with
  | some a, some z =>
    let lo := h.linear [v.cLo, a] * h.elem
    let hi := h.linear [v.cHi - 1, z] * h.elem + h.elem
    [homeIv e h.home (h.base + lo) (hi - lo) write]
  | _, _ => []

/-- The bytes of a tile row, zero outside the array. -/
def Handle.readRow (h : Handle) (e : Eng) (v : TileWin) (r : Nat) (s : State) : PRes (List Byte) :=
  match h.winRow v r with
  | none => .ok (List.replicate 128 0) s
  | some i =>
    let n := (v.cHi - v.cLo) * h.elem
    let at_ := (v.cLo - v.c0).toNat * h.elem
    (h.read e r (h.linear [v.cLo, i] * h.elem) n s).bind fun bs s =>
      .ok (List.replicate at_ 0 ++ bs ++ List.replicate (128 - at_ - n) 0) s

/-- The rows of a tile read, `fuel` of them from a row on. -/
def Handle.readRows (h : Handle) (e : Eng) (v : TileWin) : Nat → Nat → State → PRes (List Byte)
  | 0, _, s => .ok [] s
  | fuel + 1, r, s => (h.readRow e v r s).bind fun bs s => (h.readRows e v fuel (r + 1) s).bind fun t s => .ok (bs ++ t) s

/-- The rows of a tile stored; what lies outside the array is skipped. -/
def Handle.writeRows (h : Handle) (e : Eng) (v : TileWin) (tile : List Byte) : Nat → Nat → State → PRes Unit
  | 0, _, s => .ok () s
  | fuel + 1, r, s =>
    match h.winRow v r with
    | none => h.writeRows e v tile fuel (r + 1) s
    | some i =>
      let n := (v.cHi - v.cLo) * h.elem
      let bs := (tile.drop (128 * r + (v.cLo - v.c0).toNat * h.elem)).take n
      (h.write e r (h.linear [v.cLo, i] * h.elem) bs s).bind fun _ s => h.writeRows e v tile fuel (r + 1) s

/-! ### Doubly compressed tiles (R290 to R292) -/

/-- A read of a DCT array, checked on chip as an access of its own (R285). -/
def Handle.readDct (h : Handle) (e : Eng) (tag off n : Nat) (s : State) : PRes (Except Cause (List Byte)) :=
  if h.home != 2 && !e.area.ok h.home (h.base + off) n then .ok (.error (Cause.boundsAddr e.lane (h.base + off) h.home)) s
  else (h.read e tag off n s).bind fun bs s => .ok (.ok bs) s

/-- The header of a DCT array. -/
structure DctHead where
  nt : Nat
  ntr : Nat
  trow : Nat
  tptr : Nat
  tcol : Nat
  tstor : Nat
  deriving DecidableEq, Repr

/-- The header read. -/
def Handle.dctHead (h : Handle) (e : Eng) (s : State) : PRes (Except Cause DctHead) :=
  (h.readDct e 0 0 64 s).tryBind fun bs s =>
    let w (i : Nat) : Nat := ofBytes ((bs.drop (8 * i)).take 8)
    .ok (.ok { nt := w 0 / 2 ^ 32, ntr := w 0 % 2 ^ 32, trow := w 1, tptr := w 2, tcol := w 3, tstor := w 4 }) s

/-- The tile row whose TPTR entries bracket a position, sought from row r on (log entry 21). -/
def Handle.dctRow (h : Handle) (e : Eng) (d : DctHead) (t : Nat) : Nat → Nat → State → PRes (Except Cause (Option Nat))
  | 0, _, s => .ok (.ok none) s
  | fuel + 1, r, s =>
    (h.readDct e (16 + r) (d.tptr + 4 * r) 8 s).tryBind fun bs s =>
      if ofBytes (bs.take 4) ≤ t && t < ofBytes (bs.drop 4) then .ok (.ok (some r)) s
      else h.dctRow e d t fuel (r + 1) s

/-- A tile of a DCT array: its place, its entries as row, column and bytes in storage order, its stored rows, and the
offset after the last byte read; `bad` where it is malformed. -/
structure DctTile where
  bad : Bool
  row : Nat
  col : Nat
  entries : List (Nat × Nat × List Byte)
  /-- The stored rows, in order. -/
  rows : List Nat
  top : Nat
  deriving DecidableEq, Repr

/-- A malformed tile. -/
def DctTile.malformed : DctTile := { bad := true, row := 0, col := 0, entries := [], rows := [], top := 0 }

/-- The 16-bit position i of a frame's RPTR. -/
def rptr (f : List Byte) (i : Nat) : Nat := ofBytes ((f.drop (36 + 2 * i)).take 2)

/-- Whether a frame's fixed part meets R291 and R292. -/
def frameOk (f : List Byte) : Bool :=
  let nnz := ofBytes (f.take 2)
  let nr := (f.getD 2 0).toNat
  decide (1 ≤ nnz) && decide (nnz ≤ 1024) && decide (1 ≤ nr) && decide (nr ≤ 32) && rptr f 0 == 0 && rptr f nr == nnz &&
    (List.range nr).all fun i => decide (rptr f i < rptr f (i + 1)) && decide ((f.getD (4 + i) 0).toNat < 32)

/-- The row of an entry of a frame. -/
def entryRow (f : List Byte) (q : Nat) : Nat :=
  match (List.range 32).find? fun i => decide (rptr f i ≤ q) && decide (q < rptr f (i + 1)) with
  | some i => (f.getD (4 + i) 0).toNat
  | none => 0

/-- The tile at a position of the tile list (R292). -/
def Handle.dctTile (h : Handle) (e : Eng) (d : DctHead) (t : Nat) (s : State) : PRes (Except Cause DctTile) :=
  (h.dctRow e d t d.ntr 0 s).tryBind fun r s =>
    match r with
    | none => .ok (.ok .malformed) s
    | some r =>
      (h.readDct e 1 (d.trow + 4 * r) 4 s).tryBind fun rb s =>
      (h.readDct e 2 (d.tcol + 4 * t) 4 s).tryBind fun cb s =>
      (h.readDct e 3 (d.tstor + 8 * t) 8 s).tryBind fun ob s =>
        let o := ofBytes ob
        let row := ofBytes rb
        let col := ofBytes cb
        (h.readDct e 4 o 102 s).tryBind fun f s =>
          if !frameOk f || decide (h.size 1 ≤ 32 * row) || decide (h.size 0 ≤ 32 * col) then .ok (.ok .malformed) s
          else
            let nnz := ofBytes (f.take 2)
            let v := (102 + nnz + 3) / 4 * 4
            (h.readDct e 5 (o + 102) nnz s).tryBind fun cs s =>
              if cs.any fun c => decide (32 ≤ c.toNat) then .ok (.ok .malformed) s
              else
                (h.readDct e 6 (o + v) (nnz * h.elem) s).tryBind fun vs s =>
                  .ok (.ok { bad := false, row := row, col := col
                             entries := (List.range nnz).map fun q =>
                               (entryRow f q, (cs.getD q 0).toNat, (vs.drop (q * h.elem)).take h.elem)
                             rows := (List.range (f.getD 2 0).toNat).map fun i => (f.getD (4 + i) 0).toNat
                             top := max (o + v + nnz * h.elem) (max (d.trow + 4 * r + 4)
                               (max (d.tptr + 4 * r + 8) (max (d.tcol + 4 * t + 4) (d.tstor + 8 * t + 8)))) }) s

/-- Bytes of a list replaced from an offset on. -/
def putBytes (bs : List Byte) (off : Nat) (new : List Byte) : List Byte := bs.take off ++ new ++ bs.drop (off + new.length)

/-- The 8,192 bytes a tile register takes from a tile (R297). -/
def DctTile.bytes (d : DctTile) (elem : Nat) : List Byte :=
  d.entries.foldl (fun bs q => putBytes bs (128 * q.1 + q.2.1 * elem) q.2.2) (List.replicate 8192 0)

/-! ### tld and tst -/

/-- A tile register of a context written. -/
def setTile (core i t : Nat) (bs : List Byte) (s : State) : State :=
  s.updMat core i fun mc => { mc with tiles := Tbl.set mc.tiles t bs }

/-- BOUNDS of a party that names its lane or, in Wick code, none. -/
def Who.cause (w : Who) (reason : Nat) : Cause :=
  match w with
  | .group m => m.bounds reason
  | .wick _ => { Cause.bounds reason 0 with lane := 255 }

/-- The number of the even register a DCT walk gives its tile's place to (R297). -/
def walkReg (w : Who) (x : Args) : Option Nat :=
  match w, x.b with
  | .group _, .k r => if r.toNat % 2 = 0 then some r.toNat else none
  | .wick _, .v r => if r.toNat % 2 = 0 then some r.toNat else none
  | _, _ => none

/-- The place of a walked tile given to its two registers, which in group code await the walk (R297). -/
def giveWalk (w : Who) (n : Nat) (row col : W64) (s : State) : State :=
  let s := w.setNum (n + 1) col (w.setNum n row s)
  match w with
  | .wick _ => s
  | .group m =>
    [n, n + 1].foldl (fun s r => s.updGroup m.g fun q => q.await
      { regs := [], lanes := m.act, merge := false, wide := false, kreg := some r, demand := true, long := true } false) s

/-- The `tld` of a DCT walk. -/
def walkTile (w : Who) (x : Args) (i : Nat) (h : Handle) (n : Nat) (s : State) : GEff :=
  let e := w.eng s
  let d := x.dst.toNat
  let busy := match w with
    | .wick t => tokensPending s t [n, n + 1]
    | .group m => (match Tbl.get? s.groups m.g with
        | some q => awaiting s q [] [] [n, n + 1]
        | none => true)
  if busy then .wait s
  else takeEntries w 1 s fun es s' =>
    demand w s ((h.dctHead e s').tryBind fun hd s =>
        if hd.nt ≤ h.cursor then .ok (.ok (none, 64)) s
        else (h.dctTile e hd h.cursor s).tryBind fun t s => .ok (.ok (some t, t.top)) s) fun r s =>
      let entry := es.headD 0
      let op : DemandOp := { team := w.team s, kind := 0, tile := d, issuer := w.party, token := none }
      let start (s : State) : State := startDemand w.core entry [homeIv e h.home h.base (max 64 r.2) false] op (w.countDemand s)
      match r.1 with
      | none => .done (giveWalk w n (BitVec.allOnes 64) (BitVec.allOnes 64) (start s))
      | some t =>
        if t.bad then .fault { w.cause rDCTFMT with malf := some h.num }
        else
          let img := h.img &&& ~~~(0xFFFFFFFF#512 <<< 224) ||| BitVec.ofNat 512 ((h.cursor + 1) % 2 ^ 32) <<< 224
          let s := (setTile w.core i d (t.bytes h.elem) s).setHandle (w.team s) h.num img
          .done (giveWalk w n (BitVec.ofNat 64 t.row) (BitVec.ofNat 64 t.col) (start s))

/-- A tile moved through a handle (R276, R296). -/
def handleTile (w : Who) (x : Args) (store : Bool) (s : State) : GEff :=
  if pathBusy s w.core then .wait s else
  let h := takeHandle s (w.team s) (numOf x.a)
  let d := x.dst.toNat
  -- a DCT walk's operand is checked as a form of the instruction, before its fields
  if h.typ = 5 && !store && (walkReg w x).isNone && h.ok (areaOf s w) then .fault Cause.undef
  else withMat w s fun i mc =>
    if !h.ok (areaOf s w) then .fault (w.cause rHANDLE)
    else if h.typ = 5 && !store then
      if tileBusy s w d true then .wait s
      else walkTile w x i h ((walkReg w x).getD 0) s
    else if !(h.typ == 0 && decide (2 ≤ h.dim) && h.ch == 1 && !h.fixed) then .fault (w.cause rHTYPE)
    else if tileBusy s w d (!store) then .wait s
    else
      w.reading (onceRegs x.b) s fun s' =>
      takeEntries w 1 s' fun es s' =>
        let e := w.eng s'
        let v := h.window (wholeValue w s' x.b)
        let op : DemandOp := { team := w.team s', kind := if store then 1 else 0, tile := d, issuer := w.party, token := none }
        let start (s : State) : State := startDemand w.core (es.headD 0) (h.winIv e v store) op s
        if store then demandOk w s (h.writeRows e v (mc.tile d) 64 0 s') fun _ s => .done (w.resetBack (start (w.countDemand s)))
        else demandOk w s (h.readRows e v 64 0 s') fun bs s => .done (start (setTile w.core i d bs (w.countDemand s)))

/-- A tile moved between a tile register and memory on chip (R276). -/
def chipTile (w : Who) (x : Args) (space : Nat) (store : Bool) (s : State) : GEff :=
  withMat w s fun i mc =>
    let d := x.dst.toNat
    let a := areaOf s w
    onceAddr w x space 8192 64 store s fun addr =>
      if tileBusy s w d (!store) then .wait s
      else w.reading (addrRegs x) s fun s =>
        if store then .done (w.resetBack { s with mem := Memory.writeN s.mem (a.key space addr) (mc.tile d) })
        else .done (setTile w.core i d (Memory.readN s.mem (a.key space addr) 8192) s)

/-- The v registers a tile move reads. -/
def tileRegs (x : Args) : List Nat := if modBits x 8 2 = 2 then onceRegs x.b else addrRegs x

/-- Whether a group issues the walk of a DCT handle with an operand that is none: UNDEF, which comes before LATCHLOST (R37, R297). -/
def undefWalk (x : Args) (s : State) : Bool :=
  match s.cur.by_ with
  | .group g =>
    (match Tbl.get? s.groups g with
      | none => false
      | some grp =>
        let h := takeHandle s grp.team (numOf x.a)
        let w : Who := .group { g := g, x := s.cur.lanes, act := s.cur.lanes, pc := s.cur.pc, next := s.cur.pc }
        h.typ == 5 && (walkReg w x).isNone && h.ok (areaOf s w) && s.cur.lanes &&& grp.predLanes x != 0 &&
          (joinedPartner s grp).all fun p => (Tbl.get? s.groups p).all fun q => partnerSet s p &&& q.predLanes x != 0)
  | _ => false

/-- A tile move; as every matrix instruction it releases the reuse latch (R260). -/
def moveTile (x : Args) (store : Bool) (s : State) : Host.Outcome State Fault Refusal :=
  let seen : Args := if !store && modBits x 8 2 == 2 && undefWalk x s then { x with b := .none } else x
  issueAny seen (tileRegs x) [] (fun w s =>
    let s := w.release s
    if modBits x 8 2 = 2 then handleTile w x store s else chipTile w x (modBits x 8 2) store s) s

/-- R276: `tld`. -/
def execTld (x : Args) (s : State) : Host.Outcome State Fault Refusal := moveTile x false s
/-- R276: `tst`. -/
def execTst (x : Args) (s : State) : Host.Outcome State Fault Refusal := moveTile x true s

/-! ### Completion -/

/-- A record written into a token register, which is pending no longer (R361). -/
def giveToken (p : Party) (n : Nat) (rec : W64) (s : State) : State :=
  if p.1 = 0 then s.updGroup p.2 fun g => { g with ks := Tbl.set g.ks n rec, ktok := Tbl.erase g.ktok n }
  else s.updTeam p.2 fun t => { t with sregs := Tbl.set t.sregs n rec, stok := Tbl.erase t.stok n }

/-- A token register set pending. -/
def markToken (p : Party) (n : Nat) (s : State) : State :=
  if p.1 = 0 then s.updGroup p.2 fun g => { g with ktok := Tbl.set g.ktok n 1 }
  else s.updTeam p.2 fun t => { t with stok := Tbl.set t.stok n 1 }

/-- A demand operation of some kinds completes: its entry is freed and its token written. -/
def endDemand (core entry : Nat) (p : DemandOp → Bool) (s : State) : Host.Outcome State Fault Refusal :=
  match Tbl.get? (s.core core).demands entry with
  | none => .next s
  | some d =>
    if !p d then .next s
    else
      let s := s.updCore core fun k => { k with locks := Tbl.erase k.locks entry, demands := Tbl.erase k.demands entry }
      .next (match d.token with
        | some (n, rec) => giveToken d.issuer n rec s
        | none => s)

/-- R276: a tile move through a handle completes. -/
def execTileMoveComplete (core op : Nat) (s : State) : Host.Outcome State Fault Refusal :=
  endDemand core op (fun d => d.kind ≤ 1) s

end Sys2Proof.Machine
end

