-- ==== Sys2Proof/Machine/Coord.lean ====
section
/-! DEFINITION. Coordinate loads and splats (R302 to R325): taps and weights, edges, lookups, the chains, splats,
resolves and inserts. -/

namespace Sys2Proof.Machine

/-! ### From a coordinate to taps (R302 to R306) -/

/-- The pair (i, F) of a coordinate in a dimension, or none where it is invalid (R302, R303). -/
def Handle.coord (h : Handle) (d : Nat) (x : W32) : Option (Int × Nat) :=
  match fv x with
  | .fin a b c =>
    let u := FV.mul (FV.add .rn (.fin a b c) (fv (h.origin d)).negate) (fv (h.inv d))
    (match fv (ofFV .rn u) with
      | .fin neg m e =>
        if m != 0 && decide (30 ≤ (m.log2 : Int) + e) then none
        else if 0 ≤ e then some (scaled neg m e 0, 0)
        else
          let den : Int := 2 ^ (-e).toNat
          let num : Int := if neg then -(m : Int) else m
          let f := roundAt .rn false (num % den).toNat (e + 16) 0 false
          if f = 65536 then some (num / den + 1, 0) else some (num / den, f)
      | _ => none)
  | _ => none

/-- A tap of one dimension: its index, weight and derivative weight. -/
structure Tap1 where
  i : Int
  w : W32
  d : W32
  deriving DecidableEq, Repr

/-- n / (3 * 2^k), rounded once. -/
def thirdOf (n : Nat) (k : Int) : W32 :=
  BitVec.ofNat 32 (Fmt.f32.roundS .rn false (n * 2 ^ 64 / 3) (-64 - k) (n * 2 ^ 64 % 3 != 0))

/-- n / 2^k, rounded once. -/
def powOf (n : Int) (k : Int) : W32 := BitVec.ofNat 32 (Fmt.f32.roundS .rn (decide (n < 0)) n.natAbs (-k) false)

/-- The taps of a dimension by order: 0 nearest, 1 linear, 3 cubic (R304). -/
def taps1 (order : Nat) (i : Int) (f : Nat) : List Tap1 :=
  let s : Int := 65536
  let t : Int := f
  match order with
  | 0 => [{ i := if f < 32768 then i else i + 1, w := 0x3F800000, d := 0 }]
  | 1 => [{ i := i, w := powOf (s - t) 16, d := 0xBF800000 }, { i := i + 1, w := powOf t 16, d := 0x3F800000 }]
  | _ =>
    -- weights as n / (6 * 2^48), derivative weights as n / (2 * 2^32)
    let w (n : Int) : W32 := thirdOf n.natAbs 49
    let d (n : Int) : W32 := powOf n 33
    [ { i := i - 1, w := w ((s - t) ^ 3), d := d (-(s - t) ^ 2) }
    , { i := i, w := w (3 * t ^ 3 - 6 * t ^ 2 * s + 4 * s ^ 3), d := d (3 * t ^ 2 - 4 * t * s) }
    , { i := i + 1, w := w (-3 * t ^ 3 + 3 * t ^ 2 * s + 3 * t * s ^ 2 + s ^ 3), d := d (-3 * t ^ 2 + 2 * t * s + s ^ 2) }
    , { i := i + 2, w := w (t ^ 3), d := d (t ^ 2) } ]

/-- All choices of one element of each list, the first list fastest. -/
def combos {α : Type} : List (List α) → List (List α)
  | [] => [[]]
  | l :: rest => (combos rest).flatMap fun r => l.map fun x => x :: r

/-- An exact product rounded once (R305). -/
def productOf (ws : List W32) : W32 := ofFV .rn (ws.foldl (fun p w => FV.mul p (fv w)) (.fin false 1 0))

/-- A tap: its indices, its value weight and its derivative weights (R305). -/
structure Tap where
  is : List Int
  w : W32
  ds : List W32
  deriving DecidableEq, Repr

/-- Whether a weight is nonzero. -/
def weighs (w : W32) : Bool := bits w.toNat 0 31 != 0

/-- Whether a tap is fetched (R306). -/
def Tap.fetched (t : Tap) : Bool := weighs t.w || t.ds.any weighs

/-- The tap of a choice of one-dimensional taps. -/
def tapOf (grad : Bool) (ts : List Tap1) : Tap :=
  { is := ts.map (·.i), w := productOf (ts.map (·.w))
    ds := if grad then (List.range ts.length).map fun d => productOf (ts.mapIdx fun e t => if e = d then t.d else t.w) else [] }

/-- The taps of some coordinates, or none where one is invalid (R303, R305). -/
def Handle.taps (h : Handle) (order : Nat) (grad : Bool) (xs : List W32) : Option (List Tap) :=
  let cs := xs.mapIdx fun d x => h.coord d x
  if cs.any (·.isNone) then none
  else some ((combos (cs.filterMap fun c => c.map fun p => taps1 order p.1 p.2)).map (tapOf grad))

/-! ### Edges (R309) -/

/-- What an edge mode makes of an index out of range. -/
inductive Edged where
  | use (i : Nat)
  /-- ZERO. -/
  | drop
  /-- FAULT. -/
  | fault
  deriving DecidableEq, Repr

/-- Whether an index is in range. -/
def Handle.inRange (h : Handle) (d : Nat) (j : Int) : Bool := decide (0 ≤ j) && decide (j < h.size d)

/-- The index used for a tap index (R309); a LIST faults. -/
def Handle.edged (h : Handle) (d : Nat) (j : Int) : Edged :=
  let n := h.size d
  if h.inRange d j then .use j.toNat
  else if h.typ = 6 then .fault
  else match h.edge d with
    | 0 => .use (if j < 0 then 0 else n - 1)
    | 1 => .drop
    | 2 => .use (j % n).toNat
    | 3 =>
      let m := (j % (2 * n : Nat)).toNat
      .use (if m < n then m else 2 * n - 1 - m)
    | _ => .fault

/-- A fetched tap after R309: its number, whether an index was out of range, and the indices used, none where it is
dropped. -/
structure Fetch where
  tap : Nat
  out : Bool
  is : Option (List Nat)
  w : W32
  ds : List W32
  deriving DecidableEq, Repr

/-- A fetched tap at the edges; none where it faults. -/
def Handle.fetch (h : Handle) (n : Nat) (t : Tap) : Option Fetch :=
  let es := t.is.mapIdx fun d j => h.edged d j
  if es.contains .fault then none
  else
    let out := (t.is.mapIdx fun d j => !h.inRange d j).any id
    let is := if es.contains .drop then none else some (es.filterMap fun
      | .use i => some i
      | _ => none)
    some { tap := n, out := out, is := is, w := t.w, ds := t.ds }

/-- What a piece of a demand request does: its first lane, whether its coordinate is invalid, and its fetches. -/
structure Plan where
  lane : Nat
  invalid : Bool
  fetches : List Fetch
  deriving DecidableEq, Repr

/-- The plan of one piece; none where it raises EDGE (R303, R309). -/
def Handle.plan (h : Handle) (order : Nat) (grad direct : Bool) (l : Nat) (xs : List W32) : Option Plan :=
  let of (ts : List Tap) : Option Plan :=
    let fs := (ts.zipIdx.filter fun p => p.1.fetched).map fun p => h.fetch p.2 p.1
    if fs.any (·.isNone) then none else some { lane := l, invalid := false, fetches := fs.filterMap id }
  if direct then of [{ is := xs.map (·.toInt), w := 0x3F800000, ds := [] }]
  else match h.taps order grad xs with
    | some ts => of ts
    | none =>
      let bad := (xs.mapIdx fun d x => (h.coord d x).isNone && h.edge d == 4).any id
      if bad then none else some { lane := l, invalid := true, fetches := [] }

/-! ### Reaching the element (R286 to R289, R311) -/

/-- What a lookup comes to. -/
inductive Found where
  | at_ (n : Nat)
  | miss
  /-- A malformed octant tree. -/
  | bad
  deriving DecidableEq, Repr

/-- Where the tags of the accesses of one tap of one lane begin. -/
def tapTag (lane tap : Nat) : Nat := (lane * 256 + tap) * 1024

/-- The probe of R288 from step p on. -/
def Handle.probeFrom (h : Handle) (e : Eng) (kind : AKind) (tag : Nat) (is : List Nat) : Nat → Nat → State → PRes Found
  | 0, _, s => .ok .miss s
  | fuel + 1, p, s =>
    let i := (h.hash is + p) % h.slots
    (h.read e (tag + p) (8 * i) 8 s kind).bind fun bs s =>
      let k := ofBytes bs
      if k = Handle.key is then .ok (.at_ i) s
      else if k = 0 then .ok .miss s
      else h.probeFrom e kind tag is fuel (p + 1) s

/-- The octant of some indices at a level of the tree. -/
def octant (is : List Nat) (b : Nat) : Nat :=
  is.getD 0 0 / 2 ^ b % 2 + 2 * (is.getD 1 0 / 2 ^ b % 2) + 4 * (is.getD 2 0 / 2 ^ b % 2)

/-- The offset of a child of a node (R289). -/
def childOff (n o : Nat) : Nat := 64 + 64 * n + 4 * o

/-- The lookup of R289 at a node, with some levels left. -/
def Handle.octFrom (h : Handle) (e : Eng) (kind : AKind) (tag : Nat) (is : List Nat) : Nat → Nat → State → PRes Found
  | 0, _, s => .ok .miss s
  | left + 1, n, s =>
    (h.read e (tag + left) (childOff n (octant is left)) 4 s kind).bind fun bs s =>
      let c := ofBytes bs
      if c = 0 then .ok .miss s
      else if left = 0 then .ok (if c < h.lcap then .at_ c else .bad) s
      else if h.ncap ≤ c then .ok .bad s
      else h.octFrom e kind tag is left c s

/-- The slot, leaf or element a tap's indices reach; `kind` says which right its reads need (R422). -/
def Handle.lookup (h : Handle) (e : Eng) (kind : AKind) (tag : Nat) (is : List Nat) (s : State) : PRes Found :=
  match h.typ with
  | 1 => .ok (.at_ (h.hash is)) s
  | 2 => h.probeFrom e kind tag is h.probe 0 s
  | 4 => h.octFrom e kind tag is h.depth 0 s
  | _ => .ok (.at_ (h.linear is)) s

/-- Where the values begin, from BASE. -/
def Handle.valueOff (h : Handle) : Nat :=
  match h.typ with
  | 2 => 8 * h.slots
  | 4 => 64 + 64 * h.ncap
  | _ => 0

/-- MISS, and MALF for a malformed lookup, set in STATUS (R294). -/
def noteMiss (e : Eng) (h : Handle) (r : Found) (s : State) : State :=
  match r with
  | .at_ _ => s
  | .miss => s.setStatus e.team h.num 2
  | .bad => (s.setStatus e.team h.num 2).setStatus e.team h.num 4

/-- The channels of a fetched tap, and whether it missed (R308, R311). -/
def Handle.element (h : Handle) (e : Eng) (lane : Nat) (f : Fetch) (s : State) : PRes (List W32 × Bool) :=
  match f.is with
  | none => .ok (List.replicate h.ch 0, false) s
  | some is =>
    let tag := tapTag lane f.tap
    (h.lookup e .read tag is s).bind fun r s =>
      match r with
      | .at_ n =>
        (h.read e (tag + 600) (h.valueOff + n * h.cell) h.cell s).bind fun bs s =>
          .ok ((List.range h.ch).map fun c => h.value ((bs.drop (c * h.elem)).take h.elem), false) s
      | r => .ok (List.replicate h.ch 0, true) (noteMiss e h r s)

/-- The elements of several fetches, in tap order. -/
def Handle.elements (h : Handle) (e : Eng) (lane : Nat) : List Fetch → State → PRes (List (Fetch × List W32) × Bool)
  | [], s => .ok ([], false) s
  | f :: fs, s =>
    (h.element e lane f s).bind fun v s =>
      (h.elements e lane fs s).bind fun r s => .ok ((f, v.1) :: r.1, v.2 || r.2) s

/-! ### Chains (R307) -/

/-- A fused chain over the fetched taps whose weight in it is nonzero. -/
def chainOf (wt : Fetch → W32) (c : Nat) (es : List (Fetch × List W32)) : W32 :=
  es.foldl (fun acc p => if weighs (wt p.1) then fFma (wt p.1) (p.2.getD c 0) acc else acc) 0

/-- The result block of a piece (R307, R319). -/
def Handle.block (h : Handle) (grad : Bool) (es : List (Fetch × List W32)) : List W32 :=
  (List.range h.ch).flatMap fun c =>
    chainOf (·.w) c es ::
      (if grad then (List.range h.dim).map fun d => fMul .rn (chainOf (fun f => f.ds.getD d 0) c es) (h.inv d) else [])

/-! ### Lane requests -/

/-- The types an instruction accepts (R311). -/
def sampled (t : Nat) : Bool := t ≤ 4
/-- Those of `cfind` and `cins`. -/
def searched (t : Nat) : Bool := t == 2 || t == 4

/-- First lanes of the pieces of some active lanes. -/
def headsOf (act : Mask) (cut : Nat → Bool) : List Nat :=
  (lanesOf act).filter fun l => l == 0 || !act.getLsbD (l - 1) || cut l

/-- A block of n registers from one on. -/
def regBlock (v n : Nat) : List Nat := (List.range n).map fun i => v + i

/-- Whether a run of one of some registers begins at a lane. -/
def blockCuts (m : Mem) (s : State) (rs : List Nat) : Nat → Bool :=
  match Tbl.get? s.groups m.g with
  | none => fun _ => false
  | some g =>
    let ls := rs.map fun r => runsOf s m.g g r
    fun l => ls.any fun q => Runs.starts q l

/-- The values of some registers in a lane. -/
def blockAt (m : Mem) (s : State) (rs : List Nat) (l : Nat) : List W32 :=
  match Tbl.get? s.groups m.g with
  | none => []
  | some g => rs.map fun r => Runs.val (runsOf s m.g g r) l

/-- The plans of some pieces, or the lane of the first that raises EDGE. -/
def plansOf (f : Nat → Option Plan) : List Nat → Except Nat (List Plan)
  | [] => .ok []
  | l :: ls =>
    match f l with
    | none => .error l
    | some p => (plansOf f ls).map (p :: ·)

/-- The results of pieces: the values of the result registers by first lane, and the first lanes that missed. -/
structure Answers where
  vals : Tbl (List W32)
  missed : List Nat
  deriving DecidableEq, Repr

/-- The pieces of a request performed one after another. -/
def runPlans (f : Plan → State → PRes (List W32 × Bool)) : List Plan → State → PRes Answers
  | [], s => .ok { vals := [], missed := [] } s
  | p :: ps, s =>
    (f p s).bind fun r s =>
      (runPlans f ps s).bind fun a s =>
        .ok { vals := Tbl.set a.vals p.lane r.1, missed := if r.2 then p.lane :: a.missed else a.missed } s

/-- The first lane of the piece a lane lies in. -/
def headAt (heads : List Nat) (l : Nat) : Nat := ((heads.filter (· ≤ l)).getLast?).getD 0

/-- PN where PE is set and names a predicate that can be written. -/
def outPred (x : Args) : Option Nat := if modBits x 5 1 = 1 && modBits x 6 4 != 0 then some (modBits x 6 4) else none

/-- What an output predicate makes an instruction wait for (R310). -/
def outPredKeys (x : Args) : List Nat := if modBits x 5 1 = 1 then [predKey (modBits x 6 4)] else []

/-- The lane operation of one result register. -/
def answerOp (m : Mem) (reads : List Nat) (cut : Nat → Bool) (a : Answers) (i : Nat) : LaneOp :=
  { reads := reads, wset := m.act, wide := false, cut := cut, merge := false
    op := fun l => ((Tbl.get a.vals l []).getD i 0).zeroExtend 64 }

/-- The run lists of the result registers. -/
def answerNews (m : Mem) (g : Group) (reads : List Nat) (cut : Nat → Bool) (a : Answers) (ds : List Nat) (s : State) :
    List (Nat × Runs) :=
  ds.zipIdx.flatMap fun p => (answerOp m reads cut a p.2).news m g p.1 s

/-- The first lanes of the pieces whose predicate is set (R310). -/
def badHeads (plans : List Plan) (a : Answers) : List Nat :=
  (plans.filter fun p => p.invalid || p.fetches.any (·.out)).map (·.lane) ++ a.missed

/-- The output predicate of some answers, by lane (R310). -/
def badLanes (plans : List Plan) (a : Answers) : Mask :=
  maskOf fun l => (badHeads plans a).contains (headAt (plans.map (·.lane)) l)

/-- The results written, with their registers and predicate left to await them (R310, R319). -/
def giveAnswers (m : Mem) (x : Args) (ds : List Nat) (plans : List Plan) (a : Answers) (news : List (Nat × Runs)) (reads : List Nat)
    (s : State) : GEff :=
  match writeRegs m reads (if m.act = BitVec.allOnes 32 then [] else ds) news s with
  | .done s =>
    .done (s.updGroup m.g fun q =>
      let q := match outPred x with
        | some p => q.setPred p m.act (badLanes plans a)
        | none => q
      q.await { regs := ds, lanes := m.act, merge := cBit x, wide := false, kreg := none, pred := outPred x, demand := true
                long := true } false)
  | e => e

/-- The word and the outcome of a `cfind` (R324). -/
def findWord (e : Eng) (h : Handle) (p : Plan) (s : State) : PRes (List W32 × Bool) :=
  match p.fetches with
  | f :: _ =>
    (match f.is with
      | none => .ok ([0xFFFFFFFF], true) (noteMiss e h .miss s)
      | some is =>
        (h.lookup e .read (tapTag p.lane 0) is s).bind fun r s =>
          match r with
          | .at_ n => .ok ([BitVec.ofNat 32 n], false) s
          | r => .ok ([0xFFFFFFFF], true) (noteMiss e h r s))
  | [] => .ok ([0xFFFFFFFF], true) s

/-! ### Inserts (R325) -/

/-- What an insert comes to. -/
inductive Placed where
  | found (n : Nat)
  | new (n : Nat)
  | full
  | bad
  deriving DecidableEq, Repr

/-- An insert into a HASHK table, from probe step p on. -/
def Handle.insertKey (h : Handle) (e : Eng) (tag : Nat) (is : List Nat) : Nat → Nat → State → PRes Placed
  | 0, _, s => .ok .full s
  | fuel + 1, p, s =>
    let i := (h.hash is + p) % h.slots
    let k := Handle.key is
    (h.read e (tag + 4 * p) (8 * i) 8 s .atomic).bind fun bs s =>
      if ofBytes bs = k then .ok (.found i) s
      else if ofBytes bs != 0 then h.insertKey e tag is fuel (p + 1) s
      else
        (h.rmw e (tag + 4 * p + 1) (8 * i) 8 7 0 k s).bind fun old s =>
          if old = 0 then .ok (.new i) s
          else if old = k then .ok (.found i) s
          else h.insertKey e tag is fuel (p + 1) s

/-- A child read, or created where it is empty, at a level: the child, and whether this insert created it. -/
def Handle.takeChild (h : Handle) (e : Eng) (tag n o left : Nat) (s : State) : PRes (Option (Nat × Bool)) :=
  (h.read e (tag + 4 * left) (childOff n o) 4 s .atomic).bind fun bs s =>
    if ofBytes bs != 0 then .ok (some (ofBytes bs, false)) s
    else
      (h.rmw e (tag + 4 * left + 1) (if left = 0 then 8 else 0) 8 0 1 0 s).bind fun k s =>
        if 2 ^ 31 ≤ k || (if left = 0 then h.lcap else h.ncap) ≤ k then .ok none s
        else
          (h.rmw e (tag + 4 * left + 2) (childOff n o) 4 7 0 k s).bind fun old s =>
            .ok (some (if old = 0 then (k, true) else (old, false))) s

/-- An insert into an octant tree at a node, with some levels left. -/
def Handle.insertOct (h : Handle) (e : Eng) (tag : Nat) (is : List Nat) : Nat → Nat → Bool → State → PRes Placed
  | 0, _, _, s => .ok .bad s
  | left + 1, n, fresh, s =>
    (h.takeChild e tag n (octant is left) left s).bind fun r s =>
      match r with
      | none => .ok .full s
      | some (c, made) =>
        if left = 0 then .ok (if h.lcap ≤ c then .bad else if fresh || made then .new c else .found c) s
        else if h.ncap ≤ c then .ok .bad s
        else h.insertOct e tag is left c (fresh || made) s

/-- An insert into either type of array. -/
def Handle.insert (h : Handle) (e : Eng) (tag : Nat) (is : List Nat) (s : State) : PRes Placed :=
  if h.typ = 2 then h.insertKey e tag is h.probe 0 s else h.insertOct e tag is h.depth 0 false s

/-- FULL, and MALF for a malformed walk, set in STATUS. -/
def notePlaced (e : Eng) (h : Handle) (r : Placed) (s : State) : State :=
  match r with
  | .full => s.setStatus e.team h.num 3
  | .bad => (s.setStatus e.team h.num 3).setStatus e.team h.num 4
  | _ => s

/-- The word and the outcome of a `cins`. -/
def insertWord (e : Eng) (h : Handle) (p : Plan) (s : State) : PRes (List W32 × Bool) :=
  match p.fetches with
  | f :: _ =>
    (match f.is with
      | none => .ok ([0xFFFFFFFF], true) s
      | some is =>
        (h.insert e (tapTag p.lane 0) is s).bind fun r s =>
          match r with
          | .found n => .ok ([BitVec.ofNat 32 (n % 2 ^ 31)], false) s
          | .new n => .ok ([BitVec.ofNat 32 (2 ^ 31 + n % 2 ^ 31)], false) s
          | r => .ok ([0xFFFFFFFF], true) (notePlaced e h r s))
  | [] => .ok ([0xFFFFFFFF], true) s

/-! ### Splats (R315, R316, R322) -/

/-- SPLOVF set, with a record where it was clear (R294, R473). -/
def noteOverflow (w : Who) (h : Handle) (s : State) : State :=
  let t := w.team s
  if (s.handle t h.num).getLsbD 480 then s
  else
    let r := { w.record s 0x0305 3 0 0 with engine := coreEngine w.core 2 0, detail := h.num }
    (logRecord (s.setStatus t h.num 0) r false).1

/-- The integer a fixed splat adds, and whether its magnitude reaches 2^62 (R316). -/
def fixedPart (h : Handle) (w g : W32) : Int × Bool :=
  match FV.mul (fv w) (fv g) with
  | .nan => (0, true)
  | .inf neg => (if neg then -2 ^ 63 else 2 ^ 63 - 1, true)
  | .fin neg m e =>
    let n := roundInt .rn neg m (e - h.fixE)
    (max (-2 ^ 63) (min n (2 ^ 63 - 1)), decide (2 ^ 62 ≤ n.natAbs))

/-- One contribution to a channel at an offset. -/
def contribute (w : Who) (e : Eng) (h : Handle) (tag off : Nat) (wt g : W32) (s : State) : PRes Unit :=
  if h.fixed then
    let (n, ovf) := fixedPart h wt g
    (h.rmw e tag off 8 0 (BitVec.ofInt 64 n).toNat 0 s).bind fun _ s => .ok () (if ovf then noteOverflow w h s else s)
  else
    (h.rmw e tag off h.elem (if h.fmt = 0 then 8 else 20 + h.fmt) (fMul .rn wt g).toNat 0 s).bind fun _ s => .ok () s

/-- The contributions of a tap, channel by channel. -/
def contributions (w : Who) (e : Eng) (h : Handle) (tag off : Nat) (wt : W32) : List (Nat × W32) → State → PRes Unit
  | [], s => .ok () s
  | (c, g) :: t, s =>
    (contribute w e h (tag + 600 + c) (off + c * h.elem) wt g s).bind fun _ s => contributions w e h tag off wt t s

/-- The contributions of one lane, tap by tap. -/
def splatTaps (w : Who) (e : Eng) (h : Handle) (lane : Nat) (gs : List (Nat × W32)) : List Fetch → State → PRes Unit
  | [], s => .ok () s
  | f :: fs, s =>
    match f.is with
    | none => splatTaps w e h lane gs fs s
    | some is =>
      (h.lookup e .atomic (tapTag lane f.tap) is s).bind fun r s =>
        match r with
        | .at_ n =>
          (contributions w e h (tapTag lane f.tap) (h.valueOff + n * h.cell) f.w gs s).bind fun _ s =>
            splatTaps w e h lane gs fs s
        | r => splatTaps w e h lane gs fs (noteMiss e h r s)

/-- The contributions of all lanes, in ascending order. -/
def splatLanes (w : Who) (e : Eng) (h : Handle) (vals : Nat → List (Nat × W32)) : List (Nat × Plan) → State → PRes Unit
  | [], s => .ok () s
  | (l, p) :: t, s => (splatTaps w e h l (vals l) p.fetches s).bind fun _ s => splatLanes w e h vals t s

/-! ### The demand path (R295, R312) -/

/-- The engine of a core's demand path, acting for a party. Where the step divides the path's accesses, or has divided them before,
they are recorded (log entry 20). -/
def Who.pathEng (w : Who) (s : State) : Eng :=
  { w.eng s with party := (5, w.core), log := s.split.isSome || s.replies.any fun r => r.party == (5, w.core) }

/-- The order of a request's taps (R304). -/
def DemandKind.order : DemandKind → Nat
  | .cld o _ => o
  | .spl o => o
  | _ => 0

/-- Whether it asks for gradients. -/
def DemandKind.grad : DemandKind → Bool
  | .cld _ g => g
  | _ => false

/-- Whether its operands are indices. -/
def DemandKind.direct : DemandKind → Bool
  | .cld _ _ => false
  | .spl _ => false
  | _ => true

/-- The types of array it accepts (R311). -/
def DemandKind.accepts : DemandKind → Nat → Bool
  | .cld _ _ => sampled
  | .spl _ => sampled
  | .cldi => fun t => t ≤ 4 || t == 6
  | _ => searched

/-- The registers of its result (R319). -/
def DemandKind.width (k : DemandKind) (h : Handle) : Nat :=
  match k with
  | .cld _ g => h.ch * (if g then 1 + h.dim else 1)
  | .cldi => h.ch
  | .spl _ => 0
  | _ => 1

/-- One piece of a request: the words of its result, and whether it missed (R320, R321, R324, R325). -/
def DemandKind.piece (k : DemandKind) (e : Eng) (h : Handle) (p : Plan) (s : State) : PRes (List W32 × Bool) :=
  match k with
  | .cld _ g =>
    if p.invalid then .ok (List.replicate (k.width h) nan32, false) s
    else (h.elements e p.lane p.fetches s).bind fun r s => .ok (h.block g r.1, r.2) s
  | .cldi => (h.elements e p.lane p.fetches s).bind fun r s => .ok (((r.1.head?.map (·.2)).getD []), r.2) s
  | .cfind => findWord e h p s
  | .cins => insertWord e h p s
  | .spl _ => .ok ([], false) s

/-- The party of a request. -/
def DemandReq.who (r : DemandReq) : Who := .group { g := r.grp, x := r.act, act := r.act, pc := r.pc, next := r.pc }
/-- The handle of a request, as it was taken. -/
def DemandReq.handle (r : DemandReq) : Handle := { num := r.num, img := r.img }

/-- What a lane's entry of a list gives. -/
def laneEntry (ls : List (Nat × List W32)) (l : Nat) : List W32 := ((ls.find? fun p => p.1 == l).map (·.2)).getD []

/-- The plans of a request's pieces, or the lane of the first that raises EDGE. -/
def DemandReq.plans (r : DemandReq) : Except Nat (List Plan) :=
  plansOf (fun l => r.handle.plan r.kind.order r.kind.grad r.kind.direct l (laneEntry r.coords l)) (r.coords.map (·.1))

/-- The accesses of a request with some plans performed, lane by lane or piece by piece. -/
def DemandReq.perform (r : DemandReq) (ps : List Plan) (s : State) : PRes Answers :=
  let e := r.who.pathEng s
  match r.kind with
  | .spl _ =>
    let heads := ps.map (·.lane)
    let work := r.vals.filterMap fun v => (ps.find? fun p => p.lane == headAt heads v.1).map fun p => (v.1, p)
    (splatLanes r.who e r.handle (fun l => (laneEntry r.vals l).zipIdx.map fun p => (p.2, p.1)) work s).bind fun _ s =>
      .ok { vals := [], missed := [] } s
  | k => runPlans (k.piece e r.handle) ps s

/-- A request put last on its core's path. -/
def pushReq (r : DemandReq) (s : State) : State := s.updCore (coreOfGroup r.grp) fun k => { k with path := k.path ++ [r] }

/-- The number of the pending result a group would take next. -/
def nextPending (s : State) (g : Nat) : Nat :=
  match Tbl.get? s.groups g with
  | none => 0
  | some q => (Tbl.freeKey q.pending (q.pending.length + 1)).getD 0

/-- A request that arrives (R295): performed at once where the path is free, the step is not divided and none of its accesses has
to wait, else put on the path, `later` being what its issue then leaves (log entry 20). -/
def takeDemand (r : DemandReq) (ps : List Plan) (old s : State) (now : Answers → State → GEff) (later : State → GEff) : GEff :=
  let queued (s : State) : GEff :=
    match later s with
    | .done t => .done (pushReq { r with id := nextPending s r.grp } t)
    | e => e
  if !(s.core (coreOfGroup r.grp)).path.isEmpty || s.split.isSome then queued s
  else
    let begun := startVersion (5, coreOfGroup r.grp) s
    match r.perform ps begun with
    | .ok a s' => now a s'
    | .wait s' => queued (rollback s { s' with versions := s.versions })
    | .fail f s' =>
      let s' := rollback old s'
      .wait (portFailAs r.who { r.who.record s' f.code 2 2 3 with engine := coreEngine r.who.core 2 0 } f s')

/-- Values put into the runs of a register that begin in some lanes. -/
def fillRuns (act : Mask) (v : Nat → W32) : Runs → Nat → Runs
  | [], _ => []
  | r :: t, l => { r with val := if act.getLsbD l then v l else r.val } :: fillRuns act v t (l + r.cnt)

/-- The answers of a request that has been on the path given to its registers and its predicate, which await them. -/
def fillAnswers (r : DemandReq) (ps : List Plan) (a : Answers) (g : Group) : Group :=
  match Tbl.get? g.pending r.id with
  | none => g
  | some p =>
    let heads := ps.map (·.lane)
    let g := p.regs.zipIdx.foldl (fun g q =>
      g.putReg q.1 { g.reg q.1 with
        runs := fillRuns r.act (fun l => (Tbl.get a.vals (headAt heads l) []).getD q.2 0) (g.reg q.1).runs 0 }) g
    match r.pred with
    | some n => g.setPred n r.act (badLanes ps a)
    | none => g

/-- The request at the head of a core's path is over. -/
def popPath (core : Nat) (s : State) : State :=
  (s.dropReplies (5, core)).updCore core fun k => { k with path := k.path.drop 1 }

/-- A request on the path failed: XLATE parks the path, anything else ends the grid or the context (R394). -/
def failReq (r : DemandReq) (f : PFault) (s : State) : State :=
  let base := { r.who.record s f.code 2 2 3 with engine := coreEngine r.who.core 2 0, iaddr := r.pc }
  if f.code = 0x0201 then
    (parkAccess (dieOfCore r.who.core) (s.ctxOfTeam (r.who.team s)) (5, r.who.core) f base s).getD s
  else portFailAs r.who base f s

/-- The request at the head of a core's path begins, where it has not begun: it raises the path's counter, and carries its value
(R372). -/
def beginPath (core : Nat) (r : DemandReq) (s : State) : State :=
  match r.version with
  | some _ => s
  | none =>
    let s := startVersion (5, core) s
    s.updCore core fun k => { k with
      path := { r with version := some (Tbl.get s.versions (versionKey (5, core)) 0) } :: k.path.drop 1 }

/-- The requests of a core's path performed in order, as far as they go (R295). Where the step divides its accesses, those it has
performed stand, and the accesses of other parties may fall between them and the rest (R312); else a request that has to wait is
tried again as a whole (log entry 20). -/
def runPath (core : Nat) : Nat → State → State
  | 0, s => s
  | fuel + 1, s =>
    match (s.core core).path with
    | [] => s
    | r :: _ =>
      if standsBack s (5, core) then s
      else
        let s := beginPath core r (s.replayed (5, core))
        let ps := match r.plans with
          | .ok ps => ps
          | .error _ => []
        match r.perform ps s with
        | .ok a s => runPath core fuel ((popPath core s).updGroup r.grp (fillAnswers r ps a))
        | .wait s' => if s.split.isSome then s' else rollback s s'
        | .fail f s' => failReq r f (rollback s s')

/-! ### Lane requests -/

/-- A lane request that delivers results (R312, R319). Everything is checked before any access is made. -/
def laneRequest (x : Args) (kind : DemandKind) (perLane : Bool) (m : Mem) (s : State) : GEff :=
  let w := Who.group m
  let h := takeHandle s (w.team s) (numOf x.a)
  let xs := regBlock (numOf x.b) h.dim
  let ds := regBlock x.dst.toNat (kind.width h)
  if m.act = 0 then .done s
  else if !h.ok (areaOf s w) then .fault (m.bounds rHANDLE)
  else if !kind.accepts h.typ then .fault (m.bounds rHTYPE)
  else if (xs ++ ds).any (1023 < ·) then .fault (m.bounds rREGS)
  else if regsPending s m.g (xs ++ ds) then .wait s
  else
    let cut := if perLane then fun _ => true else blockCuts m s xs
    let r : DemandReq :=
      { grp := m.g, id := 0, act := m.act, pc := m.pc, kind := kind, num := h.num, img := h.img
        coords := (headsOf m.act cut).map fun l => (l, blockAt m s xs l), vals := [], dst := x.dst.toNat, pred := outPred x }
    match r.plans, Tbl.get? s.groups m.g with
    | .error l, _ => .fault (Cause.bounds rEDGE l)
    | _, none => .done s
    | .ok plans, some g =>
      let none_ : Answers := { vals := [], missed := [] }
      let dry := answerNews m g xs cut none_ ds s
      match writeRegs m xs (if m.act = BitVec.allOnes 32 then [] else ds) dry s with
      | .done _ =>
        takeDemand r plans s s (fun a s' => giveAnswers m x ds plans a (answerNews m g xs cut a ds s) xs s')
          fun s' => giveAnswers m x ds plans none_ dry xs s'
      | e => e

/-- R320: `cld`. -/
def execCld (x : Args) (s : State) : Host.Outcome State Fault Refusal :=
  issueGroup x [] (outPredKeys x) (laneRequest x (.cld (modBits x 2 2) (modBits x 4 1 == 1)) false) s

/-- R321: `cldi`. -/
def execCldi (x : Args) (s : State) : Host.Outcome State Fault Refusal :=
  issueGroup x [] (outPredKeys x) (laneRequest x .cldi false) s

/-- R324: `cfind`. -/
def execCfind (x : Args) (s : State) : Host.Outcome State Fault Refusal :=
  issueGroup x [] (outPredKeys x) (laneRequest x .cfind false) s

/-- R325: `cins`. -/
def execCins (x : Args) (s : State) : Host.Outcome State Fault Refusal :=
  issueGroup x [] (outPredKeys x) (fun m s =>
    match laneRequest x .cins true m s with
    | .done s => .done (storeReset m s)
    | e => e) s

/-- A splat (R322): it does not hold up its group, but for what the group's later releases and handles need of it (R312). -/
def splat (x : Args) (fixed : Bool) (m : Mem) (s : State) : GEff :=
  let w := Who.group m
  let h := takeHandle s (w.team s) (numOf x.a)
  let xs := regBlock (numOf x.b) h.dim
  let gs := regBlock x.dst.toNat h.ch
  if m.act = 0 then .done s
  else if !h.ok (areaOf s w) then .fault (m.bounds rHANDLE)
  else if !sampled h.typ || h.fixed != fixed then .fault (m.bounds rHTYPE)
  else if (xs ++ gs).any (1023 < ·) then .fault (m.bounds rREGS)
  else if regsPending s m.g (xs ++ gs) then .wait s
  else
    let r : DemandReq :=
      { grp := m.g, id := 0, act := m.act, pc := m.pc, kind := .spl (modBits x 2 2), num := h.num, img := h.img
        coords := (headsOf m.act (blockCuts m s xs)).map fun l => (l, blockAt m s xs l)
        vals := (lanesOf m.act).map fun l => (l, blockAt m s gs l), dst := x.dst.toNat, pred := none }
    match r.plans with
    | .error l => .fault (Cause.bounds rEDGE l)
    | .ok plans =>
      match readRegsFree m (xs ++ gs) s with
      | .done s' =>
        takeDemand r plans s s' (fun _ s => .done (storeReset m s)) fun s =>
          .done (storeReset m (s.updGroup m.g fun q => q.await
            { regs := [], lanes := m.act, merge := false, wide := false, kreg := none, demand := true, long := false } false))
      | e => e

/-- R322: `spl`. -/
def execSpl (x : Args) (s : State) : Host.Outcome State Fault Refusal := issueGroup x [] [] (splat x false) s
/-- R322: `spl.x`. -/
def execSplX (x : Args) (s : State) : Host.Outcome State Fault Refusal := issueGroup x [] [] (splat x true) s

/-! ### splres (R323) -/

/-- The slots of the value area. -/
def Handle.valueSlots (h : Handle) : Nat :=
  match h.typ with
  | 1 => h.slots
  | 2 => h.slots
  | 4 => h.lcap
  | _ => h.count

/-- Elements of a value area converted one after another. -/
def resolveFrom (e : Eng) (hs hd : Handle) (clr : Bool) : Nat → Nat → State → PRes Unit
  | 0, _, s => .ok () s
  | n + 1, i, s =>
    let src := hs.valueOff + 8 * i
    let old : PRes Nat :=
      if clr then hs.rmwHome e (2 * i) src 8 6 0 0 s
      else (hs.read e (2 * i) src 8 s).bind fun bs s => .ok (ofBytes bs) s
    old.bind fun v s =>
      let z := (BitVec.ofNat 64 v).toInt
      let out := hd.format.roundS .rn (decide (z < 0)) z.natAbs hs.fixE false
      (hd.write e (2 * i + 1) (hd.valueOff + hd.elem * i) (toBytes out hd.elem) s).bind fun _ s =>
        resolveFrom e hs hd clr n (i + 1) s

/-- Whether two value areas overlap in one space. -/
def areasOverlap (a : Handle) (na : Nat) (b : Handle) (nb : Nat) : Bool :=
  a.home == b.home && decide (a.base + a.valueOff < b.base + b.valueOff + nb) && decide (b.base + b.valueOff < a.base + a.valueOff + na)

/-- The register that receives a token. -/
def tokenReg : Src → Nat
  | .k r => r.toNat
  | .v r => r.toNat
  | _ => 0

/-- The resolve of a party whose accesses are still being made: its entry and its handles' images. -/
def openResolve (w : Who) (s : State) : Option (Nat × BitVec 512 × BitVec 512) :=
  (s.core w.core).demands.findSome? fun p => if p.2.issuer == w.party then p.2.open_.map fun o => (p.1, o) else none

/-- The accesses of a resolve made under its entry (R323). Each is recorded as it is performed: where one has to wait for an answer
the rest goes on from there, and the party issues nothing else meanwhile. `old` is what is left where none has been made. -/
def resolveOpen (w : Who) (x : Args) (entry : Nat) (hs hd : Handle) (old s : State) : GEff :=
  let e : Eng := { w.eng s with own := some entry, log := true }
  let left (s' : State) : State := if busyParty s' w.party then s' else rollback old s'
  match resolveFrom e hs hd (modBits x 4 1 == 1) (hs.valueSlots * hs.ch) 0 s with
  | .ok () s =>
    .done (w.resetBack (markToken w.party (tokenReg x.b) (s.updCore w.core fun k =>
      { k with demands := Tbl.upd k.demands entry fun d => { d with open_ := none } })))
  | .wait s' => .wait (left s')
  | .fail f s' =>
    let s' := left s'
    -- a page that has gone parks the party with its resolve open; after another failure nothing holds the entry
    let s' := if f.code = 0x0201 then s' else s'.updCore w.core fun k =>
      { k with demands := Tbl.erase k.demands entry, locks := Tbl.erase k.locks entry }
    .wait (portFailAs w { w.record s' f.code 2 2 3 with engine := coreEngine w.core 2 0 } f s')

/-- R323: `splres`. -/
def execSplres (x : Args) (s : State) : Host.Outcome State Fault Refusal :=
  issueAny x [] [tokenReg x.b] (fun w s =>
    match openResolve w s with
    | some (entry, a, b) => resolveOpen w x entry { num := numOf x.a, img := a } { num := x.dst.toNat, img := b } s s
    | none =>
      let t := w.team s
      let hs := takeHandle s t (numOf x.a)
      let hd := takeHandle s t x.dst.toNat
      let a := areaOf s w
      let n := hs.valueSlots * hs.ch
      let out := n * hd.elem
      if pathBusy s w.core then .wait s
      else if !hs.ok a || !hd.ok a then .fault (w.cause rHANDLE)
      else if !sampled hs.typ || !hs.fixed then .fault (w.cause rHTYPE)
      else if hd.fixed || hd.typ != hs.typ || hd.ch != hs.ch || hd.valueSlots != hs.valueSlots || areasOverlap hs (8 * n) hd out then
        .fault (w.cause rSHAPE)
      else takeEntries w 1 s fun es s' =>
        let e := w.eng s'
        let op : DemandOp :=
          { team := t, kind := 2, tile := 0, issuer := w.party, token := some (tokenReg x.b, BitVec.ofNat 64 (out * 256))
            open_ := some (hs.img, hd.img) }
        let ivs := [ homeIv e hs.home (hs.base + hs.valueOff) (8 * n) (modBits x 4 1 == 1)
                   , homeIv e hd.home (hd.base + hd.valueOff) out true ]
        resolveOpen w x (es.headD 0) hs hd s (startDemand w.core (es.headD 0) ivs op s')) s

/-- R323: a resolve completes. -/
def execSplresComplete (core op : Nat) (s : State) : Host.Outcome State Fault Refusal :=
  endDemand core op (fun d => d.kind == 2 && d.open_.isNone) s

/-- R310, R319: the results of a demand request land, once the path has performed it. -/
def execCoordResultLand (grp id : Nat) (s : State) : Host.Outcome State Fault Refusal :=
  let core := coreOfGroup grp
  landEvent grp id true (runPath core (s.core core).path.length s)

end Sys2Proof.Machine
end

