-- ==== Sys2Proof/Machine/Copy.lean ====
section
/-! DEFINITION. Bulk copies (R354 to R381): descriptors, slices, range locks, blocks, arrival barriers, completion
records, sealed pages and signals. Spaces are numbered 0 `.sh`, 1 `.sp`, 2 `.mm`. -/

namespace Sys2Proof.Machine

/-! ### Descriptors (R356, R357) -/

/-- The descriptor that 64 bytes hold. -/
def Desc.of (bs : List Byte) : Desc :=
  let w (i : Nat) : Nat := ofBytes ((bs.drop (8 * i)).take 8)
  let v (i : Nat) : W64 := BitVec.ofNat 64 (w i)
  { src := v 0, dst := v 1, xlen := bits (w 2) 0 32, ym1 := bits (w 2) 32 16, zm1 := bits (w 2) 48 16
    sys := v 3, szs := v 4, dys := v 5, dzs := v 6, bar := bits (w 7) 32 32, mask := bits (w 7) 12 4
    id := bits (w 7) 8 4, sigop := bits (w 7) 5 1, baren := bit (w 7) 4, dspace := bits (w 7) 2 2, sspace := bits (w 7) 0 2 }

/-- Whether the reserved fields of the last word are zero. -/
def descClean (bs : List Byte) : Bool :=
  let w := ofBytes (bs.drop 56)
  bits w 16 16 == 0 && bits w 6 2 == 0

/-- The bytes of a slice. -/
def Desc.bytes (d : Desc) : Nat := d.xlen * (d.ym1 + 1) * (d.zm1 + 1)

/-- An address of a side: sums wrap modulo 2^32 on chip, modulo 2^48 in a buffer (R357). -/
def sideAddr (space : Nat) (base : W64) (delta : Int) : Nat :=
  if space = 2 then base.toNat / 2 ^ 48 * 2 ^ 48 + (((base.toNat % 2 ^ 48 : Nat) + delta) % 2 ^ 48).toNat
  else ((base.toNat + delta) % 2 ^ 32).toNat

/-- The address of byte (x, y, z) of the source. -/
def Desc.srcAt (d : Desc) (x y z : Nat) : Nat := sideAddr d.sspace d.src (z * d.szs.toInt + y * d.sys.toInt + x)
/-- The address of byte (x, y, z) of the destination. -/
def Desc.dstAt (d : Desc) (x y z : Nat) : Nat := sideAddr d.dspace d.dst (z * d.dzs.toInt + y * d.dys.toInt + x)

/-- The first addresses of the rows of a side. -/
def Desc.rows (d : Desc) (dst : Bool) : List Nat :=
  (List.range (d.zm1 + 1)).flatMap fun z => (List.range (d.ym1 + 1)).map fun y => if dst then d.dstAt 0 y z else d.srcAt 0 y z

/-- The space of a side. -/
def Desc.space (d : Desc) (dst : Bool) : Nat := if dst then d.dspace else d.sspace

/-- Blocks of a row: parts of at most 256 bytes (R354). -/
def Desc.parts (d : Desc) : Nat := (d.xlen + 255) / 256

/-- Blocks of a slice. -/
def Desc.blocks (d : Desc) : Nat := d.parts * (d.ym1 + 1) * (d.zm1 + 1)

/-- A block: source and destination addresses and bytes. -/
structure Block where
  src : Nat
  dst : Nat
  n : Nat
  d : Desc
  deriving DecidableEq, Repr

/-- Block i of some slices, counted slice by slice, plane by plane, row by row. -/
def blockOf : List Desc → Nat → Option Block
  | [], _ => none
  | d :: ds, i =>
    if i < d.blocks then
      let x := i % d.parts * 256
      let y := i / d.parts % (d.ym1 + 1)
      let z := i / d.parts / (d.ym1 + 1)
      some { src := d.srcAt x y z, dst := d.dstAt x y z, n := min 256 (d.xlen - x), d := d }
    else blockOf ds (i - d.blocks)

/-- The bytes of a copy for one receiver. -/
def Copy.total (c : Copy) : Nat := (c.slices.map Desc.bytes).sum
/-- The blocks of a copy. -/
def Copy.blocks (c : Copy) : Nat := (c.slices.map Desc.blocks).sum
/-- The bytes moved to one receiver. -/
def Copy.movedBytes (c : Copy) : Nat := (c.moved.map fun i => ((blockOf c.slices i).map (·.n)).getD 0).sum

/-! ### Range locks (R364, R365) -/

/-- An interval put into a list: the one of its space, unit and side is widened. -/
def widen (iv : LockIv) : List LockIv → List LockIv
  | [] => [iv]
  | j :: t =>
    if j.space = iv.space && j.unit = iv.unit && j.write == iv.write then { j with lo := min j.lo iv.lo, hi := max j.hi iv.hi } :: t
    else j :: widen iv t

/-- The intervals of one side of a slice. -/
def sideIvs (e : Eng) (d : Desc) (dst : Bool) : List LockIv :=
  (d.rows dst).map fun a => homeIv e (d.space dst) a d.xlen dst

/-- The intervals of a slice; a multicast locks what lies on the issuing core (R364, R365). -/
def sliceIvs (e : Eng) (d : Desc) (receivers : List Nat) : List LockIv :=
  let dst := if receivers.isEmpty then sideIvs e d true
    else (receivers.filter fun t => coreOfTeam t == e.core).flatMap fun t => (sideIvs e d true).map fun i => { i with unit := t }
  sideIvs e d false ++ dst

/-- Whether two operations conflict: one writes a byte that the other reads or writes. -/
def ivsConflict (a b : List LockIv) : Bool :=
  a.any fun i => b.any fun j =>
    i.space == j.space && i.unit == j.unit && (i.write || j.write) && decide (i.lo < j.hi) && decide (j.lo < i.hi)

/-- Whether a copy's start is held (R365). -/
def startHeld (k : Core) (e : Nat) (c : Copy) : Bool :=
  let mine := ((Tbl.get? k.locks e).map (·.ivs)).getD []
  k.locks.any fun p =>
    p.1 != e && ivsConflict mine p.2.ivs &&
      (match Tbl.get? k.copies p.1 with
        | some o => o.st != .collecting && decide (o.order < c.order)
        | none => true)

/-- A copy changed. -/
def State.updCopy (s : State) (core e : Nat) (f : Copy → Copy) : State :=
  s.updCore core fun k => { k with copies := Tbl.upd k.copies e f }

/-- Whether a held copy has still to wait for one that was held before it (R365). -/
def behindHeld (k : Core) (c : Copy) : Bool :=
  c.wasHeld && k.copies.any fun p => p.2.st == .held && p.2.wasHeld && p.2.status == 0 && decide (p.2.order < c.order)

/-! ### Arrival barriers (R366, R367) -/

/-- A barrier. -/
structure Bar where
  arrived : Nat
  expect : Nat
  rsv : Nat
  armed : Bool
  phase : Nat
  pending : Nat
  deriving DecidableEq, Repr

/-- The barrier at an offset of a team's shared memory. -/
def readBar (s : State) (t off : Nat) : Bar :=
  let w0 := Memory.readLE s.mem ((Space.shared t).key off) 8
  let w1 := Memory.readLE s.mem ((Space.shared t).key (off + 8)) 8
  { arrived := w0 / 2 ^ 32, expect := w0 % 2 ^ 32, rsv := w1 / 2 ^ 49, armed := bit w1 48, phase := bits w1 32 16, pending := w1 % 2 ^ 32 }

/-- A barrier written back. -/
def writeBar (t off : Nat) (b : Bar) (s : State) : State :=
  let w0 := b.arrived % 2 ^ 32 * 2 ^ 32 + b.expect
  let w1 := b.rsv * 2 ^ 49 + (if b.armed then 2 ^ 48 else 0) + b.phase % 2 ^ 16 * 2 ^ 32 + b.pending % 2 ^ 32
  { s with mem := Memory.writeN s.mem ((Space.shared t).key off) (toBytes w0 8 ++ toBytes w1 8) }

/-- Bytes counted at a barrier; a phase whose bytes have all arrived completes. -/
def Bar.count (b : Bar) (k : Nat) : Bar :=
  let b := { b with arrived := (b.arrived + k) % 2 ^ 32 }
  if b.arrived = b.expect then { b with phase := (b.phase + 1) % 2 ^ 16, armed := false } else b

/-- PENDING less some bytes. -/
def Bar.release (b : Bar) (k : Nat) : Bar := { b with pending := (b.pending + 2 ^ 32 - k % 2 ^ 32) % 2 ^ 32 }

/-- Whether a barrier accepts some bytes. -/
def Bar.accepts (b : Bar) (k : Nat) : Bool := b.armed && decide (b.arrived + b.pending + k ≤ b.expect)

/-! ### Issuing slices (R358, R359, R377, R378) -/

/-- The rank of a team in its cluster, and the cluster's size. -/
def rankOf (s : State) (t : Nat) : Nat × Nat :=
  match Tbl.get? s.teams t with
  | none => (0, 1)
  | some tm =>
    let n := ((s.gridOf tm).map (·.header.cluster)).getD 1
    (tm.lin % n, n)

/-- The teams of the cluster that a mask names, with their ranks, where they are resident. -/
def clusterTeams (s : State) (t mask : Nat) : List (Nat × Option Nat) :=
  match Tbl.get? s.teams t with
  | none => []
  | some tm =>
    let (r, n) := rankOf s t
    ((List.range n).filter fun i => bit mask i).map fun i =>
      (i, Tbl.findKey s.teams fun _ q => q.grid == tm.grid && q.lin == tm.lin - r + i)

/-- The first row of a side whose bytes do not all lie in its space (R358). -/
def badRow (a : Area) (d : Desc) (dst : Bool) : Option Nat :=
  if d.space dst = 2 then none else (d.rows dst).find? fun r => !a.ok (d.space dst) r d.xlen

/-- The collecting slot a slice names. -/
def openSlot (k : Core) (t id : Nat) : Option Nat :=
  Tbl.findKey k.copies fun _ c => c.team == t && c.st == .collecting && c.id == id && c.kind != 3

/-- A free copy entry. -/
def freeCopy (k : Core) : Option Nat := (List.range 64).find? fun e => (Tbl.get? k.copies e).isNone && (Tbl.get? k.locks e).isNone

/-- Whether a descriptor fails with DESC (R358, R369, R378). -/
def descBad (kind : Nat) (bs : List Byte) (d : Desc) (before : Nat) : Bool :=
  !descClean bs || d.sspace == 3 || d.dspace == 3 || d.xlen == 0 ||
  (d.sspace != 2 && hi32 d.src != 0) || (d.dspace != 2 && hi32 d.dst != 0) ||
  d.bar % 16 != 0 || (d.baren && d.dspace != 0) || decide (2 ^ 40 ≤ before + d.bytes) ||
  (d.sigop == 1 && kind != 3) || (d.mask != 0 && kind != 1) ||
  (kind == 1 && (!d.baren || d.dspace != 0)) || (kind == 3 && d.id != 0)

/-- Whether a slice does not fit the open slot it names (R359). -/
def sliceBad (kind n : Nat) (d : Desc) (c : Copy) : Bool :=
  match c.slices with
  | [] => false
  | f :: _ => c.kind != kind || c.n != n || f.baren != d.baren || f.bar != d.bar || f.mask != d.mask

/-- BOUNDS with reason ADDR of a party. -/
def Who.addrCause (w : Who) (addr space : Nat) : Cause :=
  match w with
  | .group _ => Cause.boundsAddr w.lane addr space
  | .wick _ => { Cause.boundsAddr 0 addr space with lane := 255 }

/-- ALIGN of a party on chip. -/
def Who.alignCause (w : Who) (addr space : Nat) : Cause :=
  match w with
  | .group _ => Cause.align w.lane addr space
  | .wick _ => { Cause.align 0 addr space with lane := 255 }

/-- A slice added to its copy, which is held for its start once it has all of them. -/
def addSlice (w : Who) (kind n token : Nat) (d : Desc) (signal : Option (Nat × W64 × W64 × Bool)) (e : Nat) (s : State) : State :=
  let t := w.team s
  let eng := w.eng s
  let recv := if kind = 1 then (clusterTeams s t d.mask).filterMap (·.2) else []
  let s := s.updCore w.core fun k =>
    let c := (Tbl.get? k.copies e).getD
      { team := t, ctx := eng.ctx, grid := ((Tbl.get? s.teams t).map (·.grid)).getD 0, kind := kind, n := n, id := d.id, slices := []
        issuers := [], st := .collecting, order := 0, receivers := [], moved := [], flying := [], bytes := 0, refuse := 0
        status := 0, failed := false, wasHeld := false, seq := 0, signal := signal, version := 0 }
    let c := { c with slices := c.slices ++ [d], issuers := c.issuers ++ [(w.party, token)] }
    let full := c.slices.length = n
    let c := if full then { c with st := .held, order := k.copyOrder } else c
    let ivs := (sliceIvs eng d recv).foldl (fun l i => widen i l) (((Tbl.get? k.locks e).map (·.ivs)).getD [])
    { k with copies := Tbl.set k.copies e c, locks := Tbl.set k.locks e { ivs := ivs, owner := e }
             copyOrder := if full then k.copyOrder + 1 else k.copyOrder }
  let s := s.updCopy w.core e fun c => { c with wasHeld := c.st == .held && startHeld (s.core w.core) e c }
  markToken w.party token s

/-- The address checks of a slice on chip: source, destination, barrier (R358). -/
def sliceAddr (w : Who) (d : Desc) (s : State) : Option Cause :=
  let a := areaOf s w
  match badRow a d false, badRow a d true with
  | some r, _ => some (w.addrCause r d.sspace)
  | none, some r => some (w.addrCause r d.dspace)
  | none, none => if d.baren && !a.ok 0 d.bar 16 then some (w.addrCause d.bar 0) else none

/-- The checks of the signal word of a `wsig` (R370): alignment, then its place on chip. -/
def signalCause (w : Who) (d : Desc) (sig : W64) (s : State) : Option Cause :=
  let a := if d.dspace = 2 then sig.toNat else (lo32 sig).toNat
  if a % 8 != 0 then
    some (if d.dspace = 2 then { Cause.alignMM w.lane a with lane := match w with
      | .group _ => w.lane
      | .wick _ => 255 } else w.alignCause a d.dspace)
  else if d.dspace != 2 && !(areaOf s w).ok d.dspace a 8 then some (w.addrCause a d.dspace)
  else none

/-- One slice issued: the checks of R377 in order, then its part of R359, R361 and R364. -/
def issueSlice (x : Args) (kind : Nat) (count : W64) (signal : Option (W64 × W64)) (w : Who) (s : State) : GEff :=
  let a := areaOf s w
  let addr := (lo32 (w.uni s x.a)).toNat
  if addr % 64 != 0 then .fault (w.alignCause addr 0)
  else if !a.ok 0 addr 64 then .fault (w.addrCause addr 0)
  else
    let bs := Memory.readN s.mem (a.key 0 addr) 64
    let d := Desc.of bs
    let t := w.team s
    let k := s.core w.core
    let slot := if kind = 3 then none else openSlot k t d.id
    let open_ := slot.bind fun e => Tbl.get? k.copies e
    let n := count.toNat
    if descBad kind bs d ((open_.map Copy.total).getD 0) then .fault (w.cause rDESC)
    else if n = 0 || 33 < n || (open_.map (sliceBad kind n d)).getD false then .fault (w.cause rSLICE)
    else if kind = 1 && (d.mask == 0 || decide (2 ^ (rankOf s t).2 ≤ d.mask)) then .fault (w.cause rMCMASK)
    else
      match sliceAddr w d s, signal.bind fun g => signalCause w d g.1 s with
      | some c, _ => .fault c
      | none, some c => .fault c
      | none, none =>
        -- the copy follows every access that its issuers made before their slices (R360)
        let go (e : Nat) : GEff :=
          if w.owesPath s then .wait s else .done (w.resetBack (addSlice w kind n x.dst.toNat d (signal.map fun g => (d.dspace, g.1, g.2, false)) e s))
        match a.lockHit s 0 addr 64 false, w with
        | some e, .group _ => .fault (Cause.rangeLock w.lane e addr 0)
        | some _, .wick _ => .wait s
        | none, _ =>
          match slot with
          | some e => go e
          | none =>
            match freeCopy k with
            | some e => go e
            | none => .wait s

/-- A copy instruction. -/
def issueCopy (x : Args) (kind : Nat) (s : State) : Host.Outcome State Fault Refusal :=
  issueAny x [] [x.dst.toNat] (fun w s => issueSlice x kind (w.uni s x.b) none w s) s

/-- R377: `bcp`. -/
def execBcp (x : Args) (s : State) : Host.Outcome State Fault Refusal := issueCopy x 0 s
/-- R377: `bcp.mc`. -/
def execBcpMc (x : Args) (s : State) : Host.Outcome State Fault Refusal := issueCopy x 1 s
/-- R377: `bcp.v`. -/
def execBcpV (x : Args) (s : State) : Host.Outcome State Fault Refusal := issueCopy x 2 s

/-- R378: `wsig`. -/
def execWsig (x : Args) (s : State) : Host.Outcome State Fault Refusal :=
  issueAny x [] [x.dst.toNat] (fun w s => issueSlice x 3 1 (some (w.uni s x.b, w.uni s x.c)) w s) s

/-! ### Sealed pages (R371, R435, R437) -/

/-- The offset of the hash tree of a sealed buffer. -/
def BufEntry.tail (e : BufEntry) : Nat := (e.length + 2 ^ 17 - 1) / 2 ^ 17 * 2 ^ 17

/-- Bytes that a port reads for itself, without the checks of R422 and for no core (R435). -/
def ownRead (ctx buf : Nat) (e : BufEntry) (off n : Nat) (s : State) : PRes (List Byte) :=
  let parts := lineParts off n
  (checkPages (9, 0) ctx buf e parts s).bind fun _ s => readParts (9, 0) ctx buf e parts s

/-- Bytes that it writes for itself. -/
def ownWrite (ctx buf : Nat) (e : BufEntry) (off : Nat) (bs : List Byte) (s : State) : PRes Unit :=
  let parts := lineParts off bs.length
  (checkPages (9, 0) ctx buf e parts s).bind fun _ s => writeParts (9, 0) ctx buf e parts bs s

/-- The plaintext of a page, padded with zeros. -/
def pagePlain (ctx buf : Nat) (e : BufEntry) (page : Nat) (s : State) : PRes (List Byte) :=
  let n := min (2 ^ 17) (e.length - page * 2 ^ 17)
  (ownRead ctx buf e (page * 2 ^ 17) n s).bind fun bs s => .ok (bs ++ List.replicate (2 ^ 17 - n) 0) s

/-- VERIFIED of a page set or cleared by a write of part of its granule (R431); the firmware's buffers have no page map (R385). -/
def setVerified (ctx : Nat) (e : BufEntry) (page : Nat) (v : Bool) (s : State) : PRes Unit :=
  match (if ctx = Config.firmwareCtx then none else pmapKey s e page) with
  | none => .ok () s
  | some k => atHome k s (
    let b := Memory.read s.mem k &&& 0xEF
    eccWrite k [if v then b ||| 0x10 else b] s)

/-- Whether a page has passed verification since its buffer was sealed (R423). -/
def pageVerified (ctx : Nat) (e : BufEntry) (page : Nat) (s : State) : PRes Bool :=
  if ctx = Config.firmwareCtx then .ok false s else (readMapEntry s e page).bind fun w s => .ok (w.getLsbD 4) s

/-- A page checked against its leaf, where it has not been, and marked (R437); whether it matches. -/
def verifyPage (ctx buf : Nat) (e : BufEntry) (p : Nat) (s : State) : PRes Bool :=
  (pageVerified ctx e p s).bind fun v s =>
    if v then .ok true s
    else
      (pagePlain ctx buf e p s).bind fun bs s =>
        (ownRead ctx buf e (e.tail + 32 * p) 32 s).bind fun leaf s =>
          if leaf == toBytes (sm3 bs).toNat 32 then (setVerified ctx e p true s).bind fun _ s => .ok true s else .ok false s

/-- The pages of a read that `bcp.v` makes are verified, each the first time it is read; whether all of them match, or the
first that does not. -/
def verifyPages (ctx buf : Nat) (e : BufEntry) : List Nat → State → PRes (Option Nat)
  | [], s => .ok none s
  | p :: ps, s =>
    ((verifyPage ctx buf e p s).undone s).bind fun ok s => if ok then verifyPages ctx buf e ps s else .ok (some p) s

/-- A read of a local sealed buffer whose pages are verified first (R371, R437). -/
def verifiedRead (p : Party) (tag ctx ptr n : Nat) (e : BufEntry) (s : State) : PRes (List Byte) :=
  let off := ptr % 2 ^ 48
  let pages := (List.range ((off + n - 1) / 2 ^ 17 - off / 2 ^ 17 + 1)).map (off / 2 ^ 17 + ·)
  ((verifyPages ctx (ptr / 2 ^ 48) e pages s).named ptr n .verify).bind fun bad s =>
    match bad with
    | some page => .fail { code := 0x0303, detail := page, kind := 1, ptr := ptr, size := n } s
    | none => portRead p tag ctx ptr n .verify true s

/-! ### Blocks -/

/-- The party of a copy. -/
def copyParty (core e : Nat) : Party := (3, core * 64 + e)

/-- A copy as an engine operation. -/
def Copy.eng (c : Copy) (core e : Nat) (s : State) : Eng :=
  { party := copyParty core e, core := core, team := c.team, ctx := c.ctx
    area := { core := core, team := c.team, group := 0, shared := ((Tbl.get? s.teams c.team).map (·.shared)).getD 0, spill := 0 }
    own := none, lane := 0 }

/-- The record of a copy. -/
def Copy.record (c : Copy) (core e : Nat) (s : State) (code cls sev recov : Nat) : RecIn :=
  { code := code, cls := cls, sev := sev, recov := recov, engine := coreEngine core 4 e, ctx := c.ctx, grid := c.grid
    team := ((Tbl.get? s.teams c.team).map (·.lin)).getD 0xFFFFFFFF }

/-- R360, R367: a copy that starts reserves its bytes at one receiver's barrier, which may refuse it. -/
def reserveAt (core e : Nat) (c : Copy) (rank : Nat) (t : Option Nat) (s : State) : State :=
  let off := (c.slices.head?.map (·.bar)).getD 0
  let refused :=
    let r := { c.record core e s 0x0301 3 0 1 with detail := 2 ^ rank + off * 2 ^ 32 }
    let (s, seq) := logRecord s r true
    s.updCopy core e fun c => { c with refuse := c.refuse ||| 2 ^ rank, seq := if c.seq = 0 then seq else c.seq }
  match t, t.map fun t => readBar s t off with
  | some t, some b =>
    if b.accepts c.total then
      (writeBar t off { b with pending := b.pending + c.total } s).updCopy core e fun c => { c with receivers := c.receivers ++ [(rank, t)] }
    else refused
  | _, _ => refused

/-- The same at each receiver's barrier, in their order. -/
def reserve (core e : Nat) (c : Copy) (ts : List (Nat × Option Nat)) (s : State) : State :=
  ts.foldl (fun s p => reserveAt core e c p.1 p.2 s) s

/-- R360, R365, R367: a copy starts. -/
def execCopyStart (core copy : Nat) (s : State) : Host.Outcome State Fault Refusal :=
  match Tbl.get? (s.core core).copies copy with
  | none => .next s
  | some c =>
    if c.st != .held || c.status != 0 then .next s
    else if startHeld (s.core core) copy c then .next (s.updCopy core copy fun c => { c with wasHeld := true })
    else if behindHeld (s.core core) c then .next s
    else
      let s := startVersion (copyParty core copy) (s.updCopy core copy fun c => { c with st := .running })
      let d := c.slices.head?
      let rank := (rankOf s c.team).1
      if (d.map (·.baren)).getD false then
        .next (reserve core copy c (if c.kind = 1 then clusterTeams s c.team ((d.map (·.mask)).getD 0) else [(rank, some c.team)]) s)
      else .next (s.updCopy core copy fun c => { c with receivers := [(rank, c.team)] })

/-- STATUS of a port failure (R362). -/
def copyStatus (code : Nat) : Nat :=
  if 0x0202 ≤ code && code ≤ 0x0204 then 3
  else if code = 0x0205 || code = 0x0206 then 4
  else if code = 0x0207 then 5
  else if code = 0x0302 then 6
  else if code = 0x0303 || code = 0x1303 then 7
  else if code = 0x0208 || code = 0x0209 then 8
  else 9

/-- A copy stops issuing blocks, with a status and the number of its record (R373). -/
def stopCopy (core e status seq : Nat) (s : State) : State :=
  s.updCopy core e fun c =>
    if c.status = 0 then { c with status := status, seq := if c.seq = 0 then seq else c.seq } else c

/-- A block no longer under way. -/
def landBlock (core e block : Nat) (s : State) : State :=
  let p := copyParty core e
  { s.updCopy core e (fun c => { c with flying := c.flying.filter (· != block), part := Tbl.erase c.part block }) with
    replies := s.replies.filter fun r => !(r.party == p && (r.tag == 2 * block || r.tag == 2 * block + 1)) }

/-- A block's access failed: XLATE parks it, anything else stops the copy, which emits one record (R373). -/
def blockFailed (core e block : Nat) (c : Copy) (f : PFault) (s : State) : State :=
  if f.code = 0x0201 then
    match parkAccess (dieOfCore core) c.ctx (copyParty core e) f (c.record core e s f.code 2 2 2) s with
    | some s => s
    | none => s
  else
    let r := if f.code = 0x0303 then { c.record core e s 0x0303 3 2 7 with akind := 1, addr := f.ptr, detail := f.detail }
      else f.record (c.record core e s f.code 2 2 3)
    -- a page that fails at a remote device has its record there
    let (s, seq) := if f.code = 0x1303 || c.failed then (s, 0) else logRecord s r true
    let s := s.updCopy core e fun c => { c with failed := true, seq := if c.seq = 0 then seq else c.seq }
    landBlock core e block (stopCopy core e (copyStatus f.code) seq s)

/-- The source of a block read. -/
def readSource (core e tag : Nat) (c : Copy) (b : Block) (s : State) : PRes (List Byte) :=
  let eng := c.eng core e s
  if b.d.sspace != 2 then
    if homeUp s b.d.sspace b.src then
      (if c.kind = 2 then
        .fail { ({ code := 0x0204, akind := 2 } : PFault).at b.src b.n .verify with ptr := b.d.sspace * 2 ^ 32 + b.src } s
       else .ok (Memory.readN s.mem (eng.area.key b.d.sspace b.src) b.n) s)
    else awayHome s b.src
  else if c.kind != 2 then eng.readMain tag b.src b.n .read s
  else
    match checkEntry s c.ctx b.src b.n .verify true with
    | .error code => .fail (({ code := code } : PFault).at b.src b.n .verify) s
    | .ok ent =>
      if ent.home = 1 then portRead eng.party tag c.ctx b.src b.n .verify true s
      else verifiedRead eng.party tag c.ctx b.src b.n ent s

/-- A block written to its destination in one receiving team. -/
def writeDest (core e tag : Nat) (c : Copy) (b : Block) (team : Nat) (bs : List Byte) (s : State) : PRes Unit :=
  let eng := c.eng core e s
  match b.d.dspace with
  | 2 => (portWrite eng.party tag c.ctx b.dst bs .write true s).bind fun _ s => .ok () (fcDrop core c.ctx b.dst bs.length s)
  | 1 =>
    if homeUp s 1 b.dst then .ok () { s with mem := Memory.writeN s.mem (eng.area.key 1 b.dst) bs } else awayHome s b.dst
  | _ => .ok () { s with mem := Memory.writeN s.mem ((Space.shared team).key b.dst) bs }

/-- A block written to every accepting receiver. -/
def writeDests (core e tag : Nat) (c : Copy) (b : Block) (bs : List Byte) : List (Nat × Nat) → State → PRes Unit
  | [], s => .ok () s
  | (_, t) :: rest, s => (writeDest core e tag c b t bs s).bind fun _ s => writeDests core e tag c b bs rest s

/-- The units of a block's destination, each within eight aligned bytes: where it begins in the block, and its bytes (R209). -/
def Block.units (b : Block) : List (Nat × Nat) :=
  (List.range ((b.dst + b.n - 1) / 8 - b.dst / 8 + 1)).map fun i =>
    let lo := max b.dst ((b.dst / 8 + i) * 8)
    (lo - b.dst, min (b.dst + b.n) ((b.dst / 8 + i) * 8 + 8) - lo)

/-- One unit of a block written on chip in one receiving team. -/
def writeUnit (core e : Nat) (c : Copy) (b : Block) (bs : List Byte) (i : Nat) (s : State) : State :=
  match c.receivers[i / 64]?, b.units[i % 64]? with
  | some r, some u =>
    let key := if b.d.dspace = 1 then (c.eng core e s).area.key 1 (b.dst + u.1) else (Space.shared r.2).key (b.dst + u.1)
    { s with mem := Memory.writeN s.mem key ((bs.drop u.1).take u.2) }
  | _, _ => s

/-- The writes of a block on chip where steps divide them: this step makes those that its mask names, and, where it is not
divided, all that are left (R368, log entry 20). -/
def writeUnits (core e block : Nat) (c : Copy) (b : Block) (bs : List Byte) (left : List Nat) (s : State) : PRes Unit :=
  if b.d.dspace = 1 && !homeUp s 1 b.dst then awayHome s b.dst
  else
    let rest := match s.split with
      | some m => left.filter fun i => !bit m i
      | none => []
    let s := (left.filter fun i => !rest.contains i).foldl (fun s i => writeUnit core e c b bs i s) s
    if rest.isEmpty then .ok () s
    else .wait (s.updCopy core e fun c => { c with part := Tbl.set c.part block (bs, rest) })

/-- All the units of a block, receiver by receiver. -/
def allUnits (c : Copy) (b : Block) : List Nat :=
  (List.range c.receivers.length).flatMap fun r => (List.range b.units.length).map fun u => 64 * r + u

/-- A block read and written, or the rest of one whose writes have been divided. -/
def moveBlock (core e block : Nat) (c : Copy) (b : Block) (s : State) : PRes Unit :=
  match Tbl.get? c.part block with
  | some p => writeUnits core e block c b p.1 p.2 s
  | none =>
    (readSource core e (2 * block) c b s).bind fun bs s =>
      if s.split.isSome && b.d.dspace != 2 then writeUnits core e block c b bs (allUnits c b) s
      else writeDests core e (2 * block + 1) c b bs c.receivers s

/-- The arrival of a block at the barriers of its receivers (R367). -/
def countArrival (b : Block) (c : Copy) (s : State) : State :=
  if b.d.baren then
    let off := (c.slices.head?.map (·.bar)).getD 0
    c.receivers.foldl (fun s r => writeBar r.2 off (((readBar s r.2 off).release b.n).count b.n) s) s
  else s

/-- The answer to a block's write that has been sent to another device; none where none has been sent. -/
def sentBlock (core e block : Nat) (s : State) : Option (PRes Unit) :=
  let p := copyParty core e
  let tag := 2 * block + 1
  match s.replies.find? fun r => r.party == p && r.tag == tag with
  | some r => some (if r.ok then .ok () s else .fail { code := r.code, ptr := r.ptr.toNat, detail := r.seq } s)
  | none => if s.txns.any fun t => t.2.party == p && t.2.tag == tag then some (.wait s) else none

/-- Whether a copy has blocks to move. -/
def Copy.moves (c : Copy) : Bool :=
  c.st == .running && !c.receivers.isEmpty && (!c.flying.isEmpty || (c.status == 0 && decide (c.moved.length < c.blocks)))

/-- The copy of a core whose turn comes next, in rotation over those that move blocks (R354). -/
def nextCopy (s : State) (core : Nat) : Option Nat :=
  ((List.range 64).map fun i => ((s.core core).copyTurn + 1 + i) % 64).find? fun e =>
    match Tbl.get? (s.core core).copies e with
    | some c => c.moves && !standsBack s (copyParty core e)
    | none => false

/-- R354, R367: a block of the copy whose turn it is is moved, as far as the answers it needs have come. -/
def execCopyBlock (core copy block : Nat) (s : State) : Host.Outcome State Fault Refusal :=
  match Tbl.get? (s.core core).copies copy with
  | none => .next s
  | some c =>
    match blockOf c.slices block with
    | none => .next s
    | some b =>
      if nextCopy s core != some copy || c.moved.contains block || (c.status != 0 && !c.flying.contains block) then .next s
      else
        let s := (s.updCore core fun k => { k with copyTurn := copy }).replayed (copyParty core copy)
        let done := (sentBlock core copy block s).getD (moveBlock core copy block c b s)
        match done with
        | .ok () s =>
          let s := s.updCopy core copy fun c =>
            { c with moved := block :: c.moved, bytes := c.bytes + b.n * c.receivers.length }
          .next (countArrival b c (landBlock core copy block s))
        | .wait s =>
          .next (s.updCopy core copy fun c => if c.flying.contains block then c else { c with flying := block :: c.flying })
        | .fail f s =>
          .next (blockFailed core copy block c f
            (s.updCopy core copy fun c => if c.flying.contains block then c else { c with flying := block :: c.flying }))

/-! ### Signals and completion -/

/-- Whether all that a copy was to move has been moved. -/
def Copy.drained (c : Copy) : Bool :=
  c.flying.isEmpty && (c.status != 0 || c.receivers.isEmpty || decide (c.moved.length = c.blocks))

/-- Whether a `wsig` has still to write its signal. -/
def Copy.owesSignal (c : Copy) : Bool :=
  c.status == 0 && c.refuse == 0 && (match c.signal with
    | some (_, _, _, written) => !written
    | none => false)

/-- The tag of a signal's access. -/
def signalTag (c : Copy) : Nat := 2 * c.blocks

/-- The signal word stored or added to at its home. -/
def writeSignal (core e : Nat) (c : Copy) (space : Nat) (addr v : W64) (s : State) : PRes Unit :=
  let eng := c.eng core e s
  let add := (c.slices.head?.map (·.sigop)).getD 0 = 1
  if space = 2 then
    let kind : AKind := if add then .atomic else .write
    match checkEntry s c.ctx addr.toNat 8 kind true with
    | .error code => .fail (({ code := code } : PFault).at addr.toNat 8 kind) s
    | .ok ent =>
      if ent.home = 1 then
        (remoteCall eng.party (signalTag c) 7 (if add then 1 else 0) ent addr.toNat 8 (toBytes v.toNat 8) s).bind fun _ s => .ok () s
      else if add then
        (portAtomic eng.party (signalTag c) c.ctx addr.toNat 8 0 false v.toNat 0 true s).bind fun _ s => .ok () s
      else portWrite eng.party (signalTag c) c.ctx addr.toNat (toBytes v.toNat 8) .write true s
  else
    let a := (lo32 addr).toNat
    if homeUp s space a then
      let k := eng.area.key space a
      .ok () { s with mem := Memory.writeLE s.mem k 8 (if add then (Memory.readLE s.mem k 8 + v.toNat) % 2 ^ 64 else v.toNat) }
    else awayHome s a

/-- R370: the signal of a `wsig` whose bytes have all been acknowledged. -/
def execWsigSignal (core copy : Nat) (s : State) : Host.Outcome State Fault Refusal :=
  match Tbl.get? (s.core core).copies copy with
  | none => .next s
  | some c =>
    match c.signal with
    | none => .next s
    | some (space, addr, v, _) =>
      if c.st != .running || !c.drained || !c.owesSignal || standsBack s (copyParty core copy) then .next s
      else
        let s := s.replayed (copyParty core copy)
        match writeSignal core copy c space addr v s with
        | .ok () s => .next ((s.updCopy core copy fun c => { c with signal := some (space, addr, v, true) }).dropReplies (copyParty core copy))
        | .wait s => .next s
        | .fail f s => .next (blockFailed core copy c.blocks c f s)

/-- The completion record (R361). -/
def Copy.token (c : Copy) : W64 :=
  let status := if c.status != 0 then c.status else if c.refuse != 0 then 1 else 0
  BitVec.ofNat 64 (c.seq % 2 ^ 16 * 2 ^ 48 + c.bytes % 2 ^ 40 * 2 ^ 8 + c.refuse * 2 ^ 4 + status)

/-- A copy ends: its reservations and its lock are released, its record written into every token (R361, R367). -/
def endCopy (core e : Nat) (c : Copy) (s : State) : State :=
  let left := c.total - c.movedBytes
  let off := (c.slices.head?.map (·.bar)).getD 0
  let s := if (c.slices.head?.map (·.baren)).getD false then
      c.receivers.foldl (fun s r => writeBar r.2 off ((readBar s r.2 off).release left) s) s
    else s
  let s := c.issuers.foldl (fun s i => giveToken i.1 i.2 c.token s) s
  (s.updCore core fun k => { k with copies := Tbl.erase k.copies e, locks := Tbl.erase k.locks e }).dropReplies (copyParty core e)

/-- R361: a copy completes. -/
def execCopyComplete (core copy : Nat) (s : State) : Host.Outcome State Fault Refusal :=
  match Tbl.get? (s.core core).copies copy with
  | none => .next s
  | some c =>
    if (c.st == .running && c.drained && !c.owesSignal) || (c.st == .held && c.status != 0) then .next (endCopy core copy c s)
    else .next s

/-! ### Barriers as instructions (R379) -/

/-- A barrier instruction: ALIGN, BOUNDS, then the locks; `f` performs the read-modify-write. -/
def barrierOp (x : Args) (w : Who) (s : State) (f : Nat → Nat → Bar → GEff) : GEff :=
  let a := areaOf s w
  let addr := (lo32 (w.uni s x.a)).toNat
  if addr % 16 != 0 then .fault (w.alignCause addr 0)
  else if !a.ok 0 addr 16 then .fault (w.addrCause addr 0)
  else
    match a.lockHit s 0 addr 16 true, w with
    | some e, .group _ => .fault (Cause.rangeLock w.lane e addr 0)
    | some _, .wick _ => .wait s
    | none, _ => f (w.team s) addr (readBar s (w.team s) addr)

/-- A result for a register of a party: in group code it is under way. -/
def giveK (w : Who) (n : Nat) (v : W64) (s : State) : State :=
  match w with
  | .wick _ => w.setNum n v s
  | .group m => (w.setNum n v s).updGroup m.g fun q => q.await
      { regs := [], lanes := m.act, merge := false, wide := false, kreg := some n, demand := false, long := false } false

/-- R379: `abinit`. -/
def execAbinit (x : Args) (s : State) : Host.Outcome State Fault Refusal :=
  issueAny x [] [x.dst.toNat] (fun w s =>
    barrierOp x w s fun t off b =>
      let n := (w.uni s x.b).toNat
      if b.armed then .fault (w.cause rBARARMED)
      else if n = 0 || 2 ^ 32 ≤ n then .fault (w.cause rBARCNT)
      else
        let s := writeBar t off { b with expect := n, arrived := 0, pending := 0, armed := true } s
        .done (w.resetBack (giveK w x.dst.toNat (BitVec.ofNat 64 b.phase) s))) s

/-- R379: `abwait`. -/
def execAbwait (x : Args) (s : State) : Host.Outcome State Fault Refusal :=
  issueAny x [] [] (fun w s =>
    barrierOp x w s fun _ _ b => if (w.uni s x.b).toNat % 2 ^ 16 = b.phase then .wait s else .done s) s

/-- R379: `abarr`. -/
def execAbarr (x : Args) (s : State) : Host.Outcome State Fault Refusal :=
  issueAny x [] [] (fun w s =>
    barrierOp x w s fun t off b =>
      let n := (w.uni s x.b).toNat
      if !b.accepts n then .fault (w.cause rBARSTATE)
      else if w.owesPath s then .wait s
      else .done (w.resetBack (writeBar t off (b.count n) s))) s

/-! ### tokwait, bcancel and bpf -/

/-- Whether a register of a party holds the token of an operation that has not completed. -/
def tokenPending (s : State) (p : Party) (n : Nat) : Bool :=
  if p.1 = 0 then Tbl.get (((Tbl.get? s.groups p.2).map (·.ktok)).getD []) n 0 != 0
  else Tbl.get (((Tbl.get? s.teams p.2).map (·.stok)).getD []) n 0 != 0

/-- A register of a number, k in group code and s in Wick code. -/
def Who.num (w : Who) (s : State) (n : Nat) : W64 :=
  match w with
  | .group m => ((Tbl.get? s.groups m.g).map (·.k n)).getD 0
  | .wick t => s.sreg t n

/-- R380: `tokwait`. -/
def execTokwait (x : Args) (s : State) : Host.Outcome State Fault Refusal :=
  let n := numOf x.a
  let d := x.dst.toNat
  let try_ := modBits x 4 1 = 1
  issueAny x [] (if try_ then (if d = n then [] else [d]) else [d, n]) (fun w s =>
    if try_ && tokenPending s w.party n then (if d = n then .done s else .done (w.setNum d (BitVec.allOnes 64) s))
    else .done (w.setNum d (w.num s n) s)) s

/-- The copy whose token a register of a party awaits. -/
def copyOfToken (k : Core) (p : Party) (n : Nat) : Option Nat := Tbl.findKey k.copies fun _ c => c.issuers.contains (p, n)

/-- Whether the signal of a `wsig` has been written, or is with another device: it is cancelled no more (R370). -/
def signalSent (core e : Nat) (c : Copy) (s : State) : Bool :=
  (match c.signal with
    | some (_, _, _, written) => written
    | none => false) ||
  (s.txns.any fun t => t.2.party == copyParty core e && t.2.tag == signalTag c) ||
  s.replies.any fun r => r.party == copyParty core e && r.tag == signalTag c

/-- R380: `bcancel`. -/
def execBcancel (x : Args) (s : State) : Host.Outcome State Fault Refusal :=
  issueAny x [] [] (fun w s =>
    match copyOfToken (s.core w.core) w.party (numOf x.a) with
    | none => .done s
    | some e =>
      match Tbl.get? (s.core w.core).copies e with
      | none => .done s
      | some c =>
        if signalSent w.core e c s then .done s
        else if c.st = .collecting then .done (endCopy w.core e { c with status := 2 } s)
        else .done (stopCopy w.core e 2 0 s)) s

/-- R381: `bpf` changes no value. -/
def execBpf (x : Args) (s : State) : Host.Outcome State Fault Refusal :=
  issueAny x [] [] (fun _ s => .done s) s

end Sys2Proof.Machine
end

