-- ==== Sys2Proof/Machine/Lantern.lean ====
section
/-! DEFINITION. Lantern streams and architected queues (R327 to R353): the stream header, lantern code element by
element, and the group and Wick instructions that start, stop and ask streams and move queue entries. -/

namespace Sys2Proof.Machine

/-! ### Queues (R332) -/

/-- An entry of 32 lane values, as maximal runs. -/
def entryOf (n : Nat) (f : Nat → W32) : QEntry :=
  { runs := mergeRuns (lanes32.map fun l => { val := f l, cnt := 1, splice := false }), lanes := n }

/-- A free queue. -/
def Queue.fresh : Queue := { st := .free, team := 0, stream := 0, entries := [] }

/-- A queue of a core. -/
def Core.queue (k : Core) (q : Nat) : Queue := k.queues.getD q .fresh

/-- A queue changed. -/
def updQueue (core q : Nat) (f : Queue → Queue) (s : State) : State :=
  s.updCore core fun k => { k with queues := updAt k.queues q f }

/-- Whether a queue has room for n more entries. -/
def queueRoom (s : State) (core q n : Nat) : Bool := decide (((s.core core).queue q).entries.length + n ≤ 64)

/-- Entries put at the end of a queue. -/
def pushEntries (core q : Nat) (es : List QEntry) (s : State) : State :=
  updQueue core q (fun u => { u with entries := u.entries ++ es }) s

/-- The oldest n entries of a queue removed. -/
def popEntries (core q n : Nat) (s : State) : State :=
  updQueue core q (fun u => { u with entries := u.entries.drop n }) s

/-! ### Streams (R328, R336) -/

/-- The engine operation of a stream (R334). -/
def Stream.eng (st : Stream) (core slot : Nat) (s : State) : Eng :=
  { party := streamParty core slot, core := core, team := st.team, ctx := st.ctx, area := areaOf s (.wick st.team)
    own := some slot, lane := 255 }

/-- An x register. -/
def Stream.x (st : Stream) (n : Nat) : W64 := Tbl.get st.xs n 0
/-- An x register written. -/
def Stream.setX (st : Stream) (n : Nat) (v : W64) : Stream := { st with xs := Tbl.set st.xs n v }

/-- The position of a cursor pair advanced by some bytes or records, its count lowered. -/
def Stream.advanceX (st : Stream) (n by_ m : Nat) : Stream :=
  (st.setX n (st.x n + BitVec.ofNat 64 by_)).setX (n + 1) (st.x (n + 1) - BitVec.ofNat 64 m)

/-- A stream changed. -/
def updStream (core slot : Nat) (f : Stream → Stream) (s : State) : State :=
  s.updCore core fun k => { k with streams := Tbl.upd k.streams slot f }

/-- The record of a stream (R336, R470): the Lantern and the slot. -/
def streamRec (s : State) (core slot : Nat) (st : Stream) (code cls sev recov : Nat) : RecIn :=
  let tm := Tbl.get? s.teams st.team
  { code := code, cls := cls, sev := sev, recov := recov, engine := coreEngine core 3 slot, ctx := st.ctx
    grid := (tm.map (·.grid)).getD 0, team := (tm.map (·.lin)).getD 0xFFFFFFFF, iaddr := 64 + 4 * st.pc }

/-- A stream ends in a state (R336): its locks are released and its queues closed. -/
def endStream (core slot : Nat) (how : StreamSt) (seq : Nat) (s : State) : State :=
  match Tbl.get? (s.core core).streams slot with
  | none => s
  | some st =>
    let s := s.updCore core fun k =>
      { k with
        streams := Tbl.set k.streams slot { st with st := how, seq := seq, stopReq := false }
        locks := Tbl.keep k.locks fun e l => decide (e < 64) || l.owner != slot
        queues := k.queues.map fun q =>
          if q.st == .opened && q.team == st.team && q.stream == slot then { q with st := .closed } else q }
    s.forget (· == streamParty core slot)

/-- The end of a stream by `send`, past its last unit, or with an exhausted walk or scan (R336). -/
def finishStream (core slot : Nat) (s : State) : State :=
  match Tbl.get? (s.core core).streams slot with
  | none => s
  | some st =>
    if st.drops = 0 then endStream core slot .done 0 s
    else
      let (s, seq) := logRecord s { streamRec s core slot st 0x0304 3 0 0 with detail := st.drops } true
      endStream core slot .overflow seq s

/-- A fault of a stream's own (R336); a record that is suppressed leaves SEQ 0 (R351, R472). -/
def faultStream (core slot : Nat) (c : Cause) (s : State) : State :=
  match Tbl.get? (s.core core).streams slot with
  | none => s
  | some st =>
    let s := match c.malf with
      | some h => s.setStatus st.team h 4
      | none => s
    let (s, seq) := logRecord s
      { streamRec s core slot st c.code 1 0 0 with akind := c.akind, addr := c.recAddr, detail := c.detail } false
    endStream core slot .faulted seq s

/-- A port failure of a stream: XLATE parks it, anything else ends it (R336). -/
def failStream (core slot : Nat) (f : PFault) (s : State) : State :=
  match Tbl.get? (s.core core).streams slot with
  | none => s
  | some st =>
    let p := streamParty core slot
    if f.code = 0x0201 then (parkAccess (dieOfCore core) st.ctx p f (streamRec s core slot st f.code 2 2 2) s).getD s
    else
      let (s, seq) := logRecord s (f.record (streamRec s core slot st f.code 2 2 3)) true
      let s := endStream core slot .faulted seq s
      if 0x0208 ≤ f.code && f.code ≤ 0x0209 then endContext s st.ctx seq else s

/-- Whether a team has executed `wend` and all its groups have exited (R336). -/
def teamOver (s : State) (t : Nat) : Bool :=
  match Tbl.get? s.teams t with
  | some tm => tm.wst == .ended && (s.groupsOf t).all fun p => p.2.live == 0
  | none => true

/-! ### Elements (R334, R335) -/

/-- What an execution leaves: the stream, and whether it ends. -/
structure Step1 where
  st : Stream
  ends : Bool
  deriving DecidableEq, Repr

/-- The execution of one element of a stream, whose PC is that of the next instruction already. -/
abbrev Element := Eng → Nat → Stream → Args → State → PRes (Except Cause Step1)

/-- An execution that goes on with the next instruction. -/
def goOn (st : Stream) (s : State) : PRes (Except Cause Step1) := .ok (.ok { st := st, ends := false }) s

/-- The PC after an execution: at the end of a loop's body the next trip begins, or the loop is left (R347). -/
def loopPc : List (Nat × Nat × Nat) → Nat → Nat × List (Nat × Nat × Nat)
  | [], pc => (pc, [])
  | (first, last, left) :: rest, pc =>
    if pc = last then (if 1 < left then (first, (first, last, left - 1) :: rest) else loopPc rest pc)
    else (pc, (first, last, left) :: rest)

/-- The stream after an execution. -/
def Stream.settle (st : Stream) : Stream :=
  let (pc, loops) := loopPc st.loops st.pc
  { st with pc := pc, loops := loops }

/-- The execution of an instruction by the stream that runs it: nothing of it stands where it waits or faults
(log entry 24). -/
def issueElement (x : Args) (body : Element) (s : State) : Host.Outcome State Fault Refusal :=
  match s.cur.by_ with
  | .stream core slot =>
    match Tbl.get? (s.core core).streams slot with
    | none => .fault .noIssuer
    | some st =>
      match body (st.eng core slot s) slot { st with pc := st.pc + s.cur.len } x s with
      | .ok (.ok r) s' =>
        let s' := (updStream core slot (fun _ => r.st.settle) s').dropReplies (streamParty core slot)
        .next (if r.ends then finishStream core slot (updStream core slot (fun q => { q with pc := st.pc }) s')
          else if r.st.stopReq || teamOver s' st.team then endStream core slot .stopped 0 s' else s')
      | .ok (.error c) _ => .next (faultStream core slot c s)
      -- its accesses begin anew, and raise the counter of R372 as before
      | .wait s' => .next { rollback s s' with versions := s.versions, cur := { s.cur with stalled := true } }
      | .fail f s' => .next (failStream core slot f { rollback s s' with versions := s.versions })
  | _ => .fault .noIssuer

/-- A field of OPT or of another dst. -/
def dstBits (x : Args) (lo n : Nat) : Nat := bits x.dst.toNat lo n

/-- An address of a stream's in a space: 32 bits on chip. -/
def listAddr (space : Nat) (base : W64) (off : Nat) : Nat := (base.toNat + off) % 2 ^ (if space = 2 then 64 else 32)

/-- ALIGN, or BOUNDS on chip, of an access of a stream (R339). -/
def listCause (e : Eng) (space addr n : Nat) : Option Cause :=
  if addr % n != 0 then some (if space = 2 then Cause.alignMM 255 addr else Cause.align 255 addr space)
  else if space != 2 && !e.area.ok space addr n then some (Cause.boundsAddr 255 addr space)
  else none

/-- A checked read of a stream. -/
def listRead (e : Eng) (space tag addr n : Nat) (s : State) : PRes (Except Cause Nat) :=
  match listCause e space addr n with
  | some c => .ok (.error c) s
  | none => (e.read space tag addr n s).bind fun bs s => .ok (.ok (ofBytes bs)) s

/-- Checked reads, one after another. -/
def listReads (e : Eng) (space n : Nat) : List (Nat × Nat) → State → PRes (Except Cause (List Nat))
  | [], s => .ok (.ok []) s
  | (tag, addr) :: t, s =>
    (listRead e space tag addr n s).tryBind fun v s => (listReads e space n t s).tryBind fun r s => .ok (.ok (v :: r)) s

/-- The size of an element by FMT (R337). -/
def optBytes (fmt : Nat) : Nat :=
  match fmt with
  | 0 => 4
  | 5 => 4
  | 1 => 2
  | 2 => 2
  | _ => 1

/-- An element decoded: f32 and i32 raw (R339). -/
def optDecode (fmt v : Nat) : W32 :=
  if fmt = 0 || fmt = 5 then BitVec.ofNat 32 v else BitVec.ofNat 32 (Fmt.f32.encode .rn ((fmtOf fmt).decode v))

/-- The indices of an element of `sgat` or `ssct`. -/
def listIndices (e : Eng) (space m : Nat) (list : W64) (s : State) : PRes (Except Cause (List Nat)) :=
  listReads e space 4 ((List.range m).map fun l => (l, listAddr space list (4 * l))) s

/-- The accesses of one channel: tag and address of each lane. -/
def channelAddrs (space : Nat) (base : W64) (ch c n : Nat) (idx : List Nat) : List (Nat × Nat) :=
  idx.zipIdx.map fun p => (32 * (c + 1) + p.2, listAddr space base ((p.1 * ch + c) * n))

/-- The entries of some channels from channel c on. -/
def gatherFrom (e : Eng) (space fmt ch m : Nat) (base : W64) (idx : List Nat) : Nat → Nat → State → PRes (Except Cause (List QEntry))
  | 0, _, s => .ok (.ok []) s
  | left + 1, c, s =>
    (listReads e space (optBytes fmt) (channelAddrs space base ch c (optBytes fmt) idx) s).tryBind fun vs s =>
      (gatherFrom e space fmt ch m base idx left (c + 1) s).tryBind fun r s =>
        .ok (.ok (entryOf m (fun l => if l < m then optDecode fmt (vs.getD l 0) else 0) :: r)) s

/-- `sgat` (R339). -/
def gather : Element := fun e _ st x s =>
  let q := dstBits x 0 3
  let ch := dstBits x 3 2 + 1
  let space := dstBits x 8 2
  let a := numOf x.a
  let m := min 32 (st.x (a + 1)).toNat
  if m = 0 then goOn st s
  else if !queueRoom s e.core q ch then .wait s
  else
    (listIndices e space m (st.x a) s).tryBind fun idx s =>
      (gatherFrom e space (dstBits x 5 3) ch m (st.x (numOf x.b)) idx ch 0 s).tryBind fun es s =>
        goOn (st.advanceX a (4 * m) m) (pushEntries e.core q es s)

/-- The code of the add into an element by FMT (R340): of R230, of an integer, or of R315. -/
def addCode (fmt : Nat) : Nat :=
  match fmt with
  | 0 => 8
  | 5 => 0
  | n => 20 + n

/-- Adds into elements, one after another. -/
def scatterAdds (e : Eng) (space fmt : Nat) : List (Nat × Nat × W32) → State → PRes (Except Cause Unit)
  | [], s => .ok (.ok ()) s
  | (tag, addr, v) :: t, s =>
    match listCause e space addr (optBytes fmt) with
    | some c => .ok (.error c) s
    | none =>
      (e.rmw space tag addr (optBytes fmt) (addCode fmt) v.toNat 0 s).bind fun _ s => scatterAdds e space fmt t s

/-- The adds of `ssct`, channel by channel. -/
def scatterList (space fmt : Nat) (base : W64) (idx : List Nat) (es : List QEntry) : List (Nat × Nat × W32) :=
  es.zipIdx.flatMap fun p =>
    ((channelAddrs space base es.length p.2 (optBytes fmt) idx).zipIdx.filter fun q => decide (q.2 < p.1.lanes)).map fun q =>
      (q.1.1, q.1.2, Runs.val p.1.runs q.2)

/-- `ssct` (R340). -/
def scatter : Element := fun e _ st x s =>
  let q := dstBits x 0 3
  let ch := dstBits x 3 2 + 1
  let space := dstBits x 8 2
  let a := numOf x.a
  let m := min 32 (st.x (a + 1)).toNat
  let es := ((s.core e.core).queue q).entries.take ch
  if m = 0 then goOn st s
  else if es.length < ch then .wait s
  else
    (listIndices e space m (st.x a) s).tryBind fun idx s =>
      (scatterAdds e space (dstBits x 5 3) (scatterList space (dstBits x 5 3) (st.x (numOf x.b)) idx es) s).tryBind fun _ s =>
        goOn (st.advanceX a (4 * m) m) (popEntries e.core q ch s)

/-! ### sdct (R341) -/

/-- The value entry of a row of a tile; of two entries of one place the later stands (R292). -/
def DctTile.rowEntry (h : Handle) (t : DctTile) (row : Nat) : QEntry :=
  entryOf 32 fun j =>
    match t.entries.reverse.find? fun q => q.1 == row && q.2.1 == j with
    | some q => h.value q.2.2
    | none => 0

/-- The index entry of two numbers. -/
def indexEntry (a b : Nat) : QEntry := entryOf 2 fun l => if l = 0 then BitVec.ofNat 32 a else if l = 1 then BitVec.ofNat 32 b else 0

/-- The handle of a walk checked (R336). -/
def walkHandle (e : Eng) (s : State) (n : Nat) (ok : Handle → Bool) (k : Handle → PRes (Except Cause Step1)) :
    PRes (Except Cause Step1) :=
  let h := takeHandle s e.team n
  if !h.ok e.area then .ok (.error (Cause.bounds rHANDLE 255)) s
  else if !ok h then .ok (.error (Cause.bounds rHTYPE 255)) s
  else k h

/-- A tile of a walk; a malformed one faults with MALF. -/
def walkedTile (h : Handle) (e : Eng) (hd : DctHead) (t : Nat) (s : State) (k : DctTile → State → PRes (Except Cause Step1)) :
    PRes (Except Cause Step1) :=
  (h.dctTile e hd t s).tryBind fun d s =>
    if d.bad then .ok (.error { Cause.bounds rDCTFMT 255 with malf := some h.num }) s else k d s

/-- `sdct` with the position (t, i); a row past the last of its tile is the first of the next one. -/
def walkRow (h : Handle) (e : Eng) (hd : DctHead) (q : Nat) (st : Stream) : Nat → Nat → Nat → State → PRes (Except Cause Step1)
  | 0, _, _, s => .ok (.ok { st := st, ends := true }) s
  | fuel + 1, t, i, s =>
    if hd.nt ≤ t then .ok (.ok { st := st, ends := true }) s
    else walkedTile h e hd t s fun d s =>
      match d.rows[i]? with
      | none => walkRow h e hd q st fuel (t + 1) 0 s
      | some r =>
        let next := if i + 1 < d.rows.length then (t, i + 1) else (t + 1, 0)
        goOn { st with walks := Tbl.set st.walks h.num next }
          (pushEntries e.core q [indexEntry (32 * d.row + r) (32 * d.col), d.rowEntry h r] s)

/-- `sdct` (R341); a tile walk that follows rows of a tile goes on with the next one. -/
def walkDct : Element := fun e _ st x s =>
  let q := dstBits x 0 3
  let tile := dstBits x 3 1 = 1
  walkHandle e s (numOf x.a) (fun h => h.typ == 5) fun h =>
    if !queueRoom s e.core q (if tile then 33 else 2) then .wait s
    else (h.dctHead e s).tryBind fun hd s =>
      let (t, i) := Tbl.get st.walks h.num (0, 0)
      if !tile then walkRow h e hd q st 2 t i s
      else
        let t := if i = 0 then t else t + 1
        if hd.nt ≤ t then .ok (.ok { st := st, ends := true }) s
        else walkedTile h e hd t s fun d s =>
          goOn { st with walks := Tbl.set st.walks h.num (t + 1, 0) }
            (pushEntries e.core q (indexEntry (32 * d.row) (32 * d.col) :: (List.range 32).map fun i => d.rowEntry h i) s)

/-! ### svox and soct (R342 to R344) -/

/-- A table of voxels (R342). -/
def voxTable (h : Handle) : Bool := h.typ == 2 && h.ch == 1 && h.fmt == 0 && !h.fixed

/-- What the rules of coordinates and edges make of a point. -/
inductive Point where
  | use (is : List Nat)
  | skip
  | fault (c : Cause)
  deriving DecidableEq, Repr

/-- A point read and placed by the coordinate rule of a handle (R302, R303, R309): its indices are the integer parts. -/
def readPoint (e : Eng) (h p : Handle) (k tag : Nat) (s : State) : PRes Point :=
  if p.size 0 ≤ k then .ok (.fault (Cause.bounds rEDGE 255)) s
  else
    (p.read e tag (k * p.cell) p.cell s).bind fun bs s =>
      let xs := (List.range h.dim).map fun c => p.value ((bs.drop (c * p.elem)).take p.elem)
      let is := xs.mapIdx fun d v => h.coord d v
      let plan : Option Plan :=
        if is.any (·.isNone) then h.plan 0 false false 0 xs
        else h.plan 0 false true 0 (is.filterMap fun i => i.map fun p => BitVec.ofInt 32 p.1)
      match plan with
      | none => .ok (.fault (Cause.bounds rEDGE 255)) s
      | some pl =>
        match pl.fetches with
        | f :: _ => .ok (match f.is with
            | some is => .use is
            | none => .skip) s
        | [] => .ok .skip s

/-- The points of an element from record k on; `f` places one and gives its result word. -/
def pointsFrom (e : Eng) (h p : Handle) (f : Nat → List Nat → Nat → State → PRes (W32 × Nat)) : Nat → Nat → Nat → State →
    PRes (Except Cause (List W32 × Nat))
  | 0, _, _, s => .ok (.ok ([], 0)) s
  | left + 1, k, l, s =>
    (readPoint e h p k (tapTag l 1) s).bind fun pt s =>
      match pt with
      | .fault c => .ok (.error c) s
      | .skip => (pointsFrom e h p f left (k + 1) (l + 1) s).tryBind fun r s => .ok (.ok (0xFFFFFFFF :: r.1, r.2)) s
      | .use is =>
        (f k is (tapTag l 0) s).bind fun w s =>
          (pointsFrom e h p f left (k + 1) (l + 1) s).tryBind fun r s => .ok (.ok (w.1 :: r.1, w.2 + r.2)) s

/-- The handles of an instruction that takes points. -/
def pointHandles (e : Eng) (x : Args) (ok : Handle → Bool) (s : State) (k : Handle → Handle → PRes (Except Cause Step1)) :
    PRes (Except Cause Step1) :=
  let h := takeHandle s e.team (numOf x.a)
  let p := takeHandle s e.team (numOf x.b)
  if !h.ok e.area || !p.ok e.area then .ok (.error (Cause.bounds rHANDLE 255)) s
  else if !(ok h && p.typ == 6 && p.fmt == 0 && decide (h.dim ≤ p.ch)) then .ok (.error (Cause.bounds rHTYPE 255)) s
  else k h p

/-- A point inserted into a voxel table: nothing, or a drop where the probe limit is reached. -/
def voxInsert (e : Eng) (h : Handle) (k : Nat) (is : List Nat) (tag : Nat) (s : State) : PRes (W32 × Nat) :=
  (h.insertKey e tag is h.probe 0 s).bind fun r s =>
    let put (n : Nat) (s : State) : PRes (W32 × Nat) :=
      (h.rmw e (tag + 600) (8 * h.slots + 4 * n) 4 65 k 0 s).bind fun _ s => .ok (0, 0) s
    match r with
    | .found n => put n s
    | .new n => put n s
    | r => .ok (0, 1) (notePlaced e h r s)

/-- `svox.ins` (R342). -/
def voxIns : Element := fun e _ st x s =>
  pointHandles e x voxTable s fun h p =>
    let c := numOf x.c
    let m := min 32 (st.x (c + 1)).toNat
    (pointsFrom e h p (voxInsert e h) m (st.x c).toNat 0 s).tryBind fun r s =>
      goOn { st.advanceX c m m with drops := st.drops + r.2 } s

/-- The slots with a nonzero key from a slot on, at most some: their numbers, and one past the last slot scanned. -/
def scanSlots (e : Eng) (h : Handle) : Nat → Nat → Nat → State → PRes (List Nat × Nat)
  | 0, i, _, s => .ok ([], i) s
  | fuel + 1, i, want, s =>
    if want = 0 then .ok ([], i) s
    else
      (h.read e (1024 + i) (8 * i) 8 s .atomic).bind fun bs s =>
        if ofBytes bs = 0 then scanSlots e h fuel (i + 1) want s
        else (scanSlots e h fuel (i + 1) (want - 1) s).bind fun r s => .ok (i :: r.1, r.2) s

/-- The value words of some slots. -/
def slotWords (e : Eng) (h : Handle) : List Nat → Nat → State → PRes (List W32)
  | [], _, s => .ok [] s
  | i :: t, l, s =>
    (h.read e l (8 * h.slots + 4 * i) 4 s .atomic).bind fun bs s =>
      (slotWords e h t (l + 1) s).bind fun r s => .ok (BitVec.ofNat 32 (ofBytes bs) :: r) s

/-- `svox.emit` (R343). -/
def voxEmit : Element := fun e _ st x s =>
  walkHandle e s (numOf x.a) voxTable fun h =>
    let q := dstBits x 1 3
    let c := numOf x.c
    let from_ := (st.x c).toNat
    if !queueRoom s e.core q 1 then .wait s
    else (scanSlots e h (h.slots - from_) from_ 32 s).bind fun r s =>
      if r.1.isEmpty then .ok (.ok { st := st, ends := true }) s
      else (slotWords e h r.1 0 s).bind fun ws s =>
        goOn (st.setX c (BitVec.ofNat 64 r.2)) (pushEntries e.core q [entryOf ws.length fun l => ws.getD l 0] s)

/-- A point inserted into an octant tree: the result word of `cins`. -/
def octInsert (e : Eng) (h : Handle) (_k : Nat) (is : List Nat) (tag : Nat) (s : State) : PRes (W32 × Nat) :=
  (h.insertOct e tag is h.depth 0 false s).bind fun r s =>
    match r with
    | .found n => .ok (BitVec.ofNat 32 (n % 2 ^ 31), 0) s
    | .new n => .ok (BitVec.ofNat 32 (2 ^ 31 + n % 2 ^ 31), 0) s
    | r => .ok (0xFFFFFFFF, 0) (notePlaced e h r s)

/-- `soct` (R344). -/
def octIns : Element := fun e _ st x s =>
  pointHandles e x (fun h => h.typ == 4) s fun h p =>
    let q := dstBits x 0 3
    let c := numOf x.c
    let m := min 32 (st.x (c + 1)).toNat
    if !queueRoom s e.core q 1 then .wait s
    else (pointsFrom e h p (octInsert e h) m (st.x c).toNat 0 s).tryBind fun r s =>
      goOn (st.advanceX c m m) (pushEntries e.core q [entryOf m fun l => if l < m then r.1.getD l 0 else 0] s)

/-! ### sxfm, sput, sloop and send (R345 to R347) -/

/-- An x register or a literal, sign-extended. -/
def Stream.src (st : Stream) : Src → W64
  | .lit w => w.signExtend 64
  | .num n => st.x n.toNat
  | _ => 0

/-- The entry that `sxfm` makes of one, or none where CTL breaks its column. -/
def transform (op ctl : Nat) (n : QEntry) : Option QEntry :=
  let v (l : Nat) : W32 := if l < n.lanes then Runs.val n.runs l else 0
  let each (f : W32 → W32) : QEntry := entryOf n.lanes fun l => if l < n.lanes then f (v l) else 0
  match op with
  | 0 =>
    let sf := bits ctl 0 3
    let df := bits ctl 3 3
    if 256 ≤ ctl || 4 < sf || 4 < df || sf = df then none
    else some (each (convertFmt (fmtOf sf) (fmtOf df) (RM.of (bits ctl 6 2))))
  | 1 => some (each fun a => fMul .rn a (BitVec.ofNat 32 ctl))
  | 2 =>
    let block := packBlock (ctl % 256) (maskOf fun l => decide (l < n.lanes)) v
    some (entryOf 5 fun l => if l < 5 then block.getD l 0 else 0)
  | _ => if ctl = 0 then some (entryOf 32 (unpackElem v)) else none

/-- `sxfm` (R345). -/
def xform : Element := fun e _ st x s =>
  let qout := dstBits x 0 3
  let qin := dstBits x 3 3
  match ((s.core e.core).queue qin).entries with
  | [] => .wait s
  | n :: _ =>
    let s' := popEntries e.core qin 1 s
    if !queueRoom s' e.core qout 1 then .wait s
    else
      match transform (dstBits x 6 2) (st.src x.b).toNat n with
      | none => .ok (.error (Cause.bounds rARG 255)) s
      | some r => goOn st (pushEntries e.core qout [r] s')

/-- `sput` (R346). -/
def putRamp : Element := fun e _ st x s =>
  let q := dstBits x 0 3
  let a := numOf x.a
  let step := st.src x.b
  if !queueRoom s e.core q 1 then .wait s
  else
    goOn (st.setX a (st.x a + 32 * step))
      (pushEntries e.core q [entryOf 32 fun l => lo32 (st.x a + BitVec.ofNat 64 l * step)] s)

/-- The unit at which the instruction after the next n begins. -/
def unitAfter (code : List W32) : Nat → Nat → Nat
  | 0, pc => pc
  | n + 1, pc => unitAfter code n (pc + unitsOf (code.getD pc 0))

/-- The literal of an instruction. -/
def litOf : Src → Nat
  | .lit w => w.toNat
  | _ => 0

/-- `sloop` (R347). -/
def startLoop : Element := fun _ _ st x s =>
  let last := unitAfter st.code (litOf x.b) st.pc
  let n := (lo32 (st.x (numOf x.a))).toNat
  if n = 0 then goOn { st with pc := last } s else goOn { st with loops := (st.pc, last, n) :: st.loops } s

/-- R339: `sgat`. -/
def execSgat (x : Args) (s : State) : Host.Outcome State Fault Refusal := issueElement x gather s
/-- R340: `ssct`. -/
def execSsct (x : Args) (s : State) : Host.Outcome State Fault Refusal := issueElement x scatter s
/-- R341: `sdct`. -/
def execSdct (x : Args) (s : State) : Host.Outcome State Fault Refusal := issueElement x walkDct s
/-- R342: `svox.ins`. -/
def execSvoxIns (x : Args) (s : State) : Host.Outcome State Fault Refusal := issueElement x voxIns s
/-- R343: `svox.emit`. -/
def execSvoxEmit (x : Args) (s : State) : Host.Outcome State Fault Refusal := issueElement x voxEmit s
/-- R344: `soct`. -/
def execSoct (x : Args) (s : State) : Host.Outcome State Fault Refusal := issueElement x octIns s
/-- R345: `sxfm`. -/
def execSxfm (x : Args) (s : State) : Host.Outcome State Fault Refusal := issueElement x xform s
/-- R346: `sput`. -/
def execSput (x : Args) (s : State) : Host.Outcome State Fault Refusal := issueElement x putRamp s
/-- R347: `sloop`. -/
def execSloop (x : Args) (s : State) : Host.Outcome State Fault Refusal := issueElement x startLoop s
/-- R336, R347: `send`. -/
def execSend (x : Args) (s : State) : Host.Outcome State Fault Refusal :=
  issueElement x (fun _ _ st _ s => .ok (.ok { st := st, ends := true }) s) s

/-- An instruction of lantern code by its name; the others are none. -/
def lanternExec (o : Late) (x : Args) (s : State) : Host.Outcome State Fault Refusal :=
  match o with
  | .sgat => execSgat x s
  | .ssct => execSsct x s
  | .sdct => execSdct x s
  | .svoxIns => execSvoxIns x s
  | .svoxEmit => execSvoxEmit x s
  | .soct => execSoct x s
  | .sxfm => execSxfm x s
  | .sput => execSput x s
  | .sloop => execSloop x s
  | .send => execSend x s
  | .csave | .crest | .haltFreeze | .haltResume | .haltKill | .bufw | .mapw | .tinv | .pmig => .next s

/-- The instruction of lantern code at a unit, with its length in units. -/
def lanternAt (code : List W32) (pc : Nat) : Option (Late × Args × Nat) :=
  let u0 := code.getD pc 0
  if code.length < pc + unitsOf u0 then none
  else
    match decodeUnits .lantern false u0 (code.getD (pc + 1) 0) (code.getD (pc + 2) 0) with
    | .ok (.one (.late o x)) => some (o, x, unitsOf u0)
    | _ => none

/-- The stream of a core whose turn comes next, in rotation over those that run (R327). -/
def nextStream (s : State) (core : Nat) : Option Nat :=
  ((List.range 8).map fun i => ((s.core core).streamTurn + 1 + i) % 8).find? fun slot =>
    match Tbl.get? (s.core core).streams slot with
    | some st => st.st == .running && !standsBack s (streamParty core slot) && mayRun s st.ctx (streamParty core slot)
    | none => false

/-- R327, R334: the stream whose turn it is executes one element; past its last unit it ends (R336). -/
def execStreamElement (core slot : Nat) (s : State) : Host.Outcome State Fault Refusal :=
  match Tbl.get? (s.core core).streams slot with
  | none => .next s
  | some st =>
    if nextStream s core != some slot || !(s.die (dieOfCore core)).up then .next s
    else
    let s := (s.updCore core fun k => { k with streamTurn := slot }).replayed (streamParty core slot)
    if (st.stopReq || teamOver s st.team) && !busyParty s (streamParty core slot) then .next (endStream core slot .stopped 0 s)
    else if st.code.length ≤ st.pc then .next (finishStream core slot s)
    else
      match lanternAt st.code st.pc with
      | none => .next (finishStream core slot s)
      | some (o, x, n) =>
        lanternExec o x { s with cur := { Cur.idle with by_ := .stream core slot, pc := 64 + 4 * st.pc, len := n } }

/-! ### lrun (R329, R330, R338, R349) -/

/-- A stream header, decoded (R329). -/
structure StreamHead where
  len : Nat
  qmask : Nat
  /-- Space, base register, length register and WR of each lock descriptor. -/
  locks : List (Nat × Nat × Nat × Bool)
  deriving DecidableEq, Repr

/-- The header that 64 bytes hold, or none where a field is invalid. -/
def streamHead (bs : List Byte) : Option StreamHead :=
  let w (i : Nat) : Nat := ofBytes ((bs.drop (8 * i)).take 8)
  let n := bits (w 0) 8 3
  let desc (j : Nat) : Bool := if j < n then bits (w (1 + j)) 11 53 == 0 && bits (w (1 + j)) 8 2 != 3 else w (1 + j) == 0
  if bits (w 0) 44 20 = 0 && bits (w 0) 11 21 = 0 && bits (w 0) 32 12 != 0 && n ≤ 4 && (List.range 4).all desc &&
      w 5 == 0 && w 6 == 0 && w 7 == 0 then
    some { len := bits (w 0) 32 12, qmask := bits (w 0) 0 8
           locks := (List.range n).map fun j =>
             (bits (w (1 + j)) 8 2, bits (w (1 + j)) 0 4, bits (w (1 + j)) 4 4, bit (w (1 + j)) 10) }
  else none

/-- The instructions of some lantern code, or none where a unit is no instruction of it. -/
def lanternCode (code : List W32) : Nat → Nat → Option (List (Late × Args))
  | 0, _ => none
  | fuel + 1, pc =>
    if pc = code.length then some []
    else
      match lanternAt code pc with
      | none => none
      | some (o, x, n) => (lanternCode code fuel (pc + n)).map ((o, x) :: ·)

/-- The queues an instruction of lantern code names. -/
def queuesNamed (o : Late) (x : Args) : List Nat :=
  match o with
  | .sgat | .ssct | .sdct | .soct | .sput => [dstBits x 0 3]
  | .svoxEmit => [dstBits x 1 3]
  | .sxfm => [dstBits x 0 3, dstBits x 3 3]
  | _ => []

/-- Whether the loops of some code keep R347: `open_` holds how many instructions are left in each body that is open,
the innermost first. -/
def loopsOk : List (Late × Args) → List Nat → Bool
  | [], open_ => open_.all (· == 0)
  | (o, x) :: t, open_ =>
    let live := (open_.filter (· != 0)).map (· - 1)
    if o = .sloop then
      let n := litOf x.b
      decide (live.length < 2) && live.all (n ≤ ·) && loopsOk t (n :: live)
    else loopsOk t live

/-- Whether some code passes R338 under a queue mask. -/
def codeOk (code : List W32) (qmask : Nat) : Bool :=
  match lanternCode code (code.length + 1) 0 with
  | none => false
  | some is => loopsOk is [] && is.all fun p => (queuesNamed p.1 p.2).all fun q => bit qmask q

/-- The units that bytes hold. -/
def unitsIn (bs : List Byte) : List W32 :=
  (List.range (bs.length / 4)).map fun i => BitVec.ofNat 32 (ofBytes ((bs.drop (4 * i)).take 4))

/-- The bytes of lantern code, fetched in parts of 256. -/
def fetchCode (p : Party) (ctx ptr n : Nat) : Nat → Nat → State → PRes (List Byte)
  | 0, _, s => .ok [] s
  | fuel + 1, i, s =>
    if n ≤ 256 * i then .ok [] s
    else (portRead p (1 + i) ctx (ptr + 256 * i) (min 256 (n - 256 * i)) .exec true s).bind fun bs s =>
      (fetchCode p ctx ptr n fuel (i + 1) s).bind fun r s => .ok (bs ++ r) s

/-- The header and the code at a pointer; none where R338 fails. -/
def readStream (p : Party) (ctx ptr : Nat) (s : State) : PRes (Option (StreamHead × List W32)) :=
  if ptr % 64 != 0 then .ok none s
  else
    (portRead p 0 ctx ptr 64 .exec true s).bind fun hb s =>
      match streamHead hb with
      | none => .ok none s
      | some h =>
        (fetchCode p ctx (ptr + 64) (4 * h.len) 64 0 s).bind fun cb s =>
          let code := unitsIn cb
          .ok (if codeOk code h.qmask then some (h, code) else none) s

/-- The parameter registers of an `lrun` (R349). -/
def paramValue (w : Who) (s : State) (x : Args) (i : Nat) : W64 :=
  match x.b with
  | .k r => w.num s (r.toNat + i)
  | .s r => s.sreg (w.team s) (r.toNat + i)
  | .v r => w.num s (r.toNat + i)
  | _ => 0

/-- The registers an `lrun` reads by number: k registers, in Wick code s registers. -/
def paramRegs (x : Args) : List Nat :=
  let n := modBits x 4 4 + 1
  match x.b with
  | .k r => regBlock r.toNat n
  | .v r => regBlock r.toNat n
  | _ => []

/-- The s registers it reads in group code. -/
def paramSregs (x : Args) : List Nat :=
  match x.b with
  | .s r => regBlock r.toNat (modBits x 4 4 + 1)
  | _ => []

/-- Whether a queue stands in the way of an `lrun` of a team. -/
def queueBusy (t : Nat) (q : Queue) : Bool :=
  match q.st with
  | .free => false
  | .opened => true
  | .closed => q.team != t || !q.entries.isEmpty

/-- The failure of an `lrun`. -/
def lrunFail (w : Who) (d code : Nat) (s : State) : GEff := .done (w.setNum d (BitVec.ofNat 64 (2 ^ 63 + code)) s)

/-- A stream identifier that no stream of a core has: nonzero, 32 bits. -/
def freshStream (k : Core) : Nat :=
  ((List.range 9).map fun i => (k.streamId - 1 + i) % (2 ^ 32 - 1) + 1).find? (fun n => k.streams.all fun p => p.2.id != n) |>.getD k.streamId

/-- A stream registered in a slot with its queues, x registers, walks and locks. -/
def startStream (w : Who) (x : Args) (h : StreamHead) (code : List W32) (slot : Nat) (locks : List (Nat × Nat × Nat × Bool))
    (es : List Nat) (s : State) : State :=
  let t := w.team s
  let id := freshStream (s.core w.core)
  let e := { w.eng s with party := streamParty w.core slot, own := some slot }
  let dcts := ((lanternCode code (code.length + 1) 0).getD []).filterMap fun p => if p.1 = .sdct then some (numOf p.2.a) else none
  let st : Stream :=
    { team := t, ctx := s.ctxOfTeam t, id := id, st := .running, code := code, pc := 0
      xs := ((List.range (modBits x 4 4 + 1)).map fun i => (i, paramValue w s x i)).foldl (fun xs p => Tbl.set xs p.1 p.2) []
      loops := [], walks := dcts.foldl (fun ws n => Tbl.set ws n ((takeHandle s t n).cursor, 0)) []
      drops := 0, qmask := h.qmask, locks := locks, seq := 0, stopReq := false, issuer := w.party }
  let ivs := locks.map fun l => homeIv e l.1 l.2.1 l.2.2.1 l.2.2.2
  s.updCore w.core fun k =>
    { k with
      streams := Tbl.set k.streams slot st
      streamId := seqAfter id
      queues := k.queues.mapIdx fun q u => if bit h.qmask q then { st := .opened, team := t, stream := slot, entries := [] } else u
      locks := (es.zip ivs).foldl (fun ls p => Tbl.set ls p.1 { ivs := [p.2], owner := slot }) k.locks }

/-- The ranges of the lock descriptors that have a length (R330). -/
def lockRanges (w : Who) (x : Args) (h : StreamHead) (s : State) : List (Nat × Nat × Nat × Bool) :=
  let v (r : Nat) : W64 := if r ≤ modBits x 4 4 then paramValue w s x r else 0
  (h.locks.map fun l =>
    (l.1, (if l.1 = 2 then (v l.2.1).toNat else (lo32 (v l.2.1)).toNat), (v l.2.2.1).toNat, l.2.2.2)).filter fun l => l.2.2.1 != 0

/-- R349: `lrun`. -/
def execLrun (x : Args) (s : State) : Host.Outcome State Fault Refusal :=
  let d := x.dst.toNat
  issueAny x [] (d :: paramRegs x) (fun w s =>
    if tokensPending s (w.team s) (paramSregs x) || w.owesPath s then .wait s
    else
      let ctx := s.ctxOfTeam (w.team s)
      match readStream w.party ctx (w.uni s x.a).toNat s with
      | .wait s' => .wait (rollback s s')
      | .fail f s' =>
        let s := rollback s s'
        if 0x0202 ≤ f.code && f.code ≤ 0x0204 then
          lrunFail w d 3 (logRecord s (f.record { w.record s f.code 2 2 3 with engine := coreEngine w.core 3 0 }) true).1
        else .wait (portFail w f s)
      | .ok none s => lrunFail w d 3 s
      | .ok (some (h, code)) s =>
        let k := s.core w.core
        if 8 ≤ k.streams.length then lrunFail w d 1 s
        else if (k.queues.zipIdx.any fun q => bit h.qmask q.2 && queueBusy (w.team s) q.1) then lrunFail w d 2 s
        else
          match (List.range 8).find? fun n => (Tbl.get? k.streams n).isNone && !busyParty s (streamParty w.core n) with
          | none => .wait s
          | some slot =>
            let locks := lockRanges w x h s
            takeEntries w locks.length s fun es s =>
              .done (w.setNum d (BitVec.ofNat 64 (freshStream k)) (startStream w x h code slot locks es s))) s

/-! ### lstop and lstat (R350, R351) -/

/-- The slot of a team's stream of an identifier. -/
def streamOf (s : State) (core t : Nat) (id : W64) : Option Nat :=
  Tbl.findKey (s.core core).streams fun _ st => st.team == t && BitVec.ofNat 64 st.id == id

/-- R350: `lstop`. -/
def execLstop (x : Args) (s : State) : Host.Outcome State Fault Refusal :=
  issueAny x [] [] (fun w s =>
    match streamOf s w.core (w.team s) (w.uni s x.a) with
    | none => .done s
    | some slot =>
      match Tbl.get? (s.core w.core).streams slot with
      | none => .done s
      | some st =>
        if st.st != .running then .done s
        else if busyParty s (streamParty w.core slot) then .done (updStream w.core slot (fun q => { q with stopReq := true }) s)
        else .done (endStream w.core slot .stopped 0 s)) s

/-- STATE of a stream. -/
def StreamSt.code : StreamSt → Nat
  | .running => 0
  | .done => 1
  | .overflow => 2
  | .stopped => 3
  | .faulted => 4

/-- The status word of a stream (R351). -/
def Stream.word (st : Stream) : W64 :=
  BitVec.ofNat 64 (min st.drops (2 ^ 24 - 1) * 2 ^ 40 + st.seq % 2 ^ 16 * 2 ^ 16 + st.pc % 2 ^ 12 * 2 ^ 4 + st.st.code)

/-- R351: `lstat`. -/
def execLstat (x : Args) (s : State) : Host.Outcome State Fault Refusal :=
  issueAny x [] [x.dst.toNat] (fun w s =>
    let found := (streamOf s w.core (w.team s) (w.uni s x.a)).bind fun n => (Tbl.get? (s.core w.core).streams n).map fun st => (n, st)
    match found with
    | none => .done (w.setNum x.dst.toNat 15 s)
    | some (slot, st) =>
      if st.st = .running then
        if modBits x 4 1 = 1 then .wait s else .done (w.setNum x.dst.toNat st.word s)
      else
        let s := w.setNum x.dst.toNat st.word s
        .done (if modBits x 5 1 = 1 then s else s.updCore w.core fun k => { k with streams := Tbl.erase k.streams slot })) s

/-! ### qpop, qpeek and qpush (R352, R353) -/

/-- Entries delivered to registers from vD on, and the predicate written; `n` are removed. -/
def deliverEntries (m : Mem) (x : Args) (q n : Nat) (es : List QEntry) (s : State) : GEff :=
  match Tbl.get? s.groups m.g with
  | none => .done s
  | some g =>
    let ds := regBlock x.dst.toNat es.length
    let op (e : QEntry) : LaneOp :=
      { reads := [], wset := m.act, wide := false, cut := fun l => Runs.starts e.runs l, merge := cBit x
        op := fun l => (Runs.val e.runs l).zeroExtend 64 }
    let news := (ds.zip es).flatMap fun p => (op p.2).news m g p.1 s
    let keep := if m.act = BitVec.allOnes 32 then [] else ds
    let first := (es.head?.map (·.lanes)).getD 0
    match (if x.nwb then readRegs m keep s else writeRegs m [] keep news s) with
    | .done s =>
      .done (popEntries (coreOfGroup m.g) q n (s.updGroup m.g fun r =>
        (r.setPred (numOf x.b) m.act (maskOf fun l => decide (l < first))).pushLatch ((news.getLast?.map (·.2)).getD Runs.zero)))
    | e => e

/-- The predicate cleared in the active lanes, where a queue has nothing. -/
def noEntry (m : Mem) (x : Args) (s : State) : GEff := .done (s.updGroup m.g fun r => r.setPred (numOf x.b) m.act 0)

/-- R352: `qpop`. -/
def execQpop (x : Args) (s : State) : Host.Outcome State Fault Refusal :=
  let n := modBits x 4 2 + 1
  let q := numOf x.a
  issueGroup x (regBlock x.dst.toNat n) [predKey (numOf x.b)] (fun m s =>
    let u := (s.core (coreOfGroup m.g)).queue q
    if m.act = 0 then .done s
    else if u.st = .free || u.team != (Who.group m).team s then .fault (m.bounds rQOWN)
    else if n ≤ u.entries.length then deliverEntries m x q n (u.entries.take n) s
    else if u.st = .opened then .wait s
    else if u.entries.isEmpty then noEntry m x s
    else .fault (m.bounds rQSHORT)) s

/-- R352: `qpeek`. -/
def execQpeek (x : Args) (s : State) : Host.Outcome State Fault Refusal :=
  let q := numOf x.a
  issueGroup x [x.dst.toNat] [predKey (numOf x.b)] (fun m s =>
    let u := (s.core (coreOfGroup m.g)).queue q
    if m.act = 0 then .done s
    else if u.st = .free || u.team != (Who.group m).team s then .fault (m.bounds rQOWN)
    else if u.entries.isEmpty then noEntry m x s
    else deliverEntries m x q 0 (u.entries.take 1) s) s

/-- R353: `qpush`. -/
def execQpush (x : Args) (s : State) : Host.Outcome State Fault Refusal :=
  let q := numOf x.a
  issueGroup x (srcRegs false x.b) [] (fun m s =>
    let core := coreOfGroup m.g
    let u := (s.core core).queue q
    if m.act = 0 then .done s
    else if u.st = .free || u.team != (Who.group m).team s then .fault (m.bounds rQOWN)
    else if u.st = .closed then .fault (m.bounds rQSTATE)
    else if !queueRoom s core q 1 || (Who.group m).owesPath s then .wait s
    else
      let n := min 32 (lo32 ((Who.group m).uni s x.c)).toNat
      let v := operand m s false x.b
      match readRegsFree m (srcRegs false x.b) s with
      | .done s => .done (resetBack m (pushEntries core q [entryOf n v.at32] s))
      | e => e) s

end Sys2Proof.Machine
end

