-- ==== Sys2Proof/Machine/Launch.lean ====
section
/-! DEFINITION. Kernel headers, launch records, the placement of teams, the retirement of grids, and the
instructions that launch and await child grids (R47 to R59, R72, R73, R445). -/

namespace Sys2Proof.Machine

/-! ### Headers and records (R47, R49, R50) -/

/-- Word i of some bytes, 64 bits. -/
def wordAt (bs : List Byte) (i : Nat) : Nat := ofBytes ((bs.drop (8 * i)).take 8)

/-- Teams of a cluster by CLUSTER. -/
def clusterSize (code : Nat) : Nat :=
  match code with
  | 0 => 1
  | 1 => 2
  | _ => 4

/-- An entry offset the header may hold. -/
def entryOk (o : Nat) : Bool := o % 4 == 0 && decide (32 ≤ o)

/-- The kernel header of 32 bytes, where it meets R47; its reserved bits are ignored (R2). -/
def parseHeader (bs : List Byte) : Option Header :=
  let w0 := wordAt bs 0
  let w1 := wordAt bs 1
  let w2 := wordAt bs 2
  let shared := bits w1 32 32
  let quota := bits w1 16 16
  let groups := bits w1 0 6
  let spill := bits w2 0 32
  if entryOk (bits w0 0 32) && entryOk (bits w0 32 32) && shared % 256 == 0 && decide (shared ≤ Config.sharedBytes) &&
      decide (quota ≤ 4096) && bits w1 6 2 != 3 && decide (1 ≤ groups) && decide (groups ≤ 32) && spill % 4096 == 0 then
    some { wentry := bits w0 0 32, gentry := bits w0 32 32, shared := shared
           quota := if quota = 0 then 4096 else quota * 16
           trap := bit w1 10, split := bit w1 9, coop := bit w1 8, cluster := clusterSize (bits w1 6 2)
           groups := groups, spill := spill }
  else none

/-- The fields of a launch record of 192 bytes. -/
def readRecord (bs : List Byte) (num : Nat) : LaunchRec :=
  { kernel := wordAt bs 0, gx := bits (wordAt bs 1) 0 32, gy := bits (wordAt bs 1) 32 16, gz := bits (wordAt bs 1) 48 16
    serial := bit (wordAt bs 2) 1, idem := bit (wordAt bs 2) 0, done := wordAt bs 3
    params := (List.range 16).map fun i => BitVec.ofNat 64 (wordAt bs (8 + i)), num := num }

/-- The teams of a record. -/
def LaunchRec.total (r : LaunchRec) : Nat := r.gx * r.gy * r.gz

/-- The conditions of R50 that need no header. -/
def recordOk (bs : List Byte) (r : LaunchRec) : Bool :=
  bits (wordAt bs 2) 2 62 == 0 && ((List.range 4).all fun i => wordAt bs (4 + i) == 0) &&
    decide (1 ≤ r.gx) && decide (1 ≤ r.gy) && decide (1 ≤ r.gz) && decide (r.total < 2 ^ 32) &&
    r.done % 8 == 0 && r.kernel % 64 == 0

/-- The header of a record, once its bytes have been read; none is BADREC. -/
def headerFor (r : LaunchRec) (bs : List Byte) : Option Header :=
  match parseHeader bs with
  | some h => if r.total % h.cluster = 0 then some h else none
  | none => none

/-! ### Resources (R56, R57, R401) -/

/-- Groups of a team in sub-core b. -/
def Header.inSub (h : Header) (b : Nat) : Nat := (h.groups + 3 - b) / 4

/-- How many times a need fits what is free; a need of nothing fits without bound. -/
def fits (free need : Nat) : Nat := if need = 0 then 8 else free / need

/-- The room for more teams of a kernel, given what is in use: contexts, slots and cells by sub-core, shared bytes. -/
def roomOf (h : Header) (ctxs : Nat) (slots cells : Nat → Nat) (shared : Nat) : Nat :=
  let per (b : Nat) : Nat :=
    min (fits (Config.slots - slots b) (h.inSub b)) (fits (Config.poolCells - cells b) (h.inSub b * h.quota))
  (List.range 4).foldl (fun m b => min m (per b)) (min (8 - ctxs) (fits (Config.sharedBytes - shared) h.shared))

/-- The room of an empty core. -/
def emptyRoom (h : Header) : Nat := roomOf h 0 (fun _ => 0) (fun _ => 0) 0

/-- The room of a core as it stands. -/
def coreRoom (s : State) (h : Header) (c : Nat) : Nat :=
  let ts := Tbl.keep s.teams fun t _ => coreOfTeam t == c
  let gs := Tbl.keep s.groups fun g _ => coreOfGroup g == c
  let sub (b : Nat) := Tbl.keep gs fun g _ => subOfGroup g == b
  roomOf h ts.length (fun b => (sub b).length) (fun b => ((sub b).map (·.2.quota)).sum) ((ts.map (·.2.shared)).sum)

/-- Frames of the spill backing area that a group takes. -/
def Header.frames (h : Header) : Nat := (h.spill + 4095) / 4096

/-- Frames of a context's spill backing area; the firmware context reserves none. -/
def areaFrames (s : State) (ctx : Nat) : Nat :=
  let e := bufEntry s ctx 65535
  if e.valid && !e.malformed false then e.length / 4096 else 0

/-- Frames taken by the groups of a context that have not exited. -/
def usedFrames (s : State) (ctx : Nat) : Nat :=
  ((s.groups.filter fun p => s.ctxOfTeam p.2.team == ctx && p.2.live != 0).map fun p =>
    ((s.headerOf p.2.team).map (·.frames)).getD 0).sum

/-- Whether the frames of some teams are free. -/
def framesFree (s : State) (ctx teams : Nat) (h : Header) : Bool :=
  ctx == Config.firmwareCtx || decide (usedFrames s ctx + teams * h.groups * h.frames ≤ areaFrames s ctx)

/-- Whether a grid can never be placed (R56, R57, R401). -/
def neverFits (s : State) (ctx : Nat) (h : Header) (total : Nat) : Bool :=
  emptyRoom h == 0 ||
  (h.coop && decide (Config.dies * Config.coresPerDie * emptyRoom h < total)) ||
  (ctx != Config.firmwareCtx && decide (areaFrames s ctx < (if h.coop then total else 1) * h.groups * h.frames))

/-! ### Placement -/

/-- A group at its entry (R8, R51, R189). -/
def newGroup (team idx : Nat) (h : Header) : Group :=
  { team := team, idx := idx, regs := [], preds := [], ks := [], ktok := []
    latches := List.replicate 6 { valid := false, runs := Runs.zero, pend := none }
    lanes := List.replicate 32 { pc := BitVec.ofNat 32 h.gentry, tag := 0, st := .run, strict := false, wake := 0 }
    subs := [{ lanes := BitVec.allOnes 32, back := 0, hprio := 0, lastX := 0 }], lastSub := 0, lastX := 0, joins := []
    tids := lanes32.map fun l => BitVec.ofNat 32 (32 * idx + l)
    pdis := false, spin := false, dqend := false, jto := false, empty := false, pair := none
    tvec := 0, epc := 0, ecause := 0, edetail := 0, eaddr := 0, elanes := 0, einst := 0, elit := 0, trap := none
    gen := BitVec.ofNat 64 (idx + 1), mfmt := 0, reuse := none, dqPtr := 0, quota := h.quota, peak := 0, protect := 1
    wait := none, parked := none, debug := false, pending := [] }

/-- A team at its entry (R41, R51). -/
def newTeam (grid lin : Nat) (g : Grid) : Team :=
  { grid := grid, lin := lin, wpc := g.header.wentry, wst := .run
    sregs := g.launch.params.mapIdx fun i v => (i, v)
    stok := [], dq := [], dqBase := 0, dqClosed := false, children := [], handles := [], mirrors := [], regions := []
    mctx := none, wait := none, parked := none, shared := g.header.shared, killed := false }

/-- The lowest free slot of a sub-core (log entry 41). -/
def freeSlot (s : State) (c b : Nat) : Option Nat :=
  (List.range Config.slots).find? fun i => (Tbl.get? s.groups (c * 64 + b * 16 + i)).isNone

/-- A group put into a free slot, and into the active set where a place of it is free (R56, R77). -/
def placeGroup (c team idx : Nat) (h : Header) (s : State) : State :=
  let b := idx % 4
  match freeSlot s c b with
  | none => s
  | some i =>
    let g := c * 64 + b * 16 + i
    let s := { s with groups := Tbl.set s.groups g (newGroup team idx h)
                      mem := Memory.clear s.mem ((Space.spill g).key 0) (2 ^ 32) }
    s.updSub c b fun k =>
      if k.active.length < Config.activePlaces then { k with active := Tbl.set k.active i s.now }
      else { k with pending := Tbl.set k.pending i s.now }

/-- The lowest free Wick context of a core (log entry 41). -/
def freeWick (s : State) (c : Nat) : Option Nat := (List.range 8).find? fun i => (Tbl.get? s.teams (c * 8 + i)).isNone

/-- A team placed on a core with room, its team-shared bytes zeroed (R56, R366). -/
def placeTeam (n lin c : Nat) (s : State) : State :=
  match Tbl.get? s.grids n, freeWick s c with
  | some g, some i =>
    let t := c * 8 + i
    let s := { s with teams := Tbl.set s.teams t (newTeam n lin g)
                      mem := Memory.clear s.mem ((Space.shared t).key 0) (2 ^ 32) }
    let s := (List.range g.header.groups).foldl (fun s idx => placeGroup c t idx g.header s) s
    s.updGrid n fun g => { g with placed := Tbl.set g.placed lin (dieOfCore c) }
  | _, _ => s

/-- The cores of a quad with room for a team of a kernel, those with most room first (log entry 41). -/
def quadCores (s : State) (h : Header) (die quad : Nat) : List Nat :=
  let cs := ((List.range 4).map fun i => die * Config.coresPerDie + 4 * quad + i).filter fun c => coreRoom s h c != 0
  (List.range 9).reverse.flatMap fun r => cs.filter fun c => coreRoom s h c == r

/-- Some teams of a grid placed on distinct cores of a quad; none where they have no room. -/
def placeIn (n : Nat) (teams : List Nat) (die quad : Nat) (s : State) : Option State :=
  match Tbl.get? s.grids n with
  | none => none
  | some g =>
    let cs := quadCores s g.header die quad
    if (s.die die).up && quad < 9 && teams.length ≤ cs.length && framesFree s g.ctx teams.length g.header then
      some ((teams.zip cs).foldl (fun s p => placeTeam n p.1 p.2 s) s)
    else none

/-- Grants without some teams. -/
def dropGranted (gs : List (Nat × Nat × Nat)) (d lo n : Nat) : List (Nat × Nat × Nat) :=
  gs.flatMap fun g =>
    if g.1 = d && lo < g.2.1 + g.2.2 && g.2.1 < lo + n then
      ([(d, g.2.1, lo - g.2.1), (d, lo + n, g.2.1 + g.2.2 - (lo + n))]).filter fun p => p.2.2 != 0
    else [g]

/-- Whether teams of a context may be placed (R397, R398). -/
def placing (s : State) (c : Nat) : Bool := ctxRuns s c && !(s.ctx c).request

/-- R56: a dispatcher places the teams of one cluster that have been granted to its die. -/
def execTeamPlace (grid die quad cluster : Nat) (s : State) : Host.Outcome State Fault Refusal :=
  match Tbl.get? s.grids grid with
  | none => .next s
  | some g =>
    let n := g.header.cluster
    let lo := cluster * n
    let mine := ((List.range n).map (lo + ·)).filter fun l =>
      g.grants.any fun p => p.1 == die && decide (p.2.1 ≤ l) && decide (l < p.2.1 + p.2.2)
    if g.st == .running && placing s g.ctx && mine != [] then
      match placeIn grid mine die quad s with
      | some s => .next (s.updGrid grid fun g => { g with grants := dropGranted g.grants die lo n })
      | none => .next s
    else .next s

/-- The quads of the dies. -/
def allQuads : List (Nat × Nat) := (List.range Config.dies).flatMap fun d => (List.range 9).map fun q => (d, q)

/-- Clusters placed one after another, each on the first quad with room (log entry 41); none unless all have room. -/
def placeAll (n size : Nat) : List Nat → State → Option State
  | [], s => some s
  | c :: cs, s =>
    match allQuads.findSome? fun q => placeIn n ((List.range size).map (c * size + ·)) q.1 q.2 s with
    | some s => placeAll n size cs s
    | none => none

/-- R57: a cooperative grid is placed whole. -/
def execCoopGridPlace (grid : Nat) (s : State) : Host.Outcome State Fault Refusal :=
  match Tbl.get? s.grids grid with
  | none => .next s
  | some g =>
    let total := g.launch.total
    if g.st == .running && placing s g.ctx && g.header.coop && g.counter == 0 then
      match placeAll grid g.header.cluster (List.range (total / g.header.cluster)) s with
      | some s => .next (s.updGrid grid fun g => { g with counter := total })
      | none => .next s
    else .next s

/-- Whether a die's dispatcher has room for a cluster of a grid (R58). -/
def dieHasRoom (s : State) (g : Grid) (die : Nat) : Bool :=
  framesFree s g.ctx g.header.cluster g.header &&
    (List.range 9).any fun q => decide (g.header.cluster ≤ (quadCores s g.header die q).length)

/-- R58: a die's dispatcher that has room draws a range of eight clusters, or fewer at the end. -/
def execDispatcherRangeDraw (grid die : Nat) (s : State) : Host.Outcome State Fault Refusal :=
  match Tbl.get? s.grids grid with
  | none => .next s
  | some g =>
    let total := g.launch.total
    if g.st == .running && placing s g.ctx && !g.header.coop && (s.die die).up && decide (g.counter < total) &&
        dieHasRoom s g die then
      let n := min (8 * g.header.cluster) (total - g.counter)
      .next (s.updGrid grid fun g => { g with counter := g.counter + n, grants := g.grants ++ [(die, g.counter, n)] })
    else .next s

/-! ### Retirement (R54, R55) -/

/-- The record of a launch unit. -/
def unitRecord (ctx grid code cls sev recov : Nat) : RecIn :=
  { code := code, cls := cls, sev := sev, recov := recov, engine := engineOf 0 63 10 ctx, ctx := ctx, grid := grid }

/-- The completion status of a grid (R55). -/
def Grid.statusWord (g : Grid) : Nat := g.seq % 2 ^ 32 * 2 ^ 32 + g.status

/-- Whether every child of a grid has retired. -/
def childrenRetired (s : State) (n : Nat) : Bool :=
  s.grids.all fun p => match p.2.parent with
    | some (_, m) => m != n || p.2.st == .retired
    | none => true

/-- Whether a grid can retire: all its teams have ended, and its children have retired. -/
def canRetire (s : State) (n : Nat) (g : Grid) : Bool :=
  childrenRetired s n && s.teamsOf n == [] &&
  match g.st with
  | .ending => true
  | .running => g.ended == g.launch.total
  | _ => false

/-- A grid marked retired; it is kept only for a parent that can still collect it. -/
def finishGrid (s : State) (n : Nat) : State :=
  match Tbl.get? s.grids n with
  | none => s
  | some g =>
    if g.host || g.collected then { s with grids := Tbl.erase s.grids n }
    else s.updGrid n fun g => { g with st := .retired }

/-- The party of the write of a grid's completion word, beside the launch unit's own accesses. -/
def doneParty (ctx n : Nat) : Party := (4, 128 * (n + 1) + ctx)

/-- The context ends too where an access of a launch unit has lost integrity (R394). -/
def PFault.endsContext (f : PFault) (ctx seq : Nat) (s : State) : State :=
  if 0x0208 ≤ f.code && f.code ≤ 0x020A then endContext s ctx seq else s

/-- Retires a grid: the completion word is written through the port by the launch unit, or refused with a record. -/
def retireGrid (s : State) (n : Nat) : State :=
  match Tbl.get? s.grids n with
  | none => s
  | some g =>
    let p := doneParty g.ctx n
    if g.launch.done = 0 || g.launch.done % 8 != 0 then finishGrid s n
    else if standsBack s p then s
    else
      let s := s.replayed p
      match portWrite p 1 g.ctx g.launch.done (toBytes g.statusWord 8) .write true s with
      | .ok _ s => finishGrid (s.dropReplies p) n
      | .wait s => s
      | .fail f s =>
        let base := unitRecord g.ctx n f.code 2 2 3
        if f.code = 0x0201 then (parkAccess 0 g.ctx p f base s).getD s
        else
          let (s, seq) := logRecord s (f.record base) true
          f.endsContext g.ctx seq (finishGrid (s.dropReplies p) n)

/-- R55: a grid retires. -/
def execGridRetire (grid : Nat) (s : State) : Host.Outcome State Fault Refusal :=
  match Tbl.get? s.grids grid with
  | none => .next s
  | some g =>
    if canRetire s grid g && (s.ctx g.ctx).st != .frozen && (s.ctx g.ctx).st != .saved then .next (retireGrid s grid) else .next s

/-! ### The ends of groups and teams (R54, R102) -/

/-- Whether a copy that still has to report names an issuer. -/
def givesSlices (s : State) (core : Nat) (p : Party) : Bool :=
  (s.core core).copies.any fun c => c.2.issuers.any fun i => i.1 == p

/-- Whether rows on their way through a core's matrix array are to be delivered to a group (R262). -/
def owedRows (s : State) (g : Nat) : Bool :=
  (s.core (coreOfGroup g)).mats.any fun m => m.queue.any fun r => (r.deliver.map (·.1)) == some g

/-- Whether the slot of a group whose lanes have all exited may be freed (R102). -/
def slotFreeable (s : State) (g : Nat) (grp : Group) : Bool :=
  grp.live == 0 && !owedRows s g && grp.parked.isNone && (grp.pending.all fun p => !p.2.demand) &&
    !givesSlices s (coreOfGroup g) (0, g) && ((s.core (coreOfGroup g)).demands.all fun d => d.2.issuer != (0, g))

/-- R102: the slot, header store and cells of an exited group are freed. -/
def execGroupSlotFree (grp : Nat) (s : State) : Host.Outcome State Fault Refusal :=
  match Tbl.get? s.groups grp with
  | none => .next s
  | some g => if slotFreeable s grp g then .next (freeGroup s grp) else .next s

/-- Whether the engine operations of a team have completed; a copy that still collects slices does not count, and a stream stops at
its next element boundary (R335, R336). -/
def teamQuiet (s : State) (t : Nat) : Bool :=
  let k := s.core (coreOfTeam t)
  (k.copies.all fun c => c.2.team != t || c.2.st == .collecting) && (k.demands.all fun d => d.2.team != t) &&
    k.streams.all fun x => x.2.team != t || x.2.st != .running || !busyParty s (streamParty (coreOfTeam t) x.1)

/-- Whether a team can end (R54). -/
def teamDone (s : State) (t : Nat) (tm : Team) : Bool :=
  teamQuiet s t &&
    (tm.killed || (tm.wst == .ended && (s.groupsOf t).all fun p => p.2.live == 0 && p.2.pending.all fun q => !q.2.demand))

/-- The children a team has not collected belong to the grid alone from now on (R73). -/
def orphan (s : State) (tm : Team) : State :=
  tm.children.foldl (fun s n =>
    match Tbl.get? s.grids n with
    | none => s
    | some g => if g.st == .retired then { s with grids := Tbl.erase s.grids n } else s.updGrid n fun g => { g with collected := true }) s

/-- R54: a team has ended, and its resources are freed; where a fault has stopped its Wick context, and the engine operations
of that have completed, its grid ends (R46). -/
def execTeamEnd (team : Nat) (s : State) : Host.Outcome State Fault Refusal :=
  match Tbl.get? s.teams team with
  | none => .next s
  | some tm =>
    match tm.stop with
    | some r => .next (if wickBusy s team then s else wickEnds team r s)
    | none =>
    if teamDone s team tm then
      let s := orphan s tm
      let s := ((s.groupsOf team).map (·.1)).foldl freeGroup s
      let s := s.updCore (coreOfTeam team) fun k => k.dropTeam team
      let s := { s with teams := Tbl.erase s.teams team
                        mem := Memory.clear s.mem ((Space.shared team).key 0) (2 ^ 32) }
      .next (s.updGrid tm.grid fun g =>
        { g with placed := Tbl.erase g.placed tm.lin, ended := g.ended + 1 })
    else .next s

/-! ### Grids from records -/

/-- A grid identifier that no grid has, below 2^25 (R470). -/
def freshGrid (s : State) : Nat :=
  (((List.range (s.grids.length + 1)).map fun i => (s.nextGrid - 1 + i) % (2 ^ 25 - 1) + 1).find? fun n =>
    (Tbl.get? s.grids n).isNone).getD s.nextGrid

/-- The tag of the read of a code line among the accesses of its party. -/
def codeTag (line : Nat) : Nat := 2 ^ 32 + line

/-- Code as it stood at launch: its bytes, the lines whose page was not mapped, and those whose read failed, with the code and the
place of that; both stand as zeros. -/
structure Captured where
  bytes : List Byte
  holes : List Nat
  bad : Tbl (Nat × Nat)
  deriving DecidableEq, Repr

/-- Lines of code read from the i-th on, n of them, of a kernel with len bytes of code. An uncorrectable read is POISON (R387). -/
def captureLines (p : Party) (ctx kernel len : Nat) : Nat → Nat → State → PRes Captured
  | 0, _, s => .ok { bytes := [], holes := [], bad := [] } s
  | n + 1, i, s =>
    let m := min 64 (len - 64 * i)
    match portRead p (codeTag i) ctx (kernel + 64 * i) m .read true s with
    | .ok bs s => (captureLines p ctx kernel len n (i + 1) s).bind fun r s => .ok { r with bytes := bs ++ r.bytes } s
    | .wait s => .wait s
    | .fail f s => (captureLines p ctx kernel len n (i + 1) s).bind fun r s =>
        let r := { r with bytes := List.replicate m 0 ++ r.bytes }
        .ok (if f.code = 0x0201 then { r with holes := i :: r.holes }
          else { r with bad := (i, if f.code = 0x0206 then 0x0205 else f.code, f.place) :: r.bad }) s

/-- The code of a kernel as it stands: the bytes from the header to the end of its buffer, read through the port (R15, R387; log
entry 11). -/
def captureCode (s : State) (p : Party) (ctx kernel : Nat) : PRes Captured :=
  let len := min ((bufEntry s ctx (kernel / 2 ^ 48)).length - kernel % 2 ^ 48) (2 ^ 32)
  captureLines p ctx kernel len ((len + 63) / 64) 0 s

/-- A header of no kernel, for a launch that fails before its header is known. -/
def Header.bare : Header :=
  { wentry := 32, gentry := 32, shared := 0, quota := 4096, trap := false, split := false, coop := false, cluster := 1
    groups := 1, spill := 0 }

/-- A grid made from a record. -/
def mkGrid (ctx : Nat) (st : GridSt) (h : Header) (r : LaunchRec) (depth : Nat) (parent : Option (Nat × Nat))
    (code : Captured) (status seq : Nat) : Grid :=
  { ctx := ctx, st := st, header := h, launch := r, depth := depth, parent := parent, code := code.bytes, holes := code.holes
    bad := code.bad, newUnits := []
    counter := 0, grants := [], placed := [], ended := 0, status := status, seq := seq, host := parent.isNone
    collected := false }

/-- No code, of a launch that fails before it is read. -/
def Captured.none : Captured := { bytes := [], holes := [], bad := [] }

/-- A line of a grid's code put in, where it had not been read at launch. -/
def Grid.putLine (g : Grid) (h : Nat) (bs : List Byte) : Grid :=
  { g with code := g.code.take (64 * h) ++ bs ++ g.code.drop (64 * h + bs.length), holes := g.holes.filter (· != h) }

/-- The lines of a grid's code that could not be read at launch, read now where their page is mapped by now (log entry 11). -/
def fillHoles (n : Nat) : List Nat → State → State
  | [], s => s
  | h :: t, s =>
    match Tbl.get? s.grids n with
    | none => s
    | some g =>
      match portRead (9, 0) 0 g.ctx (g.launch.kernel + 64 * h) (min 64 (g.code.length - 64 * h)) .read true s with
      | .ok bs s => fillHoles n t (s.updGrid n fun g => g.putLine h bs)
      | _ => fillHoles n t s

/-- The same for every grid, once firmware has written a page map. -/
def fillAllHoles (s : State) : State := s.grids.foldl (fun s p => fillHoles p.1 p.2.holes s) s

/-- A grid added under a fresh identifier. -/
def addGrid (s : State) (g : Grid) : Nat × State :=
  let n := freshGrid s
  (n, { s with grids := Tbl.set s.grids n g, nextGrid := if n + 1 < 2 ^ 25 then n + 1 else 1 })

/-- Lines of a context in the footprint caches that were filled before a grid of it starts are not read by it (R218). -/
def dropLines (s : State) (ctx : Nat) : State :=
  { s with cores := Tbl.mapVal s.cores fun _ k => { k with fcache := k.fcache.filter fun l => l.ctx != ctx } }

/-! ### The launch unit (R445) -/

/-- A failure of an access to a launch buffer: its record gives the device address (R484). -/
def PFault.device (f : PFault) (x : Ctx) (off : Nat) : PFault := { f with akind := 3, ptr := x.dframe * 2 ^ 17 + off }

/-- Whole lines read from the device memory of a launch buffer, at their homes. -/
def readDevice (s : State) (x : Ctx) (off : Nat) : Nat → PRes (List Byte)
  | 0 => .ok [] s
  | n + 1 =>
    match deviceKey s x.cgroup x.stripe (x.dframe * 2 ^ 17 + off) with
    | none => .fail (({ code := 0x0203 } : PFault).device x off) s
    | some k =>
      match atHome k s (eccRead k 64 false s) with
      | .ok bs s => (readDevice s x (off + 64) n).bind fun r s => .ok (bs ++ r) s
      | .wait s => .wait s
      | .fail f s => .fail (f.device x off) s

/-- The record of a failed access to a launch buffer. -/
def deviceFailed (c : Nat) (f : PFault) (s : State) : State := (logRecord s (f.record (unitRecord c 0 f.code 2 2 3)) false).1

/-- CONSUMED as the launch unit has it, written to the header: a write of part of a granule, at its home (R431, R444). The unit's own
count is in `Ctx.consumed`; where the word cannot be written there is a record. -/
def consume (s : State) (c n : Nat) : PRes Unit :=
  let x := s.ctx c
  let counted (s : State) : State := s.updCtx c fun x => { x with consumed := n, st := if x.st == .ended then .running else x.st }
  match deviceKey s x.cgroup x.stripe (x.dframe * 2 ^ 17) with
  | none => .ok () (counted s)
  | some k =>
    match atHome k s (eccWrite (k + 8) (toBytes n 8) s) with
    | .ok () s => .ok () (counted s)
    | .wait s => .wait s
    | .fail f s => .ok () (counted (deviceFailed c (f.device x 8) s))

/-- A launch that ended before its grid could start: it retires at once. -/
def failLaunch (s : State) (ctx : Nat) (r : LaunchRec) (status seq : Nat) : State :=
  let (n, s) := addGrid s (mkGrid ctx .ending Header.bare r 0 none .none status seq)
  retireGrid s n

/-- A record that fails R50: BADREC, with its number. -/
def badRecord (s : State) (ctx : Nat) (r : LaunchRec) : State :=
  let (s, seq) := logRecord s { unitRecord ctx 0 0x0306 3 0 0 with detail := r.num } false
  failLaunch s ctx r 4 seq

/-- The launch unit has done with the record it has taken. -/
def doneTaking (c : Nat) (s : State) : State :=
  (s.dropReplies (4, c)).updCtx c fun x => { x with taking := none }

/-- A record taken whose kernel header may not be read: its grid ends FAULT, and the context where integrity is lost (R53, R394). -/
def failTaken (c : Nat) (r : LaunchRec) (f : PFault) (s : State) : State :=
  let s := doneTaking c s
  let (s, seq) := logRecord s (f.record (unitRecord c (freshGrid s) f.code 2 2 3)) true
  f.endsContext c seq (failLaunch s c r 1 seq)

/-- The record that a launch unit has taken: its kernel header and its code are read through the port, and the grid joins the
context's order of launches. The launch at which the code is fixed (R15) is the taking of the record (log entry 42). -/
def startTaken (c : Nat) (r : LaunchRec) (s : State) : State :=
  let p : Party := (4, c)
  match portRead p 0 c r.kernel 32 .read true s with
  | .wait s => s
  | .fail f s =>
    if f.code = 0x0201 then (parkAccess 0 c p f (unitRecord c 0 f.code 2 2 2) s).getD s else failTaken c r f s
  | .ok hs s =>
    match headerFor r hs with
    | none => badRecord (doneTaking c s) c r
    | some h =>
      match captureCode s p c r.kernel with
      | .wait s => s
      | .fail _ s => s
      | .ok code s =>
        let (n, s) := addGrid (doneTaking c s) (mkGrid c .waiting h r 0 none code 0 0)
        s.updCtx c fun x => { x with queue := x.queue ++ [n], st := if x.st == .ended then .running else x.st }

/-- The next record taken: CONSUMED is raised first, and a record that fails R50 ends with BADREC (R445). -/
def takeRecord (s : State) (c : Nat) (bs : List Byte) : State :=
  let r := readRecord bs (s.ctx c).consumed
  match consume s c (((s.ctx c).consumed + 1) % 2 ^ 64) with
  | .ok () s => if recordOk bs r then startTaken c r (s.updCtx c fun x => { x with taking := some r }) else badRecord s c r
  | .wait s => s
  | .fail _ s => s

/-- R445: the launch unit of a context goes on with the record it has taken, or takes the next. A record that cannot be read fails
R50. -/
def execLaunchRecordTake (ctx : Nat) (s : State) : Host.Outcome State Fault Refusal :=
  let x := s.ctx ctx
  if s.stage == .s3 && x.created && (x.st == .running || x.st == .ended) && !x.alarmFrozen && !standsBack s (4, ctx) then
    let s := s.replayed (4, ctx)
    match x.taking with
    | some r => .next (startTaken ctx r s)
    | none =>
      match readDevice s x 0 1 with
      | .ok hdr s =>
        if wordAt hdr 0 = x.consumed then .next s
        else
          match readDevice s x (64 + 192 * (x.consumed % x.nslot)) 3 with
          | .ok bs s => .next (takeRecord s ctx bs)
          | .wait s => .next s
          | .fail f s =>
            match consume (deviceFailed ctx f s) ctx ((x.consumed + 1) % 2 ^ 64) with
            | .ok () s => .next (badRecord s ctx { readRecord [] x.consumed with done := 0 })
            | .wait _ => .next s
            | .fail _ s => .next s
      | .wait s => .next s
      | .fail f s => .next (deviceFailed ctx f s)
  else .next s

/-- The record that a launch unit has taken and not started ends with a status: its context has been killed. -/
def killTaken (c status : Nat) (s : State) : State :=
  match (s.ctx c).taking with
  | none => s
  | some r => failLaunch ((doneTaking c s).forget (· == (4, c))) c r status 0

/-- Whether every earlier grid of a context has retired (R49, SERIAL). -/
def earlierRetired (s : State) (ctx n : Nat) : Bool :=
  let q := (s.ctx ctx).queue
  s.grids.all fun p => p.2.ctx != ctx || p.1 == n || q.contains p.1 || p.2.st == .retired

/-- R53: the next grid of a context starts; one that can never be placed retires with NORES (R55). -/
def execGridStart (grid : Nat) (s : State) : Host.Outcome State Fault Refusal :=
  match Tbl.get? s.grids grid with
  | none => .next s
  | some g =>
    if g.st == .waiting && (s.ctx g.ctx).queue.head? == some grid && placing s g.ctx &&
        (!g.launch.serial || earlierRetired s g.ctx grid) then
      let s := s.updCtx g.ctx fun x => { x with queue := x.queue.drop 1 }
      if neverFits s g.ctx g.header g.launch.total then
        let (s, seq) := logRecord s { unitRecord g.ctx grid 0x0307 3 0 0 with detail := g.launch.num } false
        .next (retireGrid (s.updGrid grid fun g => { g with st := .ending, status := 5, seq := seq }) grid)
      else .next ((dropLines s g.ctx).updGrid grid fun g => { g with st := .running })
    else .next s

/-! ### glaunch and gwait -/

/-- A failure code of `glaunch` (R72). -/
def launchFail (t d code : Nat) (s : State) : GEff := .done (setS t d (BitVec.ofNat 64 (2 ^ 63 + code)) s)

/-- A child grid added to a team. -/
def addChild (t d : Nat) (g : Grid) (s : State) : GEff :=
  let (n, s) := addGrid s g
  let s := s.updTeam t fun tm => { tm with children := tm.children ++ [n] }
  .done (setS t d (BitVec.ofNat 64 n) (if g.st == .ending then retireGrid s n else dropLines s g.ctx))

/-- R72: `glaunch`; of several failures DEPTH, BADREC, NORES, NOSLOT are found in this order (log entry 19). -/
def execGlaunch (x : Args) (s : State) : Host.Outcome State Fault Refusal :=
  issueWick x [x.dst.toNat] (fun t s =>
    let d := x.dst.toNat
    match (Tbl.get? s.teams t).bind fun tm => (Tbl.get? s.grids tm.grid).map fun g => (tm, g) with
    | none => .done s
    | some (tm, parent) =>
      wickAccess t (modBits x 4 1) 192 64 false ((Who.wick t).uni s x.a) s fun a addr =>
        let bs := Memory.readN s.mem (a.key (modBits x 4 1) addr) 192
        let r := readRecord bs 0
        if parent.depth = 10 then launchFail t d 1 s
        else if !recordOk bs r || r.serial then launchFail t d 3 s
        else
          let child (st : GridSt) (h : Header) (code : Captured) (status seq : Nat) : Grid :=
            mkGrid parent.ctx st h r (parent.depth + 1) (some (t, tm.grid)) code status seq
          match portRead (1, t) 0 parent.ctx r.kernel 32 .read true s with
          | .wait s => .wait s
          | .fail f s' =>
            if f.code = 0x0201 then .wait (portFail (.wick t) f s')
            else if 256 ≤ tm.children.length then launchFail t d 4 s
            else
              let (s, seq) := logRecord s' (f.record (unitRecord parent.ctx (freshGrid s') f.code 2 2 3)) true
              addChild t d (child .ending Header.bare .none 1 seq) (f.endsContext parent.ctx seq s)
          | .ok hs s =>
            match headerFor r hs with
            | none => launchFail t d 3 s
            | some h =>
              if neverFits s parent.ctx h r.total then launchFail t d 2 s
              else if 256 ≤ tm.children.length then launchFail t d 4 s
              else
                match captureCode s (1, t) parent.ctx r.kernel with
                | .wait s => .wait s
                | .fail _ s => .done s
                | .ok code s => addChild t d (child .running h code 0 0) s) s

/-- The status words of retired children, in order of launch. -/
def childStatus (s : State) (ns : List Nat) : List Nat := ns.filterMap fun n => (Tbl.get? s.grids n).map (·.statusWord)

/-- Children collected: their statuses are dropped. -/
def collect (s : State) (t : Nat) (ns : List Nat) : State :=
  let s := { s with grids := Tbl.keep s.grids fun n _ => !ns.contains n }
  s.updTeam t fun tm => { tm with children := tm.children.filter fun n => !ns.contains n }

/-- R73: `gwait`; the first of some children is the first launched (log entry 44). -/
def execGwait (x : Args) (s : State) : Host.Outcome State Fault Refusal :=
  issueWick x [x.dst.toNat] (fun t s =>
    let d := x.dst.toNat
    match Tbl.get? s.teams t with
    | none => .done s
    | some tm =>
      let a := ((Who.wick t).uni s x.a).toNat
      let named := if a = 0 then tm.children else tm.children.filter (· == a)
      if a != 0 && named.isEmpty then .done (setS t d 15 s)
      else if named.all fun n => ((Tbl.get? s.grids n).map (·.st == .retired)).getD true then
        let sts := childStatus s named
        let v := if a = 0 then (sts.find? fun w => w % 16 != 0).getD 0 else sts.headD 0
        .done (setS t d (BitVec.ofNat 64 v) (collect s t named))
      else if modBits x 4 1 = 1 then .done (setS t d 0x8000000000000005 s)
      else .wait s) s

/-! ### The loss of a die (R59) -/

/-- The live die that leads a grid. -/
def leaderOf (s : State) (n : Nat) : Option Nat :=
  ((List.range Config.dies).map fun i => (n + i) % Config.dies).find? fun d => (s.die d).up

/-- The teams of a grid granted to a die that have not reported their end, as ranges. -/
def lostRanges (g : Grid) (d : Nat) : List (Nat × Nat) :=
  (g.grants.filter fun p => p.1 == d).map (·.2) ++ (g.placed.filter fun p => p.2 == d).map fun p => (p.1, 1)

/-- Everything of a team on a lost die is gone, its engine operations too. -/
def loseTeam (s : State) (t : Nat) : State :=
  let s := killTeam s t
  match Tbl.get? s.teams t with
  | none => s
  | some tm =>
    let c := coreOfTeam t
    let cops := (Tbl.keep (s.core c).copies fun _ q => q.team == t).map (·.1)
    let s := (orphan s tm).forget fun p => p.1 == 3 && p.2 / 64 == c && cops.contains (p.2 % 64)
    let s := s.updCore c fun k =>
      { k with copies := Tbl.keep k.copies fun e _ => !cops.contains e, locks := Tbl.keep k.locks fun e _ => !cops.contains e }
    { s with teams := Tbl.erase s.teams t, mem := Memory.clear s.mem ((Space.shared t).key 0) (2 ^ 32) }

/-- What the loss of a die does to one grid; the teams granted again all go to the die that leads it now (R59; log entry 49). -/
def loseOnGrid (d : Nat) (s : State) (n : Nat) : State :=
  match Tbl.get? s.grids n with
  | none => s
  | some g =>
    let lost := lostRanges g d
    if lost.isEmpty || !(g.st == .running) then s
    else if g.launch.idem && !g.header.coop then
      match leaderOf s n with
      | none => s
      | some ld => s.updGrid n fun g =>
          { g with grants := (g.grants.filter fun p => p.1 != d) ++ lost.map (fun p => (ld, p.1, p.2))
                   placed := g.placed.filter fun p => p.2 != d }
    else
      let (s, seq) := logRecord s
        { code := 0x0403, cls := 4, sev := 4, recov := 5, engine := engineOf d 63 9 0, ctx := g.ctx, grid := n, detail := d } true
      endGrid s n 2 seq

/-- The grids affected by the loss of a die, which is down already. -/
def loseDieGrids (s : State) (d : Nat) : State :=
  let s := ((Tbl.keep s.teams fun t _ => dieOfCore (coreOfTeam t) == d).map (·.1)).foldl loseTeam s
  s.grids.keys.foldl (loseOnGrid d) s

end Sys2Proof.Machine
end

