-- ==== Sys2Proof/Machine/Pair.lean ====
section
/-! DEFINITION. The P64: two compact instructions issued as one (R29 to R31). -/

namespace Sys2Proof.Machine

/-- What a half of a P64 forms: its operands, and its lane result unless it is `nop`. -/
def halfOp : Instr → Option (Args × Option (Mem → State → LaneOp))
  | .nopC32 x => some (x, none)
  | .movC32 x => some (x, some (opMov x))
  | .rcoalC32 x => some (x, some (opRcoal x))
  | .iaddC32 x => some (x, some (opIadd x))
  | .isubC32 x => some (x, some (opIsub x))
  | .imulC32 x => some (x, some (opImul x))
  | .imulhC32 x => some (x, some (opImulh x))
  | .iminC32 x => some (x, some (opImin x))
  | .imaxC32 x => some (x, some (opImax x))
  | .iabsC32 x => some (x, some (opIabs x))
  | .andC32 x => some (x, some (opAnd x))
  | .orC32 x => some (x, some (opOr x))
  | .xorC32 x => some (x, some (opXor x))
  | .notC32 x => some (x, some (opNot x))
  | .shlC32 x => some (x, some (opShl x))
  | .shrC32 x => some (x, some (opShr x))
  | .sraC32 x => some (x, some (opSra x))
  | .rolC32 x => some (x, some (opRol x))
  | .popcC32 x => some (x, some (opPopc x))
  | .clzC32 x => some (x, some (opClz x))
  | .faddC32 x => some (x, some (opFadd x))
  | .fsubC32 x => some (x, some (opFsub x))
  | .fmulC32 x => some (x, some (opFmul x))
  | .fminC32 x => some (x, some (opFmin x))
  | .fmaxC32 x => some (x, some (opFmax x))
  | .fabsC32 x => some (x, some (opFabs x))
  | .fnegC32 x => some (x, some (opFneg x))
  | .frcpC32 x => some (x, some (opFrcp x))
  | .frsqC32 x => some (x, some (opFrsq x))
  | .fsqrtC32 x => some (x, some (opFsqrt x))
  | .fexp2C32 x => some (x, some (opFexp2 x))
  | .flog2C32 x => some (x, some (opFlog2 x))
  | .cvtFiC32 x => some (x, some (opCvtFi x))
  | .cvtIfC32 x => some (x, some (opCvtIf x))
  | _ => none

/-- The v registers the operand slots of a half read, one entry for each slot (R31). -/
def slotReads (x : Args) : List Nat := srcRegs false x.a ++ srcRegs false x.b

/-- The bank that breaks the rules of R31, where one does: more than two reads, or both destinations. -/
def pairBankOf (x y : Args) (dx dy : Bool) : Option Nat :=
  let reads := slotReads x ++ slotReads y
  (List.range 4).find? fun b =>
    decide (2 < (reads.filter fun r => r % 4 == b).length) ||
      (dx && dy && x.dst.toNat % 4 == b && y.dst.toNat % 4 == b)

/-- The half of a P64 that a RUNOVF is of (R29): of a restore the one that needs the register, else the second where the
first alone would fit. -/
def ovfHalf (c : Cause) (first : List Nat) (alone : GEff) : Bool :=
  if c.detail.testBit 52 then !first.contains (bits c.detail 53 10)
  else match alone with
    | .fault _ => false
    | _ => true

/-- Both halves for one member: all sources are read before either writes, the cells are tested together, and the
first result enters the latch chain before the second (R29). -/
def pairBody (x y : Args) (f h : Option (Mem → State → LaneOp)) (m : Mem) (s : State) : GEff :=
  match Tbl.get? s.groups m.g with
  | none => .done s
  | some grp =>
    let my := { m with act := m.x &&& grp.predLanes y, half := true }
    let ops := (f.map fun o => (o m s, x.dst.toNat, m)).toList ++ (h.map fun o => (o my s, y.dst.toNat, my)).toList
    let news := ops.map fun o => o.1.news o.2.2 grp o.2.1 s
    let keep := ops.flatMap fun o => if o.1.keeps then [o.2.1] else []
    let reads := ops.flatMap fun o => o.1.reads
    match writeRegs m reads keep news.flatten s with
    | .fault c =>
      let one := if f.isSome then ops.take 1 else []
      let mine := one.flatMap fun o => o.1.reads ++ if o.1.keeps then [o.2.1] else []
      .fault { c with half := ovfHalf c mine (writeRegs m reads keep ((news.take one.length).flatten) s) }
    | .done s => .done (s.updGroup m.g fun q =>
        news.foldl (fun q n => q.pushLatch ((n.head?.map (·.2)).getD Runs.zero)) q)
    | e => e

/-- Issues a P64 (R29). -/
def execPair64 (a b : Instr) (s : State) : Host.Outcome State Fault Refusal :=
  match halfOp a, halfOp b with
  | some (x, f), some (y, h) =>
    let vs := slotReads x ++ slotReads y ++ [x.dst.toNat, y.dst.toNat]
    match pairBankOf x y f.isSome h.isSome with
    | some b => issueHalves [] [] [] (fun _ _ => .fault (Cause.pairBank b)) s
    | none => issueHalves [x, y] vs [] (pairBody x y f h) s
  | _, _ => .next s

end Sys2Proof.Machine
end

