-- ==== Sys2Proof/Machine/System.lean ====
section
/-! DEFINITION. The trap instructions and the special registers of a group (R405 to R409), and a debugger's
resumption. -/

namespace Sys2Proof.Machine

/-- Whether a team's grid runs in supervisor mode: the firmware context's launch unit started it; a child that such a grid launches
runs in user mode (R52, R384). -/
def supervisor (s : State) (t : Nat) : Bool :=
  (((Tbl.get? s.teams t).bind fun tm => Tbl.get? s.grids tm.grid).map fun g => g.ctx == Config.firmwareCtx && g.parent.isNone).getD false

/-- R405: `trap`. -/
def execTrap (x : Args) (s : State) : Host.Outcome State Fault Refusal :=
  issueGroup x [] [] (fun m s =>
    if m.act = 0 then .done s else .fault (Cause.trap (((Who.group m).uniZ s x.b).toNat % 256))) s

/-- R405: `brk`; with a debugger attached the group stops, and EPC is where it will go on (log entry 15). -/
def execBrk (x : Args) (s : State) : Host.Outcome State Fault Refusal :=
  issueGroup x [] [] (fun m s =>
    if m.act = 0 then .done s
    else
      match Tbl.get? s.groups m.g with
      | none => .done s
      | some g =>
        if (s.ctx (s.ctxOfTeam g.team)).debugger then
          .jump (s.updGroup m.g fun q => { q with debug := true, epc := BitVec.ofNat 64 m.next })
        else .fault Cause.brk) s

/-- R405: the debugger resumes a group stopped at `brk`, at EPC. -/
def execDebuggerResume (grp : Nat) (s : State) : Host.Outcome State Fault Refusal :=
  match Tbl.get? s.groups grp with
  | none => .next s
  | some g =>
    if g.debug then
      .next (s.updGroup grp fun q =>
        { q with debug := false, lanes := mapLanes q.lanes q.lastX fun _ a => { a with pc := lo32 q.epc } })
    else .next s

/-- R406: `eret`. -/
def execEret (x : Args) (s : State) : Host.Outcome State Fault Refusal :=
  issueGroup x [] [] (fun m s =>
    match Tbl.get? s.groups m.g with
    | none => .done s
    | some g =>
      match g.trap with
      | none => .fault (m.bounds rNOTRAP)
      | some t =>
        let skip := modBits x 4 1 == 1
        let s := advance m.g (m.x &&& ~~~m.act) m.next s
        .jump (s.updGroup m.g fun q => leaveHandler s.now { q with
          trap := some { t with erets := t.erets ||| m.act, skips := if skip then t.skips ||| m.act else t.skips } })) s

/-- The number a special-register field names. -/
def srNum : Src → Nat
  | .num n => n.toNat
  | _ => 63

/-- The value of a special register, where the mode may read it (R407). -/
def readSr (s : State) (g : Nat) (grp : Group) (n : Nat) : Option W64 :=
  let t := Tbl.get? s.teams grp.team
  let c := coreOfGroup g
  match n with
  | 0 => some grp.gsr
  | 1 => some grp.tvec
  | 2 => some grp.epc
  | 3 => some grp.ecause
  | 4 => some grp.edetail
  | 5 => some grp.eaddr
  | 6 => some grp.elanes
  | 7 => some grp.tstat
  | 8 => some (BitVec.ofNat 64 (s.now - (s.core c).clkBase))
  | 9 => some (BitVec.ofNat 64 s.ts)
  | 10 => some (BitVec.ofNat 64 ((t.map (·.lin)).getD 0))
  | 11 => some (BitVec.ofNat 64 ((t.map (·.grid)).getD 0))
  | 12 => some (BitVec.ofNat 64 (s.ctxOfTeam grp.team))
  | 13 => some (BitVec.ofNat 64 (slotOfGroup g * 2 ^ 16 + subOfGroup g * 2 ^ 12 + dieOfCore c * 2 ^ 8 + c % Config.coresPerDie))
  | 14 => some grp.einst
  | 15 => some grp.elit
  | 32 => if supervisor s grp.team then some (BitVec.ofNat 64 (s.die (dieOfCore c)).faults.length) else none
  | _ => none

/-- R407: `mfsr`; a register the mode may not read is UNDEF. -/
def execMfsr (x : Args) (s : State) : Host.Outcome State Fault Refusal :=
  issueGroup x [] [x.dst.toNat] (fun m s =>
    match Tbl.get? s.groups m.g with
    | none => .done s
    | some g =>
      match readSr s m.g g (srNum x.a) with
      | none => .fault Cause.undef
      | some v => if m.act = 0 then .done s else .done (s.updGroup m.g fun q => q.setK x.dst.toNat v)) s

/-- Whether a value may be a trap vector, or the fault it raises (R407). -/
def tvecFault (m : Mem) (v : W64) : Option Cause :=
  let l := (lowest m.act).getD 0
  if v.toNat % 4 != 0 then some (Cause.align l v.toNat 3)
  else if v != 0 && (v.toNat < 32 || 2 ^ 32 ≤ v.toNat) then some (Cause.boundsAddr l v.toNat 3)
  else none

/-- R407: `mtsr`; a register that may not be written is UNDEF, `epc` outside a handler too. -/
def execMtsr (x : Args) (s : State) : Host.Outcome State Fault Refusal :=
  issueGroup x [] [] (fun m s =>
    match Tbl.get? s.groups m.g with
    | none => .done s
    | some g =>
      let v := (Who.group m).uni s x.b
      match x.dst.toNat with
      | 0 => if m.act = 0 then .done s else .done (s.updGroup m.g fun q => q.clearGsr v)
      | 1 =>
        if m.act = 0 then .done s
        else
          match tvecFault m v with
          | some c => .fault c
          | none => .done (s.updGroup m.g fun q => { q with tvec := v })
      | 2 =>
        if m.act = 0 then .done s
        else if g.trap.isNone then .fault Cause.undef
        else .done (s.updGroup m.g fun q => { q with epc := v })
      | _ => .fault Cause.undef) s

/-- R408: `preack`; where a request is pending the group gives up the protection of R24. -/
def execPreack (x : Args) (s : State) : Host.Outcome State Fault Refusal :=
  issueGroup x [] [x.dst.toNat] (fun m s =>
    match Tbl.get? s.groups m.g with
    | none => .done s
    | some g =>
      let pending := (s.ctx (s.ctxOfTeam g.team)).request
      if m.act = 0 then .done s
      else .done (s.updGroup m.g fun q =>
        let q := q.setK x.dst.toNat (if pending then 1 else 0)
        if pending then { q with protect := 65 } else q)) s

/-- R409: `errw`; a core emits one such record in 1,024 cycles, and one beyond that rate waits. -/
def execErrw (x : Args) (s : State) : Host.Outcome State Fault Refusal :=
  issueAny x [] [] (fun w s =>
    let wait := match (s.core w.core).errwLast with
      | some c => decide (s.now < c + 1024)
      | none => false
    if wait then .wait s
    else
      let r := { w.record s 0x01FF 7 0 0 with addr := (w.uni s x.b).toNat, detail := (w.uni s x.a).toNat }
      let s := (logRecord s r false).1
      .done (s.updCore w.core fun k => { k with errwLast := some s.now })) s

end Sys2Proof.Machine
end

