-- ==== Sys2Proof/Machine/Fetch.lean ====
section
/-! DEFINITION. Fetching for a group, whether what it fetches would issue, and the protection of a latch chain (R24, R84, R387). -/

namespace Sys2Proof.Machine

/-- The meanings of the instructions legal in group code, for asking what an issue would come to; what is none of them
is never fetched there. -/
def groupExec (i : Instr) (s : State) : Host.Outcome State Fault Refusal :=
  match i with
  | .nop x => execNop x s
  | .br x => execBr x s
  | .brx x => execBrx x s
  | .jmp x => execJmp x s
  | .call x => execCall x s
  | .ret x => execRet x s
  | .exit x => execExit x s
  | .join x => execJoin x s
  | .fuse x => execFuse x s
  | .yield x => execYield x s
  | .loopStrict x => execLoopStrict x s
  | .lend x => execLend x s
  | .dqpop x => execDqpop x s
  | .rsort x => execRsort x s
  | .pair x => execPairBind x s
  | .pjoin x => execPjoin x s
  | .unpair x => execUnpair x s
  | .rdpcv x => execRdpcv x s
  | .rdid x => execRdid x s
  | .kstat x => execKstat x s
  | .sleep x => execSleep x s
  | .iadd x => execIadd x s
  | .isub x => execIsub x s
  | .imul x => execImul x s
  | .imulh x => execImulh x s
  | .imad x => execImad x s
  | .iabs x => execIabs x s
  | .imin x => execImin x s
  | .imax x => execImax x s
  | .and x => execAnd x s
  | .or x => execOr x s
  | .xor x => execXor x s
  | .not x => execNot x s
  | .shl x => execShl x s
  | .shr x => execShr x s
  | .sra x => execSra x s
  | .rol x => execRol x s
  | .popc x => execPopc x s
  | .clz x => execClz x s
  | .icmp x => execIcmp x s
  | .sel x => execSel x s
  | .imadC x => execImadC x s
  | .fadd x => execFadd x s
  | .fsub x => execFsub x s
  | .fmul x => execFmul x s
  | .ffma x => execFfma x s
  | .fmin x => execFmin x s
  | .fmax x => execFmax x s
  | .fabs x => execFabs x s
  | .fneg x => execFneg x s
  | .frcp x => execFrcp x s
  | .frsq x => execFrsq x s
  | .fsqrt x => execFsqrt x s
  | .fexp2 x => execFexp2 x s
  | .flog2 x => execFlog2 x s
  | .fcmp x => execFcmp x s
  | .fclass x => execFclass x s
  | .mov x => execMov x s
  | .vbc x => execVbc x s
  | .vli x => execVli x s
  | .rcoal x => execRcoal x s
  | .rstat x => execRstat x s
  | .ffmaC x => execFfmaC x s
  | .shfl x => execShfl x s
  | .shflx x => execShflx x s
  | .vote x => execVote x s
  | .pand x => execPand x s
  | .por x => execPor x s
  | .pxor x => execPxor x s
  | .pnot x => execPnot x s
  | .pmov x => execPmov x s
  | .pcnt x => execPcnt x s
  | .pfirst x => execPfirst x s
  | .redF x => execRedF x s
  | .redI x => execRedI x s
  | .scanF x => execScanF x s
  | .scanI x => execScanI x s
  | .vcomp x => execVcomp x s
  | .vexp x => execVexp x s
  | .lid x => execLid x s
  | .cvtFf x => execCvtFf x s
  | .cvtFi x => execCvtFi x s
  | .cvtIf x => execCvtIf x s
  | .fround x => execFround x s
  | .rint x => execRint x s
  | .qscale x => execQscale x s
  | .pack4 x => execPack4 x s
  | .unpack4 x => execUnpack4 x s
  | .dmask x => execDmask x s
  | .rngx x => execRngx x s
  | .rngxSeed x => execRngxSeed x s
  | .rngxSt x => execRngxSt x s
  | .pk16 x => execPk16 x s
  | .pk8 x => execPk8 x s
  | .xt16 x => execXt16 x s
  | .xt8 x => execXt8 x s
  | .ld x => execLd x s
  | .st x => execSt x s
  | .ldk x => execLdk x s
  | .stk x => execStk x s
  | .ldW x => execLdW x s
  | .stW x => execStW x s
  | .spush x => execSpush x s
  | .spop x => execSpop x s
  | .atomAdd x => execAtomAdd x s
  | .atomMin x => execAtomMin x s
  | .atomMax x => execAtomMax x s
  | .atomAnd x => execAtomAnd x s
  | .atomOr x => execAtomOr x s
  | .atomXor x => execAtomXor x s
  | .atomExch x => execAtomExch x s
  | .atomcas x => execAtomcas x s
  | .atomFAdd x => execAtomFAdd x s
  | .atomFMin x => execAtomFMin x s
  | .atomFMax x => execAtomFMax x s
  | .amaxF32 x => execAmaxF32 x s
  | .amaxr x => execAmaxr x s
  | .ldAcq x => execLdAcq x s
  | .stRel x => execStRel x s
  | .acq x => execAcq x s
  | .rel x => execRel x s
  | .fence x => execFence x s
  | .bind x => execBind x s
  | .unbind x => execUnbind x s
  | .sigwait x => execSigwait x s
  | .sigset x => execSigset x s
  | .mwl x => execMwl x s
  | .mwswap x => execMwswap x s
  | .mma x => execMma x s
  | .mmaG x => execMmaG x s
  | .mmaV x => execMmaV x s
  | .mdrain x => execMdrain x s
  | .gdrain x => execGdrain x s
  | .mzero x => execMzero x s
  | .mctxAcq x => execMctxAcq x s
  | .mctxTry x => execMctxTry x s
  | .mctxRel x => execMctxRel x s
  | .mfmt x => execMfmt x s
  | .tld x => execTld x s
  | .tst x => execTst x s
  | .tmov x => execTmov x s
  | .hst x => execHst x s
  | .hinfo x => execHinfo x s
  | .cld x => execCld x s
  | .cldi x => execCldi x s
  | .spl x => execSpl x s
  | .splX x => execSplX x s
  | .splres x => execSplres x s
  | .cfind x => execCfind x s
  | .cins x => execCins x s
  | .lrun x => execLrun x s
  | .lstop x => execLstop x s
  | .lstat x => execLstat x s
  | .qpop x => execQpop x s
  | .qpeek x => execQpeek x s
  | .qpush x => execQpush x s
  | .bcp x => execBcp x s
  | .bcpMc x => execBcpMc x s
  | .bcpV x => execBcpV x s
  | .wsig x => execWsig x s
  | .abinit x => execAbinit x s
  | .abwait x => execAbwait x s
  | .abarr x => execAbarr x s
  | .tokwait x => execTokwait x s
  | .bcancel x => execBcancel x s
  | .bpf x => execBpf x s
  | .trap x => execTrap x s
  | .eret x => execEret x s
  | .brk x => execBrk x s
  | .mfsr x => execMfsr x s
  | .mtsr x => execMtsr x s
  | .preack x => execPreack x s
  | .errw x => execErrw x s
  | .nopC32 x => execNopC32 x s
  | .movC32 x => execMovC32 x s
  | .rcoalC32 x => execRcoalC32 x s
  | .iaddC32 x => execIaddC32 x s
  | .isubC32 x => execIsubC32 x s
  | .imulC32 x => execImulC32 x s
  | .imulhC32 x => execImulhC32 x s
  | .iminC32 x => execIminC32 x s
  | .imaxC32 x => execImaxC32 x s
  | .iabsC32 x => execIabsC32 x s
  | .andC32 x => execAndC32 x s
  | .orC32 x => execOrC32 x s
  | .xorC32 x => execXorC32 x s
  | .notC32 x => execNotC32 x s
  | .shlC32 x => execShlC32 x s
  | .shrC32 x => execShrC32 x s
  | .sraC32 x => execSraC32 x s
  | .rolC32 x => execRolC32 x s
  | .popcC32 x => execPopcC32 x s
  | .clzC32 x => execClzC32 x s
  | .faddC32 x => execFaddC32 x s
  | .fsubC32 x => execFsubC32 x s
  | .fmulC32 x => execFmulC32 x s
  | .fminC32 x => execFminC32 x s
  | .fmaxC32 x => execFmaxC32 x s
  | .fabsC32 x => execFabsC32 x s
  | .fnegC32 x => execFnegC32 x s
  | .frcpC32 x => execFrcpC32 x s
  | .frsqC32 x => execFrsqC32 x s
  | .fsqrtC32 x => execFsqrtC32 x s
  | .fexp2C32 x => execFexp2C32 x s
  | .flog2C32 x => execFlog2C32 x s
  | .cvtFiC32 x => execCvtFiC32 x s
  | .cvtIfC32 x => execCvtIfC32 x s
  | _ => .next s

/-! ### Fetching -/

/-- The lines of a grid's code still to be read for an instruction at a PC, of the length its first unit gives: the line of that unit
first, then those of the others (R387). -/
def codeHoles (g : Grid) (pc len : Nat) (ok : Bool) : List Nat :=
  let absent := g.holes ++ g.bad.map (·.1)
  if pc % 4 != 0 || decide (g.code.length < pc + 4) then []
  else if absent.contains (pc / 64) then [pc / 64]
  else if !ok then []
  else absent.filter fun h => decide (pc < 64 * h + 64 && 64 * h < pc + 4 * len)

/-- What an issue of candidate c of a group would fetch: the issue, whether its units lie in the code (R387), and the
lines of the code that have still to be read for it. -/
def fetchAt (s : State) (g : Nat) (grp : Group) (c : Nat) : Option (Cur × Bool × List Nat) :=
  match (Tbl.get? s.teams grp.team).bind s.gridOf, grp.subs[c]? with
  | some gr, some k =>
    let x := grp.issueSet k
    match lowest x with
    | none => none
    | some l =>
      let pc := (grp.lane l).pc.toNat
      let (cur, ok) := fetchCur (gr.codeAt s.now) (.group g) c x pc
      some (cur, ok, codeHoles gr pc cur.len ok)
  | _, _ => none

/-- Reads a line of a grid's code that was not read at launch; where it cannot be read, what that came to: a line that failed then
fails now, and an uncorrectable read is POISON (R387; log entry 11). -/
def readHole (w : Who) (n : Nat) (h : Nat) (s : State) : Except State State :=
  match Tbl.get? s.grids n with
  | none => .error s
  | some g =>
    let ptr := g.launch.kernel + 64 * h
    match Tbl.get? g.bad h with
    | some b => .error (portFail w { code := b.1, kind := 1, ptr := ptr, size := 64, place := b.2 } s)
    | none =>
      match portRead w.party (codeTag h) g.ctx ptr (min 64 (g.code.length - 64 * h)) .read true s with
      | .ok bs s => .ok (s.updGrid n fun g => g.putLine h bs)
      | .wait s => .error s
      | .fail f s => .error (portFail w { f with code := if f.code = 0x0206 then 0x0205 else f.code } s)

/-- The lines of a list read in order. -/
def readHoles (w : Who) (n : Nat) : List Nat → State → Except State State
  | [], s => .ok s
  | h :: t, s =>
    match readHole w n h s with
    | .ok s => readHoles w n t s
    | e => e

/-- The lines that an issue of a group still needs, read for it. -/
def readFor (g : Nat) (grp : Group) (cur : Cur) (holes : List Nat) (s : State) : Except State State :=
  readHoles (.group { g := g, x := cur.lanes, act := cur.lanes, pc := cur.pc, next := cur.pc })
    (((Tbl.get? s.teams grp.team).map (·.grid)).getD 0) holes { s with cur := cur }

/-- Whether it is the second half of a P64 that is no instruction (R29, R36). -/
def secondBad (u0 u1 : W32) : Bool :=
  u0.extractLsb' 0 2 == 2 && (decodeCompact u0).toOption.isSome && (u1.extractLsb' 0 2 != 0 || (decodeCompact u1).toOption.isNone)

/-- The instruction of an issue run by `run`: FETCH and UNDEF arise in both members of a JOINED pair (R36, R38, R387). -/
def runFetched (run : Read → State → Host.Outcome State Fault Refusal) (ok : Bool) (s : State) :
    Host.Outcome State Fault Refusal :=
  if !ok then issueHalves [] [] [] (fun m _ => .fault (Cause.fetch m.pc)) s
  else
    match decodeUnits .group true s.cur.u0 s.cur.u1 s.cur.u2 with
    | .error _ => issueHalves [] [] [] (fun _ _ => .fault { Cause.undef with half := secondBad s.cur.u0 s.cur.u1 }) s
    | .ok r => run r s

/-- Whether the next instruction of candidate c would issue, with the meanings that `run` gives. -/
def issuesBy (run : Read → State → Host.Outcome State Fault Refusal) (s : State) (g : Nat) (grp : Group) (c : Nat) : Bool :=
  let runs (cur : Cur) (ok : Bool) (s : State) : Bool := match runFetched run ok { s with cur := cur } with
    | .next t => !t.cur.stalled
    | _ => false
  match fetchAt s g grp c with
  | none => false
  | some (cur, ok, []) => runs cur ok s
  | some (cur, _, holes) =>
    match readFor g grp cur holes s with
    | .error _ => false
    | .ok s =>
      match fetchAt s g grp c with
      | some (cur, ok, []) => runs cur ok s
      | _ => false

/-! ### Latch protection (R24) -/

/-- The operands of what a decoder read. -/
def operandsOf : Read → List Args
  | .one (.late _ x) => [x]
  | .one (.instr i) => instrArgs i
  | .pair a b => instrArgs a ++ instrArgs b
where
  /-- The operands of an instruction. -/
  instrArgs (i : Instr) : List Args :=
    match encOf i with
    | .full _ x => [x]
    | .compact _ x => [x]
    | .event => []

/-- Whether the next instruction of the candidate that issued last names a latch. -/
def latchNext (s : State) (grp : Group) : Bool :=
  let code := ((Tbl.get? s.teams grp.team).bind fun tm => (s.gridOf tm).map fun n => n.codeAt s.now).getD []
  match (grp.subs[grp.lastSub]?).bind fun c => lowest (grp.issueSet c) with
  | none => false
  | some l =>
    match decode .group true (code.drop (grp.lane l).pc.toNat) with
    | .ok (r, _) => (srcsOf (operandsOf r)).any fun y => (latchOf y).isSome
    | .error _ => false

/-- The meanings of what may name a latch; a supervisor-only instruction names none. -/
def plainRead (r : Read) (s : State) : Host.Outcome State Fault Refusal :=
  match r with
  | .one (.instr i) => groupExec i s
  | .one (.late _ _) => .next s
  | .pair a b => execPair64 a b s

/-- Whether R24 protects a group: its next instruction names a latch and is otherwise ready, and at most 64 in a row have. -/
def protected_ (s : State) (g : Nat) (grp : Group) : Bool :=
  decide (1 ≤ grp.protect) && decide (grp.protect ≤ 64) && latchNext s grp && issuesBy plainRead s g grp grp.lastSub

end Sys2Proof.Machine
end

