-- ==== Sys2Proof/Machine/Context.lean ====
section
/-! DEFINITION. Quiescing, saving, restoring and halting a context (R397 to R402, R410 to R412). -/

namespace Sys2Proof.Machine

/-- Issues a supervisor-only instruction; in user mode it is UNDEF (R384). -/
def issueSup (x : Args) (ks : List Nat) (body : Who → State → GEff) (s : State) : Host.Outcome State Fault Refusal :=
  match s.cur.by_ with
  | .wick _ => issueWick x ks (fun t s => if supervisor s t then body (.wick t) s else .fault Cause.undef) s
  | _ => issueGroup x [] ks (fun m s =>
      if !supervisor s ((Who.group m).team s) then .fault Cause.undef
      else if m.act = 0 then .done s else body (.group m) s) s

/-! ### Quiescing (R398) -/

/-- The teams of a context. -/
def ctxTeams (s : State) (c : Nat) : Tbl Team := Tbl.keep s.teams fun t _ => s.ctxOfTeam t == c
/-- The groups of a context. -/
def ctxGroups (s : State) (c : Nat) : Tbl Group := Tbl.keep s.groups fun _ g => s.ctxOfTeam g.team == c

/-- Whether nothing of a context is under way on a core. -/
def coreQuiet (s : State) (c core : Nat) (k : Core) : Bool :=
  (k.copies.all fun p => p.2.ctx != c || p.2.st == .collecting) &&
  (k.demands.all fun p => s.ctxOfTeam p.2.team != c) &&
  (k.path.all fun r => ((Tbl.get? s.groups r.grp).map fun g => s.ctxOfTeam g.team) != some c) &&
  (k.streams.all fun p => p.2.ctx != c || !busyParty s (streamParty core p.1)) &&
  k.mats.all fun m => m.load.isNone || (m.owner.map fun t => s.ctxOfTeam t) != some c

/-- Whether a context has reached its boundaries, and its copies and demand requests have completed. -/
def quiet (s : State) (c : Nat) : Bool :=
  ((ctxGroups s c).all fun p => !protected_ s p.1 p.2 && !busyParty s (0, p.1)) &&
  ((ctxTeams s c).all fun p => !busyParty s (1, p.1)) &&
  s.cores.all fun p => coreQuiet s c p.1 p.2

/-- The pending results that rows of the matrix array will deliver. -/
def rowResults (s : State) : List (Nat × Nat) :=
  s.cores.flatMap fun p => p.2.mats.flatMap fun m => m.queue.filterMap fun r => r.deliver.map fun d => (d.1, d.2.1)

/-- A group at its boundary: latches lost, results landed, a parked access withdrawn. -/
def quietGroup (keep : List Nat) (q : Group) : Group :=
  let q := (q.pending.map (·.1)).foldl (fun q id => if keep.contains id then q else q.land id) q
  { q.loseLatches with parked := none, held := 0 }

/-- Every party of a context at its boundary, its parked accesses withdrawn. -/
def settleCtx (c : Nat) (s : State) : State :=
  let mine : Party → Bool := fun p =>
    match p.1 with
    | 0 => ((Tbl.get? s.groups p.2).map fun g => s.ctxOfTeam g.team) == some c
    | 1 => s.ctxOfTeam p.2 == c
    | 2 => ((Tbl.get? (s.core (p.2 / 8)).streams (p.2 % 8)).map (·.ctx)) == some c
    | _ => false
  let rows := rowResults s
  { s with
    groups := Tbl.mapVal s.groups fun g q =>
      if s.ctxOfTeam q.team = c then quietGroup ((rows.filter fun r => r.1 == g).map (·.2)) q else q
    teams := Tbl.mapVal s.teams fun t q => if s.ctxOfTeam t = c then { q with parked := none } else q
    dies := Tbl.mapVal s.dies fun _ d =>
      { d with faults := d.faults.map fun f => { f with parked := f.parked.filter fun p => !mine p } }
    cores := Tbl.mapVal s.cores fun _ k => { k with entryWait := k.entryWait.filter fun p => !mine p.1 }
    replay := s.replay.filter fun q => !mine q.1 }

/-- The quiesce of a running context: the request stands until everything is quiet; none while it is not. -/
def quiesce (c : Nat) (s : State) : Except State State :=
  let x := s.ctx c
  let s := if x.request then s else s.updCtx c fun x => { x with request := true, reqAt := s.ts }
  if quiet s c then
    .ok ((settleCtx c s).updCtx c fun x => { x with st := .frozen, request := false, quietTs := s.ts, quietAt := s.now })
  else .error s

/-- The contexts that an alarm freezes stand still once everything of theirs is quiet (R466). -/
def alarmStop (s : State) : State :=
  (s.ctxs.filter fun p => p.2.alarmFrozen && p.2.st == .running && quiet s p.1).foldl (fun s p =>
    (settleCtx p.1 s).updCtx p.1 fun x => { x with st := .frozen, request := false, quietTs := s.ts, quietAt := s.now }) s

/-- The timers of a group moved on by the cycles it stood still (R97). -/
def shiftGroup (d : Nat) (q : Group) : Group :=
  { q with
    wait := q.wait.map fun w => { w with start := w.start + d }
    joins := q.joins.map fun j => { j with start := j.start + d }
    lanes := q.lanes.map fun a => { a with wake := a.wake + d } }

/-- The wait of a team moved on likewise. -/
def shiftTeam (d : Nat) (q : Team) : Team := { q with wait := q.wait.map fun w => { w with start := w.start + d } }

/-- When the groups of a context entered the pending set, moved on likewise: an age does not count the cycles for which a
group is stopped (R81). -/
def shiftPending (s : State) (c d n : Nat) (k : Core) : Core :=
  { k with subs := k.subs.zipIdx.map fun p =>
      { p.1 with pending := Tbl.mapVal p.1.pending fun i t =>
          if ((Tbl.get? s.groups (n * 64 + p.2 * 16 + i)).map fun q => s.ctxOfTeam q.team) = some c then min (t + d) s.now else t } }

/-- A frozen context runs again (R412): nothing is lost but the latches. -/
def resumeCtx (c : Nat) (s : State) : State :=
  let d := s.now - (s.ctx c).quietAt
  let s' := { s with
    cores := Tbl.mapVal s.cores (shiftPending s c d)
    groups := Tbl.mapVal s.groups fun _ q => if s.ctxOfTeam q.team = c then (shiftGroup d q).loseLatches else q
    teams := Tbl.mapVal s.teams fun t q => if s.ctxOfTeam t = c then shiftTeam d q else q }
  s'.updCtx c fun x => { x with st := .running, thaw := false }

/-! ### One operation at a time (R397) -/

/-- An operation on a context by a party: it waits for those that came before. -/
def withOp (w : Who) (c : Nat) (s : State) (k : State → GEff) : GEff :=
  let ops := (s.ctx c).ops
  match ops.head? with
  | none => k (s.updCtx c fun x => { x with ops := [w.party] })
  | some p =>
    if p == w.party then k s
    else .wait (if ops.contains w.party then s else s.updCtx c fun x => { x with ops := x.ops ++ [w.party] })

/-- The operation of a party on a context is over. -/
def endOp (w : Who) (c : Nat) (s : State) : State := s.updCtx c fun x => { x with ops := x.ops.filter (· != w.party) }

/-! ### halt (R412) -/

/-- A `halt` on a context of a tenant; others are left unchanged (log entry 25). -/
def haltCtx (x : Args) (body : Who → Nat → State → GEff) (s : State) : Host.Outcome State Fault Refusal :=
  issueSup x [] (fun w s =>
    let c := (w.uni s x.a).toNat
    if 63 < c then .done s else withOp w c s fun s => body w c s) s

/-- R412: `halt.freeze`. -/
def execHaltFreeze (x : Args) (s : State) : Host.Outcome State Fault Refusal :=
  haltCtx x (fun w c s =>
    if (s.ctx c).st != .running then .done (endOp w c s)
    else match quiesce c s with
      | .ok s => .done (endOp w c s)
      | .error s => .wait s) s

/-- R412: `halt.resume`; a context that an alarm froze stays frozen (R466). -/
def execHaltResume (x : Args) (s : State) : Host.Outcome State Fault Refusal :=
  haltCtx x (fun w c s =>
    if (s.ctx c).st == .frozen && !(s.ctx c).alarmFrozen then .done (endOp w c (resumeCtx c s)) else .done (endOp w c s)) s

/-- Whether copies of a context are still under way. -/
def copiesLeft (s : State) (c : Nat) : Bool := s.cores.any fun p => p.2.copies.any fun q => q.2.ctx == c && q.2.st != .collecting

/-- R412: `halt.kill`: the grids end at once, and the context once its copies have completed. -/
def execHaltKill (x : Args) (s : State) : Host.Outcome State Fault Refusal :=
  haltCtx x (fun w c s =>
    if (s.ctx c).st == .ended || (s.ctx c).st == .saved then .done (endOp w c s)
    else
      let s := killTaken c 3 (endGrids s c 3 0)
      if copiesLeft s c then .wait s
      else .done (endOp w c (s.updCtx c fun x => { x with st := .ended, request := false, thaw := false }))) s

/-! ### The image (R399, R400) -/

/-- A record of an image: TYPE, OWNER, SUB and body. -/
abbrev ImgRec := Nat × Nat × Nat × List Byte

/-- Bytes padded with zeros to a multiple. -/
def padTo (n : Nat) (bs : List Byte) : List Byte := bs ++ List.replicate ((n - bs.length % n) % n) 0

/-- The bytes of a record. -/
def recBytes (r : ImgRec) : List Byte :=
  toBytes (r.1 + r.2.1 * 2 ^ 16 + r.2.2.1 * 2 ^ 32) 8 ++ toBytes r.2.2.2.length 8 ++ padTo 16 r.2.2.2

/-- The bytes of an image, with its END record. -/
def imageBytes (ctx overrun time : Nat) (rs : List ImgRec) : List Byte :=
  let body := rs.flatMap recBytes ++ recBytes (0x000F, 0, 0, [])
  toBytes (1 + ctx * 2 ^ 16 + overrun * 2 ^ 32) 8 ++ toBytes (64 + body.length) 8 ++ toBytes time 8 ++
    List.replicate 40 0 ++ body

/-- The entry of a register in a REGS body (R400). -/
def regEntry (j : Nat) (r : Reg) : List Byte :=
  let word (n sp v : Nat) : List Byte := toBytes (j * 2 ^ 54 + (n - 1) * 2 ^ 49 + sp * 2 ^ 48 + v % 2 ^ 32) 8
  match r.spilled with
  | some h => word h.n 1 (h.off / 16)
  | none =>
    match r.runs with
    | [] => []
    | [u] => if u.val = 0 then [] else word 1 0 u.val.toNat
    | us => word us.length 0 0 ++ padTo 8 (us.flatMap cellBytes)

/-- The REGS body of a group. -/
def regsBody (g : Group) : List Byte := g.regs.flatMap fun p => regEntry p.1 p.2

/-- The registers that a REGS body lists; a spilled one has its image, of whole runs, in the area of `base` bytes for them (R112,
R124). -/
def readRegsBody (spill : Memory) (base : Nat) : Nat → List Byte → Option (List (Nat × Runs × Option SpillHdr))
  | 0, bs => if bs.isEmpty then some [] else none
  | fuel + 1, bs =>
    if bs.isEmpty then some []
    else if bs.length < 8 then none
    else
      let w := ofBytes (bs.take 8)
      let j := bits w 54 10
      let n := bits w 49 5 + 1
      let rest := bs.drop 8
      if bits w 32 16 != 0 then none
      else if bit w 48 then
        let off := bits w 0 32 * 16
        let rs := cellsOf n (Memory.readN spill (base + off + 8) (5 * n))
        if base < off + imageSize n || !Runs.wf rs then none else (readRegsBody spill base fuel rest).map ((j, Runs.zero, some { n := n, spl := Runs.spl rs, off := off }) :: ·)
      else if n = 1 then (readRegsBody spill base fuel rest).map ((j, Runs.const (BitVec.ofNat 32 w), none) :: ·)
      else
        let size := (5 * n + 7) / 8 * 8
        let rs := cellsOf n rest
        if rest.length < size || !Runs.wf rs || bits w 0 32 != 0 then none
        else (readRegsBody spill base fuel (rest.drop size)).map ((j, rs, none) :: ·)

/-- Some cells of memory, keyed from a base on. -/
def cellsFrom (m : Memory) (k n : Nat) : Memory := (m.filter fun c => k ≤ c.1 && c.1 < k + n).map fun c => (c.1 - k, c.2)

/-- The saved records of one team: its place, its number, and what belongs to it. -/
def teamRecords (s : State) (n place t : Nat) (tm : Team) : List ImgRec :=
  let k := s.core (coreOfTeam t)
  let priv (type sub : Nat) : ImgRec := (type, place, sub, Config.ownBody type place sub n)
  [priv 2 0, (3, place, 0, Memory.readN s.mem ((Space.shared t).key 0) tm.shared),
   (4, place, 0, (List.range 32).flatMap fun i => toBytes (Tbl.get tm.handles i 0).toNat 64)] ++
  ((s.groupsOf t).flatMap fun p => [priv 5 p.2.idx, (6, place, p.2.idx, regsBody p.2)]) ++
  (match tm.mctx with
    | some i => [priv 7 i]
    | none => []) ++
  ((Tbl.keep k.streams fun _ st => st.team == t).map fun p => priv 8 p.1) ++
  ((k.queues.zipIdx.filter fun q => q.1.st != .free && q.1.team == t).map fun q => priv 9 q.2)

/-- The image of a quiet context, and what stands for it (log entry 7). -/
def makeImage (s : State) (c : Nat) : Image :=
  let ts := ctxTeams s c
  let gs := Tbl.keep s.grids fun _ g => g.ctx == c
  let n := s.draws
  let ofCores {α : Type} (width : Nat) (f : Core → List (Nat × α)) : Tbl α :=
    s.cores.flatMap fun p => (f p.2).map fun q => (p.1 * width + q.1, q.2)
  { ctx := c
    records := ((List.range gs.length).map fun i => (1, 0, i, Config.ownBody 1 0 i n)) ++
      ts.zipIdx.flatMap fun p => teamRecords s n p.2 p.1.1 p.1.2
    groups := ctxGroups s c, teams := ts, grids := gs, queue := (s.ctx c).queue
    mats := ts.filterMap fun p => p.2.mctx.bind fun i => (s.core (coreOfTeam p.1)).mats[i]?.map fun m => (p.1, m)
    streams := ofCores 8 fun k => Tbl.keep k.streams fun _ st => st.ctx == c
    queues := ofCores 8 fun k => (k.queues.zipIdx.filter fun q => q.1.st != .free && s.ctxOfTeam q.1.team == c).map fun q => (q.2, q.1)
    copies := ofCores 64 fun k => Tbl.keep k.copies fun _ q => q.ctx == c
    spill := (ctxGroups s c).map fun p => (p.1, cellsFrom s.mem ((Space.spill p.1).key 0) (2 ^ 32))
    time := (s.ctx c).quietAt }

/-- The resources of a saved context freed (R410). -/
def freeCtx (c : Nat) (s : State) : State :=
  let ts := (ctxTeams s c).map (·.1)
  let s := ((ctxGroups s c).map (·.1)).foldl freeGroup s
  ts.foldl (fun s t =>
    let s := s.updCore (coreOfTeam t) fun k => k.dropTeam t
    { s with teams := Tbl.erase s.teams t, mem := Memory.clear s.mem ((Space.shared t).key 0) (2 ^ 32) }) s

/-! ### csave (R410) -/

/-- OVERRUN: microseconds of quiesce beyond 50. -/
def overrunOf (x : Ctx) : Nat := min ((x.quietTs - x.reqAt - 50000) / 1000) (2 ^ 32 - 1)

/-- Bytes written at a pointer in parts of 256. -/
def writeBytes (p : Party) (ctx ptr : Nat) : Nat → Nat → List Byte → State → PRes Unit
  | 0, _, _, s => .ok () s
  | fuel + 1, i, bs, s =>
    if bs.isEmpty then .ok () s
    else (portWrite p i ctx (ptr + 256 * i) (bs.take 256) .write true s).bind fun _ s =>
      writeBytes p ctx ptr fuel (i + 1) (bs.drop 256) s

/-- Bytes read at a pointer in parts of 256. -/
def readBytes (p : Party) (ctx ptr n : Nat) : Nat → Nat → State → PRes (List Byte)
  | 0, _, s => .ok [] s
  | fuel + 1, i, s =>
    if n ≤ 256 * i then .ok [] s
    else (portRead p i ctx (ptr + 256 * i) (min 256 (n - 256 * i)) .read true s).bind fun bs s =>
      (readBytes p ctx ptr n fuel (i + 1) s).bind fun r s => .ok (bs ++ r) s

/-- The failure code of `csave` or `crest` in the register that receives it. -/
def imageFail (w : Who) (d code : Nat) (s : State) : GEff := .done (w.setNum d (BitVec.ofNat 64 (2 ^ 63 + code)) s)

/-- ALIGN of a pointer. -/
def ptrAlign (w : Who) (a : Nat) : Cause :=
  match w with
  | .group _ => Cause.alignMM w.lane a
  | .wick _ => { Cause.alignMM 0 a with lane := 255 }

/-- A failed `csave` leaves the context as it was; one that an alarm has frozen meanwhile stays frozen (R466). -/
def unsave (w : Who) (c : Nat) (s : State) : State :=
  endOp w c (if (s.ctx c).thaw && !(s.ctx c).alarmFrozen then resumeCtx c s else s.updCtx c fun x => { x with thaw := false })

/-- The image of a frozen context written, and the context saved. -/
def saveImage (w : Who) (c d ptr : Nat) (s : State) : GEff :=
  let x := s.ctx c
  let im := makeImage s c
  let bs := imageBytes c (overrunOf x) x.quietTs im.records
  let e := bufEntry s Config.firmwareCtx (ptr / 2 ^ 48)
  if e.valid && !e.malformed true && decide (e.length < ptr % 2 ^ 48 + bs.length) then imageFail w d 2 (unsave w c s)
  else
    match writeBytes w.party Config.firmwareCtx ptr (bs.length / 256 + 1) 0 bs s with
    | .wait s' => .wait (rollback s s')
    | .fail f s' =>
      let s := (logRecord (rollback s s') (f.record (w.record s f.code 2 2 3)) true).1
      imageFail w d 3 (unsave w c s)
    | .ok () s =>
      let s := (freeCtx c s).updCtx c fun x => { x with st := .saved, thaw := false, queue := [] }
      .done (w.setNum d (BitVec.ofNat 64 bs.length)
        (endOp w c { s with images := s.images ++ [im], draws := s.draws + 1 }))

/-- R410: `csave`. -/
def execCsave (x : Args) (s : State) : Host.Outcome State Fault Refusal :=
  let d := x.dst.toNat
  issueSup x [d] (fun w s =>
    let c := (w.uni s x.a).toNat
    let ptr := (w.uni s x.b).toNat
    if ptr % 64 != 0 then .fault (ptrAlign w ptr)
    else if 63 < c then imageFail w d 1 s
    else withOp w c s fun s =>
      match (s.ctx c).st with
      | .saved => imageFail w d 1 (endOp w c s)
      | .ended => imageFail w d 1 (endOp w c s)
      | .frozen => saveImage w c d ptr s
      | .running =>
        match quiesce c s with
        | .error s => .wait s
        | .ok s => saveImage w c d ptr (s.updCtx c fun x => { x with thaw := true })) s

/-! ### crest (R402, R411) -/

/-- The records that bytes hold up to END, which must be the last of them. -/
def parseRecords : Nat → List Byte → Option (List ImgRec)
  | 0, _ => none
  | fuel + 1, bs =>
    if bs.length < 16 then none
    else
      let w := ofBytes (bs.take 8)
      let n := ofBytes ((bs.drop 8).take 8)
      let size := (n + 15) / 16 * 16
      let rest := bs.drop 16
      if bits w 48 16 != 0 || rest.length < size then none
      else if bits w 0 16 = 0x000F then (if n = 0 && rest.isEmpty then some [] else none)
      else (parseRecords fuel (rest.drop size)).map ((bits w 0 16, bits w 16 16, bits w 32 16, rest.take n) :: ·)

/-- What must agree between an image and the save it comes from: every header, and the device's own bodies. -/
def skeleton (rs : List ImgRec) : List ImgRec :=
  rs.map fun r => if r.1 = 3 || r.1 = 4 || r.1 = 6 then (r.1, r.2.1, r.2.2.1, []) else r

/-- The body of a record. -/
def bodyOf (rs : List ImgRec) (type owner sub : Nat) : Option (List Byte) :=
  (rs.find? fun r => r.1 == type && r.2.1 == owner && r.2.2.1 == sub).map (·.2.2.2)

/-- What restoring has done so far: the state, and where teams and groups have gone. -/
structure Moved where
  s : State
  teams : Tbl Nat
  groups : Tbl Nat

/-- A saved group with the registers of its REGS body; none where the body is wrong. -/
def restoredGroup (im : Image) (rs : List ImgRec) (place g : Nat) (q : Group) (h : Header) : Option Group :=
  match (bodyOf rs 6 place q.idx).bind fun b => readRegsBody (Tbl.get im.spill g []) (h.spill / 2) 1024 b with
  | none => none
  | some regs =>
    let base := Tbl.mapVal q.regs fun _ r => { r with runs := Runs.zero, spilled := none }
    let q' := { q with regs := regs.foldl (fun t p =>
      Tbl.set t p.1 { Tbl.get base p.1 (q.reg p.1) with runs := p.2.1, spilled := p.2.2 }) base }
    if q'.inUse ≤ q.quota && decide (q'.imageBytes ≤ h.spill / 2) && (regs.zip (regs.drop 1)).all (fun p => decide (p.1.1 < p.2.1)) then
      some q' else none

/-- Whether the bodies of an image are those of its teams and groups: SHARED and HANDLES of their lengths, REGS of run lists within
quota and spill area (R400, R410). -/
def recordsOk (im : Image) (rs : List ImgRec) : Bool :=
  im.teams.zipIdx.all fun p =>
    ((bodyOf rs 3 p.2 0).map (·.length)) == some p.1.2.shared && ((bodyOf rs 4 p.2 0).map (·.length)) == some 2048 &&
      match Tbl.get? im.grids p.1.2.grid with
      | none => false
      | some gr => im.groups.all fun q => q.2.team != p.1.1 || (restoredGroup im rs p.2 q.1 q.2 gr.header).isSome

/-- One group put into a slot of its sub-core on a core. -/
def placeSaved (im : Image) (rs : List ImgRec) (h : Header) (place t c d : Nat) (p : Nat × Group) (mv : Moved) : Option Moved :=
  let b := subOfGroup p.1
  match freeSlot mv.s c b, restoredGroup im rs place p.1 p.2 h with
  | some i, some q =>
    let g := c * 64 + b * 16 + i
    let key := (Space.spill g).key 0
    let mem := (Tbl.get im.spill p.1 []).foldl (fun m e => Memory.write m (key + e.1) e.2) (Memory.clear mv.s.mem key (2 ^ 32))
    let s := { mv.s with groups := Tbl.set mv.s.groups g { shiftGroup d q with team := t }, mem := mem }
    let s := s.updSub c b fun k =>
      if k.active.length < Config.activePlaces then { k with active := Tbl.set k.active i s.now }
      else { k with pending := Tbl.set k.pending i s.now }
    some { mv with s := s, groups := Tbl.set mv.groups p.1 g }
  | _, _ => none

/-- The groups of a team put into slots. -/
def placeGroups (im : Image) (rs : List ImgRec) (h : Header) (place t c d : Nat) : List (Nat × Group) → Moved → Option Moved
  | [], mv => some mv
  | p :: ps, mv => (placeSaved im rs h place t c d p mv).bind fun mv => placeGroups im rs h place t c d ps mv

/-- A matrix context given to a restored team. -/
def placeMat (m : MatCtx) (t c : Nat) (mv : Moved) : Option Moved :=
  match (List.range 2).find? fun i => ((mv.s.core c).mat i).owner.isNone && !((mv.s.core c).mat i).clearing with
  | none => none
  | some i =>
    let m := { m with owner := some t, queue := m.queue.map fun r =>
      { r with deliver := r.deliver.map fun d => (Tbl.get mv.groups d.1 d.1, d.2), issuer := Tbl.get mv.groups r.issuer r.issuer, arrive := 0 } }
    some { mv with s := (mv.s.updMat c i fun _ => m).updTeam t fun tm => { tm with mctx := some i } }

/-- A stream given a slot on a core, with its locks and its queues. -/
def placeStream (im : Image) (old slot t c : Nat) (st : Stream) (s : State) : Option State :=
  let k := s.core c
  let free := freeEntries k
  match (List.range 8).find? fun n => (Tbl.get? k.streams n).isNone && !busyParty s (streamParty c n) with
  | none => none
  | some n =>
    let st := { st with team := t }
    let e := st.eng c n s
    let locks := if st.st = .running then st.locks else []
    if free.length < locks.length then none
    else
      let ivs := locks.map fun l => homeIv e l.1 l.2.1 l.2.2.1 l.2.2.2
      let mine := Tbl.keep im.queues fun j q => j / 8 == coreOfTeam old && q.team == old && q.stream == slot
      some (s.updCore c fun k =>
        { k with
          streams := Tbl.set k.streams n st
          queues := k.queues.mapIdx fun q u => match mine.find? fun p => p.1 % 8 == q with
            | some p => { p.2 with team := t, stream := n }
            | none => u
          locks := (free.zip ivs).foldl (fun ls p => Tbl.set ls p.1 { ivs := [p.2], owner := n }) k.locks })

/-- The streams of a team. -/
def placeStreams (im : Image) (old t c : Nat) : List (Nat × Stream) → State → Option State
  | [], s => some s
  | p :: ps, s => (placeStream im old (p.1 % 8) t c p.2 s).bind fun s => placeStreams im old t c ps s

/-- Queues whose stream is gone, as they stand. -/
def placeQueues (im : Image) (old t c : Nat) (s : State) : State :=
  let live := Tbl.keep im.streams fun j st => j / 8 == coreOfTeam old && st.team == old
  let mine := Tbl.keep im.queues fun j q => j / 8 == coreOfTeam old && q.team == old && !(live.any fun p => p.1 % 8 == q.stream)
  s.updCore c fun k => { k with queues := k.queues.mapIdx fun q u => match mine.find? fun p => p.1 % 8 == q with
    | some p => { p.2 with team := t }
    | none => u }

/-- The collecting copies of a team given entries of a core. -/
def placeCopies (old t c : Nat) : List (Nat × Copy) → Moved → Option Moved
  | [], mv => some mv
  | p :: ps, mv =>
    match freeCopy (mv.s.core c) with
    | none => none
    | some e =>
      let q := { p.2 with team := t, issuers := p.2.issuers.map fun i =>
        (if i.1.1 = 0 then ((0, Tbl.get mv.groups i.1.2 i.1.2) : Party) else if i.1 = (1, old) then ((1, t) : Party) else i.1, i.2) }
      placeCopies old t c ps { mv with s := mv.s.updCore c fun k => { k with copies := Tbl.set k.copies e q } }

/-- Whether the queues a team held are free on a core. -/
def queuesFree (im : Image) (old c : Nat) (s : State) : Bool :=
  im.queues.all fun p => !(p.1 / 8 == coreOfTeam old && p.2.team == old) || ((s.core c).queue (p.1 % 8)).st == .free

/-- A saved team restored on a core; none where it has no room there. -/
def restoreTeam (im : Image) (rs : List ImgRec) (place : Nat) (p : Nat × Team) (c d : Nat) (mv : Moved) : Option Moved :=
  let old := p.1
  match Tbl.get? im.grids p.2.grid, freeWick mv.s c, bodyOf rs 3 place 0, bodyOf rs 4 place 0 with
  | some g, some i, some shared, some hs =>
    if coreRoom mv.s g.header c = 0 || !queuesFree im old c mv.s then none
    else
      let t := c * 8 + i
      let tm := { p.2 with
        handles := (List.range 32).foldl (fun h n => Tbl.set h n (BitVec.ofNat 512 (ofBytes ((hs.drop (64 * n)).take 64)))) []
        mirrors := [], mctx := none, parked := none, wait := p.2.wait.map fun w => { w with start := w.start + d } }
      let s := mv.s
      let s := { s with teams := Tbl.set s.teams t tm
                        mem := Memory.writeN (Memory.clear s.mem ((Space.shared t).key 0) (2 ^ 32)) ((Space.shared t).key 0) shared }
      let mine := Tbl.keep im.groups fun _ q => q.team == old
      (placeGroups im rs g.header place t c d mine { mv with s := s, teams := Tbl.set mv.teams old t }).bind fun mv =>
      (match Tbl.get? im.mats old with
        | some m => placeMat m t c mv
        | none => some mv).bind fun mv =>
      (placeStreams im old t c (Tbl.keep im.streams fun j st => j / 8 == coreOfTeam old && st.team == old) mv.s).bind fun s =>
        placeCopies old t c (Tbl.keep im.copies fun j q => j / 64 == coreOfTeam old && q.team == old)
          { mv with s := placeQueues im old t c s }
  | _, _, _, _ => none

/-- The teams of a cluster restored on distinct cores of those given, in the first way in which what is still to be restored, `rest`,
has room too. -/
def restoreIn (im : Image) (rs : List ImgRec) (d : Nat) (rest : Moved → Option Moved) :
    List (Nat × Nat × Team) → List Nat → Moved → Option Moved
  | [], _, mv => rest mv
  | p :: ps, cs, mv => cs.findSome? fun c => (restoreTeam im rs p.1 p.2 c d mv).bind (restoreIn im rs d rest ps (cs.erase c))

/-- The clusters of an image: its teams with their places, by grid and cluster. -/
def clustersOf (im : Image) : List (List (Nat × Nat × Team)) :=
  let ts := im.teams.zipIdx.map fun p => (p.2, p.1.1, p.1.2)
  let key (p : Nat × Nat × Team) : Nat × Nat :=
    (p.2.2.grid, p.2.2.lin / (((Tbl.get? im.grids p.2.2.grid).map (·.header.cluster)).getD 1))
  ((ts.map key).eraseDups).map fun k => ts.filter fun p => key p == k

/-- Clusters restored one after another, each on one quad, in the first way in which all have room; none where there is none. -/
def restoreAll_ (im : Image) (rs : List ImgRec) (d : Nat) : List (List (Nat × Nat × Team)) → Moved → Option Moved
  | [], mv => some mv
  | cl :: rest, mv => allQuads.findSome? fun q =>
      if (mv.s.die q.1).up then
        restoreIn im rs d (restoreAll_ im rs d rest) cl ((List.range 4).map fun i => q.1 * Config.coresPerDie + 4 * q.2 + i) mv
      else none

/-- A TABLE handle mirrored again from its home, or left without a mirror where that cannot be done (R402); the party that restores
makes the reads. -/
def remirror (p : Party) (t n : Nat) (s : State) : PRes Unit :=
  let h : Handle := { num := n, img := s.handle t n }
  if h.field 487 1 = 0 then .ok () s
  else
    let w := Who.wick t
    let bare := s.setHandle t n (h.img &&& ~~~(1#512 <<< 487))
    match mirrorRoom s w.core ((h.extent + 255) / 256) with
    | none => .ok () bare
    | some u =>
      match readTable { h with img := h.img &&& ~~~(1#512 <<< 487) } { w.eng s with party := p } h.extent 256 0 s with
      | .ok bs s => .ok () (s.updTeam t fun tm => { tm with mirrors := Tbl.set tm.mirrors n (u, bs) })
      | .wait s => .wait s
      | .fail _ _ => .ok () bare

/-- The tables of some handles of teams mirrored again. -/
def remirrorAll (p : Party) : List (Nat × Nat) → State → PRes Unit
  | [], s => .ok () s
  | q :: qs, s => (remirror p q.1 q.2 s).bind fun _ s => remirrorAll p qs s

/-- A grid of an image with its teams where they have gone. -/
def rehomeGrid (im : Image) (teams : Tbl Nat) (n : Nat) (g : Grid) : Grid :=
  { g with
    parent := g.parent.map fun p => (Tbl.get teams p.1 p.1, p.2)
    placed := im.teams.foldl (fun (t : List (Nat × Nat)) (p : Nat × Team) =>
      if p.2.grid = n then Tbl.set t p.2.lin (dieOfCore (coreOfTeam (Tbl.get teams p.1 0))) else t) g.placed }

/-- The lock entries of the collecting copies of a context on a core. -/
def relockCopies (s : State) (ctx c : Nat) (k : Core) : Tbl Lock :=
  k.copies.foldl (fun (ls : Tbl Lock) (p : Nat × Copy) =>
    if p.2.ctx = ctx && p.2.st == CopySt.collecting then
      let recv (d : Desc) : List Nat := if p.2.kind = 1 then (clusterTeams s p.2.team d.mask).filterMap (·.2) else []
      let ivs := p.2.slices.foldl (fun (l : List LockIv) d => (sliceIvs (p.2.eng c p.1 s) d (recv d)).foldl (fun l i => widen i l) l) []
      Tbl.set ls p.1 { ivs := ivs, owner := p.1 }
    else ls) k.locks

/-- What is put right once every team has its place: parents, placement tables, the locks of copies, mirrors, caches. A context that an
alarm has frozen comes back frozen (R466). -/
def finishRestore (p : Party) (im : Image) (mv : Moved) : PRes Unit :=
  let s := mv.s
  let gs := Tbl.mapVal im.grids (rehomeGrid im mv.teams)
  let s := { s with grids := gs.foldl (fun (t : Tbl Grid) (p : Nat × Grid) => Tbl.set t p.1 p.2) (Tbl.keep s.grids fun _ g => g.ctx != im.ctx) }
  let s := { s with cores := Tbl.mapVal s.cores fun c k =>
    { k with fcache := k.fcache.filter (fun l => l.ctx != im.ctx), tcache := k.tcache.filter (fun e => nameCtx e.1 != im.ctx)
             locks := relockCopies s im.ctx c k } }
  (remirrorAll p (mv.teams.flatMap fun t => (List.range 32).map fun n => (t.2, n)) s).bind fun _ s =>
    .ok () (s.updCtx im.ctx fun x =>
      if x.alarmFrozen then { x with st := .frozen, queue := im.queue, quietTs := s.ts, quietAt := s.now }
      else { x with st := .running, queue := im.queue })

/-- Whether another context has taken a grid identifier of an image. -/
def gridsTaken (im : Image) (s : State) : Bool :=
  im.grids.any fun p => ((Tbl.get? s.grids p.1).map (·.ctx)).getD im.ctx != im.ctx

/-- R411: `crest`. -/
def execCrest (x : Args) (s : State) : Host.Outcome State Fault Refusal :=
  let d := x.dst.toNat
  issueSup x [d] (fun w s =>
    let ptr := (w.uni s x.a).toNat
    let fw := Config.firmwareCtx
    let port (f : PFault) (s s' : State) (k : State → State) : GEff :=
      imageFail w d 3 (k (logRecord (rollback s s') (f.record (w.record s f.code 2 2 3)) true).1)
    if ptr % 64 != 0 then .fault (ptrAlign w ptr)
    else
      match portRead w.party (2 ^ 40) fw ptr 64 .read true s with
      | .wait s' => .wait (rollback s s')
      | .fail f s' => port f s s' id
      | .ok hb s =>
        let word (i : Nat) : Nat := ofBytes ((hb.drop (8 * i)).take 8)
        let c := bits (word 0) 16 16
        let len := word 1
        let e := bufEntry s fw (ptr / 2 ^ 48)
        if bits (word 0) 0 16 != 1 || len < 80 || len % 16 != 0 ||
            decide (e.length < ptr % 2 ^ 48 + len) then imageFail w d 4 s
        else if 63 < c then imageFail w d 1 s
        else withOp w c s fun s =>
          if (s.ctx c).st != .saved then imageFail w d 1 (endOp w c s)
          else
            match readBytes w.party fw ptr len (len / 256 + 1) 0 s with
            | .wait s' => .wait (rollback s s')
            | .fail f s' => port f s s' (endOp w c)
            | .ok bs s =>
              match parseRecords (len / 16) (bs.drop 64) with
              | none => imageFail w d 4 (endOp w c s)
              | some rs =>
                match s.images.reverse.find? fun im => im.ctx == c && skeleton im.records == skeleton rs with
                | none => imageFail w d 4 (endOp w c s)
                | some im =>
                  if !recordsOk im rs then imageFail w d 4 (endOp w c s)
                  else if gridsTaken im s then imageFail w d 5 (endOp w c s)
                  else
                    match restoreAll_ im rs (s.now - im.time) (clustersOf im) { s := s, teams := [], groups := [] } with
                    | none => imageFail w d 5 (endOp w c s)
                    | some mv =>
                      match finishRestore w.party im mv with
                      | .ok () s => .done (w.setNum d (BitVec.ofNat 64 len) (endOp w c s))
                      | .wait s' => .wait (rollback s s')
                      | .fail f s' => port f s s' (endOp w c)) s

end Sys2Proof.Machine
end

