-- ==== Sys2Proof/Machine/HostMem.lean ====
section
/-! DEFINITION. The host's accesses to device memory, register writes, snoops, and the accesses of the management
controller at a port (R385, R421, R440 to R443). -/

namespace Sys2Proof.Machine

/-- ENABLE of a target register (R440). -/
def hdmOn (h : Hdm) : Bool := h.target.getLsbD 0
/-- The device address of a host physical address under a decoder. -/
def hdmAddr (h : Hdm) (a : Nat) : Nat := bits h.target.toNat 16 36 * 2 ^ 17 + (a - h.base.toNat)
/-- The memory key of a device address under a decoder. -/
def hdmKey (s : State) (h : Hdm) (d : Nat) : Option Nat :=
  if hdmOn h then deviceKey s (bits h.target.toNat 10 6) (bits h.target.toNat 8 2) d else none

/-- The decoder whose range holds some bytes of host addresses. -/
def hdmOf (s : State) (a n : Nat) : Option Hdm :=
  s.hdms.find? fun h => decide (h.base.toNat ≤ a) && decide (a + n ≤ h.base.toNat + h.size.toNat) && h.size != 0

/-- The record of a host access (R441, R484). -/
def hostRec (f : PFault) (d : Nat) : RecIn :=
  { f.record { code := f.code, cls := 2, sev := 2, recov := 3, engine := engineOf 0 63 13 0 } with akind := 3, addr := d }

/-- The pieces of some bytes within granules: offset and length. -/
def granuleParts (off n : Nat) : List (Nat × Nat) :=
  if n = 0 then []
  else (List.range ((off + n - 1) / 32 - off / 32 + 1)).map fun i =>
    let lo := max off ((off / 32 + i) * 32)
    let hi := min (off + n) ((off / 32 + i) * 32 + 32)
    (lo, hi - lo)

/-- Data that carry poison: free values (log entry 5). -/
def poisoned (n : Nat) (s : State) : List Byte × State :=
  ((List.range n).map fun i => (Config.freeWord (s.draws + i)).truncate 8, { s with draws := s.draws + n })

/-- The record of a host access some part of which fails: one, with its device address (R441). -/
def hostFailed (f : PFault) (d : Nat) (seen : Bool) (s : State) : State :=
  if seen then s else (logRecord s (hostRec f d) true).1

/-- A host read at device address d0, one granule after another: the data, and whether poison is set; `seen` says that part of it
has failed. -/
def hostReads (h : Hdm) (d0 : Nat) : Bool → List (Nat × Nat) → State → PRes (List Byte × Bool)
  | seen, [], s => .ok ([], seen) s
  | seen, (d, n) :: t, s =>
    let got : PRes (List Byte) := match hdmKey s h d with
      | none => .fail { code := 0x0201 } s
      | some k => atHome k s (eccRead k n false s)
    match got with
    | .ok bs s => (hostReads h d0 seen t s).bind fun r s => .ok (bs ++ r.1, r.2) s
    | .wait s => .wait s
    | .fail f s =>
      let (bs, s) := poisoned n (hostFailed f d0 seen s)
      (hostReads h d0 true t s).bind fun r s => .ok (bs ++ r.1, r.2) s

/-- R441: a host read; an address no decoder holds is none of the device. -/
def execHostMemRead (h n : Nat) (s : State) : Host.Outcome State Fault Refusal :=
  match hdmOf s h n with
  | none => .next s
  | some x =>
    if s.stage != .s3 then .next s
    else
      match hostReads x (hdmAddr x h) false (granuleParts (hdmAddr x h) n) s with
      | .ok r s => .next { s with hostReply := r.1, hostPoison := r.2 }
      | _ => .next s

/-- A host write at device address d0, one granule after another; what fails is dropped, with a record. -/
def hostWrites (h : Hdm) (d0 : Nat) : Bool → List (Nat × Nat) → List Byte → State → PRes Unit
  | _, [], _, s => .ok () s
  | seen, (d, n) :: t, bs, s =>
    let got : PRes Unit := match hdmKey s h d with
      | none => .fail { code := 0x0201 } s
      | some k => atHome k s (eccWrite k (bs.take n) s)
    match got with
    | .ok () s => hostWrites h d0 seen t (bs.drop n) s
    | .wait s => .wait s
    | .fail f s => hostWrites h d0 true t (bs.drop n) (hostFailed f d0 seen s)

/-- R441, R442: a host write, performed at its home before its completion is sent. -/
def execHostMemWrite (h : Nat) (data : List Byte) (s : State) : Host.Outcome State Fault Refusal :=
  match hdmOf s h data.length with
  | none => .next s
  | some x =>
    if s.stage != .s3 then .next s
    else
      match hostWrites x (hdmAddr x h) false (granuleParts (hdmAddr x h) data.length) data s with
      | .ok _ s => .next s
      | _ => .next s

/-- R443: a snoop; the agent holds a host line only within an access, which is over. -/
def execSnoop (_line : Nat) (s : State) : Host.Outcome State Fault Refusal := .next s

/-- The bits of a decoder's base and size that can be set: multiples of 256 MiB (R440). -/
def decoderMask : W64 := ~~~0xFFFFFFF#64
/-- The bits of a target register that can be set. -/
def targetMask : W64 := 0x000FFFFFFFFFFF01#64

/-- R2, R440: a register write; what is read-only or reserved keeps its value. -/
def execRegisterWrite (r : HostReg) (v : W64) (s : State) : Host.Outcome State Fault Refusal :=
  if s.stage == .off then .next s
  else
    match r with
    | .decoderBase n => .next { s with hdms := updAt s.hdms n fun h => { h with base := v &&& decoderMask } }
    | .decoderSize n => .next { s with hdms := updAt s.hdms n fun h => { h with size := v &&& decoderMask } }
    | .decoderTarget n => .next { s with hdms := updAt s.hdms n fun h => { h with target := v &&& targetMask } }
    | .readOnly => .next s

/-- The party of the management controller. -/
def controllerParty : Party := (7, 0)

/-- An access of the controller failed: its record, or a place in the fault buffer (R394 to R396). -/
def controllerFail (ctx : Nat) (f : PFault) (s : State) : State :=
  let base : RecIn := { code := f.code, cls := 2, sev := 2, recov := 3, engine := engineOf 0 63 11 0, ctx := ctx }
  if f.code = 0x0201 then (parkAccess 0 ctx controllerParty f base s).getD s else (logRecord s (f.record base) true).1

/-- R421: an access at a port by the management controller, through which it reaches the firmware context's buffers
(R385); those of other engines are part of their own instructions and events. -/
def execMemoryPortAccess (r : PortReq) (s : State) : Host.Outcome State Fault Refusal :=
  if s.stage != .s3 || Config.firmwareCtx < r.ctx then .next s
  else
    match r.op with
    | .read n =>
      match portRead controllerParty 0 r.ctx r.ptr.toNat n .read false s with
      | .ok bs s => .next ({ s with hostReply := bs, hostPoison := false }.dropReplies controllerParty)
      | .wait s' => .next (rollback s s')
      | .fail f s' => .next (controllerFail r.ctx f (rollback s s'))
    | .write bs =>
      match portWrite controllerParty 0 r.ctx r.ptr.toNat bs .write false s with
      | .ok _ s => .next (s.dropReplies controllerParty)
      | .wait s' => .next (rollback s s')
      | .fail f s' => .next (controllerFail r.ctx f (rollback s s'))

end Sys2Proof.Machine
end

