-- ==== Sys2Proof/Machine/Links.lean ====
section
/-! DEFINITION. Packets from other devices, flits and ports, and the loss of a die (R372, R446 to R455, R463). -/

namespace Sys2Proof.Machine

/-! ### Guard tags (R372) -/

/-- A packet whose OP is reserved or whose reserved field is nonzero fails as a guard-tag mismatch does (R448). -/
def badPacket (p : Packet) : Bool := p.reserved || decide (8 < p.op)

/-- The data of a packet, n bytes at a logical address, or the detail word of its failure: the CRC received and the
one computed (R473). Where a VERSION is expected, the tag must carry it. -/
def packetData (p : Packet) (n addr : Nat) (version : Option Nat) : Except Nat (List Byte) :=
  let recv := p.guard.toNat % 2 ^ 32
  match expand p.payload with
  | none => .error recv
  | some bs =>
    let bs := bs.take n
    let crc := (crc32c bs).toNat
    if !badPacket p && recv == crc && bits p.guard.toNat 32 40 == addr % 2 ^ 40 && decide (n ≤ 256) &&
        version.all (fun v => v == bits p.guard.toNat 72 8) then .ok bs
    else .error (recv + crc * 2 ^ 32)

/-- Whether a packet without data is sound: VERSION, and every other bit of its tag zero (R448). -/
def bareOk (p : Packet) (version : Option Nat) : Bool :=
  !badPacket p && p.payload.isEmpty && bits p.guard.toNat 0 72 == 0 && version.all fun v => v == bits p.guard.toNat 72 8

/-! ### Requests of other devices (R452) -/

/-- The party of a request that has arrived. -/
def packetParty (p : Packet) : Party := (8, p.src * 4096 + p.txid)

/-- An answer to a request, under its TXID. -/
def answer (p : Packet) (op aop offset : Nat) (tag : Nat → Nat → BitVec 80) (n : Nat) (data : List Byte) (s : State) : State :=
  sendPacket false
    { ctx := p.ctx, buf := p.buf, offset := offset, aop := aop, dest := p.src, src := s.devId, op := op, txid := p.txid
      guard := tag (bits p.guard.toNat 72 8) offset, reserved := false, len := n
      payload := if data.isEmpty then [] else compress data } s

/-- The tag of an answer without data. -/
def echoTag (v _o : Nat) : BitVec 80 := BitVec.ofNat 80 (v * 2 ^ 72)

/-- An error packet: what failed, SEQ of the record here, and the detail word of a guard tag (log entry 12). -/
def answerError (p : Packet) (how seq detail : Nat) (s : State) : State :=
  let data := if how = 2 then toBytes detail 8 else []
  answer p 8 how seq (fun v o => if how = 2 then guardTag v o data else echoTag v o) data.length data s

/-- The record of the port that a request reached. -/
def portRec (p : Packet) (place code cls sev recov : Nat) : RecIn :=
  { code := code, cls := cls, sev := sev, recov := recov
    engine := engineOf (bits place 60 3) 63 6 (bits place 53 7 / 32), ctx := p.ctx }

/-- A check of a request failed here: its record, and an error packet. -/
def refuseRequest (p : Packet) (f : PFault) (s : State) : State :=
  let r := if f.code = 0x0303 then { portRec p f.place 0x0303 3 2 7 with akind := 1, addr := f.ptr, detail := f.detail }
    else f.record (portRec p f.place f.code 2 2 3)
  let (s, seq) := logRecord s r true
  answerError p (if f.code = 0x0303 then 1 else 0) seq 0 s

/-- A guard tag failed here: nothing is written. -/
def refuseGuard (p : Packet) (detail : Nat) (s : State) : State :=
  let (s, seq) := logRecord s { portRec p 0 0x0302 3 1 1 with detail := detail } true
  answerError p 2 seq detail s

/-- Whether two packets agree in every field of a header and in the payload; `len` is none. -/
def samePacket (a b : Packet) : Bool := { a with len := 0 } == { b with len := 0 }

/-- A packet that has arrived, in a flit before or now, stands in the order of arrivals until it is performed (R451). -/
def intoInbox (p : Packet) (s : State) : State := if s.inbox.any (samePacket p) then s else { s with inbox := s.inbox ++ [p] }

/-- A packet performed. -/
def leave (p : Packet) (s : State) : State := { s with inbox := s.inbox.filter fun q => !samePacket p q }

/-- Whether a packet answers a request of this device. -/
def isAnswer (p : Packet) : Bool := p.op == 2 || p.op == 4 || p.op == 6 || p.op == 8

/-- Whether a request is the first of its source that is not performed. -/
def firstOfSource (p : Packet) (s : State) : Bool :=
  ((s.inbox.filter fun q => q.src == p.src && !isAnswer q).head?.map (samePacket p)).getD true

/-- A request of another device that has arrived, which can name the buffers of tenants only (R385). Those of one source are performed
in the order they arrived, and nothing of one happens while it waits (R451). -/
def request {α : Type} (p : Packet) (op : Nat) (s : State) (run : State → Except Nat (PRes α)) (done : α → State → State) :
    Host.Outcome State Fault Refusal :=
  if s.stage != .s3 || p.dest != s.devId || !(p.op == op || 8 < p.op) then .next s
  else
    let s := intoInbox p s
    if !firstOfSource p s then .next s
    else
    match (if p.ctx < 64 then run s else .ok (.fail (({ code := 0x0202 } : PFault).at (p.buf * 2 ^ 48 + p.offset) p.len .read) s)) with
    | .error d => .next (leave p (refuseGuard p d s))
    | .ok (.ok a s') => .next (leave p ((done a s').dropReplies (packetParty p)))
    | .ok (.wait s') => .next (rollback s s')
    | .ok (.fail f s') => .next (leave p ((refuseRequest p f (rollback s s')).dropReplies (packetParty p)))

/-- The buffer pointer of a packet. -/
def packetPtr (p : Packet) : Nat := p.buf * 2 ^ 48 + p.offset

/-- R452: a read packet; AOP 1 asks for a verified read (R371), AOP 2 for lantern code (R422; log entry 12). -/
def execRemoteRead (p : Packet) (s : State) : Host.Outcome State Fault Refusal :=
  request p 1 s (fun s =>
    let q := packetParty p
    if !bareOk p none || 256 < p.len then .error 0
    else if p.aop = 1 then
      .ok (match checkEntry s p.ctx (packetPtr p) p.len .verify true with
        | .error c => .fail (({ code := c } : PFault).at (packetPtr p) p.len .verify) s
        | .ok e => if e.home = 0 then (verifiedRead q 0 p.ctx (packetPtr p) p.len e s).named (packetPtr p) p.len .verify
            else .fail (({ code := 0x0204 } : PFault).at (packetPtr p) p.len .verify) s)
    else .ok (portRead q 0 p.ctx (packetPtr p) p.len (if p.aop = 2 then .exec else .read) true s))
  fun bs s => answer p 2 0 p.offset (fun v o => guardTag v o bs) p.len bs s

/-- R452: a write packet. -/
def execRemoteWrite (p : Packet) (s : State) : Host.Outcome State Fault Refusal :=
  request p 3 s (fun s =>
    match packetData p p.len p.offset none with
    | .error d => .error d
    | .ok bs => .ok (portWrite (packetParty p) 0 p.ctx (packetPtr p) bs .write true s))
  fun _ s => answer p 4 0 p.offset echoTag 0 [] s

/-- R221, R452: an atomic packet, performed here; AOP holds the operation, with U in bit 6 (log entry 12). -/
def execRemoteAtomic (p : Packet) (s : State) : Host.Outcome State Fault Refusal :=
  let code := p.aop % 64
  let m := atomOperandBytes code p.len
  request p 5 s (fun s =>
    match packetData p (m + (if code = 7 then p.len else 0)) p.offset none with
    | .error d => .error d
    | .ok bs => .ok (portAtomic (packetParty p) 0 p.ctx (packetPtr p) p.len code (bit p.aop 6) (ofBytes (bs.take m)) (ofBytes (bs.drop m)) true s))
  fun old s => answer p 6 0 p.offset (fun v o => guardTag v o (toBytes old p.len)) p.len (toBytes old p.len) s

/-- R370: a signal packet: its word is stored, or added where AOP bit 0 is set. -/
def execSignal (p : Packet) (s : State) : Host.Outcome State Fault Refusal :=
  request p 7 s (fun s =>
    match packetData p 8 p.offset none with
    | .error d => .error d
    | .ok bs =>
      if bit p.aop 0 then .ok ((portAtomic (packetParty p) 0 p.ctx (packetPtr p) 8 0 false (ofBytes bs) 0 true s).bind fun _ s => .ok () s)
      else .ok (portWrite (packetParty p) 0 p.ctx (packetPtr p) bs .write true s))
  fun _ s => answer p 4 0 p.offset echoTag 0 [] s

/-! ### Answers from other devices (R372, R453) -/

/-- A transaction ended, with what its party receives; a party that is gone receives nothing. -/
def endTxn (id : Nat) (t : Txn) (data : List Byte) (ok : Bool) (how seq : Nat) (s : State) : State :=
  let s := { s with txns := Tbl.erase s.txns id }
  if t.party.1 = 9 then s
  else { s with replies := s.replies ++ [{ party := t.party, tag := t.tag, ptr := t.ptr, data := data, ok := ok, how := how, seq := seq, version := t.version, ctx := t.ctx }] }

/-- A transaction that an answer belongs to. -/
def answered (p : Packet) (ops : List Nat) (s : State) (k : Txn → State) : Host.Outcome State Fault Refusal :=
  match Tbl.get? s.txns p.txid with
  | none => .next s
  | some t => if p.dest == s.devId && p.src == t.dev && ops.contains t.op then .next (leave p (k t)) else .next s

/-- A guard tag failed in an answer: GUARDTAG for a copy, REMOTEFAIL for any other operation (R372, R453). -/
def answerBad (id : Nat) (t : Txn) (detail : Nat) (s : State) : State :=
  endTxn id t [] false 2 (if t.party.1 = 3 then detail else 0) s

/-- An answer with data. -/
def dataAnswer (p : Packet) (op asked : Nat) (s : State) : Host.Outcome State Fault Refusal :=
  if !(p.op == op || 8 < p.op) then .next s
  else answered p [asked] s fun t =>
    match packetData p t.n (t.ptr.toNat % 2 ^ 48) (some t.version) with
    | .ok bs => endTxn p.txid t bs true 0 0 s
    | .error d => answerBad p.txid t d s

/-- R372: read data. -/
def execReadData (p : Packet) (s : State) : Host.Outcome State Fault Refusal := dataAnswer p 2 1 s

/-- R448: an atomic result. -/
def execAtomicResult (p : Packet) (s : State) : Host.Outcome State Fault Refusal := dataAnswer p 6 5 s

/-- R372: a write-done, whose VERSION is compared. -/
def execWriteDone (p : Packet) (s : State) : Host.Outcome State Fault Refusal :=
  if !(p.op == 4 || 8 < p.op) then .next s
  else answered p [3, 7] s fun t =>
    if bareOk p (some t.version) then endTxn p.txid t [] true 0 0 s else answerBad p.txid t 0 s

/-- R453: an error packet. -/
def execErrorPacket (p : Packet) (s : State) : Host.Outcome State Fault Refusal :=
  if p.op != 8 then .next s
  else answered p [1, 3, 5, 7] s fun t =>
    if p.reserved then answerBad p.txid t 0 s
    else if p.aop = 2 then
      endTxn p.txid t [] false 2
        (if t.party.1 = 3 then (match packetData p 8 p.offset none with
          | .ok bs => ofBytes bs
          | .error _ => 0) else p.offset) s
    else endTxn p.txid t [] false (if p.aop = 1 then 1 else 0) p.offset s

/-- R453: no answer within 10 ms, or no port left to reach the destination. -/
def execRemoteTimeout (txid : Nat) (s : State) : Host.Outcome State Fault Refusal :=
  match Tbl.get? s.txns txid with
  | none => .next s
  | some t =>
    if t.sent + 10000000 ≤ s.ts || (livePorts s).isEmpty then .next (endTxn txid t [] false 0 0 s) else .next s

/-! ### Flits and ports (R446, R447, R455) -/

/-- The end on a die of its link to another die, as a port. -/
def diePort (d p : Nat) : Nat := 64 + 8 * d + p

/-- A port as the engine of a record (R471): a VFL port, or a die-to-die link, which its peer die numbers. -/
def vflRec (port code sev recov detail : Nat) : RecIn :=
  { code := code, cls := 4, sev := sev, recov := recov, detail := detail
    engine := if port < 64 then engineOf 0 63 7 port else engineOf ((port - 64) / 8) 63 8 (port % 8) }

/-- LINKCE of a port, at most once a millisecond; DETAIL counts the replays since the last (R455, R473). -/
def linkCe (port : Nat) (s : State) : State :=
  let v := Tbl.get s.ports port .fresh
  let r := vflRec port 0x0404 1 0 v.since
  if recentRecord s.errLog 0x0404 r.engine s.ts then s
  else
    let s := (logRecord s r true).1
    { s with ports := Tbl.upd s.ports port fun v => { v with since := 0 } }

/-- Flits acknowledged up to a number (R447). -/
def VPort.acked (v : VPort) (n : Nat) : VPort :=
  match v.unacked.findIdx? fun f => f.seq == n with
  | some i =>
    let gone := (v.unacked.take (i + 1)).map (·.seq)
    { v with unacked := v.unacked.drop (i + 1), packets := v.packets.filter fun p => !gone.contains p.1 }
  | none => v

/-- Every flit that is not acknowledged sent once more, in order (R447). -/
def VPort.replay (v : VPort) : VPort :=
  { v with unacked := v.unacked.map fun f => { f with replays := f.replays + 1 }, wire := v.wire ++ v.unacked.map (·.bytes)
           since := v.since + v.unacked.length }

/-- The packet that some bytes are (R448). -/
def packetOf (bs : List Byte) : Packet :=
  let h := ofBytes (bs.take 32)
  { ctx := bits h 250 6, buf := bits h 234 16, offset := bits h 186 48, aop := bits h 178 8, dest := bits h 118 10
    src := bits h 108 10, op := bits h 102 6, txid := bits h 81 12, guard := BitVec.ofNat 80 h
    reserved := bits h 128 50 != 0 || bit h 80, len := 0, payload := bs.drop 32 }

/-- The packets that come whole with the bytes of a flit, after the bytes of one that began before, and the bytes of one that is not
whole yet; fill ends the flit (R448). -/
def unpackFlit : Nat → List Byte → List Byte → List Packet × List Byte
  | 0, part, _ => ([], part)
  | fuel + 1, part, body =>
    if part.isEmpty && (body.length < 32 || bits (ofBytes (body.take 32)) 102 6 = 0) then ([], [])
    else
      let head := part ++ body.take (32 - part.length)
      let n := if head.length < 32 then 32 else 32 + bits (ofBytes head) 93 9
      let got := part ++ body.take (n - part.length)
      if got.length < n || head.length < 32 then ([], got)
      else
        let r := unpackFlit fuel [] (body.drop (n - part.length))
        (packetOf got :: r.1, r.2)

/-- The packets of a flit for this device arrive, in order. -/
def takePackets (ps : List Packet) (s : State) : State := ps.foldl (fun s p => if p.dest == s.devId then intoInbox p s else s) s

/-- R447: a flit. One that is broken or out of order is discarded; a broken one is answered by a NAK, and a NAK is answered by a
replay. Its packets arrive (R448, R451). -/
def execFlitReceive (port : Nat) (flit : List Byte) (s : State) : Host.Outcome State Fault Refusal :=
  match Tbl.get? s.ports port with
  | none => .next s
  | some v =>
    let tr := ofBytes (flit.drop 240)
    if !v.up || flit.length != 256 then .next s
    else if (crc32c (flit.take 240 ++ flit.drop 244)).toNat != tr % 2 ^ 32 then
      .next { s with ports := Tbl.set s.ports port { v with nak := true } }
    else if bits tr 116 12 != v.rxSeq then .next s
    else
      let r := unpackFlit 9 v.part (flit.take 240)
      let v := { v with
        rxSeq := (v.rxSeq + 1) % 4096, part := r.2, freed := v.freed + 1, credits := v.credits + bits tr 96 7 }.acked (bits tr 104 12)
      let s := if port < Config.vflPorts then takePackets r.1 s else s
      if bit tr 103 && !v.unacked.isEmpty then .next (linkCe port { s with ports := Tbl.set s.ports port v.replay })
      else .next { s with ports := Tbl.set s.ports port v }

/-- What a port has not brought over: the packets not acknowledged, and those that wait. -/
def VPort.traffic (v : VPort) : List (List Byte) := v.packets.map (·.2) ++ v.waiting

/-- A port down: its record, and the traffic of a VFL port moved to one that remains (R447). -/
def portDown (port : Nat) (s : State) : State :=
  let v := Tbl.get s.ports port .fresh
  let down (left : List (List Byte)) : VPort := { VPort.fresh with lanes := v.lanes, since := v.since, downAt := s.ts, waiting := left }
  let s := (logRecord s (vflRec port 0x0401 1 1 (if port < 64 then port else port % 8)) true).1
  match if port < Config.vflPorts then (livePorts s).filter (· != port) else [] with
  | [] => { s with ports := Tbl.set s.ports port (down v.traffic) }
  | q :: _ => { s with ports := Tbl.upd (Tbl.set s.ports port (down [])) q fun w => { w with waiting := w.waiting ++ v.traffic } }

/-- R447: a flit replayed 8 times and not acknowledged takes its port down. -/
def execLinkdown (port : Nat) (s : State) : Host.Outcome State Fault Refusal :=
  match Tbl.get? s.ports port with
  | none => .next s
  | some v => if v.up && v.unacked.any (fun f => decide (8 ≤ f.replays)) then .next (portDown port s) else .next s

/-- R446: a lane fails, and the port retrains on 4 lanes. -/
def execLaneFailure (port : Nat) (s : State) : Host.Outcome State Fault Refusal :=
  match Tbl.get? s.ports port with
  | none => .next s
  | some v =>
    if v.up && v.lanes == 8 then .next (linkCe port { s with ports := Tbl.set s.ports port { v with lanes := 4 } }) else .next s

/-- R447: a port that went down has retrained; its flit numbers start anew. -/
def execRetrainComplete (port lanes : Nat) (s : State) : Host.Outcome State Fault Refusal :=
  match Tbl.get? s.ports port with
  | none => .next s
  | some v =>
    if v.up || !(lanes == 8 || lanes == 4) then .next s
    else
      let s := { s with ports := Tbl.set s.ports port { VPort.fresh with up := true, lanes := lanes, since := v.since, waiting := v.traffic } }
      .next (if lanes = 4 then linkCe port s else s)

/-! ### Dies (R454, R463) -/

/-- A die that answers no more: the teams on it, and its cores, are gone (R59). -/
def dropDie (d : Nat) (s : State) : State :=
  let s := loseDieGrids (s.updDie d fun x => { x with up := false, faults := [] }) d
  { s with cores := Tbl.keep s.cores fun c _ => dieOfCore c != d }

/-- Whether a port has been down for 1 ms. -/
def downLong (s : State) (q : Nat) : Bool :=
  let v := Tbl.get s.ports q .fresh
  !v.up && decide (v.downAt + 1000000 ≤ s.ts)

/-- Whether every link to a die has been down, at one of its ends, for 1 ms (R454). -/
def linksLost (s : State) (d : Nat) : Bool :=
  (List.range Config.dies).all fun p => p == d || downLong s (diePort d p) || downLong s (diePort p d)

/-- R454: a die every link to which has been down for 1 ms is lost. -/
def execDielost (die : Nat) (s : State) : Host.Outcome State Fault Refusal :=
  if s.stage == .s3 && (s.die die).up && linksLost s die then
    let s := (logRecord s { code := 0x0403, cls := 4, sev := 4, recov := 5, engine := engineOf die 63 9 0, detail := die } true).1
    .next (dropDie die s)
  else .next s

/-- The counter blocks of a die's ports, of one level, written back; the granules of one that cannot be are poisoned (R463). -/
def flushLevel (d : Nat) (s : State) (k : Nat) : State :=
  (s.counters.filter fun b => b.level == k && b.dirty).foldl (fun s b =>
    match ctrKey s b.ctx b.level b.block with
    | none => s
    | some key =>
      if keyDie key != some d then s
      else
        match cleanBlock b s with
        | .ok () s => s
        | _ => { s with poison := granules key 64 ++ s.poison.filter fun g => !(granules key 64).contains g }) s

/-- The port caches of a die written back to HBM: counter blocks, lower levels first, then lines; a line of a channel that has failed
cannot be, and is poisoned (R5, R434, R463). -/
def flushPorts (d : Nat) (s : State) : State :=
  let s := (List.range 16).foldl (flushLevel d) s
  let mine (l : Nat) : Bool := keyDie (64 * l) == some d
  let lost := (s.dirty.filter fun l => mine l && channelFailed s (64 * l)).flatMap fun l => granules (64 * l) 64
  { s with
    dirty := s.dirty.filter fun l => !mine l
    counters := s.counters.filter fun b => ((ctrKey s b.ctx b.level b.block).bind keyDie) != some d
    poison := lost ++ s.poison.filter fun g => !lost.contains g }

/-- R463: firmware resets a die: its grids, its port caches, then its scratchpad; it is down until S2 has been rerun on it. -/
def execResetdie (die : Nat) (s : State) : Host.Outcome State Fault Refusal :=
  if s.stage == .s3 && decide (die < Config.dies) && !(s.die die).gone && !(s.die die).resetting then
    let s := dropDie die (flushPorts die s)
    let s := { s with mem := Memory.clear s.mem ((Space.scratch die).key 0) Config.scratchBytes }
    .next (s.updDie die fun x => { x with resetting := true, resetAt := s.ts })
  else .next s

/-- R463: a die that has not returned within 100 ms stays lost. -/
def execDieReturnTimeout (die : Nat) (s : State) : Host.Outcome State Fault Refusal :=
  if (s.die die).resetting && decide ((s.die die).resetAt + 100000000 ≤ s.ts) then
    .next (s.updDie die fun x => { x with resetting := false, gone := true })
  else .next s

end Sys2Proof.Machine
end

