-- ==== Sys2Proof/Machine/Startup.lean ====
section
/-! DEFINITION. Resets and the stages of start-up (R456 to R463). -/

namespace Sys2Proof.Machine

/-! ### The boot log (R459) -/

/-- An entry of the boot log, which holds 256 entries of two words. -/
def bootEntry (step result arg stage : Nat) (s : State) : State :=
  if s.bootLog.length < 512 then
    { s with bootLog := s.bootLog ++ [BitVec.ofNat 64 s.ts, BitVec.ofNat 64 (arg * 2 ^ 32 + result * 2 ^ 16 + step * 2 ^ 8 + stage)] }
  else s

/-- Start-up stops with a code, of which BOOTERR keeps the first of a start; mask ROM runs, and no firmware (R457, R458). -/
def bootFail (step code arg stage : Nat) (s : State) : State :=
  { bootEntry step code arg stage s with
    stage := .failed, bootErr := if s.bootErr = 0 then code else s.bootErr, fwValid := false, fwRunning := [] }

/-- The record of the management controller. -/
def controllerRec (code cls sev recov detail : Nat) : RecIn :=
  { code := code, cls := cls, sev := sev, recov := recov, engine := engineOf 0 63 11 0, detail := detail }

/-! ### The firmware image (R460) -/

/-- A field of an image, little-endian. -/
def imageField (im : List Byte) (off n : Nat) : Nat := ofBytes ((im.drop off).take n)
/-- LENGTH of an image. -/
def imageLen (im : List Byte) : Nat := imageField im 16 8
/-- The body of an image. -/
def imageBody (im : List Byte) : List Byte := (im.drop 256).take (imageLen im)
/-- DIGEST. -/
def imageDigest (im : List Byte) : BitVec 256 := BitVec.ofNat 256 (imageField im 24 32)

/-- The BOOTERR code of an image, 0 where R460 accepts it. -/
def imageError (s : State) (im : List Byte) : Nat :=
  if im.length < 256 || imageField im 0 8 != 0x564F4C4846570002 || imageField im 12 4 != 0 || imageLen im = 0 ||
      2 ^ 24 < imageLen im || im.length < 256 + imageLen im || imageField im 184 72 != 0 then 3
  else if sm3 ((im.drop 120).take 64) != s.keyHash || sm3 (imageBody im) != imageDigest im ||
      !sm2Verify ((im.drop 120).take 64) ((im.drop 24).take 32) ((im.drop 56).take 64) then 1
  else if imageField im 8 4 < s.minVersion then 2
  else 0

/-! ### Sensors -/

/-- A sensor before its first sample (R464). -/
def sensorAt (s : State) (d n : Nat) : Sensor :=
  Tbl.get (s.die d).sensors n
    { reading := 0, state := 0, warn := Config.fusedPoint d n 0, throttle := Config.fusedPoint d n 1
      trip := Config.fusedPoint d n 2, aged := none }

/-! ### Resets (R462) -/

/-- The temperature sensors at or above WARN (R462). -/
def hotSensors (s : State) : List Nat :=
  s.dies.flatMap fun d => (d.2.sensors.filter fun q => decide (q.1 < 48) && q.2.state != 0).map fun q => 72 * d.1 + q.1

/-- Host memory, which no reset of the device touches. -/
def hostCells (m : Memory) : Memory := m.filter fun c => decide (5 * 2 ^ 68 ≤ c.1)

/-- What survives the loss of power: fuses, the firmware store unless an update was interrupted (R461), host memory, and the
model's own fields. -/
def powerless (s : State) : State :=
  { State.reset with
    schedule := s.schedule, draws := s.draws, mem := hostCells s.mem
    fwStore := if s.fwNew.isEmpty then s.fwStore else []
    keyHash := s.keyHash, minVersion := s.minVersion, retired := s.retired, startRetired := s.retired }

/-- LASTRST after a reset for a cause: of causes that arise together, which is before any time has passed in S0, the highest code
(R462; log entry 37). -/
def resetCause (cause : Nat) (s : State) : Nat := if s.stage == .s0 && s.ts == 0 then max cause s.lastRst else cause

/-- A reset of the device with a cause: contexts end without completion words, keys are erased, and S0 begins, where the timestamp is
0 (R75); the error log stays. A device held in S0 by a thermal trip stays held, by the sensors that hold it. -/
def deviceReset (cause : Nat) (s : State) : State :=
  let held := s.stage == .s0 && s.tripped
  let hot := if held then s.hot else []
  { powerless s with
    now := s.now, ts := 0, errLog := s.errLog, nextSeq := s.nextSeq, suppressed := s.suppressed, lastRst := resetCause cause s
    tripped := cause == 5 || held
    hot := if cause = 5 then hot ++ (hotSensors s).filter fun n => !hot.contains n else hot }

/-- R462: the package supply rises. -/
def execPoweron (s : State) : Host.Outcome State Fault Refusal :=
  if s.stage == .off then .next (powerless s) else .next s

/-- R461, R462: the package supply falls. -/
def execPowerLoss (s : State) : Host.Outcome State Fault Refusal :=
  .next { powerless s with stage := .off }

/-- A reset of a powered device. -/
def resetEvent (cause : Nat) (s : State) : Host.Outcome State Fault Refusal :=
  if s.stage == .off then .next s else .next (deviceReset cause s)

/-- R462: HOSTRESET. -/
def execHostreset (s : State) : Host.Outcome State Fault Refusal := resetEvent 2 s

/-- R462: WATCHDOG. -/
def execWatchdog (s : State) : Host.Outcome State Fault Refusal := resetEvent 4 s

/-- Memory zeroed, with ECC and without poison (R456): the channels and the scratchpads. -/
def zeroMemory (s : State) : State :=
  { s with mem := hostCells s.mem, poison := [], badUE := [], badCE := [], dirty := [], counters := [] }

/-- R461, R462: FLR: contexts end, keys are erased, memory is zeroed, which the boot log notes (R459); training, links and the running
firmware stay, an update of the firmware store that was under way leaves no image, and S3 follows. A die that is not up has the steps
of S2 before that. Where S3 has not been reached, start-up begins anew. -/
def execFlr (s : State) : Host.Outcome State Fault Refusal :=
  if s.stage == .off then .next s
  else if s.stage != .s3 then .next (deviceReset 3 s)
  else
    let t := deviceReset 3 s
    .next (bootEntry 3 0 0 1 (zeroMemory { t with
      ts := s.ts, failed := s.failed, startRetired := s.startRetired
      stage := .s2, fwRunning := s.fwRunning, fwValid := s.fwValid, bootLog := s.bootLog
      attLog := s.attLog.take 1, untrained := s.untrained, ports := s.ports, devId := s.devId, cxlLanes := s.cxlLanes
      dies := Tbl.mapVal s.dies fun _ x => { Die.fresh with up := x.up }
      cores := Tbl.mapVal s.cores fun _ k => { Core.fresh with phys := k.phys, rowMap := k.rowMap, clkBase := k.clkBase } }))

/-! ### Stages (R456) -/

/-- R456, R460: stage S0. CXL.io has trained at a number of lanes (R439); the image is checked, and its digest is entry 0 of
the attestation log. After THERMTRIP the device is held until every sensor is below WARN (R462). -/
def execStageS0 (lanes : Nat) (s : State) : Host.Outcome State Fault Refusal :=
  if s.stage != .s0 || (s.tripped && !s.hot.isEmpty) || !(lanes == 16 || lanes == 8 || lanes == 4) then .next s
  else
    let s := { s with cxlLanes := lanes }
    let e := imageError s s.fwStore
    if e != 0 then .next (bootFail 1 e 0 0 s)
    else .next { bootEntry 1 0 0 0 s with
      stage := .s1, fwRunning := s.fwStore, fwValid := true, attLog := [{ ctx := 127, buf := 0, digest := imageDigest s.fwStore }] }

/-- R427, R456: stage S1; `failed` are the channels that fail training. A channel retired since this start began is no retired one yet
(R469). -/
def execStageS1 (failed : List Nat) (s : State) : Host.Outcome State Fault Refusal :=
  if s.stage != .s1 then .next s
  else
    match failed.find? fun c => !s.startRetired.contains c && decide (c < Config.hbmStacks * Config.channelsPerStack) with
    | some c => .next (bootFail 2 4 (c / Config.channelsPerStack) 1 s)
    | none => .next { bootEntry 3 0 0 1 (bootEntry 2 0 0 1 (zeroMemory s)) with stage := .s2, untrained := s.startRetired }

/-- The physical rows of a physical core that its fuses leave enabled, in order (R250). -/
def enabledRows (r : CoreTest) (c : Nat) : List Nat :=
  let off := Tbl.get r.offRows c []
  (List.range 68).filter fun i => !off.contains i

/-- Those that pass their test too: on a core with 64 of them, the logical rows pass over one that fails (R250; log entry 49). -/
def goodRows (r : CoreTest) (c : Nat) : List Nat :=
  let bad := Tbl.get r.badRows c []
  (enabledRows r c).filter fun i => !bad.contains i

/-- The physical cores of a die that are used, in the order of their logical numbers: a core with fewer than 64 enabled rows
is disabled (R7, R250; log entry 47). -/
def usedCores (r : CoreTest) (d : Nat) : List Nat :=
  ((List.range Config.physCores).filter fun p =>
    let c := d * Config.physCores + p
    !r.badCores.contains c && decide (64 ≤ (enabledRows r c).length)).take Config.coresPerDie

/-- The cores of some dies numbered and their rows mapped (R7, R250). -/
def startCores (r : CoreTest) (ds : List Nat) (s : State) : State :=
  (ds.flatMap fun d => (usedCores r d).zipIdx.map fun p => (d, p.1, p.2)).foldl
    (fun s p => s.updCore (p.1 * Config.coresPerDie + p.2.2) fun _ =>
      { Core.fresh with phys := p.2.1, rowMap := (goodRows r (p.1 * Config.physCores + p.2.1)).take 64, clkBase := s.now }) s

/-- The first physical core of some dies that fails, as die * 256 + core: the first that is not used of a die with fewer than 36
good cores, or a core in use with fewer than 64 good rows (R458; log entry 47). -/
def coreFault (r : CoreTest) (ds : List Nat) : Option Nat :=
  ds.findSome? fun d =>
    let used := usedCores r d
    if used.length < Config.coresPerDie then
      some (d * 256 + ((List.range Config.physCores).find? fun p => !used.contains p).getD 0)
    else (used.find? fun p => decide ((goodRows r (d * Config.physCores + p)).length < 64)).map fun p => d * 256 + p

/-- A VFL port after training at some lanes (R456). -/
def trainPort (s : State) (q lanes : Nat) : State :=
  let ok := lanes == 8 || lanes == 4
  let s := bootEntry 7 (if ok then 0 else 0x8000) q 2 { s with ports := Tbl.set s.ports q { VPort.fresh with up := ok, lanes := if ok then lanes else 0 } }
  if !ok then (logRecord s (vflRec q 0x0401 1 1 q) true).1 else if lanes = 4 then linkCe q s else s

/-- The links between some dies and the others, both ends up (R454). -/
def trainLinks (ds : List Nat) (s : State) : State :=
  let up (t : Tbl VPort) (q : Nat) : Tbl VPort := Tbl.set t q { VPort.fresh with up := true, lanes := 8 }
  { s with ports := ds.foldl (fun t d => (List.range Config.dies).foldl (fun t p =>
      if p == d then t else up (up t (diePort d p)) (diePort p d)) t) s.ports }

/-- The steps of S2 on some dies, which end up, with `fail` where one does not pass (R250, R456, R459). -/
def startDies (r : CoreTest) (ds : List Nat) (fail : Nat → Nat → Nat → State → State) (s : State) (k : State → State) : State :=
  match coreFault r ds with
  | some a => fail 4 5 a s
  | none =>
    let s := bootEntry 5 0 0 2 (bootEntry 4 0 0 2 (startCores r ds s))
    if ds.any fun d => r.linkDown.contains d then fail 6 6 0 s
    else k (ds.foldl (fun s d => s.updDie d fun x => { x with up := true, resetting := false }) (bootEntry 6 0 0 2 (trainLinks ds s)))

/-- R456: stage S2 of the device, on every die that is not up: all of them, with the VFL ports, or after an FLR those it found down;
R463: its steps on one die that RESETDIE took down. -/
def execStageS2 (r : CoreTest) (s : State) : Host.Outcome State Fault Refusal :=
  match r.die with
  | some d =>
    if (s.die d).resetting then .next (startDies r [d] (fun step code arg s => bootEntry step code arg 2 s) s id)
    else .next s
  | none =>
    let ds := (List.range Config.dies).filter fun d => !(s.die d).up
    if s.stage != .s2 || 767 < r.devId || ds.isEmpty then .next s
    else .next (startDies r ds (fun step code arg s => bootFail step code arg 2 s) s fun s =>
      if ds.length < Config.dies then s
      else { (List.range Config.vflPorts).foldl (fun s q => trainPort s q (Tbl.get r.ports q 8)) s with devId := r.devId })

/-- The header of a launch buffer written (R444); none where its place is no device address. -/
def launchHeader (c : Nat) (nslot : Nat) (s : State) : PRes Unit :=
  let x := s.ctx c
  match deviceKey s x.cgroup x.stripe (x.dframe * 2 ^ 17) with
  | none => .fail { code := 0x0201 } s
  | some k => atHome k s (eccWrite k (toBytes (nslot * 2 ^ 128) 64) s)

/-- R385, R456: stage S3: the device is usable, and the controller has set up the firmware context. -/
def execStageS3 (f : FwSetup) (s : State) : Host.Outcome State Fault Refusal :=
  if s.stage != .s2 || !((List.range Config.dies).all fun d => (s.die d).up) then .next s
  else
    let fw := Config.firmwareCtx
    let s := s.updCtx fw fun _ =>
      { Ctx.fresh with st := .running, created := true, bufs := f.bufs.foldl (fun t p => Tbl.set t p.1 p.2) []
                       nslot := f.nslot, dframe := f.dframe, stripe := f.stripe, cgroup := f.cgroup }
    let s := match launchHeader fw f.nslot s with
      | .ok () s => s
      | _ => s
    let s := if s.lastRst = 1 then s else (logRecord s (controllerRec 0x0606 6 0 0 s.lastRst) false).1
    .next { bootEntry 8 0 0 3 s with stage := .s3, memActive := true }

end Sys2Proof.Machine
end

