-- ==== Sys2Proof/Machine/Monitor.lean ====
section
/-! DEFINITION. Sensors, the die clocks and the security alarm (R464 to R467). -/

namespace Sys2Proof.Machine

/-! ### The alarm (R466) -/

/-- The number of a source (R471). -/
def alarmNum : AlarmSrc → Nat
  | .mesh => 0
  | .glitch => 1
  | .monitor => 2
  | .attest => 3

/-- The level that ALARMCFG gives a source; 00 acts as level 1. -/
def alarmLevel (cfg : Nat) (src : AlarmSrc) : Nat := max 1 (bits cfg (2 * alarmNum src) 2)

/-- The record of a source. -/
def alarmRec (src : AlarmSrc) (code recov detail : Nat) : RecIn :=
  { code := code, cls := 5, sev := 6, recov := recov, engine := engineOf 0 63 14 (alarmNum src), detail := detail }

/-- A context of a tenant that an alarm freezes: one that runs quiesces (R398), one that is frozen, saved or ended stays so until
RESUMEALL. -/
def alarmFreeze (c : Nat) (x : Ctx) (ts : Nat) : Ctx :=
  if c == Config.firmwareCtx || !x.created then x
  else if x.st == .running && !x.request then { x with alarmFrozen := true, request := true, reqAt := ts }
  else { x with alarmFrozen := true }

/-- A source fires at its level (R466): a record; at level 2 every tenant context freezes; at level 3 the keys, the root
registers and the attestation log are gone before anything else, and the device resets. -/
def fireAlarm (src : AlarmSrc) (s : State) : State :=
  let n := alarmNum src
  let s := { s with alarmLvl := max s.alarmLvl (alarmLevel s.alarmCfg src) }
  match alarmLevel s.alarmCfg src with
  | 3 => deviceReset 6 (logRecord s (alarmRec src 0x0503 6 n) true).1
  | 2 =>
    let s := (logRecord s (alarmRec src 0x0502 7 n) true).1
    { s with ctxs := Tbl.mapVal s.ctxs fun c x => alarmFreeze c x s.ts }
  | _ => (logRecord s (alarmRec src 0x0501 0 n) true).1

/-- R466: a source of the security alarm fires. -/
def execAlarmSource (src : AlarmSrc) (s : State) : Host.Outcome State Fault Refusal :=
  if s.stage == .off then .next s else .next (fireAlarm src s)

/-- R467: the running firmware is measured again. -/
def execFirmwareRemeasure (s : State) : Host.Outcome State Fault Refusal :=
  if s.fwValid && (s.attLog.head?.map (·.digest)) != some (sm3 (imageBody s.fwRunning)) then
    .next (fireAlarm .attest (logRecord s (alarmRec .attest 0x0504 7 0) true).1)
  else .next s

/-! ### Sensors (R464) -/

/-- What a sensor measures. -/
inductive SensorKind where
  | temperature
  | voltage
  | process
  deriving DecidableEq, Repr

/-- The kind of a sensor by its number. -/
def sensorKind (n : Nat) : SensorKind := if n < 48 then .temperature else if n < 64 then .voltage else .process

/-- A reading or a point as a number; temperatures are signed. -/
def sensorVal (k : SensorKind) (v : BitVec 16) : Int :=
  match k with
  | .temperature => v.toInt
  | _ => v.toNat

/-- Whether a reading is past a point in the harmful direction; `at_` counts the point itself. -/
def past (k : SensorKind) (v p : Int) (at_ : Bool) : Bool :=
  match k with
  | .temperature => if at_ then decide (p ≤ v) else decide (p < v)
  | _ => if at_ then decide (v ≤ p) else decide (v < p)

/-- Whether a reading has returned past a point by the hysteresis: 2 °C, 10 mV, or 1 %. -/
def returned (k : SensorKind) (v p : Int) : Bool :=
  match k with
  | .temperature => decide (v ≤ p - 32)
  | .voltage => decide (p + 40 ≤ v)
  | .process => decide (101 * p ≤ 100 * v)

/-- The points of a sensor by state: WARN, THROTTLE, TRIP. -/
def Sensor.point (q : Sensor) (i : Nat) : BitVec 16 := if i = 1 then q.warn else if i = 2 then q.throttle else q.trip

/-- STATE after a reading. -/
def nextState (k : SensorKind) (q : Sensor) (v : BitVec 16) : Nat :=
  let p (i : Nat) : Int := sensorVal k (q.point i)
  let r := sensorVal k v
  let level := if past k r (p 3) true then 3 else if past k r (p 2) false then 2 else if past k r (p 1) false then 1 else 0
  [3, 2, 1].foldl (fun acc i => if acc < i && i ≤ q.state && !returned k r (p i) then i else acc) level

/-- A record of a monitor (R471, R473). -/
def monitorRec (d n code sev recov detail : Nat) : RecIn :=
  { code := code, cls := 6, sev := sev, recov := recov, engine := engineOf d 63 12 n, detail := detail }

/-- A day in timestamp ticks. -/
def day : Nat := 86400 * 10 ^ 9

/-- The crossing of WARN (R465). -/
def crossWarn (d n : Nat) (k : SensorKind) (v : BitVec 16) (s : State) : State :=
  let detail := n + v.toNat * 2 ^ 16
  match k with
  | .temperature => (logRecord s (monitorRec d n 0x0603 1 0 detail) true).1
  | .voltage => (logRecord s (monitorRec d n 0x0602 1 0 detail) true).1
  | .process =>
    let q := sensorAt s d n
    if q.aged.any fun t => decide (s.ts < t + day) then s
    else (logRecord s (monitorRec d n 0x0605 1 7 detail) true).1.updDie d fun x =>
      { x with sensors := Tbl.set x.sensors n { q with aged := some s.ts } }

/-- The steps of a die after one more; the floor is a quarter of nominal (R465). -/
def stepDown (n : Nat) : Nat := min 6 (n + 1)

/-- The crossing of THROTTLE (R465): for a process monitor one step until the next reset. -/
def crossThrottle (d n : Nat) (k : SensorKind) (s : State) : State :=
  let s := match k with
    | .process => s.updDie d fun x => { x with steps := stepDown x.steps, agedSteps := stepDown x.agedSteps }
    | _ => s
  (logRecord s (monitorRec d n 0x0604 1 0 (n + (s.die d).steps * 2 ^ 8)) true).1

/-- TRIP (R462, R465): a temperature resets the device; a voltage is a glitch. -/
def trip (d n : Nat) (k : SensorKind) (v : BitVec 16) (s : State) : State :=
  match k with
  | .temperature => deviceReset 5 (logRecord s (monitorRec d n 0x0601 5 6 (n + v.toNat * 2 ^ 16)) true).1
  | .voltage => fireAlarm .glitch s
  | .process => s

/-- R464, R465: a sensor is sampled. Before firmware runs only TRIP acts. A voltage acts at TRIP in both directions. While a thermal
trip holds S0, a temperature below WARN no longer does (R462). -/
def execSensorSample (die sensor : Nat) (reading : BitVec 16) (s : State) : Host.Outcome State Fault Refusal :=
  if s.stage == .off || Config.dies ≤ die || 72 ≤ sensor then .next s
  else
    let k := sensorKind sensor
    let q := sensorAt s die sensor
    let st := nextState k q reading
    let s := if s.stage == .s0 && s.tripped && sensor < 48 then
        let other := s.hot.filter (· != 72 * die + sensor)
        { s with hot := if st = 0 then other else (72 * die + sensor) :: other }
      else s
    let s := s.updDie die fun x => { x with sensors := Tbl.set x.sensors sensor { q with reading := reading, state := st } }
    let s := s.updDie die fun x =>
      { x with stretch := x.sensors.any fun p => sensorKind p.1 == .voltage && p.2.state != 0 }
    let s := if s.fwValid && q.state < 1 && 1 ≤ st then crossWarn die sensor k reading s else s
    let s := if s.fwValid && q.state < 2 && 2 ≤ st then crossThrottle die sensor k s else s
    .next (if (q.state < 3 && st = 3) || (k == .voltage && q.state = 3 && st < 3) then trip die sensor k reading s else s)

/-- The clocks of every die one step down, as the package draws more than 5.6 kW: THROTTLE with detail POWER, 255 (R465, R473). -/
def powerStep (s : State) : State :=
  let s := (List.range Config.dies).foldl (fun s d => s.updDie d fun x => { x with steps := stepDown x.steps }) s
  (logRecord s (controllerRec 0x0604 6 1 0 255) true).1

/-- R465: every 100 µs a die's clocks step down while one of its temperatures or voltages is above THROTTLE, and back up
once all have left it. Firmware steps every die down instead where the package draws too much, which is a free value (log entry 31). -/
def execClockStep (die : Nat) (s : State) : Host.Outcome State Fault Refusal :=
  if s.stage == .off || Config.dies ≤ die then .next s
  else
    let t := { s with draws := s.draws + 1 }
    if s.fwValid && Config.powerOver s.draws then .next (powerStep t)
    else
      let hot := (s.die die).sensors.any fun p => decide (p.1 < 64) && decide (2 ≤ p.2.state)
      .next (t.updDie die fun x => { x with steps := if hot then stepDown x.steps else max x.agedSteps (x.steps - 1) })

end Sys2Proof.Machine
end

