-- ==== Sys2Proof/Machine/Mailbox.lean ====
section
/-! DEFINITION. The commands of the management mailbox (R457, R464, R466 to R469). Layouts of replies are those of log
entry 26. -/

namespace Sys2Proof.Machine

/-- The reply to a command. -/
def reply (code : MailCode) (data : List Byte) (s : State) : Host.Outcome State Fault Refusal :=
  .next { s with mailReply := { code := code, data := data } }

/-- A command that some stages allow; Unsupported in the others (R468). No command is answered without power, and none is performed
while another is under way, which `going` names where this is that one. -/
def commandAs (going : Option Nat) (ok : Bool) (s : State) (k : Host.Outcome State Fault Refusal) : Host.Outcome State Fault Refusal :=
  if s.stage == .off || (s.mailBusy.isSome && s.mailBusy != going) then .next s
  else if ok then k else reply .unsupported [] s

/-- A command that is performed at once. -/
def command (ok : Bool) (s : State) (k : Host.Outcome State Fault Refusal) : Host.Outcome State Fault Refusal := commandAs none ok s k

/-- The stages of a command that mask ROM and firmware both take. -/
def romOrFirmware (s : State) : Bool := s.stage == .s0 || s.stage == .failed || s.stage == .s3

/-- The number of a stage (R457). -/
def stageNum : Stage → Nat
  | .off => 0
  | .s0 => 0
  | .s1 => 1
  | .s2 => 2
  | .s3 => 3
  | .failed => 15

/-- DEVSTAT (R457). -/
def devStat (s : State) : W64 :=
  let up := (List.range Config.dies).foldl (fun a d => if (s.die d).up then a + 2 ^ d else a) 0
  BitVec.ofNat 64 (s.bootErr * 2 ^ 48 + up * 2 ^ 40 + s.lastRst * 2 ^ 32 + s.alarmLvl * 2 ^ 12 + (if s.fwValid then 2 ^ 7 else 0) +
    stageNum s.stage)

/-- A reading register (R464). -/
def readingReg (q : Sensor) : Nat := q.state * 2 ^ 32 + q.reading.toNat

/-- R469: GETSTAT. -/
def execGetstat (s : State) : Host.Outcome State Fault Refusal :=
  command true s (reply .success (toBytes (devStat s).toNat 8 ++ toBytes s.alarmCfg 8 ++
    (List.range Config.dies).flatMap fun d => (List.range 72).flatMap fun n => toBytes (readingReg (sensorAt s d n)) 8) s)

/-- SEQ of a record. -/
def recSeq (r : ErrRec) : Nat := ((r.head?).getD 0).toNat % 2 ^ 32

/-- The held records in SEQ order: those after the number has wrapped stand before those before (R472). -/
def bySeq (log : List ErrRec) : List ErrRec :=
  let last := (log.getLast?.map recSeq).getD 0
  (log.filter fun r => decide (recSeq r ≤ last)) ++ log.filter fun r => decide (last < recSeq r)

/-- R469: GETLOG. -/
def execGetlog (start count : Nat) (s : State) : Host.Outcome State Fault Refusal :=
  command true s <|
    if count = 0 || 64 < count then reply .invalidInput [] s
    else
      let log := bySeq s.errLog
      let got := (log.filter fun r => decide (start ≤ recSeq r)).take count
      reply .success (toBytes got.length 8 ++ toBytes ((log.head?.map recSeq).getD 0) 8 ++
        toBytes ((log.getLast?.map recSeq).getD 0) 8 ++ toBytes s.suppressed 8 ++
        got.flatMap fun r => r.flatMap fun w => toBytes w.toNat 8) s

/-- R469: GETBOOTLOG. -/
def execGetbootlog (s : State) : Host.Outcome State Fault Refusal :=
  command true s (reply .success (s.bootLog.flatMap fun w => toBytes w.toNat 8) s)

/-- Some bytes put into others, which grow with zeros where they are short. -/
def putGrow (bs : List Byte) (off : Nat) (new : List Byte) : List Byte :=
  let bs := bs ++ List.replicate (off - bs.length) 0
  bs.take off ++ new ++ bs.drop (off + new.length)

/-- R460, R461, R469: FWUPDATE writes over the image in the store; until FINAL the store holds no valid image should a reset
come. COMMIT raises the minimum version to that of the running image. -/
def execFwupdate (off : Nat) (data : List Byte) (final commit : Bool) (s : State) : Host.Outcome State Fault Refusal :=
  command (romOrFirmware s) s <|
    if 4096 < data.length || 256 + 2 ^ 24 < off + data.length then reply .invalidInput [] s
    else
      let im := putGrow (if s.fwNew.isEmpty then s.fwStore else s.fwNew) off data
      let s := if commit && s.fwValid then { s with minVersion := max s.minVersion (imageField s.fwRunning 8 4) } else s
      if final then
        reply (if imageError s im = 0 then .success else .fail) [] { s with fwStore := im, fwNew := [] }
      else reply .success [] { s with fwNew := im }

/-- R462, R469: RESET answers, then resets with cause FWREQ. -/
def execReset (s : State) : Host.Outcome State Fault Refusal :=
  command true s (reply .success [] (deviceReset 7 s))

/-- A power of two from 1 to 4,096. -/
def slotCount (n : Nat) : Bool := (List.range 13).any fun i => n == 2 ^ i

/-- R444, R469: CTXCREATE, of a context that is not created already (log entry 26). -/
def execCtxcreate (ctx nslot dframe stripe cgroup : Nat) (s : State) : Host.Outcome State Fault Refusal :=
  command (s.stage == .s3) s <|
    if 63 < ctx || !slotCount nslot || 2 ^ 36 ≤ dframe || 2 < stripe || 32 < cgroup || (s.ctx ctx).created then reply .invalidInput [] s
    else
      let t := { s with draws := s.draws + 2 }.updCtx ctx fun _ =>
        { Ctx.fresh with kd := Config.randomKey s.draws, km := Config.randomKey (s.draws + 1), dframe := dframe, stripe := stripe
                         cgroup := cgroup, nslot := nslot, created := true }
      match launchHeader ctx nslot t with
      | .ok _ t => reply .success [] t
      | .wait _ => .next s
      | .fail _ _ => reply .invalidInput [] s

/-- R412, R469: CTXDESTROY; it is not answered before the context's copies have completed, and until then no other command is performed
(R468). -/
def execCtxdestroy (ctx : Nat) (s : State) : Host.Outcome State Fault Refusal :=
  commandAs (some ctx) (s.stage == .s3) s <|
    if 63 < ctx then reply .invalidInput [] s
    else if !(s.ctx ctx).ops.isEmpty then .next s
    else
      let s := killTaken ctx 3 (endGrids s ctx 3 0)
      if copiesLeft s ctx then .next { s with mailBusy := some ctx }
      else
        let s := { s with mailBusy := none }
        let s := s.updCtx ctx fun x =>
          { x with st := .ended, kd := 0, km := 0, root := [], created := false, alarmFrozen := false, request := false }
        reply .success [] { s with attLog := s.attLog.filter (fun a => a.ctx != ctx), counters := s.counters.filter (fun b => b.ctx != ctx), images := s.images.filter fun i => i.ctx != ctx }

/-- The bytes of the attestation log. -/
def attBytes (l : List AttEntry) : List Byte :=
  l.flatMap fun a => toBytes (a.ctx + a.buf * 2 ^ 16) 8 ++ toBytes a.digest.toNat 32

/-- R467: ATTEST. -/
def execAttest (nonce : BitVec 256) (s : State) : Host.Outcome State Fault Refusal :=
  command (s.stage == .s3) s <|
    let log := attBytes s.attLog
    reply .success (log ++ toBytes (Config.sm2Sign (sm3 (toBytes nonce.toNat 32 ++ log))).toNat 64) s

/-- R464: SETTHRESH, which refuses points that are not on the safe side of TRIP. -/
def execSetthresh (die sensor : Nat) (warn throttle : BitVec 16) (s : State) : Host.Outcome State Fault Refusal :=
  command (s.stage == .s3) s <|
    let k := sensorKind sensor
    let q := sensorAt s die sensor
    let bad (p : BitVec 16) : Bool := past k (sensorVal k p) (sensorVal k q.trip) true
    if Config.dies ≤ die || 72 ≤ sensor || bad warn || bad throttle then reply .invalidInput [] s
    else reply .success [] (s.updDie die fun x => { x with sensors := Tbl.set x.sensors sensor { q with warn := warn, throttle := throttle } })

/-- R466: SETALARM, without effect once LOCK is set; MESH stays 11. -/
def execSetalarm (v : W64) (s : State) : Host.Outcome State Fault Refusal :=
  command true s (reply .success [] (if bit s.alarmCfg 8 then s else { s with alarmCfg := bits v.toNat 2 7 * 4 + 3 }))

/-- R427, R458: RETIRE blows the next of 32 fuses; with none left the code is RETIREFULL. -/
def execRetire (stack chan : Nat) (s : State) : Host.Outcome State Fault Refusal :=
  command (romOrFirmware s) s <|
    if Config.hbmStacks ≤ stack || Config.channelsPerStack ≤ chan then reply .invalidInput [] s
    else if 32 ≤ s.retired.length then reply .retireFull [] { s with bootErr := if s.bootErr = 0 then 7 else s.bootErr }
    else reply .success [] { s with retired := s.retired ++ [stack * Config.channelsPerStack + chan] }

/-- A context that stands still runs again, and none is one that an alarm has frozen; the quiesce of one for an alarm ends. -/
def resumeFrozen (s : State) (c : Nat) : State :=
  let t := if (s.ctx c).st == .frozen then resumeCtx c s else s
  t.updCtx c fun x => { x with alarmFrozen := false, request := x.request && !(x.alarmFrozen && x.st == .running) }

/-- R466, R469: RESUMEALL, after a level 2 alarm; it is performed after what is under way on a context (R397). -/
def execResumeall (s : State) : Host.Outcome State Fault Refusal :=
  command (s.stage == .s3) s <|
    if 2 ≤ s.alarmLvl then
      if (List.range 64).any fun c => !(s.ctx c).ops.isEmpty then .next s
      else reply .success [] ((List.range 64).foldl resumeFrozen s)
    else reply .success [] s

end Sys2Proof.Machine
end

