-- ==== Sys2Proof/Machine/Supervisor.lean ====
section
/-! DEFINITION. The instructions of firmware that write buffer tables and page maps (R401, R413 to R416, R428, R436). -/

namespace Sys2Proof.Machine

/-! ### Names (R401) -/

/-- Its buffer index. -/
def nameBuf (n : Nat) : Nat := bits n 42 16
/-- The page number of a page name. -/
def namePage (n : Nat) : Nat := bits n 0 31
/-- The buffer pointer of a page name's page. -/
def namePtr (n : Nat) : Nat := nameBuf n * 2 ^ 48 + namePage n * 2 ^ 17

/-- Whether a name is none: bits below the index beyond FW and `low` of them, or FW with a context (R401, R413). -/
def nameBad (n low : Nat) : Bool := bits n low (41 - low) != 0 || (bit n 41 && bits n 58 6 != 0)

/-- BOUNDS with reason ADDR of a name. -/
def nameCause (w : Who) (n : Nat) : Cause :=
  match w with
  | .group _ => Cause.boundsMM w.lane n
  | .wick _ => { Cause.boundsMM 0 n with lane := 255 }

/-- Whether a page name is covered by a name in a scope. -/
def covers (scope name page : Nat) : Bool :=
  match scope with
  | 0 => page == name
  | 1 => bits page 41 23 == bits name 41 23
  | _ => bits page 58 6 == bits name 58 6 && bit page 41 == bit name 41

/-- Translations that a name in a scope covers invalidated in every core (R395, R415). -/
def invalidate (scope name : Nat) (s : State) : State :=
  { s with cores := Tbl.mapVal s.cores fun _ k => { k with tcache := k.tcache.filter fun e => !covers scope name e.1 } }

/-- The context a party acts for. -/
def partyCtx (s : State) (p : Party) : Option Nat :=
  match p.1 with
  | 0 => (Tbl.get? s.groups p.2).map fun g => s.ctxOfTeam g.team
  | 1 => some (s.ctxOfTeam p.2)
  | 2 => (Tbl.get? (s.core (p.2 / 8)).streams (p.2 % 8)).map (·.ctx)
  | 3 => (Tbl.get? (s.core (p.2 / 64)).copies (p.2 % 64)).map (·.ctx)
  | 4 => some (p.2 % 128)
  | 5 => ((s.core p.2).path.head?.bind fun r => Tbl.get? s.groups r.grp).map fun g => s.ctxOfTeam g.team
  | _ => none

/-! ### bufw (R413, R436) -/

/-- The register some places after the one a uniform source names. -/
def laterReg (n : Nat) : Src → Src
  | .k r => .k (r + BitVec.ofNat 5 n)
  | .s r => .s (r + BitVec.ofNat 6 n)
  | .v r => .v (r + BitVec.ofNat 10 n)
  | y => y

/-- The entry in four registers, word 0 in the first. -/
def entryWords (w : Who) (s : State) (x : Src) : BitVec 256 :=
  w.uni s (laterReg 3 x) ++ w.uni s (laterReg 2 x) ++ w.uni s (laterReg 1 x) ++ w.uni s x

/-- The digests of the level above some digests (R435). -/
def hashLevel (ds : List (List Byte)) : List (List Byte) :=
  (List.range ((ds.length + 7) / 8)).map fun j => toBytes (sm3 ((ds.drop (8 * j)).take 8).flatten).toNat 32

/-- The levels above some digests, up to the root. -/
def hashLevels : Nat → List (List Byte) → List (List Byte)
  | 0, _ => []
  | fuel + 1, ds => if ds.length ≤ 1 then [] else hashLevel ds ++ hashLevels fuel (hashLevel ds)

/-- Whether writing an entry over another seals the buffer (R436). -/
def seals (ctx : Nat) (old new : BufEntry) : Bool :=
  !old.sealed && new.sealed && new.home == 0 && new.enc && new.valid && !new.malformed (ctx == Config.firmwareCtx)

/-- A measurement added to the attestation log (R467), which holds 4,096. -/
def addMeasure (a : AttEntry) (s : State) : State :=
  if s.attLog.length < 4096 then { s with attLog := s.attLog ++ [a] } else s

/-- VERIFIED of some pages cleared. -/
def clearVerified (ctx : Nat) (e : BufEntry) : List Nat → State → PRes Unit
  | [], s => .ok () s
  | p :: ps, s => (setVerified ctx e p false s).bind fun _ s => clearVerified ctx e ps s

/-- Seals a buffer: the levels above the stored leaves are written, VERIFIED cleared, the root measured (R436). -/
def sealBuffer (ctx buf : Nat) (e : BufEntry) (s : State) : PRes Unit :=
  let n := e.tail / 2 ^ 17
  (ownRead ctx buf e e.tail (32 * n) s).bind fun bs s =>
    let leaves := (List.range n).map fun i => (bs.drop (32 * i)).take 32
    let tree := hashLevels 16 leaves
    (ownWrite ctx buf e (e.tail + 32 * n) tree.flatten s).bind fun _ s =>
      let pages := (e.tail + 32 * (n + tree.length) + 2 ^ 17 - 1) / 2 ^ 17
      (clearVerified ctx e (List.range pages) s).bind fun _ s =>
        .ok () (match (leaves ++ tree).getLast? with
          | none => s
          | some root => addMeasure { ctx := ctx, buf := buf, digest := BitVec.ofNat 256 (ofBytes root) } s)

/-- Whether an access that passed the checks of a buffer's entry is still to be performed. -/
def bufBusy (s : State) (ctx buf : Nat) : Bool :=
  (s.txns.any fun t => t.2.ptr.toNat / 2 ^ 48 == buf && t.2.ctx == ctx) ||
    s.replies.any fun r => r.ptr.toNat / 2 ^ 48 == buf && r.ctx == ctx

/-- R413: `bufw`. -/
def execBufw (x : Args) (s : State) : Host.Outcome State Fault Refusal :=
  let ns : List Nat := match x.b with
    | .k r => (List.range 4).map fun i => r.toNat + i
    | .v r => (List.range 4).map fun i => r.toNat + i
    | _ => []
  issueSup x ns (fun w s =>
    let name := (w.uni s x.a).toNat
    let ctx := nameCtx name
    let buf := nameBuf name
    let late : List Nat := match x.b with
      | .s r => (List.range 4).map fun i => r.toNat + i
      | _ => []
    if nameBad name 0 then .fault (nameCause w name)
    else if tokensPending s (w.team s) late || bufBusy s ctx buf then .wait s
    else
      let v := entryWords w s x.b
      let old := bufEntry s ctx buf
      let put := (invalidate 1 name s).updCtx ctx fun c => { c with bufs := Tbl.set c.bufs buf v }
      if seals ctx old (BufEntry.of v) then
        match sealBuffer ctx buf (BufEntry.of v) put with
        | .ok () s => .done s
        | .wait s' => .wait (rollback s s')
        | .fail f s' => .done (logRecord s' ((f.at (buf * 2 ^ 48) 0 .write).record (w.record s f.code 2 2 3)) true).1
      else .done (fillAllHoles put)) s

/-! ### mapw (R414) -/

/-- A page-map entry written over the one of a page, whose VERIFIED is read-only (R423): a write of part of its granule, at its home
(R431, R463). -/
def writeMap (e : BufEntry) (page : Nat) (v : W64) (s : State) : PRes Unit :=
  match (pmapEntry s e page).bind fun _ => pmapKey s e page with
  | none => .ok () s
  | some k => atHome k s ((eccRead k 8 true s).bind fun old s =>
      eccWrite k (toBytes ((v &&& ~~~16#64) ||| (BitVec.ofNat 64 (ofBytes old) &&& 16#64)).toNat 8) s)

/-- Whether a buffer has a page map: HOME 00, and not in the firmware table (R385, R419). -/
def hasMap (ctx : Nat) (e : BufEntry) : Bool :=
  e.valid && e.home == 0 && ctx != Config.firmwareCtx && !e.malformed false

/-- R414: `mapw`. A buffer without a page map is left as it is; a name that is none raises BOUNDS as for `bufw`
(log entry 18). -/
def execMapw (x : Args) (s : State) : Host.Outcome State Fault Refusal :=
  issueSup x [] (fun w s =>
    let name := (w.uni s x.a).toNat
    let e := bufEntry s (nameCtx name) (nameBuf name)
    if nameBad name 31 then .fault (nameCause w name)
    else if hasMap (nameCtx name) e then
      ((writeMap e (namePage name) (w.uni s x.b) s).named (e.pmap + 8 * namePage name) 8 .write).eff w fun _ s =>
        .done (fillAllHoles (invalidate 0 name s))
    else .done s) s

/-! ### tinv (R415) -/

/-- Whether a name is one of a scope. -/
def scopeBad (scope name : Nat) : Bool :=
  match scope with
  | 0 => nameBad name 31
  | 1 => nameBad name 0
  | _ => nameBad name 0 || nameBuf name != 0

/-- Every fault-buffer entry that a name covers freed; what was parked, in the order it was parked, with the page and the kind. -/
def freeFaults (scope name : Nat) (s : State) : List (Party × Nat × Nat) × State :=
  let hit (f : FaultEntry) : Bool := covers scope name f.page.toNat
  let ps := s.dies.flatMap fun d => (d.2.faults.filter hit).flatMap fun f => f.parked.map fun p => (p, f.page.toNat, f.kind)
  let line := s.replay.map (·.1)
  (line.flatMap (fun p => ps.filter fun q => q.1 == p) ++ ps.filter (fun q => !line.contains q.1),
   { s with dies := Tbl.mapVal s.dies fun _ d => { d with faults := d.faults.filter fun f => !hit f } })

/-- A party parked no longer: its access is to be issued again, or not. -/
def unparkParty (again : Bool) (p : Party) (s : State) : State :=
  let s := { s with replay := if again then s.replay.map (fun q => if q.1 == p then (p, true) else q) else s.replay.filter fun q => q.1 != p }
  match p.1 with
  | 0 => s.updGroup p.2 fun q => { q with parked := none }
  | 1 => s.updTeam p.2 fun q => { q with parked := none }
  | _ => s

/-- The PC a parked group stopped at. -/
def parkedPc (g : Group) : Nat := ((g.minKey g.issuable).getD 0) / 2 ^ 16

/-- A completion word that may not be written: its grid retires without it (R55). -/
def failDone (c n : Nat) (f : PFault) (s : State) : State :=
  finishGrid ((logRecord s (f.record (unitRecord c n f.code 2 2 3)) true).1.dropReplies (doneParty c n)) n

/-- A parked party ends as for an access that failed its rights check (R394, R415). -/
def failParked (q : Party × Nat × Nat) (s : State) : State :=
  let f : PFault := { code := 0x0204, kind := q.2.2, ptr := namePtr q.2.1, detail := q.2.2 }
  let p := q.1
  match p.1 with
  | 0 =>
    match Tbl.get? s.groups p.2 with
    | none => s
    | some g =>
      let w : Who := .group { g := p.2, x := g.issuable, act := g.issuable, pc := parkedPc g, next := 0 }
      portFailAs w { w.record s f.code 2 2 3 with iaddr := parkedPc g } f s
  | 1 =>
    match Tbl.get? s.teams p.2 with
    | none => s
    | some t => portFailAs (.wick p.2) { (Who.wick p.2).record s f.code 2 2 3 with iaddr := t.wpc } f s
  | 2 => failStream (p.2 / 8) (p.2 % 8) f s
  | 3 =>
    let core := p.2 / 64
    let e := p.2 % 64
    match Tbl.get? (s.core core).copies e with
    | none => s
    | some c =>
      -- its blocks in flight complete, and it gives one record (R373)
      let (s, seq) := if c.failed then (s, 0) else logRecord s (f.record (c.record core e s f.code 2 2 3)) true
      let flies (b : Nat) : Bool := (Tbl.get? c.part b).isSome || (s.txns.any fun t => t.2.party == p && t.2.tag / 2 == b) ||
        s.replies.any fun r => r.party == p && r.tag / 2 == b
      (stopCopy core e 3 seq s).updCopy core e fun c => { c with failed := true, flying := c.flying.filter flies }
  | 4 => if p.2 < 128 then (match (s.ctx p.2).taking with
      | some r => failTaken p.2 r f s
      | none => s)
    else failDone (p.2 % 128) (p.2 / 128 - 1) f s
  | 5 => (match (s.core p.2).path with
    | [] => s
    | r :: _ => portFailAs r.who { r.who.record s f.code 2 2 3 with engine := coreEngine p.2 2 0, iaddr := r.pc } f s)
  | _ => s

/-- R415: `tinv`; a name that is none of its scope raises BOUNDS as for `bufw` (log entry 18). -/
def execTinv (x : Args) (s : State) : Host.Outcome State Fault Refusal :=
  issueSup x [] (fun w s =>
    let name := (w.uni s x.a).toNat
    let scope := modBits x 4 2
    let act := modBits x 6 2
    if scopeBad scope name then .fault (nameCause w name)
    else if act = 0 then .done (invalidate scope name s)
    else
      let (ps, s) := freeFaults scope name (invalidate scope name s)
      let s := ps.foldl (fun s q => unparkParty (act == 1) q.1 s) s
      .done (if act = 2 then ps.foldl (fun s q => failParked q s) s else s)) s

/-! ### pmig (R416, R428) -/

/-- Whether an entry maps one page of 128 KiB. -/
def mapsPage (w : W64) : Bool := pmPresent w && !pmMalformed w && pmSize w == 0

/-- The key of an offset of the page an entry maps. -/
def frameKey (s : State) (e : BufEntry) (w : W64) (off : Nat) : Option Nat :=
  let a := pmFrame w * 2 ^ 17 + off
  if pmTier w then some (Space.host.key a) else deviceKey s e.cgroup e.stripe a

/-- Granules of a page moved as they lie, the ciphertext of an encrypted one (R428). -/
def moveGranules (e : BufEntry) (src dst : W64) : List Nat → State → PRes Unit
  | [], s => .ok () s
  | i :: is, s =>
    match frameKey s e src (32 * i), frameKey s e dst (32 * i) with
    | some k, some j =>
      (atHome k s (eccRead k 32 false s)).bind fun bs s =>
        (atHome j s (eccWrite j bs s)).bind fun _ s => moveGranules e src dst is s
    | _, _ => .fail { code := 0x0201 } s

/-- R416: `pmig`, performed whole. -/
def execPmig (x : Args) (s : State) : Host.Outcome State Fault Refusal :=
  let d := x.dst.toNat
  issueSup x [d] (fun w s =>
    let name := (w.uni s x.a).toNat
    let dst := w.uni s x.b
    let page := namePage name
    let e := bufEntry s (nameCtx name) (nameBuf name)
    let failed (f : PFault) (s : State) : GEff :=
      let r := ({ f with ptr := namePtr name } : PFault).record (w.record s f.code 2 2 3)
      .done (w.setNum d (BitVec.ofNat 64 (2 ^ 63 + 3)) (logRecord s r true).1)
    if nameBad name 31 then .fault (nameCause w name)
    else
      if !hasMap (nameCtx name) e then failed { code := 0x0201 } s
      else
        let moved : PRes Unit := (readMapEntry s e page).bind fun old s => (readMapping s e page).bind fun map s =>
          if map != old || !mapsPage old || !mapsPage dst then .fail { code := 0x0201 } s
          else (moveGranules e old dst (List.range 4096) s).bind fun _ s => writeMap e page dst s
        match moved with
        | .ok () s => .done (w.setNum d 0 (invalidate 0 name s))
        | .wait s' => .wait (rollback s s')
        | .fail f s' => failed f s') s

end Sys2Proof.Machine
end

