-- ==== Sys2Proof/Machine/Ready.lean ====
section
/-! DEFINITION. Whether the candidates of a group are ready or waiting (R77, R78). -/

namespace Sys2Proof.Machine

/-- The supervisor-only and lantern instructions by name. -/
def lateExec (o : Late) (x : Args) (s : State) : Host.Outcome State Fault Refusal :=
  match o with
  | .csave => execCsave x s
  | .crest => execCrest x s
  | .haltFreeze => execHaltFreeze x s
  | .haltResume => execHaltResume x s
  | .haltKill => execHaltKill x s
  | .bufw => execBufw x s
  | .mapw => execMapw x s
  | .tinv => execTinv x s
  | .pmig => execPmig x s
  | .sgat | .ssct | .sdct | .svoxIns | .svoxEmit | .soct | .sxfm | .sput | .sloop | .send => lanternExec o x s

/-- An instruction that a decoder answered, in group code. -/
def groupRead (r : Read) (s : State) : Host.Outcome State Fault Refusal :=
  match r with
  | .one (.instr i) => groupExec i s
  | .one (.late o x) => lateExec o x s
  | .pair a b => execPair64 a b s

/-! ### Ready and waiting (R78) -/

/-- Whether a group takes part in issue at all: its die is up, it is not parked, and its context runs, or holds off a
request (R24, R394, R398). -/
def mayIssueAlone (s : State) (g : Nat) (grp : Group) : Bool :=
  let c := s.ctxOfTeam grp.team
  (s.die (dieOfCore (coreOfGroup g))).up && grp.parked.isNone && !grp.debug && !standsBack s (0, g) &&
    (mayRun s c (0, g) || (ctxRuns s c && protected_ s g grp))

/-- The same, where the members of a JOINED pair stop together (R97). -/
def mayIssue (s : State) (g : Nat) (grp : Group) : Bool :=
  match (joinedPartner s grp).bind fun p => (Tbl.get? s.groups p).map fun q => (p, q) with
  | none => mayIssueAlone s g grp
  | some (p, q) =>
    (s.die (dieOfCore (coreOfGroup g))).up && grp.parked.isNone && !grp.debug && q.parked.isNone && !q.debug &&
      (mayIssueAlone s g grp || mayIssueAlone s p q)

/-- Whether the next instruction of candidate c would issue. -/
def candReady (s : State) (g : Nat) (grp : Group) (c : Nat) : Bool := issuesBy groupRead s g grp c

/-- The results that a group waits for in the manner of R78 come to it. -/
def Group.landLong (q : Group) : Group :=
  { (q.pending.filter fun p => p.2.long || p.2.demand).foldl (fun q p => q.land p.1) q with ktok := [] }

/-- A state in which every result that a group waits for in the manner of R78 has come, and those of its JOINED partner, without which
it does not issue (R100). -/
def landWaits (s : State) (g : Nat) (grp : Group) : State :=
  ((g :: (joinedPartner s grp).toList).foldl (fun s q => s.updGroup q Group.landLong) s).updTeam grp.team fun tm => { tm with stok := [] }

/-- The instructions whose own wait is a long-latency one (R276, R331, R349, R351, R352, R354). -/
def waitsItself (s : State) (cur : Cur) (grp : Group) : Bool :=
  let k := s.core (coreOfTeam grp.team)
  match decodeUnits .group true cur.u0 cur.u1 cur.u2 with
  | .ok (.one (.instr i)) =>
    (match i with
      | .dqpop _ | .rsort _ | .pair _ | .pjoin _ | .gdrain _ | .acq _ | .sigwait _ | .abwait _ | .tokwait _ | .mctxAcq _ | .splres _ |
        .lrun _ => true
      | .tld x | .tst x => modBits x 8 2 != 0
      | .lstat x => modBits x 4 1 = 1
      | .qpop x => let q := k.queue (numOf x.a); q.st == .opened && decide (q.entries.length ≤ modBits x 4 2)
      | .bcp _ | .bcpMc _ | .bcpV _ | .wsig _ => (freeCopy k).isNone
      | _ => false)
  | _ => false

/-- Whether candidate c is waiting: held only by a long-latency wait, or all its lanes are parked in joins or asleep. -/
def candWaits (s : State) (g : Nat) (grp : Group) (c : Nat) : Bool :=
  match fetchAt s g grp c with
  | none => true
  | some (cur, _, holes) =>
    holes.isEmpty && !candReady s g grp c &&
      (let t := landWaits s g grp
       match Tbl.get? t.groups g with
       | none => false
       | some q => candReady t g q c || waitsItself s cur grp)

/-- A group one of whose candidates is ready. -/
def groupReady (s : State) (g : Nat) : Bool :=
  match Tbl.get? s.groups g with
  | none => false
  | some grp => mayIssue s g grp && (List.range grp.subs.length).any fun c => candReady s g grp c

/-- A group all of whose candidates are waiting. -/
def groupWaits (s : State) (g : Nat) : Bool :=
  match Tbl.get? s.groups g with
  | none => false
  | some grp => (List.range grp.subs.length).all fun c => candWaits s g grp c

end Sys2Proof.Machine
end

