-- ==== Sys2Proof/Machine/Sched.lean ====
section
/-! DEFINITION. The events of a sub-core's scheduler: swaps of the active and the pending set, the yield of the progress
rule, the end of latch protection, and timers (R24, R77 to R81, R89, R91, R97, R104, R108, R109). An event that is not due
changes nothing. -/

namespace Sys2Proof.Machine

/-- A sub-core. -/
def State.sub (s : State) (c b : Nat) : SubCore :=
  (s.core c).subs.getD b { active := [], pending := [], last := none, bubble := 0 }

/-- The slot of a set that entered it first, among those that meet a test; ties go to the lowest slot. -/
def longest (t : Tbl Nat) (p : Nat → Bool) : Option Nat :=
  (t.foldl (fun (best : Option (Nat × Nat)) q =>
    if p q.1 then
      match best with
      | none => some q
      | some b => if q.2 < b.2 then some q else best
    else best) none).map (·.1)

/-- The group in a slot. -/
def groupNum (c b i : Nat) : Nat := c * 64 + b * 16 + i

/-- A group's move from the active to the pending set, where its latches become invalid (R23). -/
def moveOut (c b i : Nat) (s : State) : State :=
  (s.updSub c b fun q => { q with active := Tbl.erase q.active i, pending := Tbl.set q.pending i s.now }).updGroup
    (groupNum c b i) fun g => { g.loseLatches with protect := 0 }

/-- A group's move into the active set. -/
def moveIn (c b i : Nat) (s : State) : State :=
  s.updSub c b fun q => { q with pending := Tbl.erase q.pending i, active := Tbl.set q.active i s.now }

/-- One swap: a slot leaves, a slot comes in, and the sub-core issues nothing for three cycles (R80). -/
def exchange (c b : Nat) (out in_ : Option Nat) (s : State) : State :=
  let s := match out with
    | some o => moveOut c b o s
    | none => s
  let s := match in_ with
    | some i => moveIn c b i s
    | none => s
  s.updSub c b fun q => { q with bubble := s.now + 3 }

/-- The slot of the JOINED partner of the group in a slot, where a set of its sub-core holds it. -/
def partnerSlot (s : State) (c b i : Nat) (set : SubCore → Tbl Nat) : Option (Nat × Nat) :=
  match (Tbl.get? s.groups (groupNum c b i)).bind fun g => joinedPartner s g with
  | none => none
  | some p => if (Tbl.get? (set (s.sub c (subOfGroup p))) (slotOfGroup p)).isSome then some (subOfGroup p, slotOfGroup p) else none

/-- The oldest pending group of a sub-core that is ready. -/
def readyPending (s : State) (c b : Nat) (p : Nat → Nat → Bool) : Option Nat :=
  let q := s.sub c b
  longest q.pending fun i => p i (Tbl.get q.pending i 0) && groupReady s (groupNum c b i)

/-- Whether R24 keeps a group where it is. -/
def keptBy24 (s : State) (g : Nat) : Bool :=
  match Tbl.get? s.groups g with
  | none => false
  | some grp => protected_ s g grp && groupReady s g

/-- Whether the JOINED partner of the group in a slot, where it has one, lies in a set of its sub-core and meets a test. -/
def partnerMeets (s : State) (c b i : Nat) (set : SubCore → Tbl Nat) (p : Nat → Bool) : Bool :=
  match partnerSlot s c b i set with
  | none => true
  | some (b', j) => p (groupNum c b' j)

/-- Whether R24 lets a group leave the active set, with its partner. -/
def mayLeave (s : State) (c b i : Nat) : Bool :=
  !keptBy24 s (groupNum c b i) && partnerMeets s c b i (·.active) fun p => !keptBy24 s p

/-- Whether a group is a member of a JOINED pair. -/
def isJoined (s : State) (g : Nat) : Bool := ((Tbl.get? s.groups g).bind fun q => joinedPartner s q).isSome

/-- The group that leaves for a partner that must come in: a waiting one, else any that R24 lets leave. -/
def leaver (s : State) (c b : Nat) : Option Nat :=
  let q := s.sub c b
  match longest q.active fun i => groupWaits s (groupNum c b i) with
  | some o => some o
  | none => longest q.active fun i => mayLeave s c b i

/-- Whether an active place of a sub-core is free. -/
def placeFree (s : State) (c b : Nat) : Bool := decide ((s.sub c b).active.length < Config.activePlaces)

/-- The move of a partner that leaves a sub-core, where there is one; the place it frees is taken by a later swap. -/
def moveOutAt (c : Nat) (o : Option (Nat × Nat)) (s : State) : State :=
  match o with
  | none => s
  | some (b, i) => moveOut c b i s

/-- The group that takes the place a JOINED partner frees: the oldest ready pending one. Where that is itself JOINED, its partner finds
no place in the sub-core that swaps now, and the two come in together by a later swap (R80; log entry 49). -/
def successor (s : State) (c b o : Nat) : Option Nat :=
  (readyPending s c b fun i _ => i != o).filter fun i => !isJoined s (groupNum c b i)

/-- A swap with the moves of JOINED partners in their own sub-core (R80). It is not made while the partner's sub-core stands in
the bubble of a swap, or where a partner that must come in finds no place. -/
def swapPairs (c b : Nat) (out in_ : Option Nat) (s : State) : State :=
  let po := out.bind fun o => partnerSlot s c b o (·.active)
  let pi := in_.bind fun i => partnerSlot s c b i (·.pending)
  let t := exchange c b out in_ s
  match po, pi with
  | none, none => t
  | some (b', o), none =>
    if s.now < (s.sub c b').bubble then s
    else exchange c b' (some o) (successor s c b' o) t
  | some (b', o), some (_, i) => if s.now < (s.sub c b').bubble then s else exchange c b' (some o) (some i) t
  | none, some (b', i) =>
    if s.now < (s.sub c b').bubble then s
    else if placeFree s c b' then exchange c b' none (some i) t
    else
      match leaver s c b' with
      | none => s
      | some o => exchange c b' (some o) (some i) (moveOutAt c (partnerSlot s c b' o (·.active)) t)

/-- Whether a pending group has been ready for long (R81). -/
def agedPending (s : State) (c b : Nat) : Option Nat := readyPending s c b fun _ t => decide (t + 2048 < s.now)

/-- R80: a ready pending group takes a free place, or that of the waiting group that has been active longest; an aged
swap that is due comes first. -/
def execSwap (core sub : Nat) (s : State) : Host.Outcome State Fault Refusal :=
  let q := s.sub core sub
  if s.now < q.bubble || (agedPending s core sub).isSome then .next s
  else
    match readyPending s core sub fun _ _ => true with
    | none => .next s
    | some i =>
      if q.active.length < Config.activePlaces then .next (swapPairs core sub none (some i) s)
      else
        match longest q.active fun o => groupWaits s (groupNum core sub o) with
        | none => .next s
        | some o => .next (swapPairs core sub (some o) (some i) s)

/-- R81: the oldest pending group ready for more than 2,048 cycles takes the place of the group that has been active
longest and that R24 does not keep. -/
def execAgedSwap (core sub : Nat) (s : State) : Host.Outcome State Fault Refusal :=
  let q := s.sub core sub
  if s.now < q.bubble then .next s
  else
    match agedPending s core sub with
    | none => .next s
    | some i =>
      if q.active.length < Config.activePlaces then .next (swapPairs core sub none (some i) s)
      else
        match longest q.active fun o => mayLeave s core sub o with
        | none => .next s
        | some o => .next (swapPairs core sub (some o) (some i) s)

/-- A candidate yields by the count (R91, R92). -/
def countYield (g : Group) (c : Nat) : Group :=
  match g.subs[c]? with
  | none => g
  | some k =>
    if k.back < 32 then g
    else
      match lowest (g.issueSet k) with
      | none => g
      | some l => { yieldFrom g c (g.lane l).pc.toNat with spin := true }

/-- R91: a candidate whose backward-branch count has reached 32 yields. -/
def execProgressYield (grp cand : Nat) (s : State) : Host.Outcome State Fault Refusal :=
  .next (s.updGroup grp fun g => countYield g cand)

/-- R24: after 64 latch-reading instructions in a row, the group that issued last is protected no longer. -/
def execLatchProtectionEnd (core sub : Nat) (s : State) : Host.Outcome State Fault Refusal :=
  match (s.sub core sub).last with
  | none => .next s
  | some i => .next (s.updGroup (groupNum core sub i) fun g => if 64 < g.protect then { g with protect := 0 } else g)

/-- Whether the timers of a group count (R97). -/
def timersRun (s : State) (grp : Group) : Bool := ctxRuns s (s.ctxOfTeam grp.team)

/-- R89: a join record times out. -/
def execJoinTimeout (grp rec : Nat) (s : State) : Host.Outcome State Fault Refusal :=
  match Tbl.get? s.groups grp with
  | none => .next s
  | some g =>
    match g.joins[rec]? with
    | none => .next s
    | some r =>
      if timersRun s g then
        .next (s.updGroup grp fun g => g.retidy (expireJoins s.now (fun due now => due == r.start + r.kt && decide (due < now)) g))
      else .next s

/-- R108, R109, R264: a wait of `pair`, `pjoin` or `gdrain` reaches its bound. -/
def execPairtimeout (grp : Nat) (s : State) : Host.Outcome State Fault Refusal :=
  match Tbl.get? s.groups grp with
  | none => .next s
  | some g =>
    match g.wait, fetchAt s grp g g.lastSub with
    | some w, some (cur, _, _) =>
      let bounded := match w.kind with
        | .pair _ | .pjoin | .gdrain => true
        | _ => false
      if bounded && w.over s.now && cur.pc == w.pc && timersRun s g && g.parked.isNone then
        .next (deliver grp cur.lanes (Cause.pairTimeout false) { s with cur := cur })
      else .next s
    | _, _ => .next s

/-- A sleeping lane whose time has passed. -/
def wakeLane (now : Nat) (a : Lane) : Lane := if a.st == .asleep && decide (a.wake ≤ now) then { a with st := .run } else a

/-- R104: sleeping lanes whose time has passed return to RUN; those that a handler has frozen stay as they are. -/
def execSleepExpire (grp : Nat) (s : State) : Host.Outcome State Fault Refusal :=
  match Tbl.get? s.groups grp with
  | none => .next s
  | some g =>
    if timersRun s g then
      let free : Mask := match g.trap with
        | none => BitVec.allOnes 32
        | some t => t.x
      .next (s.updGroup grp fun g =>
        g.retidy { g with lanes := mapLanes g.lanes free fun _ a => wakeLane s.now a })
    else .next s

end Sys2Proof.Machine
end

