-- ==== Sys2Proof/Machine/Dispatch.lean ====
section
/-! DEFINITION. The meaning of every instruction and event: one direct call for each constructor. -/

namespace Sys2Proof.Machine

/-- What an instruction does to a state. -/
def exec (i : Instr) (s : State) : Host.Outcome State Fault Refusal :=
  match i with
  | .nop x => Sys2Proof.Machine.execNop x s
  | .nopC32 x => Sys2Proof.Machine.execNopC32 x s
  | .br x => Sys2Proof.Machine.execBr x s
  | .brx x => Sys2Proof.Machine.execBrx x s
  | .jmp x => Sys2Proof.Machine.execJmp x s
  | .call x => Sys2Proof.Machine.execCall x s
  | .ret x => Sys2Proof.Machine.execRet x s
  | .exit x => Sys2Proof.Machine.execExit x s
  | .join x => Sys2Proof.Machine.execJoin x s
  | .fuse x => Sys2Proof.Machine.execFuse x s
  | .yield x => Sys2Proof.Machine.execYield x s
  | .sleep x => Sys2Proof.Machine.execSleep x s
  | .loopStrict x => Sys2Proof.Machine.execLoopStrict x s
  | .lend x => Sys2Proof.Machine.execLend x s
  | .dqpop x => Sys2Proof.Machine.execDqpop x s
  | .rsort x => Sys2Proof.Machine.execRsort x s
  | .pair x => Sys2Proof.Machine.execPairBind x s
  | .pjoin x => Sys2Proof.Machine.execPjoin x s
  | .unpair x => Sys2Proof.Machine.execUnpair x s
  | .rdpcv x => Sys2Proof.Machine.execRdpcv x s
  | .rdid x => Sys2Proof.Machine.execRdid x s
  | .kstat x => Sys2Proof.Machine.execKstat x s
  | .sadd x => Sys2Proof.Machine.execSadd x s
  | .ssub x => Sys2Proof.Machine.execSsub x s
  | .smul x => Sys2Proof.Machine.execSmul x s
  | .smulh x => Sys2Proof.Machine.execSmulh x s
  | .sdiv x => Sys2Proof.Machine.execSdiv x s
  | .srem x => Sys2Proof.Machine.execSrem x s
  | .sand x => Sys2Proof.Machine.execSand x s
  | .sor x => Sys2Proof.Machine.execSor x s
  | .sxor x => Sys2Proof.Machine.execSxor x s
  | .sshl x => Sys2Proof.Machine.execSshl x s
  | .sshr x => Sys2Proof.Machine.execSshr x s
  | .ssra x => Sys2Proof.Machine.execSsra x s
  | .smin x => Sys2Proof.Machine.execSmin x s
  | .smax x => Sys2Proof.Machine.execSmax x s
  | .scmp x => Sys2Proof.Machine.execScmp x s
  | .ssel x => Sys2Proof.Machine.execSsel x s
  | .smov x => Sys2Proof.Machine.execSmov x s
  | .sli x => Sys2Proof.Machine.execSli x s
  | .sld x => Sys2Proof.Machine.execSld x s
  | .sst x => Sys2Proof.Machine.execSst x s
  | .sbr x => Sys2Proof.Machine.execSbr x s
  | .sjmp x => Sys2Proof.Machine.execSjmp x s
  | .scall x => Sys2Proof.Machine.execScall x s
  | .sret x => Sys2Proof.Machine.execSret x s
  | .dqpush x => Sys2Proof.Machine.execDqpush x s
  | .glaunch x => Sys2Proof.Machine.execGlaunch x s
  | .gwait x => Sys2Proof.Machine.execGwait x s
  | .tbar => Sys2Proof.Machine.execTbar s
  | .hld x => Sys2Proof.Machine.execHld x s
  | .sclk x => Sys2Proof.Machine.execSclk x s
  | .sgrid x => Sys2Proof.Machine.execSgrid x s
  | .wend => Sys2Proof.Machine.execWend s
  | .iadd x => Sys2Proof.Machine.execIadd x s
  | .iaddC32 x => Sys2Proof.Machine.execIaddC32 x s
  | .isub x => Sys2Proof.Machine.execIsub x s
  | .isubC32 x => Sys2Proof.Machine.execIsubC32 x s
  | .imul x => Sys2Proof.Machine.execImul x s
  | .imulC32 x => Sys2Proof.Machine.execImulC32 x s
  | .imulh x => Sys2Proof.Machine.execImulh x s
  | .imulhC32 x => Sys2Proof.Machine.execImulhC32 x s
  | .imad x => Sys2Proof.Machine.execImad x s
  | .imadC x => Sys2Proof.Machine.execImadC x s
  | .iabs x => Sys2Proof.Machine.execIabs x s
  | .iabsC32 x => Sys2Proof.Machine.execIabsC32 x s
  | .imin x => Sys2Proof.Machine.execImin x s
  | .iminC32 x => Sys2Proof.Machine.execIminC32 x s
  | .imax x => Sys2Proof.Machine.execImax x s
  | .imaxC32 x => Sys2Proof.Machine.execImaxC32 x s
  | .and x => Sys2Proof.Machine.execAnd x s
  | .andC32 x => Sys2Proof.Machine.execAndC32 x s
  | .or x => Sys2Proof.Machine.execOr x s
  | .orC32 x => Sys2Proof.Machine.execOrC32 x s
  | .xor x => Sys2Proof.Machine.execXor x s
  | .xorC32 x => Sys2Proof.Machine.execXorC32 x s
  | .not x => Sys2Proof.Machine.execNot x s
  | .notC32 x => Sys2Proof.Machine.execNotC32 x s
  | .shl x => Sys2Proof.Machine.execShl x s
  | .shlC32 x => Sys2Proof.Machine.execShlC32 x s
  | .shr x => Sys2Proof.Machine.execShr x s
  | .shrC32 x => Sys2Proof.Machine.execShrC32 x s
  | .sra x => Sys2Proof.Machine.execSra x s
  | .sraC32 x => Sys2Proof.Machine.execSraC32 x s
  | .rol x => Sys2Proof.Machine.execRol x s
  | .rolC32 x => Sys2Proof.Machine.execRolC32 x s
  | .popc x => Sys2Proof.Machine.execPopc x s
  | .popcC32 x => Sys2Proof.Machine.execPopcC32 x s
  | .clz x => Sys2Proof.Machine.execClz x s
  | .clzC32 x => Sys2Proof.Machine.execClzC32 x s
  | .icmp x => Sys2Proof.Machine.execIcmp x s
  | .sel x => Sys2Proof.Machine.execSel x s
  | .fadd x => Sys2Proof.Machine.execFadd x s
  | .faddC32 x => Sys2Proof.Machine.execFaddC32 x s
  | .fsub x => Sys2Proof.Machine.execFsub x s
  | .fsubC32 x => Sys2Proof.Machine.execFsubC32 x s
  | .fmul x => Sys2Proof.Machine.execFmul x s
  | .fmulC32 x => Sys2Proof.Machine.execFmulC32 x s
  | .ffma x => Sys2Proof.Machine.execFfma x s
  | .ffmaC x => Sys2Proof.Machine.execFfmaC x s
  | .fmin x => Sys2Proof.Machine.execFmin x s
  | .fminC32 x => Sys2Proof.Machine.execFminC32 x s
  | .fmax x => Sys2Proof.Machine.execFmax x s
  | .fmaxC32 x => Sys2Proof.Machine.execFmaxC32 x s
  | .fabs x => Sys2Proof.Machine.execFabs x s
  | .fabsC32 x => Sys2Proof.Machine.execFabsC32 x s
  | .fneg x => Sys2Proof.Machine.execFneg x s
  | .fnegC32 x => Sys2Proof.Machine.execFnegC32 x s
  | .frcp x => Sys2Proof.Machine.execFrcp x s
  | .frcpC32 x => Sys2Proof.Machine.execFrcpC32 x s
  | .frsq x => Sys2Proof.Machine.execFrsq x s
  | .frsqC32 x => Sys2Proof.Machine.execFrsqC32 x s
  | .fsqrt x => Sys2Proof.Machine.execFsqrt x s
  | .fsqrtC32 x => Sys2Proof.Machine.execFsqrtC32 x s
  | .fexp2 x => Sys2Proof.Machine.execFexp2 x s
  | .fexp2C32 x => Sys2Proof.Machine.execFexp2C32 x s
  | .flog2 x => Sys2Proof.Machine.execFlog2 x s
  | .flog2C32 x => Sys2Proof.Machine.execFlog2C32 x s
  | .fcmp x => Sys2Proof.Machine.execFcmp x s
  | .fclass x => Sys2Proof.Machine.execFclass x s
  | .mov x => Sys2Proof.Machine.execMov x s
  | .movC32 x => Sys2Proof.Machine.execMovC32 x s
  | .vbc x => Sys2Proof.Machine.execVbc x s
  | .vli x => Sys2Proof.Machine.execVli x s
  | .rcoal x => Sys2Proof.Machine.execRcoal x s
  | .rcoalC32 x => Sys2Proof.Machine.execRcoalC32 x s
  | .rstat x => Sys2Proof.Machine.execRstat x s
  | .shfl x => Sys2Proof.Machine.execShfl x s
  | .shflx x => Sys2Proof.Machine.execShflx x s
  | .vote x => Sys2Proof.Machine.execVote x s
  | .pand x => Sys2Proof.Machine.execPand x s
  | .por x => Sys2Proof.Machine.execPor x s
  | .pxor x => Sys2Proof.Machine.execPxor x s
  | .pnot x => Sys2Proof.Machine.execPnot x s
  | .pmov x => Sys2Proof.Machine.execPmov x s
  | .pcnt x => Sys2Proof.Machine.execPcnt x s
  | .pfirst x => Sys2Proof.Machine.execPfirst x s
  | .redF x => Sys2Proof.Machine.execRedF x s
  | .redI x => Sys2Proof.Machine.execRedI x s
  | .scanF x => Sys2Proof.Machine.execScanF x s
  | .scanI x => Sys2Proof.Machine.execScanI x s
  | .vcomp x => Sys2Proof.Machine.execVcomp x s
  | .vexp x => Sys2Proof.Machine.execVexp x s
  | .lid x => Sys2Proof.Machine.execLid x s
  | .cvtFf x => Sys2Proof.Machine.execCvtFf x s
  | .cvtFi x => Sys2Proof.Machine.execCvtFi x s
  | .cvtFiC32 x => Sys2Proof.Machine.execCvtFiC32 x s
  | .cvtIf x => Sys2Proof.Machine.execCvtIf x s
  | .cvtIfC32 x => Sys2Proof.Machine.execCvtIfC32 x s
  | .fround x => Sys2Proof.Machine.execFround x s
  | .rint x => Sys2Proof.Machine.execRint x s
  | .qscale x => Sys2Proof.Machine.execQscale x s
  | .pack4 x => Sys2Proof.Machine.execPack4 x s
  | .unpack4 x => Sys2Proof.Machine.execUnpack4 x s
  | .dmask x => Sys2Proof.Machine.execDmask x s
  | .rngx x => Sys2Proof.Machine.execRngx x s
  | .rngxSeed x => Sys2Proof.Machine.execRngxSeed x s
  | .rngxSt x => Sys2Proof.Machine.execRngxSt x s
  | .pk16 x => Sys2Proof.Machine.execPk16 x s
  | .pk8 x => Sys2Proof.Machine.execPk8 x s
  | .xt16 x => Sys2Proof.Machine.execXt16 x s
  | .xt8 x => Sys2Proof.Machine.execXt8 x s
  | .ld x => Sys2Proof.Machine.execLd x s
  | .st x => Sys2Proof.Machine.execSt x s
  | .ldk x => Sys2Proof.Machine.execLdk x s
  | .stk x => Sys2Proof.Machine.execStk x s
  | .ldW x => Sys2Proof.Machine.execLdW x s
  | .stW x => Sys2Proof.Machine.execStW x s
  | .spush x => Sys2Proof.Machine.execSpush x s
  | .spop x => Sys2Proof.Machine.execSpop x s
  | .atomAdd x => Sys2Proof.Machine.execAtomAdd x s
  | .atomMin x => Sys2Proof.Machine.execAtomMin x s
  | .atomMax x => Sys2Proof.Machine.execAtomMax x s
  | .atomAnd x => Sys2Proof.Machine.execAtomAnd x s
  | .atomOr x => Sys2Proof.Machine.execAtomOr x s
  | .atomXor x => Sys2Proof.Machine.execAtomXor x s
  | .atomExch x => Sys2Proof.Machine.execAtomExch x s
  | .atomcas x => Sys2Proof.Machine.execAtomcas x s
  | .atomFAdd x => Sys2Proof.Machine.execAtomFAdd x s
  | .atomFMin x => Sys2Proof.Machine.execAtomFMin x s
  | .atomFMax x => Sys2Proof.Machine.execAtomFMax x s
  | .amaxF32 x => Sys2Proof.Machine.execAmaxF32 x s
  | .amaxr x => Sys2Proof.Machine.execAmaxr x s
  | .ldAcq x => Sys2Proof.Machine.execLdAcq x s
  | .stRel x => Sys2Proof.Machine.execStRel x s
  | .acq x => Sys2Proof.Machine.execAcq x s
  | .rel x => Sys2Proof.Machine.execRel x s
  | .fence x => Sys2Proof.Machine.execFence x s
  | .bind x => Sys2Proof.Machine.execBind x s
  | .unbind x => Sys2Proof.Machine.execUnbind x s
  | .sigwait x => Sys2Proof.Machine.execSigwait x s
  | .sigset x => Sys2Proof.Machine.execSigset x s
  | .mwl x => Sys2Proof.Machine.execMwl x s
  | .mwswap x => Sys2Proof.Machine.execMwswap x s
  | .mma x => Sys2Proof.Machine.execMma x s
  | .mmaG x => Sys2Proof.Machine.execMmaG x s
  | .mmaV x => Sys2Proof.Machine.execMmaV x s
  | .mdrain x => Sys2Proof.Machine.execMdrain x s
  | .gdrain x => Sys2Proof.Machine.execGdrain x s
  | .mzero x => Sys2Proof.Machine.execMzero x s
  | .mctxAcq x => Sys2Proof.Machine.execMctxAcq x s
  | .mctxTry x => Sys2Proof.Machine.execMctxTry x s
  | .mctxRel x => Sys2Proof.Machine.execMctxRel x s
  | .mfmt x => Sys2Proof.Machine.execMfmt x s
  | .tld x => Sys2Proof.Machine.execTld x s
  | .tst x => Sys2Proof.Machine.execTst x s
  | .tmov x => Sys2Proof.Machine.execTmov x s
  | .hst x => Sys2Proof.Machine.execHst x s
  | .hinfo x => Sys2Proof.Machine.execHinfo x s
  | .cld x => Sys2Proof.Machine.execCld x s
  | .cldi x => Sys2Proof.Machine.execCldi x s
  | .spl x => Sys2Proof.Machine.execSpl x s
  | .splX x => Sys2Proof.Machine.execSplX x s
  | .splres x => Sys2Proof.Machine.execSplres x s
  | .cfind x => Sys2Proof.Machine.execCfind x s
  | .cins x => Sys2Proof.Machine.execCins x s
  | .lrun x => Sys2Proof.Machine.execLrun x s
  | .lstop x => Sys2Proof.Machine.execLstop x s
  | .lstat x => Sys2Proof.Machine.execLstat x s
  | .qpop x => Sys2Proof.Machine.execQpop x s
  | .qpeek x => Sys2Proof.Machine.execQpeek x s
  | .qpush x => Sys2Proof.Machine.execQpush x s
  | .bcp x => Sys2Proof.Machine.execBcp x s
  | .bcpMc x => Sys2Proof.Machine.execBcpMc x s
  | .bcpV x => Sys2Proof.Machine.execBcpV x s
  | .wsig x => Sys2Proof.Machine.execWsig x s
  | .abinit x => Sys2Proof.Machine.execAbinit x s
  | .abwait x => Sys2Proof.Machine.execAbwait x s
  | .abarr x => Sys2Proof.Machine.execAbarr x s
  | .tokwait x => Sys2Proof.Machine.execTokwait x s
  | .bcancel x => Sys2Proof.Machine.execBcancel x s
  | .bpf x => Sys2Proof.Machine.execBpf x s
  | .trap x => Sys2Proof.Machine.execTrap x s
  | .brk x => Sys2Proof.Machine.execBrk x s
  | .eret x => Sys2Proof.Machine.execEret x s
  | .mfsr x => Sys2Proof.Machine.execMfsr x s
  | .mtsr x => Sys2Proof.Machine.execMtsr x s
  | .preack x => Sys2Proof.Machine.execPreack x s
  | .errw x => Sys2Proof.Machine.execErrw x s
  | .sgat x => Sys2Proof.Machine.execSgat x s
  | .ssct x => Sys2Proof.Machine.execSsct x s
  | .sdct x => Sys2Proof.Machine.execSdct x s
  | .svoxIns x => Sys2Proof.Machine.execSvoxIns x s
  | .svoxEmit x => Sys2Proof.Machine.execSvoxEmit x s
  | .soct x => Sys2Proof.Machine.execSoct x s
  | .sxfm x => Sys2Proof.Machine.execSxfm x s
  | .sput x => Sys2Proof.Machine.execSput x s
  | .sloop x => Sys2Proof.Machine.execSloop x s
  | .send x => Sys2Proof.Machine.execSend x s
  | .csave x => Sys2Proof.Machine.execCsave x s
  | .crest x => Sys2Proof.Machine.execCrest x s
  | .haltFreeze x => Sys2Proof.Machine.execHaltFreeze x s
  | .haltResume x => Sys2Proof.Machine.execHaltResume x s
  | .haltKill x => Sys2Proof.Machine.execHaltKill x s
  | .bufw x => Sys2Proof.Machine.execBufw x s
  | .mapw x => Sys2Proof.Machine.execMapw x s
  | .tinv x => Sys2Proof.Machine.execTinv x s
  | .pmig x => Sys2Proof.Machine.execPmig x s
  | .loadResultLand grp id => Sys2Proof.Machine.execLoadResultLand grp id s
  | .spillPageFill grp page => Sys2Proof.Machine.execSpillPageFill grp page s
  | .atomicResultLand grp id => Sys2Proof.Machine.execAtomicResultLand grp id s
  | .matrixPassStart core mctx rows => Sys2Proof.Machine.execMatrixPassStart core mctx rows s
  | .mwlComplete core mctx => Sys2Proof.Machine.execMwlComplete core mctx s
  | .contextFree core mctx => Sys2Proof.Machine.execContextFree core mctx s
  | .tileMoveComplete core op => Sys2Proof.Machine.execTileMoveComplete core op s
  | .coordResultLand grp id => Sys2Proof.Machine.execCoordResultLand grp id s
  | .splresComplete core op => Sys2Proof.Machine.execSplresComplete core op s
  | .streamElement core slot => Sys2Proof.Machine.execStreamElement core slot s
  | .copyStart core copy => Sys2Proof.Machine.execCopyStart core copy s
  | .copyBlock core copy block => Sys2Proof.Machine.execCopyBlock core copy block s
  | .copyComplete core copy => Sys2Proof.Machine.execCopyComplete core copy s
  | .wsigSignal core copy => Sys2Proof.Machine.execWsigSignal core copy s
  | .swap core sub => Sys2Proof.Machine.execSwap core sub s
  | .agedSwap core sub => Sys2Proof.Machine.execAgedSwap core sub s
  | .progressYield grp cand => Sys2Proof.Machine.execProgressYield grp cand s
  | .latchProtectionEnd core sub => Sys2Proof.Machine.execLatchProtectionEnd core sub s
  | .joinTimeout grp rec => Sys2Proof.Machine.execJoinTimeout grp rec s
  | .pairtimeout grp => Sys2Proof.Machine.execPairtimeout grp s
  | .sleepExpire grp => Sys2Proof.Machine.execSleepExpire grp s
  | .groupSlotFree grp => Sys2Proof.Machine.execGroupSlotFree grp s
  | .teamEnd team => Sys2Proof.Machine.execTeamEnd team s
  | .gridRetire grid => Sys2Proof.Machine.execGridRetire grid s
  | .launchRecordTake ctx => Sys2Proof.Machine.execLaunchRecordTake ctx s
  | .gridStart grid => Sys2Proof.Machine.execGridStart grid s
  | .dispatcherRangeDraw grid die => Sys2Proof.Machine.execDispatcherRangeDraw grid die s
  | .teamPlace grid die quad cluster => Sys2Proof.Machine.execTeamPlace grid die quad cluster s
  | .coopGridPlace grid => Sys2Proof.Machine.execCoopGridPlace grid s
  | .memoryPortAccess r => Sys2Proof.Machine.execMemoryPortAccess r s
  | .hostMemRead h n => Sys2Proof.Machine.execHostMemRead h n s
  | .hostMemWrite h data => Sys2Proof.Machine.execHostMemWrite h data s
  | .snoop line => Sys2Proof.Machine.execSnoop line s
  | .registerWrite r v => Sys2Proof.Machine.execRegisterWrite r v s
  | .flitReceive port flit => Sys2Proof.Machine.execFlitReceive port flit s
  | .linkdown port => Sys2Proof.Machine.execLinkdown port s
  | .laneFailure port => Sys2Proof.Machine.execLaneFailure port s
  | .remoteRead p => Sys2Proof.Machine.execRemoteRead p s
  | .readData p => Sys2Proof.Machine.execReadData p s
  | .remoteWrite p => Sys2Proof.Machine.execRemoteWrite p s
  | .writeDone p => Sys2Proof.Machine.execWriteDone p s
  | .remoteAtomic p => Sys2Proof.Machine.execRemoteAtomic p s
  | .atomicResult p => Sys2Proof.Machine.execAtomicResult p s
  | .signal p => Sys2Proof.Machine.execSignal p s
  | .errorPacket p => Sys2Proof.Machine.execErrorPacket p s
  | .remoteTimeout txid => Sys2Proof.Machine.execRemoteTimeout txid s
  | .dielost die => Sys2Proof.Machine.execDielost die s
  | .resetdie die => Sys2Proof.Machine.execResetdie die s
  | .poweron => Sys2Proof.Machine.execPoweron s
  | .stageS0 lanes => Sys2Proof.Machine.execStageS0 lanes s
  | .stageS1 failed => Sys2Proof.Machine.execStageS1 failed s
  | .stageS2 r => Sys2Proof.Machine.execStageS2 r s
  | .stageS3 f => Sys2Proof.Machine.execStageS3 f s
  | .hostreset => Sys2Proof.Machine.execHostreset s
  | .flr => Sys2Proof.Machine.execFlr s
  | .watchdog => Sys2Proof.Machine.execWatchdog s
  | .sensorSample die sensor reading => Sys2Proof.Machine.execSensorSample die sensor reading s
  | .clockStep die => Sys2Proof.Machine.execClockStep die s
  | .alarmSource src => Sys2Proof.Machine.execAlarmSource src s
  | .firmwareRemeasure => Sys2Proof.Machine.execFirmwareRemeasure s
  | .getstat => Sys2Proof.Machine.execGetstat s
  | .getlog start count => Sys2Proof.Machine.execGetlog start count s
  | .getbootlog => Sys2Proof.Machine.execGetbootlog s
  | .fwupdate off data final commit => Sys2Proof.Machine.execFwupdate off data final commit s
  | .reset => Sys2Proof.Machine.execReset s
  | .ctxcreate ctx nslot dframe stripe cgroup => Sys2Proof.Machine.execCtxcreate ctx nslot dframe stripe cgroup s
  | .ctxdestroy ctx => Sys2Proof.Machine.execCtxdestroy ctx s
  | .attest nonce => Sys2Proof.Machine.execAttest nonce s
  | .setthresh die sensor warn throttle => Sys2Proof.Machine.execSetthresh die sensor warn throttle s
  | .setalarm v => Sys2Proof.Machine.execSetalarm v s
  | .retire stack chan => Sys2Proof.Machine.execRetire stack chan s
  | .resumeall => Sys2Proof.Machine.execResumeall s
  | .powerLoss => Sys2Proof.Machine.execPowerLoss s
  | .debuggerResume grp => Sys2Proof.Machine.execDebuggerResume grp s
  | .retrainComplete port lanes => Sys2Proof.Machine.execRetrainComplete port lanes s
  | .dieReturnTimeout die => Sys2Proof.Machine.execDieReturnTimeout die s

end Sys2Proof.Machine
end

