-- ==== Sys2Proof/Machine/Issue.lean ====
section
/-! DEFINITION. Issue: the candidate a sub-core selects in a cycle, the Wick context a core selects, the reading of code
lines that could not be read at launch, and the running of what is fetched (R42, R79, R84, R91, R100, R387). -/

namespace Sys2Proof.Machine

/-- A decoded instruction run by `exec`, or by the meanings `exec` calls for the late constructors and for a P64. -/
def runRead (r : Read) (s : State) : Host.Outcome State Fault Refusal :=
  match r with
  | .one (.instr i) => exec i s
  | .one (.late o x) => lateExec o x s
  | .pair a b => execPair64 a b s

/-- What an attempt to issue came to. -/
inductive Tried where
  /-- An instruction was issued, or its issue stops the machine. -/
  | issued (o : Host.Outcome State Fault Refusal)
  /-- It has to wait; what the wait itself records is kept. -/
  | passed (s : State)

/-- The outcome of an issue: one that waits is passed over. -/
def Tried.of (o : Host.Outcome State Fault Refusal) : Tried :=
  match o with
  | .next t => if t.cur.stalled then .passed t else .issued (.next t)
  | o => .issued o

/-- The attempts made in order until one issues. -/
def tryAll {α : Type} (f : State → α → Tried) : List α → State → Host.Outcome State Fault Refusal
  | [], s => .next s
  | a :: t, s =>
    match f s a with
    | .issued o => o
    | .passed s => tryAll f t s

/-- The elements of a list from the i-th on, then those before it. -/
def rotate {α : Type} (l : List α) (i : Nat) : List α := l.drop (i % (l.length + 1)) ++ l.take (i % (l.length + 1))

/-! ### Groups (R79) -/

/-- Whether R24 holds a sub-core for a group other than g. -/
def heldForOther (s : State) (c b g : Nat) : Bool :=
  match (s.sub c b).last with
  | none => false
  | some i => groupNum c b i != g && keptBy24 s (groupNum c b i)

/-- Whether the partner of a JOINED member lets it issue: both are active, the partner's sub-core is past its bubble, and
R24 holds neither sub-core for another group (R100). -/
def pairFree (s : State) (g : Nat) (grp : Group) : Bool :=
  match joinedPartner s grp with
  | none => true
  | some p =>
    let q := s.sub (coreOfGroup p) (subOfGroup p)
    (Tbl.get? q.active (slotOfGroup p)).isSome && decide (q.bubble ≤ s.now) &&
      !heldForOther s (coreOfGroup p) (subOfGroup p) p && !heldForOther s (coreOfGroup g) (subOfGroup g) g

/-- The yields that the backward-branch count asks for before a candidate issues (R91). -/
def countYields (s : State) (g c : Nat) : State :=
  let t := s.updGroup g fun q => countYield q c
  match (Tbl.get? s.groups g).bind fun q => joinedPartner s q with
  | none => t
  | some p => t.updGroup p fun q => countYield q 0

/-- An attempt to issue the instruction that a candidate has fetched. -/
def tryFetched (s : State) (g c : Nat) : Tried :=
  match Tbl.get? s.groups g with
  | none => .passed s
  | some grp =>
    match fetchAt s g grp c with
    | some (cur, ok, []) => Tried.of (runFetched runRead ok { s with cur := cur })
    | _ => .passed s

/-- An attempt to issue candidate c of group g. -/
def tryCand (s : State) (p : Nat × Nat) : Tried :=
  let s := countYields s p.1 p.2
  match Tbl.get? s.groups p.1 with
  | none => .passed s
  | some grp =>
    if !(mayIssue s p.1 grp && pairFree s p.1 grp) then .passed s
    else
      let s := ((joinedPartner s grp).toList.map fun q => ((0, q) : Party)).foldl State.replayed (s.replayed (0, p.1))
      match fetchAt s p.1 grp p.2 with
      | none => .passed s
      | some (_, _, []) => tryFetched s p.1 p.2
      | some (cur, _, holes) =>
        match readFor p.1 grp cur holes s with
        | .ok s => tryFetched s p.1 p.2
        | .error s => .passed s

/-- The candidates of a group, from the one after that which issued last. -/
def candsOf (s : State) (g : Nat) : List (Nat × Nat) :=
  match Tbl.get? s.groups g with
  | none => []
  | some grp => (rotate (List.range grp.subs.length) (grp.lastSub + 1)).map fun c => (g, c)

/-- The candidates of a sub-core in the order R79 and R100 give: the protected one that issued last, JOINED pairs, the
others. -/
def issueOrder (s : State) (c b : Nat) : List (Nat × Nat) :=
  let q := s.sub c b
  let start := match q.last with
    | some i => i + 1
    | none => 0
  let slots := (rotate (List.range Config.slots) start).filter fun i => (Tbl.get? q.active i).isSome
  let order := slots.flatMap fun i => candsOf s (groupNum c b i)
  let joined (p : Nat × Nat) : Bool := ((Tbl.get? s.groups p.1).bind fun q => joinedPartner s q).isSome
  let held := match q.last with
    | none => []
    | some i => match Tbl.get? s.groups (groupNum c b i) with
      | none => []
      | some grp => if (Tbl.get? q.active i).isSome && protected_ s (groupNum c b i) grp then [(groupNum c b i, grp.lastSub)] else []
  held ++ order.filter joined ++ order.filter fun p => !joined p

/-- A cycle of a sub-core (R79): the first candidate that is ready issues; in the bubble of a swap none does (R80). -/
def issueSub (c b : Nat) (s : State) : Host.Outcome State Fault Refusal :=
  if s.now < (s.sub c b).bubble then .next s else tryAll tryCand (issueOrder s c b) s

/-! ### The Wick (R42) -/

/-- Whether a Wick context takes part in issue. -/
def wickMay (s : State) (t : Nat) (tm : Team) : Bool :=
  tm.wst == .run && !tm.killed && tm.stop.isNone && tm.parked.isNone && !standsBack s (1, t) && (s.die (dieOfCore (coreOfTeam t))).up && mayRun s (s.ctxOfTeam t) (1, t)

/-- What a Wick context has fetched, run: FETCH and UNDEF end its grid (R46). -/
def runWick (ok : Bool) (s : State) : Host.Outcome State Fault Refusal :=
  if !ok then issueWick Args.bare [] (fun _ s => .fault (Cause.fetch s.cur.pc)) s
  else
    match decodeUnits .wick true s.cur.u0 s.cur.u1 s.cur.u2 with
    | .error _ => issueWick Args.bare [] (fun _ _ => .fault Cause.undef) s
    | .ok r => runRead r s

/-- What a Wick context would fetch, with the lines of code still to be read for it. -/
def wickFetch (s : State) (t : Nat) (tm : Team) : Option (Cur × Bool × List Nat) :=
  (s.gridOf tm).map fun gr =>
    let f := fetchCur (gr.codeAt s.now) (.wick t) 0 0 tm.wpc
    (f.1, f.2, codeHoles gr tm.wpc f.1.len f.2)

/-- An attempt to issue in a Wick context. -/
def tryWick (s : State) (t : Nat) : Tried :=
  match Tbl.get? s.teams t with
  | none => .passed s
  | some tm =>
    if !wickMay s t tm then .passed s
    else
      let s := s.replayed (1, t)
      match wickFetch s t tm with
      | none => .passed s
      | some (cur, ok, []) => Tried.of (runWick ok { s with cur := cur })
      | some (cur, _, holes) =>
        match readHoles (.wick t) tm.grid holes { s with cur := cur } with
        | .error s => .passed s
        | .ok s =>
          match (Tbl.get? s.teams t).bind fun tm => wickFetch s t tm with
          | some (cur, ok, []) => Tried.of (runWick ok { s with cur := cur })
          | _ => .passed s

/-- The Wick contexts of a core, from the one after that which issued last. -/
def wickOrder (s : State) (c : Nat) : List Nat :=
  (rotate (List.range 8) ((s.core c).wickLast + 1)).map fun i => c * 8 + i

/-- A cycle of a core's Wick (R42): the first context that is ready issues. -/
def issueWicks (c : Nat) (s : State) : Host.Outcome State Fault Refusal := tryAll tryWick (wickOrder s c) s

/-! ### Turns -/

/-- What happens by itself as a turn begins: ports put on the wire what they have, and a context that an alarm freezes stands still once
it is quiet (R446, R466). -/
def beginTurn (s : State) : State := alarmStop (pumpPorts s)

/-- Who acts next, and the state once the time until then has passed. -/
def takeTurn (s : State) : Turn × State :=
  match s.schedule with
  | t :: rest => (t, beginTurn { s with schedule := rest, now := s.now + t.cycles, ts := s.ts + t.ticks, cur := .idle, split := t.split })
  | [] =>
    let t := freeTurn s.draws
    (t, beginTurn { s with draws := s.draws + 1, now := s.now + t.cycles, ts := s.ts + t.ticks, cur := .idle, split := t.split })

/-- An event happens; an instruction of program code is none. -/
def eventTurn (i : Instr) (s : State) : Host.Outcome State Fault Refusal :=
  match encOf i with
  | .event => exec i s
  | _ => .next s

/-- One turn. -/
def runTurn (a : Act) (s : State) : Host.Outcome State Fault Refusal :=
  match a with
  | .sub c b => issueSub c b s
  | .wick c => issueWicks c s
  | .event i => eventTurn i s

end Sys2Proof.Machine
end

