-- ==== Sys2Proof/Machine/Step.lean ====
section
/-! DEFINITION. One step of the device, and a state whose next step fetches a given instruction. -/

namespace Sys2Proof.Machine

/-- One step: time passes, and whoever's turn it is acts. -/
def step (s : State) : Host.Outcome State Fault Refusal :=
  runTurn (takeTurn s).1.act (takeTurn s).2

/-- Three units with the bits of a number, bit 0 the least significant of the first. -/
def probeUnits (nbits w : Nat) : List W32 := [0, 1, 2].map fun j => BitVec.ofNat 32 (w % 2 ^ nbits / 2 ^ (32 * j))

/-- The grid whose code is a header and three units, of the firmware context where the instruction asks for it. -/
def probeGrid (ctx : Nat) (us : List W32) : Grid :=
  mkGrid ctx .running Header.bare
    { kernel := 0, gx := 1, gy := 1, gz := 1, serial := false, idem := false, done := 0, params := [], num := 0 } 0 none
    { bytes := List.replicate 32 0 ++ unitBytes us, holes := [], bad := [] } 0 0

/-- A stream whose code is some units. -/
def probeStream (us : List W32) : Stream :=
  { team := 0, ctx := 0, id := 1, st := .running, code := us, pc := 0, xs := [], loops := [], walks := [], drops := 0, qmask := 255
    locks := [], seq := 0, stopReq := false }

/-- The state in which the next step fetches an instruction, at the first PC of a one-team grid on core 0 whose code it
is: group code where it decodes so, else Wick code where it decodes so, else lantern code, which a stream of the team
executes, else group code. The event of a stream is a constructor beyond what compiled code can build (see
`Decoded.toInstr`). -/
noncomputable def State.withFetchWord (s : State) (nbits w : Nat) : State :=
  let us := probeUnits nbits w
  let group := decode .group true (unitBytes us)
  let ctx := match group with
    | .ok (.one (.late _ _), _) => Config.firmwareCtx
    | _ => 0
  let act : Act := match group, decode .wick true (unitBytes us), decode .lantern true (unitBytes us) with
    | .error _, .ok _, _ => .wick 0
    | .error _, .error _, .ok _ => .event (.streamElement 0 0)
    | _, _, _ => .sub 0 0
  let grid := probeGrid ctx us
  let fresh : SubCore := { active := [(0, 0)], pending := [], last := none, bubble := 0 }
  let s := { s with
    stage := .s3, memActive := true, schedule := [{ cycles := 1, ticks := 1, act := act }], cur := .idle
    grids := Tbl.set s.grids 1 grid
    teams := Tbl.set s.teams 0 (newTeam 1 0 grid)
    groups := Tbl.set s.groups 0 (newGroup 0 0 grid.header) }
  ((s.updDie 0 fun d => { d with up := true }).updCtx ctx fun x => { x with st := .running, created := true, request := false, alarmFrozen := false }).updCore
    0 fun k => { k with subs := setAt k.subs 0 fresh, wickLast := 7, streams := Tbl.set k.streams 0 (probeStream us) }

end Sys2Proof.Machine
end

