-- ==== Sys2Proof/Safety.lean ====
section
/-! DEFINITION. The terms the statements use: what counts as a safe run, when nothing holds an instruction of a party, where
its issue begins and ends, what a lane of a source holds, and what an issue leaves unchanged. -/

namespace Sys2Proof.Machine

/-! ### Safe runs -/

/-- An outcome that goes on. -/
def Continues (o : Host.Outcome State Fault Refusal) : Prop := ∃ t, o = .next t

/-- The party an issue names is resident: a group where a group issues, a team where a Wick does, a stream where a stream
does. -/
def Issuer.resident (s : State) : Issuer → Bool
  | .none => true
  | .group g => (Tbl.get? s.groups g).isSome
  | .wick t => (Tbl.get? s.teams t).isSome
  | .stream c n => (Tbl.get? (s.core c).streams n).isSome

/-- The canonical forms of the memory, and of the spill stacks that saved images hold. -/
def State.memOk (s : State) : Bool := s.mem.wf && s.images.all fun i => i.spill.all fun p => p.2.wf

/-! ### Group issues -/

/-- No result is under way to a group, and no register of it or of its team holds the token of an unfinished copy. -/
def nothingUnderWay (s : State) (grp : Group) : Bool :=
  grp.pending.isEmpty && (grp.regs.all fun p => p.2.pend.isNone) && grp.ktok.isEmpty && (grp.latches.all fun l => l.pend.isNone) &&
    ((Tbl.get? s.teams grp.team).map fun tm => tm.stok.isEmpty).getD true

/-- A group that is no member of a JOINED pair issues, nothing holds the instruction, and every latch it names is valid
(R25); the memory has its canonical form. -/
def mayAct (s : State) (g : Nat) (grp : Group) (xs : List Args) : Bool :=
  grp.lanes.length == 32 && grp.latches.length == 6 && s.cur.by_ == .group g && Tbl.get? s.groups g == some grp && (joinedPartner s grp).isNone && grp.parked.isNone && !grp.debug &&
    nothingUnderWay s grp && (lostLatch (grp.freshen xs s.cur.lanes) xs).isNone && s.mem.wf

/-- No register of a group is spilled, every register and latch holds a run list, and some cells are free (R112, R116). -/
def roomy (grp : Group) (cells : Nat) : Bool :=
  (grp.regs.all fun p => p.2.spilled.isNone && Runs.wf p.2.runs) && (grp.latches.all fun l => Runs.wf l.runs) &&
    decide (grp.inUse + cells ≤ grp.quota)

/-- A group's issue at its begin: an issuing set that has changed has lost the latches (R23). -/
def begun (s : State) (g : Nat) (xs : List Args) : State := s.updGroup g fun q => q.freshen xs s.cur.lanes

/-- The active lanes of an instruction (R20). -/
def actives (s : State) (grp : Group) (x : Args) : Mask := s.cur.lanes &&& grp.predLanes x

/-- The address of the next instruction. -/
def State.nextPc (s : State) : Nat := s.cur.pc + 4 * s.cur.len

/-- A member's issue, as its meaning takes it. -/
def issueMem (s : State) (g : Nat) (grp : Group) (x : Args) : Mem :=
  { g := g, x := s.cur.lanes, act := actives s grp x, pc := s.cur.pc, next := s.nextPc }

/-- The end of an issue that goes on to the next instruction. -/
def finished (s : State) (g : Nat) (t : State) : State := settle g s.cur.lanes (advance g s.cur.lanes s.nextPc t)

/-- The end of an issue that has moved its lanes itself. -/
def jumped (s : State) (g : Nat) (t : State) : State := settle g s.cur.lanes t

/-! ### What lanes hold -/

/-- The 32-bit value of a source in a lane (R17, R19). -/
def srcLane (s : State) (g : Nat) (src : Src) (l : Nat) : W32 :=
  match Tbl.get? s.groups g with
  | none => 0
  | some grp =>
    match src with
    | .v r => Runs.val (grp.reg r.toNat).runs l
    | .latch n => Runs.val ((grp.latches[n.toNat]?.map (·.runs)).getD Runs.zero) l
    | .k r => lo32 (grp.k r.toNat)
    | .s r => lo32 (s.sreg grp.team r.toNat)
    | .zero => 0
    | .ones => BitVec.allOnes 32
    | .lit w => w
    | .num n => n.zeroExtend 32
    | .none => 0

/-- The 64-bit value of a source in a lane under W (R133). -/
def srcLane64 (s : State) (g : Nat) (src : Src) (l : Nat) : W64 :=
  match Tbl.get? s.groups g with
  | none => 0
  | some grp =>
    match src with
    | .v r => join64 (Runs.val (grp.reg (r.toNat + 1)).runs l) (Runs.val (grp.reg r.toNat).runs l)
    | .latch n => (Runs.val ((grp.latches[n.toNat]?.map (·.runs)).getD Runs.zero) l).signExtend 64
    | .k r => grp.k r.toNat
    | .s r => s.sreg grp.team r.toNat
    | .zero => 0
    | .ones => BitVec.allOnes 64
    | .lit w => w.signExtend 64
    | .num n => n.zeroExtend 64
    | .none => 0

/-- A lane of a v register of a group. -/
def State.vlane (s : State) (g j l : Nat) : W32 :=
  match Tbl.get? s.groups g with
  | some grp => Runs.val (grp.reg j).runs l
  | none => 0

/-- A k register of a group. -/
def State.kreg (s : State) (g r : Nat) : W64 := ((Tbl.get? s.groups g).map (·.k r)).getD 0

/-- A predicate of a group; p0 is all-true (R148). -/
def State.pmask (s : State) (g p : Nat) : Mask := ((Tbl.get? s.groups g).map (·.predMask p)).getD 0

/-- L0 of a group. -/
def State.latch0 (s : State) (g : Nat) : Option Latch := (Tbl.get? s.groups g).bind (·.latches[0]?)

/-- The program counter of a lane. -/
def State.lanePc (s : State) (g l : Nat) : W32 := ((Tbl.get? s.groups g).map fun q => (q.lane l).pc).getD 0

/-! ### What an issue leaves unchanged -/

/-- Nothing but groups and the bookkeeping of issue has changed: the core's record of who issued last, and replies to the
group's finished accesses. A place in the queue for Lantern entries is left by an issue that needs it no longer, and the
pages of spill stacks that the issue has used become the most recently used of those resident (R196). -/
def sameOutside (s t : State) : Prop :=
  t = { s with groups := t.groups, cores := t.cores, replies := t.replies } ∧
  ∀ c, t.core c = { s.core c with subs := (t.core c).subs, entryWait := (t.core c).entryWait, spillPages := (t.core c).spillPages } ∧
    ∀ p, p ∈ (t.core c).spillPages ↔ p ∈ (s.core c).spillPages

/-- Every other group is as it was, but that the group that issued last before has lost its latches (R23). -/
def sameOthers (s t : State) (g : Nat) : Prop :=
  ∀ h, h ≠ g → (Tbl.get? t.groups h).map Group.loseLatches = (Tbl.get? s.groups h).map Group.loseLatches

/-- A group is as it was but for its place, its latches and the registers named: v registers, k registers, predicates. -/
def sameGroup (s t : State) (g : Nat) (vs ks ps : List Nat) : Prop :=
  ∃ a b, Tbl.get? s.groups g = some a ∧ Tbl.get? t.groups g = some b ∧
    b = { a with regs := b.regs, preds := b.preds, ks := b.ks, latches := b.latches, lanes := b.lanes, subs := b.subs,
                 lastSub := b.lastSub, lastX := b.lastX, peak := b.peak, protect := b.protect, wait := none, held := 0,
                 empty := b.empty } ∧
    (∀ j, j ∉ vs → (b.reg j).runs = (a.reg j).runs) ∧ (∀ r, r ∉ ks → b.k r = a.k r) ∧
    (∀ p, p ∉ ps → b.predMask p = a.predMask p)

/-- A lane result has been written (R17 to R22): where DSEL is set to the k register, the value of the lowest lane written;
else to those lanes of the v register, or under W of the pair. NWB writes none of them. L0 receives what the destination
holds, or would hold. -/
def laneWritten (s t : State) (g : Nat) (x : Args) (w : Mask) (wide : Bool) (val : Nat → W64) : Prop :=
  let d := x.dst.toNat
  let kv := match lowest w with
    | some l => val l
    | none => s.kreg g (d - 32)
  let low (l : Nat) : W32 := if w.getLsbD l then lo32 (val l) else s.vlane g d l
  (x.dsel = true → t.kreg g (d - 32) = if x.nwb then s.kreg g (d - 32) else kv) ∧
  (x.dsel = false → x.nwb = false → ∀ l, l < 32 → t.vlane g d l = low l ∧
    (wide = true → t.vlane g (d + 1) l = if w.getLsbD l then hi32 (val l) else s.vlane g (d + 1) l)) ∧
  ∃ n, t.latch0 g = some n ∧ n.valid = true ∧
    ∀ l, l < 32 → Runs.val n.runs l = if x.dsel then lo32 kv else low l

/-- The v registers a lane result may change. -/
def laneDests (x : Args) (wide : Bool) : List Nat := if x.nwb then [] else dstRegs x wide

/-- The k register a lane result may change. -/
def laneKDests (x : Args) : List Nat := if x.nwb then [] else dselK x

/-- An issue that changed, of its group, only the registers named, the latches and the place. -/
def onlyChanged (s t : State) (g : Nat) (vs ks ps : List Nat) : Prop :=
  sameOutside s t ∧ sameOthers s t g ∧ sameGroup s t g vs ks ps

/-- The lanes of the issuing set stand at the next instruction, and no other lane has moved. -/
def wentOn (s t : State) (g : Nat) : Prop :=
  ∀ l, l < 32 → t.lanePc g l = if s.cur.lanes.getLsbD l then BitVec.ofNat 32 s.nextPc else s.lanePc g l

end Sys2Proof.Machine
end

