-- ==== Sys2Proof/Certificates/Slice0/Obligations.lean ====
section
/-! DEFINITION. The statements put to the provers, with the tables of what each instruction's result is. -/

namespace Sys2Proof.Claims

open Sys2Proof.Machine

/-! ### Lane results -/

/-- A source of a lane instruction in a lane: 64 bits where `wide`, else 32 bits extended with zeros. -/
def srcVal (s : State) (g : Nat) (wide : Bool) (src : Src) (l : Nat) : W64 :=
  if wide then srcLane64 s g src l else (srcLane s g src l).zeroExtend 64

/-- A source read once per issue (R17, R21): no v register and no latch. -/
def uniVal (s : State) (g : Nat) (src : Src) : W32 :=
  match src with
  | .v _ | .latch _ => 0
  | y => srcLane s g y 0

/-- Such a source as 64 bits, a literal extended with zeros or by its sign. -/
def uni64 (s : State) (g : Nat) (zeros : Bool) (src : Src) : W64 :=
  match src with
  | .v _ | .latch _ => 0
  | .lit w => if zeros then w.zeroExtend 64 else w.signExtend 64
  | y => srcLane64 s g y 0

/-- A result of three 64-bit lane values. -/
abbrev Fn := W64 → W64 → W64 → W64

/-- An instruction on 32-bit lanes of one source. -/
def narrow1 (x : Args) (f : W32 → W32) : Option (Args × Bool × Fn) :=
  some (x, false, fun a _ _ => (f (lo32 a)).zeroExtend 64)

/-- An instruction on 32-bit lanes of two sources. -/
def narrow2 (x : Args) (f : W32 → W32 → W32) : Option (Args × Bool × Fn) :=
  some (x, false, fun a b _ => (f (lo32 a) (lo32 b)).zeroExtend 64)

/-- An instruction on 32-bit lanes of three sources. -/
def narrow3 (x : Args) (f : W32 → W32 → W32 → W32) : Option (Args × Bool × Fn) :=
  some (x, false, fun a b c => (f (lo32 a) (lo32 b) (lo32 c)).zeroExtend 64)

/-- An instruction that W makes one on 64-bit lanes (R133). -/
def either (x : Args) (n : W32 → W32 → W32) (w : W64 → W64 → W64) : Option (Args × Bool × Fn) :=
  some (x, wBit x, fun a b _ => if wBit x then w a b else (n (lo32 a) (lo32 b)).zeroExtend 64)

/-- The upper word of a product, signed or unsigned. -/
def highWord (unsigned : Bool) (a b : W32) : W32 :=
  let p : W64 := if unsigned then a.zeroExtend 64 * b.zeroExtend 64 else a.signExtend 64 * b.signExtend 64
  (p >>> 32).truncate 32

/-- The lesser of two words. -/
def lesser {w : Nat} (unsigned : Bool) (a b : BitVec w) : BitVec w :=
  if (if unsigned then b.ult a else b.slt a) then b else a

/-- The greater of two words. -/
def greater {w : Nat} (unsigned : Bool) (a b : BitVec w) : BitVec w :=
  if (if unsigned then a.ult b else a.slt b) then b else a

/-- What the elementwise integer instructions, `mov` and `rcoal` write (R134, R143, R146). -/
def intLane : Instr → Option (Args × Bool × Fn)
  | .iadd x | .iaddC32 x => either x (· + ·) (· + ·)
  | .isub x | .isubC32 x => either x (· - ·) (· - ·)
  | .imul x | .imulC32 x => narrow2 x (· * ·)
  | .imulh x | .imulhC32 x => narrow2 x (highWord (uBit x))
  | .imad x | .imadC x => narrow3 x fun a b c => a * b + c
  | .iabs x | .iabsC32 x => narrow1 x fun a => if a.slt 0 then -a else a
  | .imin x | .iminC32 x => either x (lesser (uBit x)) (lesser (uBit x))
  | .imax x | .imaxC32 x => either x (greater (uBit x)) (greater (uBit x))
  | .and x | .andC32 x => either x (· &&& ·) (· &&& ·)
  | .or x | .orC32 x => either x (· ||| ·) (· ||| ·)
  | .xor x | .xorC32 x => either x (· ^^^ ·) (· ^^^ ·)
  | .not x | .notC32 x => either x (fun a _ => ~~~a) (fun a _ => ~~~a)
  | .shl x | .shlC32 x => either x (fun a b => a <<< (b.toNat % 32)) (fun a b => a <<< (b.toNat % 64))
  | .shr x | .shrC32 x => either x (fun a b => a >>> (b.toNat % 32)) (fun a b => a >>> (b.toNat % 64))
  | .sra x | .sraC32 x => either x (fun a b => a.sshiftRight (b.toNat % 32)) (fun a b => a.sshiftRight (b.toNat % 64))
  | .rol x | .rolC32 x => narrow2 x fun a b => (a <<< (b.toNat % 32)) ||| (a >>> (32 - b.toNat % 32))
  | .popc x | .popcC32 x => narrow1 x fun a => BitVec.ofNat 32 ((List.range 32).countP fun i => a.getLsbD i)
  | .clz x | .clzC32 x => narrow1 x fun a => BitVec.ofNat 32 (((List.range 32).takeWhile fun i => !a.getLsbD (31 - i)).length)
  | .mov x | .movC32 x => either x (fun a _ => a) (fun a _ => a)
  | .rcoal x | .rcoalC32 x => narrow1 x id
  | _ => none

/-- What the elementwise floating-point instructions write (R137 to R142). -/
def floatLane : Instr → Option (Args × Bool × Fn)
  | .fadd x | .faddC32 x => narrow2 x (fAdd (rmOf x))
  | .fsub x | .fsubC32 x => narrow2 x (fSub (rmOf x))
  | .fmul x | .fmulC32 x => narrow2 x (fMul (rmOf x))
  | .ffma x | .ffmaC x => narrow3 x fFma
  | .fmin x | .fminC32 x => narrow2 x fMin
  | .fmax x | .fmaxC32 x => narrow2 x fMax
  | .fabs x | .fabsC32 x => narrow1 x fun a => a &&& 0x7FFFFFFF
  | .fneg x | .fnegC32 x => narrow1 x fun a => a ^^^ 0x80000000
  | .frcp x | .frcpC32 x => narrow1 x (fRcp (rmOf x))
  | .frsq x | .frsqC32 x => narrow1 x (fRsq (rmOf x))
  | .fsqrt x | .fsqrtC32 x => narrow1 x (fSqrt (rmOf x))
  | .fexp2 x | .fexp2C32 x => narrow1 x (fExp2 (rmOf x))
  | .flog2 x | .flog2C32 x => narrow1 x (fLog2 (rmOf x))
  | .fclass x => narrow1 x fClass
  | _ => none

/-- A field of a word, extended by its sign or with zeros (R192). -/
def fieldOf (unsigned : Bool) (width at_ : Nat) (a : W32) : W32 :=
  if unsigned then ((a >>> at_).truncate width).zeroExtend 32 else ((a >>> at_).truncate width).signExtend 32

/-- What the conversions of one or two sources write (R181 to R185, R192). -/
def convertLane : Instr → Option (Args × Bool × Fn)
  | .cvtFf x => narrow1 x (convertFmt (fmtOf (modBits x 4 3)) (fmtOf (modBits x 7 3)) (rmOf x))
  | .cvtFi x | .cvtFiC32 x => narrow1 x fun a =>
      BitVec.ofInt 32 (fToInt (rmOf x) (intRange (s8Bit x) (uBit x)).1 (intRange (s8Bit x) (uBit x)).2 a)
  | .cvtIf x | .cvtIfC32 x => narrow1 x fun a => intToF (rmOf x) (intIn (s8Bit x) (uBit x) a)
  | .fround x => narrow1 x (fRound (rmOf x))
  | .rint x => narrow2 x fRint
  | .qscale x => narrow1 x (scaleByte (modBits x 4 2))
  | .xt16 x => narrow1 x (fieldOf (uBit x) 16 (16 * modBits x 4 1))
  | .xt8 x => narrow1 x (fieldOf (uBit x) 8 (8 * modBits x 4 2))
  | _ => none

/-- Each instruction of a table completes and writes the lane result the table gives it (R17 to R22): the active lanes of its
destination, L0, and nothing else; its lanes go on. -/
def LaneTable (table : Instr → Option (Args × Bool × Fn)) : Prop :=
  ∀ i x wide f, table i = some (x, wide, f) → ∀ s g grp, mayAct s g grp [x] = true → roomy grp 64 = true →
    ∃ t, exec i s = .next t ∧
      laneWritten s t g x (actives s grp x) wide (fun l => f (srcVal s g wide x.a l) (srcVal s g wide x.b l) (srcVal s g wide x.c l)) ∧
      onlyChanged s t g (laneDests x wide) (laneKDests x) [] ∧ wentOn s t g

/-- The place of the destination of a packing move, as a source (R192). -/
def destSrc (x : Args) : Src := if x.dsel then .k (BitVec.ofNat 5 (x.dst.toNat - 32)) else .v x.dst

/-- A field of the destination replaced (R192). -/
def packed (width at_ : Nat) (d a : W32) : W32 :=
  BitVec.ofNat 32 (d.toNat % 2 ^ at_ + a.toNat % 2 ^ width * 2 ^ at_ + d.toNat / 2 ^ (at_ + width) * 2 ^ (at_ + width))

/-- What the instructions write whose lanes are not functions of the same lane of their sources: arguments, lanes written, W, and
each lane's value (R111, R136, R144, R145, R147, R157 to R161, R165, R166, R186, R187, R192). -/
def moveLane (s : State) (g : Nat) (grp : Group) : Instr → Option (Args × Mask × Bool × (Nat → W64))
  | .sel x => some (x, actives s grp x, wBit x, fun l =>
      if (s.pmask g (modBits x 5 4)).getLsbD l then srcVal s g (wBit x) x.a l else srcVal s g (wBit x) x.b l)
  | .vbc x => some (x, actives s grp x, false, fun _ => srcVal s g false x.a ((uniVal s g x.b).toNat % 32))
  | .vli x => some (x, actives s grp x, false, fun _ => srcVal s g false x.b 0)
  | .lid x => some (x, actives s grp x, false, fun l =>
      BitVec.ofNat 64 (l / (if modBits x 5 2 = 0 then 1 else if modBits x 5 2 = 1 then 4 else 8)))
  | .rdid x => some (x, actives s grp x, false, fun l =>
      if modBits x 4 3 = 0 then (grp.tids.getD l 0).zeroExtend 64 else if modBits x 4 3 = 1 then BitVec.ofNat 64 grp.idx
      else if modBits x 4 3 = 2 then BitVec.ofNat 64 (subOfGroup g) else BitVec.ofNat 64 (slotOfGroup g))
  | .rdpcv x => some (x, actives s grp x, false, fun l =>
      if modBits x 4 1 = 0 then (s.lanePc g l).zeroExtend 64 else (grp.lane l).tag.zeroExtend 64)
  | .rstat x => some (x, actives s grp x, false, fun _ =>
      if modBits x 4 1 = 1 then totalsWord grp else match x.a with
        | .v r => headerWord grp r.toNat
        | _ => 0)
  | .shfl x => some (x, actives s grp x, false, fun l =>
      let b := (srcLane s g x.b l).toNat
      srcVal s g false x.a (match modBits x 5 2 with
        | 0 => b % 32
        | 1 => if b ≤ l then l - b else l
        | 2 => if l + b ≤ 31 then l + b else l
        | _ => l ^^^ (b % 32)))
  | .shflx x => some (x, actives s grp x, false, fun l =>
      let j := (srcLane s g x.b l).toNat % 64
      if j < 32 then (lo32 (srcLane64 s g x.a j)).zeroExtend 64 else (hi32 (srcLane64 s g x.a (j - 32))).zeroExtend 64)
  | .vcomp x =>
      let xs := lanesOf s.cur.lanes
      let as_ := lanesOf (actives s grp x)
      some (x, maskOf fun l => (xs.take as_.length).contains l, false, fun l => srcVal s g false x.a (as_.getD (xs.findIdx (· == l)) 0))
  | .vexp x =>
      some (x, actives s grp x, false, fun l =>
        srcVal s g false x.a ((lanesOf s.cur.lanes).getD ((lanesOf (actives s grp x)).findIdx (· == l)) 0))
  | .pack4 x => some (x, if actives s grp x = 0 then 0 else 0x1F, false, fun l =>
      ((packBlock ((uniVal s g x.b).toNat % 256) (actives s grp x) (srcLane s g x.a)).getD l 0).zeroExtend 64)
  | .unpack4 x => some (x, actives s grp x, false, fun l => (unpackElem (srcLane s g x.a) l).zeroExtend 64)
  | .pk16 x => some (x, actives s grp x, false, fun l =>
      (packed 16 (16 * modBits x 4 1) (srcLane s g (destSrc x) l) (srcLane s g x.a l)).zeroExtend 64)
  | .pk8 x => some (x, actives s grp x, false, fun l =>
      (packed 8 (8 * modBits x 4 2) (srcLane s g (destSrc x) l) (srcLane s g x.a l)).zeroExtend 64)
  | _ => none

/-- EMPTY of a group's status register (R98). -/
def emptyFlag (s : State) (g : Nat) : Bool := ((Tbl.get? s.groups g).map (·.empty)).getD false

/-- What a reduction of the active lanes gives (R162 to R164). -/
def redWord (x : Args) (float : Bool) (vs : List W64) : W64 :=
  if float then (foldF (modBits x 5 3) (vs.map lo32)).zeroExtend 64 else foldI (wBit x) (uBit x) (modBits x 5 3) vs

/-- The active lanes a scan takes together at a lane (R165). -/
def scanned (x : Args) (a : Mask) (l : Nat) : List Nat :=
  (lanesOf a).filter fun i => if x.mod.getLsbD 8 then decide (i < l) else decide (i ≤ l)

/-- The predicate masks the instructions of a mask write (R135, R141, R155, R188): arguments, and the bit of a lane. -/
def predBit (s : State) (g : Nat) : Instr → Option (Args × (Nat → Bool))
  | .icmp x => some (x, fun l =>
      if wBit x then intCond (modBits x 5 3) (uBit x) (srcLane64 s g x.a l) (srcLane64 s g x.b l)
      else intCond (modBits x 5 3) (uBit x) (srcLane s g x.a l) (srcLane s g x.b l))
  | .fcmp x => some (x, fun l => fCond (modBits x 5 3) (srcLane s g x.a l) (srcLane s g x.b l))
  | .dmask x => some (x, fun l =>
      decide ((dropHash (srcLane s g x.a l) (uniVal s g x.c)).toNat % 65536 < min (srcLane s g x.b l).toNat 65536))
  | .pand x => some (x, fun l => maskBit (naBit x) x.a l && maskBit (nbBit x) x.b l)
  | .por x => some (x, fun l => maskBit (naBit x) x.a l || maskBit (nbBit x) x.b l)
  | .pxor x => some (x, fun l => maskBit (naBit x) x.a l != maskBit (nbBit x) x.b l)
  | .pnot x => some (x, fun l => !maskBit false x.a l)
  | .pmov x => some (x, fun l => maskBit (naBit x) x.a l)
  | _ => none
where
  /-- A bit of a mask source, inverted where asked. -/
  maskBit (neg : Bool) (src : Src) (l : Nat) : Bool :=
    (match src with
      | .num n => (s.pmask g n.toNat).getLsbD l
      | y => (uniVal s g y).getLsbD l) != neg

/-- The words that votes and counts write to kD (R156). -/
def countWord (s : State) (g : Nat) (grp : Group) : Instr → Option (Args × W64)
  | .vote x =>
      let a := actives s grp x
      let p := s.pmask g (predNum x.a)
      some (x, match modBits x 5 2 with
        | 0 => if a &&& p = 0 then 0 else 1
        | 1 => if a &&& ~~~p = 0 then 1 else 0
        | 2 => (a &&& p).zeroExtend 64
        | _ => if a &&& p = 0 ∨ a &&& ~~~p = 0 then 1 else 0)
  | .pcnt x => some (x, BitVec.ofNat 64 ((List.range 32).countP fun l => (actives s grp x &&& s.pmask g (predNum x.a)).getLsbD l))
  | .pfirst x => some (x, match (List.range 32).find? fun l => (actives s grp x &&& s.pmask g (predNum x.a)).getLsbD l with
      | some l => BitVec.ofNat 64 l
      | none => BitVec.allOnes 64)
  | .redF x => some (x, redWord x true ((lanesOf (actives s grp x)).map (srcVal s g false x.a)))
  | .redI x => some (x, redWord x false ((lanesOf (actives s grp x)).map (srcVal s g (wBit x) x.a)))
  | _ => none

end Sys2Proof.Claims

open Sys2Proof hiding wBit
open Sys2Proof.Machine Sys2Proof.Claims

/-- R134, R143, R146: the elementwise integer instructions, the move and the merge of runs. -/
def Obligations.IntegerLanes : Prop := LaneTable intLane

/-- R137, R139 to R142: the elementwise floating-point instructions. -/
def Obligations.FloatLanes : Prop := LaneTable floatLane

/-- R181 to R185, R192: the conversions. -/
def Obligations.ConvertedLanes : Prop := LaneTable convertLane

/-- R111, R136, R144, R145, R147, R157 to R161, R186, R187, R192: lane results that are no function of one lane. -/
def Obligations.MovedLanes : Prop :=
  ∀ i s g grp x w wide val, moveLane s g grp i = some (x, w, wide, val) → mayAct s g grp [x] = true → roomy grp 64 = true →
    (∀ y, i = .pack4 y → grp.subs.length ≤ 1) →
    ∃ t, exec i s = .next t ∧ laneWritten s t g x w wide val ∧ onlyChanged s t g (laneDests x wide) (laneKDests x) [] ∧ wentOn s t g

/-- R165, R166: a scan gives each active lane the combination of the active lanes up to it, or below it. -/
def Obligations.Scans : Prop :=
  ∀ s g grp x float, mayAct s g grp [x] = true → roomy grp 64 = true →
    ∃ t, exec (if float then .scanF x else .scanI x) s = .next t ∧
      laneWritten s t g x (actives s grp x) (!float && wBit x) (fun l =>
        let v := redWord x float ((scanned x (actives s grp x) l).map (srcVal s g (!float && wBit x) x.a))
        if !float && wBit x then v else (lo32 v).zeroExtend 64) ∧
      emptyFlag t g = (emptyFlag s g || actives s grp x == 0) ∧
      onlyChanged s t g (laneDests x (!float && wBit x)) (laneKDests x) [] ∧ wentOn s t g

/-- R135, R141, R148, R149, R155, R188: what writes a predicate writes its bits of the active lanes; p0 discards the write. -/
def Sys2Proof.Claims.PredicateWrites : Prop :=
  ∀ i s g grp x bit, predBit s g i = some (x, bit) → mayAct s g grp [x] = true → roomy grp 64 = true →
    ∃ t, exec i s = .next t ∧
      (∀ l, l < 32 → (t.pmask g x.dst.toNat).getLsbD l =
        if x.dst ≠ 0 ∧ (actives s grp x).getLsbD l then bit l else (s.pmask g x.dst.toNat).getLsbD l) ∧
      t.latch0 g = (begun s g [x]).latch0 g ∧ onlyChanged s t g [] [] [x.dst.toNat] ∧ wentOn s t g

/-- R156, R162 to R164: votes, counts and reductions write kD, and set EMPTY where no lane is active. -/
def Sys2Proof.Claims.CountsToK : Prop :=
  ∀ i s g grp x v, countWord s g grp i = some (x, v) → mayAct s g grp [x] = true → roomy grp 64 = true →
    ∃ t, exec i s = .next t ∧ t.kreg g x.dst.toNat = v ∧ emptyFlag t g = (emptyFlag s g || actives s grp x == 0) ∧
      onlyChanged s t g [] [x.dst.toNat] [] ∧ wentOn s t g
namespace Sys2Proof.Claims

open Sys2Proof.Machine

/-! ### Control of a group -/

/-- A lane of a group. -/
def laneOf (s : State) (g l : Nat) : Lane := ((Tbl.get? s.groups g).map (·.lane l)).getD Lane.gone

/-- The registers that take part in traps, with the generator, the matrix format and the quota. -/
def heldRegs (s : State) (g : Nat) : Option (List W64 × Nat) :=
  (Tbl.get? s.groups g).map fun q => ([q.tvec, q.epc, q.ecause, q.edetail, q.eaddr, q.elanes, q.einst, q.elit, q.gen, q.mfmt], q.quota)

/-- The v registers, k registers and predicates of a group are as they were, but for those named. -/
def fileKept (s t : State) (g : Nat) (vs ks ps : List Nat) : Prop :=
  (∀ j, j ∉ vs → ∀ l, l < 32 → t.vlane g j l = s.vlane g j l) ∧ (∀ r, r ∉ ks → t.kreg g r = s.kreg g r) ∧
    ∀ p, p ∉ ps → t.pmask g p = s.pmask g p

/-- The registers of a group are as they were, but for the v registers, k registers and predicates named. -/
def regsKept (s t : State) (g : Nat) (vs ks ps : List Nat) : Prop := fileKept s t g vs ks ps ∧ heldRegs t g = heldRegs s g

/-- Where each active lane of a control transfer goes (R101). -/
def branchTo (s : State) (g : Nat) : Instr → Option (Args × (Nat → W32))
  | .br x => some (x, fun _ => BitVec.ofNat 32 s.cur.pc + 4 * uniVal s g x.b)
  | .brx x => some (x, fun l => BitVec.ofNat 32 s.cur.pc + 4 * srcLane s g x.a l)
  | .jmp x => some (x, fun _ => uniVal s g x.a)
  | .call x => some (x, fun _ => BitVec.ofNat 32 s.cur.pc + 4 * uniVal s g x.b)
  | .ret x => some (x, fun l => srcLane s g x.a l)
  | _ => none

/-- The active lanes of the issuing set are at their targets, its others at the next instruction; no other lane has moved (R85). -/
def transferred (s t : State) (g : Nat) (act : Mask) (dest : Nat → W32) : Prop :=
  ∀ l, l < 32 → laneOf t g l =
    if s.cur.lanes.getLsbD l then
      { laneOf s g l with pc := if act.getLsbD l then dest l else BitVec.ofNat 32 s.nextPc }
    else laneOf s g l

/-- The candidates of a group as lane sets with their priority sets. -/
def candSets (s : State) (g : Nat) : List (Mask × Mask) :=
  ((Tbl.get? s.groups g).map fun q => q.subs.map fun c => (c.lanes, c.hprio)).getD []

/-- A group of one candidate, no lane of which has priority, with no handler and no record of a `join`. -/
def plainGroup (grp : Group) : Bool :=
  grp.trap.isNone && grp.joins.isEmpty && (match grp.subs with
    | [c] => c.lanes == BitVec.allOnes 32 && c.hprio == 0
    | _ => false)

/-- The running lanes at the smallest PC greater than p (R92). -/
def lanesAhead (grp : Group) (p : Nat) : Mask :=
  let ahead := maskOf fun l => grp.running.getLsbD l && decide (p < (grp.lane l).pc.toNat)
  let low := (lanesOf ahead).foldl (fun a l => min a (grp.lane l).pc.toNat) (2 ^ 32)
  maskOf fun l => ahead.getLsbD l && (grp.lane l).pc.toNat == low

/-- The issue of every lane a group has left, all of them active (R96). -/
def wholeIssue (s : State) (grp : Group) (x : Args) : Bool :=
  s.cur.lanes == grp.live && actives s grp x == grp.live && grp.live != 0 && grp.subs.length == 1

/-- A group of a team whose other groups, if any, have no live lane. -/
def aloneInTeam (s : State) (g : Nat) (grp : Group) : Bool :=
  (s.groupsOf grp.team).all fun p => p.1 == g || p.2.live == 0

end Sys2Proof.Claims

/-- R100, R28: `nop` in both sizes advances and does nothing else. -/
def Sys2Proof.Claims.Nops : Prop :=
  ∀ s g grp x (compact : Bool), mayAct s g grp [x] = true →
    ∃ t, exec (if compact then .nopC32 x else .nop x) s = .next t ∧ t.latch0 g = (begun s g [x]).latch0 g ∧
      onlyChanged s t g [] [] [] ∧ wentOn s t g

/-- R85, R101: branches, jumps, calls and returns; a call writes its link as a lane result. -/
def Obligations.ControlTransfers : Prop :=
  ∀ i s g grp x dest, branchTo s g i = some (x, dest) → mayAct s g grp [x] = true → roomy grp 64 = true →
    (∀ l, l < 32 → (actives s grp x).getLsbD l = true → (dest l).toNat % 4 = 0) →
    ∃ t, exec i s = .next t ∧ transferred s t g (actives s grp x) dest ∧
      (if i = .call x then laneWritten s t g x (actives s grp x) false (fun _ => BitVec.ofNat 64 s.nextPc) ∧
          onlyChanged s t g (laneDests x false) (laneKDests x) []
        else onlyChanged s t g [] [] [])

/-- R90, R105: `loop.strict` and `lend` keep the trip tag of every lane. -/
def Sys2Proof.Claims.StrictLoops : Prop :=
  ∀ s g grp x, mayAct s g grp [x] = true →
    (∃ t, exec (.loopStrict x) s = .next t ∧ onlyChanged s t g [] [] [] ∧
      ∀ l, l < 32 → laneOf t g l =
        if (actives s grp x).getLsbD l then { laneOf s g l with pc := BitVec.ofNat 32 s.nextPc, tag := 0, strict := true }
        else if s.cur.lanes.getLsbD l then { laneOf s g l with pc := BitVec.ofNat 32 s.nextPc } else laneOf s g l) ∧
    ∃ t, exec (.lend x) s = .next t ∧ onlyChanged s t g [] [] [] ∧
      ∀ l, l < 32 → laneOf t g l =
        if (actives s grp x).getLsbD l then
          { laneOf s g l with pc := BitVec.ofNat 32 s.cur.pc + 4 * uniVal s g x.b
                              tag := if (laneOf s g l).strict then (laneOf s g l).tag + 1 else (laneOf s g l).tag }
        else if s.cur.lanes.getLsbD l then { laneOf s g l with pc := BitVec.ofNat 32 s.nextPc, tag := 0, strict := false }
        else laneOf s g l

/-- R88, R103: the first lanes to arrive at a `join` park and a record awaits every live lane; where they are all of them, they
go on to T at once. -/
def Sys2Proof.Claims.FirstJoin : Prop :=
  ∀ s g grp x, mayAct s g grp [x] = true → plainGroup grp = true → actives s grp x ≠ 0 → actives s grp x &&& ~~~grp.live = 0 →
    let act := actives s grp x
    let target := BitVec.ofNat 32 s.cur.pc + 4 * uniVal s g x.b
    ∃ t q, exec (.join x) s = .next t ∧ Tbl.get? t.groups g = some q ∧ regsKept s t g [] [] [] ∧ sameOutside s t ∧ sameOthers s t g ∧
      (∀ l, l < 32 → q.lane l =
        if act.getLsbD l then
          if act = grp.live then { grp.lane l with pc := target, st := .run } else { grp.lane l with st := .parked }
        else if s.cur.lanes.getLsbD l then { grp.lane l with pc := BitVec.ofNat 32 s.nextPc } else grp.lane l) ∧
      q.joins = if act = grp.live then [] else
        [{ j := BitVec.ofNat 32 s.cur.pc, target := target, awaited := grp.live, parked := act, start := s.now
           kt := (uniVal s g x.a).toNat, late := false }]

/-- R82, R102: `exit` ends the active lanes; the last to end frees the group's slot. -/
def Sys2Proof.Claims.Exits : Prop :=
  ∀ s g grp x, mayAct s g grp [x] = true → plainGroup grp = true →
    ∃ t, exec (.exit x) s = .next t ∧ regsKept s t g [] [] [] ∧ sameOthers s t g ∧ t.mem = s.mem ∧
      (∀ l, l < 32 → laneOf t g l =
        if (actives s grp x).getLsbD l then Lane.gone
        else if s.cur.lanes.getLsbD l then { laneOf s g l with pc := BitVec.ofNat 32 s.nextPc } else laneOf s g l) ∧
      (grp.live &&& ~~~actives s grp x = 0 → Tbl.get? (t.sub (coreOfGroup g) (subOfGroup g)).active (slotOfGroup g) = none)

/-- R92, R104: after `yield` the running lanes ahead at the smallest greater PC have priority; where there are none, or no lane
is active, nothing has. -/
def Sys2Proof.Claims.Yields : Prop :=
  ∀ s g grp x, mayAct s g grp [x] = true → plainGroup grp = true →
    ∃ t, exec (.yield x) s = .next t ∧ onlyChanged s t g [] [] [] ∧ wentOn s t g ∧
      (grp.live ≠ 0 → candSets t g = [(BitVec.allOnes 32,
        if actives s grp x = 0 then 0
        else lanesAhead { grp with lanes := mapLanes grp.lanes s.cur.lanes fun _ a => { a with pc := BitVec.ofNat 32 s.nextPc } } s.nextPc)])

/-- R104: `sleep` puts the active lanes to sleep until the cycle its operand names, at most 2^20 away; a sleep of 0 cycles is a
`nop`. -/
def Sys2Proof.Claims.Sleeps : Prop :=
  ∀ s g grp x, mayAct s g grp [x] = true →
    let c := min ((uni64 s g true x.b).toNat) (2 ^ 20)
    ∃ t, exec (.sleep x) s = .next t ∧ onlyChanged s t g [] [] [] ∧
      ∀ l, l < 32 → laneOf t g l =
        if (actives s grp x).getLsbD l ∧ c ≠ 0 then
          { laneOf s g l with pc := if s.cur.lanes.getLsbD l then BitVec.ofNat 32 s.nextPc else (laneOf s g l).pc, st := .asleep, wake := s.now + c }
        else if s.cur.lanes.getLsbD l then { laneOf s g l with pc := BitVec.ofNat 32 s.nextPc } else laneOf s g l

/-- R86, R103: `fuse` makes the candidates of a group one. -/
def Sys2Proof.Claims.Fuses : Prop :=
  ∀ s g grp x, mayAct s g grp [x] = true → grp.live ≠ 0 → grp.subs.foldl (fun a c => a ||| c.lanes) 0 = BitVec.allOnes 32 →
    ∃ t, exec (.fuse x) s = .next t ∧ onlyChanged s t g [] [] [] ∧ wentOn s t g ∧ candSets t g = [(BitVec.allOnes 32, 0)]

/-- R106: `dqpop` takes the entry at the group's pointer; of a closed queue that has none left it takes 0 and sets DQEND. -/
def Sys2Proof.Claims.QueuePops : Prop :=
  ∀ s g grp tm x, mayAct s g grp [x] = true → Tbl.get? s.teams grp.team = some tm → actives s grp x ≠ 0 →
    (∀ v, tm.dq[grp.dqPtr - tm.dqBase]? = some v →
      ∃ t q, exec (.dqpop x) s = .next t ∧ Tbl.get? t.groups g = some q ∧ q.k x.dst.toNat = v ∧ q.dqPtr = grp.dqPtr + 1 ∧ q.dqend = false ∧
        regsKept s t g [] [x.dst.toNat] [] ∧ wentOn s t g ∧ t.mem = s.mem ∧ sameOthers s t g) ∧
    (tm.dq[grp.dqPtr - tm.dqBase]? = none → tm.dqClosed = true →
      ∃ t q, exec (.dqpop x) s = .next t ∧ Tbl.get? t.groups g = some q ∧ q.k x.dst.toNat = 0 ∧ q.dqPtr = grp.dqPtr ∧ q.dqend = true ∧
        regsKept s t g [] [x.dst.toNat] [] ∧ wentOn s t g ∧ t.mem = s.mem ∧ sameOthers s t g)

/-- R107: `rsort` of a team with one group that has live lanes orders all 32 threads by key, then by tid, and moves their
registers and identifiers with them. -/
def Obligations.SortedThreads : Prop :=
  ∀ s g grp x (r : BitVec 10), mayAct s g grp [x] = true → roomy grp 1024 = true → wholeIssue s grp x = true → grp.live = BitVec.allOnes 32 →
    aloneInTeam s g grp = true → grp.wait = none → x.a = .v r → (uni64 s g true x.b).toNat ≠ 0 → (uni64 s g true x.b).toNat ≤ 32 →
    ∃ t, ∃ p : Nat → Nat, exec (.rsort x) s = .next t ∧ (∀ l, l < 32 → p l < 32) ∧ (∀ l m, l < 32 → m < 32 → p l = p m → l = m) ∧
      (∀ l, l + 1 < 32 → (s.vlane g r.toNat (p l)).toNat < (s.vlane g r.toNat (p (l + 1))).toNat ∨
        ((s.vlane g r.toNat (p l)).toNat = (s.vlane g r.toNat (p (l + 1))).toNat ∧
          (grp.tids.getD (p l) 0).toNat ≤ (grp.tids.getD (p (l + 1)) 0).toNat)) ∧
      (∀ j, j < (uni64 s g true x.b).toNat → ∀ l, l < 32 → t.vlane g j l = s.vlane g j (p l)) ∧
      (∀ l, l < 32 → ((Tbl.get? t.groups g).map fun q => q.tids.getD l 0) = some (grp.tids.getD (p l) 0)) ∧
      (∀ l, l < 32 → t.lanePc g l = BitVec.ofNat 32 s.nextPc) ∧ t.mem = s.mem ∧ regsKept s t g (List.range (uni64 s g true x.b).toNat) [] []

/-- R108 to R110: a `pair` whose partner waits in `pair` with the same operands binds them as JOINED; a `pjoin` in a group that
is in no pair, and an `unpair`, go on. -/
def Sys2Proof.Claims.PairsBound : Prop :=
  ∀ s g grp p q x, mayAct s g grp [x] = true → wholeIssue s grp x = true → grp.wait = none →
    (grp.pair = none → ∃ t, exec (.pjoin x) s = .next t ∧ onlyChanged s t g [] [] [] ∧ wentOn s t g) ∧
    (∃ t, exec (.unpair x) s = .next t ∧ ((Tbl.get? t.groups g).map (·.pair)) = some none ∧ regsKept s t g [] [] [] ∧ wentOn s t g) ∧
    ∀ c u w kt, uni64 s g true x.b = BitVec.ofNat 64 (c + 256 * u) → c < 32 → u < 32 → c ≠ u →
      siblings c u = true → c < ((s.headerOf grp.team).map (·.groups)).getD 0 → u < ((s.headerOf grp.team).map (·.groups)).getD 0 →
      grp.idx = c → s.groupAt grp.team u = some p → p ≠ g → Tbl.get? s.groups p = some q → q.idx = u → grp.pair = none → q.pair = none →
      q.wait = some w → w.kind = .pair (c + 256 * u) → s.now ≤ w.start + w.bound → uniVal s g x.a = kt →
      grp.trap = none → q.trap = none → s.nextPc = w.next →
      (∀ l, l < 32 → q.live.getLsbD l = true → (q.lane l).st = .run ∧ (q.lane l).tag = 0) → q.live ≠ 0 → q.subs.length = 1 →
      (∀ l, l < 32 → grp.live.getLsbD l = true → (grp.lane l).st = .run ∧ (grp.lane l).tag = 0) →
      ∃ t, exec (.pair x) s = .next t ∧
        ((Tbl.get? t.groups g).map (·.pair)) = some (some { partner := u, cond := true, joined := true }) ∧
        ((Tbl.get? t.groups p).map (·.pair)) = some (some { partner := c, cond := false, joined := true }) ∧
        regsKept s t g [] [] [] ∧ regsKept s t p [] [] []

/-- R98, R111: `kstat` reads the group status register or the pair word; CLR clears the write-one-to-clear bits it has read. -/
def Sys2Proof.Claims.StatusReads : Prop :=
  ∀ s g grp x, mayAct s g grp [x] = true → actives s grp x ≠ 0 →
    ∃ t q, exec (.kstat x) s = .next t ∧ Tbl.get? t.groups g = some q ∧ wentOn s t g ∧ regsKept s t g [] [x.dst.toNat] [] ∧ sameOutside s t ∧
      t.kreg g x.dst.toNat = (if modBits x 4 1 = 1 then grp.pairWord else grp.gsr) ∧
      (q.pdis, q.spin, q.jto, q.empty) =
        (if modBits x 4 1 = 0 ∧ modBits x 5 1 = 1 then (false, false, false, false) else (grp.pdis, grp.spin, grp.jto, grp.empty)) ∧
      q.dqend = grp.dqend
namespace Sys2Proof.Claims

open Sys2Proof.Machine

/-! ### The Wick -/

/-- A Wick context issues, and nothing holds the instruction. -/
def wickActs (s : State) (t : Nat) (tm : Team) : Bool :=
  s.cur.by_ == .wick t && Tbl.get? s.teams t == some tm && tm.parked.isNone && tm.stok.isEmpty && s.mem.wf

/-- An operand of Wick code, a literal extended with zeros or by its sign (R60). -/
def wickVal (s : State) (t : Nat) (zeros : Bool) (src : Src) : W64 :=
  match src with
  | .v r => s.sreg t r.toNat
  | .s r => s.sreg t r.toNat
  | .zero => 0
  | .ones => BitVec.allOnes 64
  | .lit w => if zeros then w.zeroExtend 64 else w.signExtend 64
  | .num n => n.zeroExtend 64
  | .latch _ | .k _ | .none => 0

/-- Nothing but a team has changed, besides the core's record of the Wick's last issue, the Wick's place in the queue for Lantern
entries, which it leaves, and its replies. -/
def teamOnly (s u : State) (t : Nat) : Prop :=
  u = { s with teams := u.teams, cores := u.cores, replies := u.replies } ∧ (∀ r, r ≠ t → Tbl.get? u.teams r = Tbl.get? s.teams r) ∧
    ∀ c, u.core c = { s.core c with wickLast := (u.core c).wickLast, entryWait := (u.core c).entryWait }

/-- A Wick issue that writes one s register, or none, and stands at an address. -/
def wickWrote (s u : State) (t : Nat) (tm : Team) (d : Option (Nat × W64)) (pc : Nat) : Prop :=
  ∃ tm', Tbl.get? u.teams t = some tm' ∧ tm' = { tm with sregs := tm'.sregs, wpc := pc, wait := none } ∧
    ∀ r, u.sreg t r = match d with
      | some (n, v) => if r = n then v else s.sreg t r
      | none => s.sreg t r

/-- The identifiers of a team, by SEL (R76). -/
def idents (g : Grid) (tm : Team) (t : Nat) : List Nat :=
  let r := g.launch
  [tm.lin % r.gx, tm.lin / r.gx % r.gy, tm.lin / (r.gx * r.gy), tm.lin, r.gx, r.gy, r.gz, r.gx * r.gy * r.gz, g.depth, tm.grid,
    tm.lin % g.header.cluster, g.header.cluster, coreOfTeam t / 36, coreOfTeam t % 36, t % 8, g.header.groups]

/-- What the scalar instructions write to sD (R62 to R65, R75, R76). -/
def scalarOf (s : State) (t : Nat) (tm : Team) (g : Grid) : Instr → Option (Args × W64)
  | .sadd x => two x (· + ·)
  | .ssub x => two x (· - ·)
  | .smul x => two x (· * ·)
  | .smulh x => two x fun a b =>
      if uBit x then ((a.zeroExtend 128 * b.zeroExtend 128) >>> 64).truncate 64
      else ((a.signExtend 128 * b.signExtend 128) >>> 64).truncate 64
  | .sdiv x => two x fun a b => if b = 0 then BitVec.allOnes 64 else if uBit x then a / b else a.sdiv b
  | .srem x => two x fun a b => if b = 0 then a else if uBit x then a % b else a.srem b
  | .sand x => two x (· &&& ·)
  | .sor x => two x (· ||| ·)
  | .sxor x => two x (· ^^^ ·)
  | .sshl x => two x fun a b => a <<< (b.toNat % 64)
  | .sshr x => two x fun a b => a >>> (b.toNat % 64)
  | .ssra x => two x fun a b => a.sshiftRight (b.toNat % 64)
  | .smin x => two x (lesser (uBit x))
  | .smax x => two x (greater (uBit x))
  | .scmp x => two x fun a b => if intCond (modBits x 4 3) (uBit x) a b then 1 else 0
  | .ssel x => some (x, if wickVal s t false x.c = 0 then wickVal s t false x.b else wickVal s t false x.a)
  | .smov x => two x fun a _ => a
  | .sli x => some (x, if modBits x 4 1 = 1 then
      (wickVal s t (uBit x) x.b <<< 32) ||| ((s.sreg t x.dst.toNat).truncate 32).zeroExtend 64 else wickVal s t (uBit x) x.b)
  | .sclk x => some (x, BitVec.ofNat 64 (if modBits x 4 1 = 1 then s.ts else s.now - (s.core (coreOfTeam t)).clkBase))
  | .sgrid x => some (x, BitVec.ofNat 64 ((idents g tm t).getD (modBits x 4 5) g.header.groups))
  | _ => none
where
  /-- An instruction of two operands. -/
  two (x : Args) (f : W64 → W64 → W64) : Option (Args × W64) :=
    some (x, f (wickVal s t (uBit x) x.a) (wickVal s t (uBit x) x.b))

/-- Where the branches of Wick code go (R66): the link written, and the target. -/
def wickBranch (s : State) (t : Nat) : Instr → Option (Option (Nat × W64) × W32)
  | .sbr x => some (none,
      if (wickVal s t false x.a != 0) != (modBits x 4 1 == 1) then BitVec.ofNat 32 s.cur.pc + 4 * lo32 (wickVal s t false x.b)
      else BitVec.ofNat 32 s.nextPc)
  | .sjmp x => some (none, BitVec.ofNat 32 s.cur.pc + 4 * lo32 (wickVal s t false x.b))
  | .scall x => some (some (x.dst.toNat, BitVec.ofNat 64 s.nextPc), BitVec.ofNat 32 s.cur.pc + 4 * lo32 (wickVal s t false x.b))
  | .sret x => if hi32 (wickVal s t false x.a) = 0 then some (none, lo32 (wickVal s t false x.a)) else none
  | _ => none

/-- A scalar access that passes its checks, at its address (R67, R68). -/
def wickMem (s : State) (t space n align : Nat) (store : Bool) (addr : W64) : Bool :=
  let a := areaOf s (.wick t)
  addr.toNat % align == 0 && (space == 0 || hi32 addr == 0) && a.ok space (lo32 addr).toNat n &&
    (a.lockHit s space (lo32 addr).toNat n store).isNone && wordsReady s a space n [(0, [(lo32 addr).toNat])]

/-- A word of some bytes extended by its sign or with zeros to 64 bits. -/
def extended (n : Nat) (unsigned : Bool) (v : Nat) : W64 :=
  if unsigned || n == 8 then BitVec.ofNat 64 v
  else if n == 4 then (BitVec.ofNat 32 v).signExtend 64 else if n == 2 then (BitVec.ofNat 16 v).signExtend 64 else (BitVec.ofNat 8 v).signExtend 64

/-- What a byte holds after some stores, each of bytes from a key on, the later over the earlier (R199). -/
def storedByte (m : Memory) (ws : List (Nat × List Byte)) (k : Nat) : Byte :=
  ws.foldl (fun b w => if w.1 ≤ k ∧ k < w.1 + w.2.length then w.2.getD (k - w.1) 0 else b) (Memory.read m k)

end Sys2Proof.Claims

/-- R60, R62 to R65, R75, R76: the scalar instructions write sD, and nothing else but the Wick's place. -/
def Obligations.WickScalars : Prop :=
  ∀ i s t tm g x v, scalarOf s t tm g i = some (x, v) → wickActs s t tm = true → Tbl.get? s.grids tm.grid = some g →
    ∃ u, exec i s = .next u ∧ wickWrote s u t tm (some (x.dst.toNat, v)) s.nextPc ∧ teamOnly s u t

/-- R66: the Wick's branches, to targets that are multiples of 4. -/
def Sys2Proof.Claims.WickTargets : Prop :=
  ∀ i s t tm d target, wickBranch s t i = some (d, target) → wickActs s t tm = true → target.toNat % 4 = 0 → s.nextPc < 2 ^ 32 →
    ∃ u, exec i s = .next u ∧ wickWrote s u t tm d target.toNat ∧ teamOnly s u t

/-- R67, R68: `sld` reads its bytes and `sst` stores them; every other byte reads as before. -/
def Obligations.WickMemory : Prop :=
  ∀ s t tm x, wickActs s t tm = true →
    let n := wickBytes x
    let space := modBits x 4 1
    (wickMem s t space n n false (wickVal s t false x.a + wickVal s t (uBit x) x.b) = true →
      ∃ u, exec (.sld x) s = .next u ∧ teamOnly s u t ∧
        wickWrote s u t tm (some (x.dst.toNat, extended n (uBit x)
          (Memory.readLE s.mem ((areaOf s (.wick t)).key space (lo32 (wickVal s t false x.a + wickVal s t (uBit x) x.b)).toNat) n))) s.nextPc) ∧
    (wickMem s t space n n true (wickVal s t false x.a + wickVal s t false x.b) = true →
      ∃ u, exec (.sst x) s = .next u ∧ teamOnly { s with mem := u.mem } u t ∧ wickWrote s u t tm none s.nextPc ∧
        ∀ k, Memory.read u.mem k = storedByte s.mem
          [((areaOf s (.wick t)).key space (lo32 (wickVal s t false x.a + wickVal s t false x.b)).toNat,
            (toBytes (s.sreg t x.dst.toNat).toNat 8).take n)] k)

/-- R69: an entry pushed stands at the tail of the decision queue until every group with a live lane has popped it. -/
def Sys2Proof.Claims.QueuePushes : Prop :=
  ∀ s t tm x, wickActs s t tm = true → tm.dq.length < 32 →
    (∀ p, p ∈ s.groupsOf t → p.2.live ≠ 0 → tm.dqBase ≤ p.2.dqPtr) → (∃ p, p ∈ s.groupsOf t ∧ p.2.live ≠ 0 ∧ p.2.dqPtr = tm.dqBase) →
    ∃ u, exec (.dqpush x) s = .next u ∧ teamOnly s u t ∧
      Tbl.get? u.teams t = some { tm with dq := tm.dq ++ [wickVal s t false x.a], wpc := s.nextPc, wait := none }

/-- R70, R71: `wend` ends the Wick program and closes the queue; `tbar` goes on once every group has exited or waits in `dqpop` with
no demand request of its own left to perform, and waits until then. -/
def Sys2Proof.Claims.WickEndsAndBarriers : Prop :=
  ∀ s t tm, wickActs s t tm = true →
    (∃ u, exec .wend s = .next u ∧ teamOnly s u t ∧
      Tbl.get? u.teams t = some { tm with wst := .ended, dqClosed := true, wpc := s.nextPc, wait := none }) ∧
    ((∀ p, p ∈ s.groupsOf t → waitsInDqpop s tm p.2 = true ∧ s.asksPath p.1 = false) →
      ∃ u, exec .tbar s = .next u ∧ teamOnly s u t ∧ wickWrote s u t tm none s.nextPc) ∧
    ((∃ p, p ∈ s.groupsOf t ∧ (waitsInDqpop s tm p.2 = false ∨ s.asksPath p.1 = true)) →
      exec .tbar s = .next { s with cur := { s.cur with stalled := true } })

/-- R15, R72: a `glaunch` of a good record starts a child of the team under a grid identifier that no grid has. The child keeps the
kernel's code as `captureCode` reads it at this instruction, with the lines that it could not read: that this is where the code is
fixed is the model's choice (log entries 11 and 42). -/
def Sys2Proof.Claims.ChildLaunches : Prop :=
  ∀ s t tm parent x hs h s' code v, wickActs s t tm = true → Tbl.get? s.grids tm.grid = some parent → parent.depth < 10 → tm.children.length < 256 →
    let addr := wickVal s t false x.a
    let bs := Memory.readN s.mem ((areaOf s (.wick t)).key (modBits x 4 1) (lo32 addr).toNat) 192
    let r := readRecord bs 0
    wickMem s t (modBits x 4 1) 192 64 false addr = true → recordOk bs r = true → r.serial = false →
    portRead (1, t) 0 parent.ctx r.kernel 32 .read true s = .ok hs s' → headerFor r hs = some h → neverFits s' parent.ctx h r.total = false →
    captureCode s' (1, t) parent.ctx r.kernel = .ok code v → v.teams = s.teams → v.grids = s.grids →
    s.grids.length < 2 ^ 25 - 1 →
    ∃ u tm' g, exec (.glaunch x) s = .next u ∧ Tbl.get? s.grids (freshGrid v) = none ∧ Tbl.get? u.teams t = some tm' ∧ tm'.children = tm.children ++ [freshGrid v] ∧
      tm'.wpc = s.nextPc ∧ u.sreg t x.dst.toNat = BitVec.ofNat 64 (freshGrid v) ∧
      Tbl.get? u.grids (freshGrid v) = some g ∧ g.code = code.bytes ∧ g.holes = code.holes ∧ g.bad = code.bad ∧ g.st = .running ∧ g.depth = parent.depth + 1 ∧ g.parent = some (t, tm.grid) ∧
      g.launch = r ∧ g.header = h ∧ g.ctx = parent.ctx ∧ u.groups = v.groups ∧ u.mem = v.mem

/-- R73: `gwait` for one child that has retired gives its status word, and the child is collected; a number that is no child's
gives 15; with NB a child that runs gives 2^63 + 5. -/
def Sys2Proof.Claims.ChildWaits : Prop :=
  ∀ s t tm x, wickActs s t tm = true → wickVal s t false x.a ≠ 0 →
    let n := (wickVal s t false x.a).toNat
    (∀ g, tm.children.filter (· == n) = [n] → Tbl.get? s.grids n = some g → g.st = .retired →
      ∃ u, exec (.gwait x) s = .next u ∧ u.sreg t x.dst.toNat = BitVec.ofNat 64 g.statusWord ∧ Tbl.get? u.grids n = none ∧
        ((Tbl.get? u.teams t).map (·.children)) = some (tm.children.filter (· != n)) ∧ u.groups = s.groups ∧ u.mem = s.mem) ∧
    (n ∉ tm.children → ∃ u, exec (.gwait x) s = .next u ∧ wickWrote s u t tm (some (x.dst.toNat, 15)) s.nextPc ∧ teamOnly s u t) ∧
    (∀ g, n ∈ tm.children → Tbl.get? s.grids n = some g → g.st ≠ .retired → modBits x 4 1 = 1 →
      ∃ u, exec (.gwait x) s = .next u ∧ wickWrote s u t tm (some (x.dst.toNat, 0x8000000000000005)) s.nextPc ∧ teamOnly s u t)
namespace Sys2Proof.Claims

open Sys2Proof.Machine

/-! ### Memory of a group -/

/-- What a group may address on chip. -/
def groupArea (s : State) (g : Nat) (grp : Group) (x : Args) : Area := areaOf s (.group (issueMem s g grp x))

/-- The address of a lane, on chip: the low 32 bits of the sum of the two address operands (R200). -/
def laneAddr (s : State) (g : Nat) (x : Args) (l : Nat) : Nat := (srcLane s g x.a l + srcLane s g x.b l).toNat

/-- Accesses of n bytes that pass the checks of R202 and find their home ready. -/
def chipOk (s : State) (a : Area) (space n : Nat) (store : Bool) (addrs : List Nat) : Bool :=
  addrs.all fun p => p % n == 0 && a.ok space p n && (a.lockHit s space p n store).isNone && wordsReady s a space n [(0, [p])]

/-- The bytes of a word stored. -/
def wordBytes (n : Nat) (v : W64) : List Byte := (toBytes v.toNat 8).take n

/-- The width and the signedness of a lane load (R203, R233). -/
def loadOf : Instr → Option (Args × Nat × Bool)
  | .ld x => some (x, accessBytes x, uBit x)
  | .ldAcq x => some (x, atomBytes x, false)
  | _ => none

/-- The width of a lane store. -/
def storeOf : Instr → Option (Args × Nat)
  | .st x => some (x, accessBytes x)
  | .stRel x => some (x, atomBytes x)
  | _ => none

/-- The registers that a load leaves awaiting their data (R203). -/
def awaits (t : State) (g : Nat) (js : List Nat) : Prop :=
  ∀ j, j ∈ js → ((Tbl.get? t.groups g).map fun q => (q.reg j).pend.isSome) = some true

/-- A signed number of n bytes. -/
def signedWord (n v : Nat) : Int := if v < 2 ^ (8 * n - 1) then v else (v : Int) - 2 ^ (8 * n)

/-- The lesser or the greater word of n bytes. -/
def wordPick (unsigned least : Bool) (n old x : Nat) : Nat :=
  let lt (a b : Nat) : Bool := if unsigned then decide (a < b) else decide (signedWord n a < signedWord n b)
  if (if least then lt x old else lt old x) then x else old

/-- What a word becomes under the atomics (R229 to R231): from the width, the old value, the operand and the value after it. -/
def atomicOf : Instr → Option (Args × (Nat → Nat → Nat → Nat → Nat))
  | .atomAdd x => some (x, fun n old v _ => (old + v) % 2 ^ (8 * n))
  | .atomMin x => some (x, fun n old v _ => wordPick (uBit x) true n old v)
  | .atomMax x => some (x, fun n old v _ => wordPick (uBit x) false n old v)
  | .atomAnd x => some (x, fun _ old v _ => old &&& v)
  | .atomOr x => some (x, fun _ old v _ => old ||| v)
  | .atomXor x => some (x, fun _ old v _ => old ^^^ v)
  | .atomExch x => some (x, fun _ _ v _ => v)
  | .atomcas x => some (x, fun _ old v new => if old = v then new else old)
  | .atomFAdd x => some (x, fun _ old v _ => (fAdd .rn (BitVec.ofNat 32 old) (BitVec.ofNat 32 v)).toNat)
  | .atomFMin x => some (x, fun _ old v _ => (fMin (BitVec.ofNat 32 old) (BitVec.ofNat 32 v)).toNat)
  | .atomFMax x => some (x, fun _ old v _ => (fMax (BitVec.ofNat 32 old) (BitVec.ofNat 32 v)).toNat)
  | .amaxF32 x => some (x, fun _ old v _ => max old (v % 2 ^ 31))
  | _ => none

/-- The operand of an atomic in a lane, and the value after it that `atomcas` stores (R229). -/
def atomVals (s : State) (g : Nat) (x : Args) (l : Nat) : Nat × Nat :=
  let wide := x.mod.getLsbD 4
  ((srcVal s g wide x.b l).toNat,
    (srcVal s g wide (match x.b with
      | .v r => .v (r + (if wide then 2 else 1))
      | y => y) l).toNat)

/-- Words changed one after another, in the order of their lanes: what each held before, and the memory after (R229). -/
def inOrder (f : Nat → Nat → Nat → Nat → Nat) (n : Nat) (key : Nat → Nat) (val : Nat → Nat × Nat) :
    List Nat → Memory → (Nat → Nat) × Memory
  | [], m => (fun _ => 0, m)
  | l :: ls, m =>
    let old := Memory.readLE m (key l) n
    let r := inOrder f n key val ls (Memory.writeLE m (key l) n (f n old (val l).1 (val l).2))
    (fun i => if i = l then old else r.1 i, r.2)

/-- A register of a group as its lanes read, spilled or not (R122). -/
def heldLane (s : State) (g j l : Nat) : W32 :=
  match Tbl.get? s.groups g with
  | some grp => Runs.val (runsOf s g grp j) l
  | none => 0

/-- Whether a register of a group is spilled. -/
def isSpilled (s : State) (g j : Nat) : Bool := ((Tbl.get? s.groups g).map fun q => (q.reg j).spilled.isSome).getD false

/-- A party that may act: a group of which some lane is active, or a Wick context. -/
def partyActs (s : State) (w : Who) (x : Args) : Bool :=
  match w with
  | .group m => (match Tbl.get? s.groups m.g with
      | some grp => mayAct s m.g grp [x] && roomy grp 0 && m == issueMem s m.g grp x && m.act != 0
      | none => false)
  | .wick t => (match Tbl.get? s.teams t with
      | some tm => wickActs s t tm
      | none => false)

/-- A uniform operand of a party as 64 bits. -/
def partyVal (s : State) (w : Who) (zeros : Bool) (src : Src) : W64 :=
  match w with
  | .group m => uni64 s m.g zeros src
  | .wick t => wickVal s t zeros src

/-- An operand that is read once (R223); of a v register or a latch the value is the lowest active lane's, which is the model's
reading (log entry 18). -/
def onceVal (s : State) (w : Who) (src : Src) : W64 :=
  match w, src with
  | .group m, .v r => srcLane64 s m.g (.v r) ((lowest m.act).getD 0)
  | .group m, .latch n => srcLane64 s m.g (.latch n) ((lowest m.act).getD 0)
  | w, src => partyVal s w true src

/-- A party that has gone on: the group's lanes, or the Wick, stand at the next instruction, and its registers are as they were but
for the k register, in Wick code the s register, of a number. -/
def partyWent (s t : State) (w : Who) (d : Option (Nat × W64)) : Prop :=
  match w with
  | .group m => wentOn s t m.g ∧ sameOthers s t m.g ∧ regsKept s t m.g [] (d.toList.map (·.1)) [] ∧ (∀ p, d = some p → t.kreg m.g p.1 = p.2)
  | .wick u => t.groups = s.groups ∧ ∃ tm, Tbl.get? t.teams u = some tm ∧ tm.wpc = s.nextPc ∧
      ∀ r, t.sreg u r = match d with
        | some (n, v) => if r = n then v else s.sreg u r
        | none => s.sreg u r

/-- A word of 8 or 4 bytes at a uniform on-chip address. -/
def chipWord (s : State) (w : Who) (space : Nat) (src : Src) : Nat × Nat :=
  let addr := (lo32 (partyVal s w false src)).toNat
  (addr, (areaOf s w).key space addr)

/-- The region table of a party's team. -/
def regionsOf (s : State) (w : Who) : Tbl Region := ((Tbl.get? s.teams (w.team s)).map (·.regions)).getD []

/-- The lines of main memory that a core's footprint cache holds. -/
def cachedLines (s : State) (c : Nat) : List FcLine := (s.core c).fcache

end Sys2Proof.Claims

/-- R193, R200, R203, R233: lane loads on chip write what the bytes at each active lane's address hold, and leave their
destination awaiting the data; memory does not change. -/
def Sys2Proof.Claims.LaneLoads : Prop :=
  ∀ i s g grp x n uns, loadOf i = some (x, n, uns) → mayAct s g grp [x] = true → roomy grp 64 = true →
    let a := groupArea s g grp x
    let act := actives s grp x
    chipOk s a (spaceBits x) n false ((lanesOf act).map (laneAddr s g x)) = true →
    ∃ t, exec i s = .next t ∧ wentOn s t g ∧ sameOutside s t ∧ sameOthers s t g ∧ regsKept s t g (laneDests x (n == 8)) (laneKDests x) [] ∧
      laneWritten s t g x act (n == 8) (fun l =>
        let v := extended n uns (Memory.readLE s.mem (a.key (spaceBits x) (laneAddr s g x l)) n)
        if n = 8 then v else (lo32 v).zeroExtend 64) ∧
      (act ≠ 0 → awaits t g (laneDests x (n == 8)))

/-- R204, R205: `ldk` loads the lowest active lane's word to kD, `ld.w` up to 16 words of every active lane to as many registers. -/
def Sys2Proof.Claims.WordLoads : Prop :=
  ∀ s g grp x, mayAct s g grp [x] = true → roomy grp 512 = true → actives s grp x ≠ 0 →
    let a := groupArea s g grp x
    let act := actives s grp x
    let key := fun p => a.key (spaceBits x) p
    (chipOk s a (spaceBits x) (accessBytes x) false [laneAddr s g x ((lowest act).getD 0)] = true →
      ∃ t, exec (.ldk x) s = .next t ∧ wentOn s t g ∧ sameOutside s t ∧ sameOthers s t g ∧ regsKept s t g [] [x.dst.toNat] [] ∧
        t.kreg g x.dst.toNat = extended (accessBytes x) (uBit x)
          (Memory.readLE s.mem (key (laneAddr s g x ((lowest act).getD 0))) (accessBytes x))) ∧
    (chipOk s a (spaceBits x) 4 false
        ((lanesOf act).flatMap fun l => (List.range (wideCount x)).map fun i => (laneAddr s g x l + 4 * i) % 2 ^ 32) = true →
      let n := wideCount x
      let word := fun i l => BitVec.ofNat 32 (Memory.readLE s.mem (key ((laneAddr s g x l + 4 * i) % 2 ^ 32)) 4)
      let ds := if x.dsel ∨ x.nwb then [] else (List.range n).map (x.dst.toNat + ·)
      ∃ t q, exec (.ldW x) s = .next t ∧ wentOn s t g ∧ sameOutside s t ∧ sameOthers s t g ∧ regsKept s t g ds (laneKDests x) [] ∧
        (x.dsel = false → x.nwb = false → ∀ i, i < n → ∀ l, l < 32 → t.vlane g (x.dst.toNat + i) l =
          if act.getLsbD l then word i l else s.vlane g (x.dst.toNat + i) l) ∧
        (x.dsel = true → x.nwb = false → t.kreg g (x.dst.toNat - 32) = (word (n - 1) ((lowest act).getD 0)).zeroExtend 64) ∧
        t.latch0 g = some q ∧ q.valid = true ∧
        (∀ l, l < 32 → Runs.val q.runs l =
          if x.dsel then word (n - 1) ((lowest act).getD 0)
          else if act.getLsbD l then word (n - 1) l else s.vlane g (x.dst.toNat + (n - 1)) l) ∧
        awaits t g ds)

/-- R199, R203 to R205, R233: what the stores leave in memory, byte by byte; lanes rise, and words within a lane. -/
def Obligations.LaneStores : Prop :=
  ∀ s g grp x, mayAct s g grp [x] = true → roomy grp 0 = true →
    let a := groupArea s g grp x
    let act := actives s grp x
    let key := fun p => a.key (spaceBits x) p
    let stored (i : Instr) (ws : List (Nat × List Byte)) : Prop :=
      ∃ t, exec i s = .next t ∧ wentOn s t g ∧ sameOutside { s with mem := t.mem } t ∧ sameOthers s t g ∧ regsKept s t g [] [] [] ∧
        ∀ k, Memory.read t.mem k = storedByte s.mem ws k
    (∀ i n, storeOf i = some (x, n) → (i = .stRel x → act ≠ 0 → (Who.group (issueMem s g grp x)).owesPath s = false) →
      chipOk s a (spaceBits x) n true ((lanesOf act).map (laneAddr s g x)) = true →
      stored i ((lanesOf act).map fun l => (key (laneAddr s g x l), wordBytes n (srcVal s g (n == 8) (.v x.dst) l)))) ∧
    (chipOk s a (spaceBits x) 4 true
        ((lanesOf act).flatMap fun l => (List.range (wideCount x)).map fun i => (laneAddr s g x l + 4 * i) % 2 ^ 32) = true →
      stored (.stW x) ((lanesOf act).flatMap fun l => (List.range (wideCount x)).map fun i =>
        (key ((laneAddr s g x l + 4 * i) % 2 ^ 32), wordBytes 4 ((srcLane s g (.v (BitVec.ofNat 10 (x.dst.toNat + i))) l).zeroExtend 64)))) ∧
    (chipOk s a (spaceBits x) (accessBytes x) true ((lowest act).toList.map (laneAddr s g x)) = true →
      stored (.stk x) ((lowest act).toList.map fun l => (key (laneAddr s g x l), wordBytes (accessBytes x) (s.kreg g x.dst.toNat))))

/-- R227, R229 to R231: the atomics on chip change the words of the active lanes one lane after another, each lane receiving what
its word held before. -/
def Sys2Proof.Claims.ChipAtomics : Prop :=
  ∀ i s g grp x f, atomicOf i = some (x, f) → mayAct s g grp [x] = true → roomy grp 64 = true → spaceBits x < 2 →
    (2 ≤ modBits x 2 2 → (Who.group (issueMem s g grp x)).owesPath s = false) →
    let n := atomBytes x
    let a := groupArea s g grp x
    let act := actives s grp x
    chipOk s a (spaceBits x) n true ((lanesOf act).map fun l => (srcLane s g x.a l).toNat) = true →
    let r := inOrder f n (fun l => a.key (spaceBits x) (srcLane s g x.a l).toNat) (atomVals s g x) (lanesOf act) s.mem
    ∃ t, exec i s = .next t ∧ wentOn s t g ∧ sameOutside { s with mem := r.2 } t ∧ sameOthers s t g ∧
      regsKept s t g (laneDests x (n == 8)) (laneKDests x) [] ∧
      laneWritten s t g x act (n == 8) (fun l => BitVec.ofNat 64 (r.1 l)) ∧ (act ≠ 0 → awaits t g (laneDests x (n == 8)))

/-- R221, R226, R229: an atomic on main memory with one active lane gives what its port's read-modify-write gives. -/
def Sys2Proof.Claims.PortAtomics : Prop :=
  ∀ i code s g grp x l old s', (i, code) ∈ [(Instr.atomAdd x, 0), (.atomMin x, 1), (.atomMax x, 2), (.atomAnd x, 3), (.atomOr x, 4),
      (.atomXor x, 5), (.atomExch x, 6), (.atomcas x, 7), (.atomFAdd x, 8), (.atomFMin x, 9), (.atomFMax x, 10), (.amaxF32 x, 11)] →
    mayAct s g grp [x] = true → roomy grp 64 = true → spaceBits x = 2 → l < 32 → actives s grp x = 1#32 <<< l →
    (2 ≤ modBits x 2 2 → (Who.group (issueMem s g grp x)).owesPath s = false) →
    let n := atomBytes x
    let ctx := s.ctxOfTeam grp.team
    let ptr := (srcLane64 s g x.a l).toNat
    ptr % n = 0 → lockHitMM s (coreOfGroup g) ctx ptr n = none →
    portAtomic (0, g) l ctx ptr n code (uBit x) (atomVals s g x l).1 (if code = 7 then (atomVals s g x l).2 else 0) true (begun s g [x]) = .ok old s' →
    s'.groups = (begun s g [x]).groups → s'.teams = s.teams → (∀ c, s'.core c = { s.core c with tcache := (s'.core c).tcache }) →
    ∃ t, exec i s = .next t ∧ wentOn s t g ∧ t.mem = s'.mem ∧ sameOthers s t g ∧ regsKept s t g (laneDests x (n == 8)) (laneKDests x) [] ∧
      laneWritten s t g x (actives s grp x) (n == 8) (fun _ => BitVec.ofNat 64 old)

/-- R122, R206, R207: `spush` spills a register and `spop` restores it; both keep what its lanes hold. -/
def Obligations.SpillMoves : Prop :=
  ∀ s g grp x (r : BitVec 10), mayAct s g grp [x] = true → x.a = .v r → actives s grp x ≠ 0 → (grp.regs.all fun p => Runs.wf p.2.runs) = true →
    let base := (Space.spill g).key (spillBase s g)
    ((∀ p, p ∈ grp.regs → p.2.spilled = none) → 2 ≤ (grp.reg r.toNat).runs.length →
      imageSize (grp.reg r.toNat).runs.length ≤ spillBase s g →
      pagesResident s g (spillBase s g) (imageSize (grp.reg r.toNat).runs.length) = true →
      ∃ t, exec (.spush x) s = .next t ∧ wentOn s t g ∧ isSpilled t g r.toNat = true ∧ sameOutside { s with mem := t.mem } t ∧ sameOthers s t g ∧
        (∀ k, k < base ∨ base + imageSize (grp.reg r.toNat).runs.length ≤ k → Memory.read t.mem k = Memory.read s.mem k) ∧
        (∀ j l, l < 32 → heldLane t g j l = heldLane s g j l) ∧ (∀ k, t.kreg g k = s.kreg g k) ∧ ∀ p, t.pmask g p = s.pmask g p) ∧
    (∀ h, (∀ p, p ∈ grp.regs → p.1 ≠ r.toNat → p.2.spilled = none) → (grp.reg r.toNat).spilled = some h →
      pagesResident s g (spillBase s g + h.off) (imageSize h.n) = true → grp.inUse + h.n ≤ grp.quota →
      ∃ t, exec (.spop x) s = .next t ∧ wentOn s t g ∧ isSpilled t g r.toNat = false ∧ sameOutside s t ∧ sameOthers s t g ∧
        (∀ j l, l < 32 → heldLane t g j l = heldLane s g j l) ∧ (∀ k, t.kreg g k = s.kreg g k) ∧ ∀ p, t.pmask g p = s.pmask g p)

/-- R232, R237, R238: `amaxr` takes a scale word and leaves 0; `sigwait` gives a signal word that meets the relation, or with TRY
any; `sigset` stores or adds. All on chip. That b from a v register or a latch is the lowest active lane's value, and a literal extended
with zeros (`onceVal`), is the model's choice (log entry 18). -/
def Sys2Proof.Claims.ChipSignals : Prop :=
  ∀ s w x, partyActs s w x = true → spaceBits x < 2 →
    let at_ := chipWord s w (spaceBits x) x.a
    let b := onceVal s w x.b
    let word := Memory.readLE s.mem at_.2 8
    (chipOk s (areaOf s w) (spaceBits x) 4 true [at_.1] = true → (∀ t, w ≠ .wick t) → (2 ≤ modBits x 2 2 → w.owesPath s = false) →
      ∃ t, exec (.amaxr x) s = .next t ∧ partyWent s t w (some (x.dst.toNat, BitVec.ofNat 64 (Memory.readLE s.mem at_.2 4))) ∧
        ∀ k, Memory.read t.mem k = storedByte s.mem [(at_.2, wordBytes 4 0)] k) ∧
    (chipOk s (areaOf s w) (spaceBits x) 8 false [at_.1] = true →
      intCond (modBits x 5 3) true (BitVec.ofNat 64 word) b = true ∨ modBits x 4 1 = 1 →
      ∃ t, exec (.sigwait x) s = .next t ∧ partyWent s t w (some (x.dst.toNat, BitVec.ofNat 64 word)) ∧ t.mem = s.mem) ∧
    (chipOk s (areaOf s w) (spaceBits x) 8 true [at_.1] = true → w.owesPath s = false →
      ∃ t, exec (.sigset x) s = .next t ∧ partyWent s t w none ∧
        ∀ k, Memory.read t.mem k = storedByte s.mem
          [(at_.2, wordBytes 8 (if modBits x 5 1 = 1 then BitVec.ofNat 64 word + b else b))] k)

/-- R220, R224, R234 to R236: `bind` and `unbind` write the team's region table; `acq` passes once the object holds enough, and
`rel` adds one to it; a fence goes on. That b from a v register or a latch is the lowest active lane's value (`onceVal`) is the model's choice
(log entry 18). -/
def Sys2Proof.Claims.RegionsAndFences : Prop :=
  ∀ s w x, partyActs s w x = true →
    let d := x.dst.toNat
    let place (space : Nat) (src : Src) : Nat := if space = 2 then (partyVal s w false src).toNat else (lo32 (partyVal s w false src)).toNat
    let r : Region := { space := d / 16 % 4, base := place (d / 16 % 4) x.a, len := (onceVal s w x.b).toNat % 2 ^ 48
                        ospace := d / 64 % 4, obj := place (d / 64 % 4) x.c }
    (r.base % 64 = 0 → r.len % 64 = 0 → r.obj % 8 = 0 → r.len ≠ 0 → (r.space = 2 ∨ (areaOf s w).ok r.space r.base r.len = true) →
      (r.ospace = 2 ∨ (areaOf s w).ok r.ospace r.obj 8 = true) → (Tbl.get? s.teams (w.team s)).isSome = true →
      ∃ t, exec (.bind x) s = .next t ∧ partyWent s t w none ∧ t.mem = s.mem ∧
        ∀ j, Tbl.get? (regionsOf t w) j = if j = d % 16 then some r else Tbl.get? (regionsOf s w) j) ∧
    (∃ t, exec (.unbind x) s = .next t ∧ partyWent s t w none ∧ t.mem = s.mem ∧
      ∀ j, Tbl.get? (regionsOf t w) j = if j = d % 16 then none else Tbl.get? (regionsOf s w) j) ∧
    ((modBits x 2 2 ≠ 1 → w.owesPath s = false) → ∃ t, exec (.fence x) s = .next t ∧ partyWent s t w none ∧ t.mem = s.mem) ∧
    ∀ q, Tbl.get? (regionsOf s w) (d % 16) = some q → q.ospace < 2 →
      let key := (areaOf s w).key q.ospace q.obj
      (chipOk s (areaOf s w) q.ospace 8 false [q.obj] = true → (onceVal s w x.b).toNat ≤ Memory.readLE s.mem key 8 →
        ∃ t, exec (.acq x) s = .next t ∧ partyWent s t w none ∧ t.mem = s.mem ∧
          ∀ l, l ∈ cachedLines t w.core ↔ l ∈ cachedLines s w.core ∧ q.holds (s.ctxOfTeam (w.team s)) l = false) ∧
      (chipOk s (areaOf s w) q.ospace 8 true [q.obj] = true → w.owesPath s = false →
        ∃ t, exec (.rel x) s = .next t ∧ partyWent s t w none ∧
          ∀ k, Memory.read t.mem k = storedByte s.mem [(key, wordBytes 8 (BitVec.ofNat 64 (Memory.readLE s.mem key 8) + 1))] k)

/-- R196, R203, R227: the data of a load or an atomic come, unless it is a result that the matrix array or the demand path owes, and
its registers await nothing; a page of a spill stack that an access waits for becomes resident, the most recently used of at most
128, and the one that gives way is written to the backing area. -/
def Obligations.LandingEvents : Prop :=
  ∀ s g grp id p, Tbl.get? s.groups g = some grp → Tbl.get? grp.pending id = some p →
    (p.demand = false → matrixOwes s g id = false → pathOwes s g id = false → ∀ i, i ∈ [Instr.loadResultLand g id, .atomicResultLand g id] →
      ∃ t q, exec i s = .next t ∧ Tbl.get? t.groups g = some q ∧ Tbl.get? q.pending id = none ∧ (∀ j, j ∈ p.regs → (q.reg j).pend = none) ∧
        t = { s with groups := t.groups } ∧ (∀ h, h ≠ g → Tbl.get? t.groups h = Tbl.get? s.groups h)) ∧
    (p.demand = true → matrixOwes s g id = false → (s.core (coreOfGroup g)).path = [] →
      ∃ t q, exec (.coordResultLand g id) s = .next t ∧ Tbl.get? t.groups g = some q ∧ Tbl.get? q.pending id = none ∧
        (∀ j, j ∈ p.regs → (q.reg j).pend = none) ∧ t = { s with groups := t.groups } ∧
        (∀ h, h ≠ g → Tbl.get? t.groups h = Tbl.get? s.groups h)) ∧
    ∀ page, let c := s.core (coreOfGroup g)
      ((g, page) ∈ c.spillWait → (g, page) ∉ c.spillPages →
        ∃ t, exec (.spillPageFill g page) s = .next t ∧ t = { s with cores := t.cores } ∧
          (t.core (coreOfGroup g)).spillPages = ((g, page) :: c.spillPages).take 128 ∧ (g, page) ∉ (t.core (coreOfGroup g)).spillWait ∧
          ∀ p, p ∈ c.spillPages.drop 127 → p ∈ (t.core (coreOfGroup g)).spillBacked) ∧
      ((g, page) ∉ c.spillWait ∨ (g, page) ∈ c.spillPages → exec (.spillPageFill g page) s = .next s)
namespace Sys2Proof.Claims

open Sys2Proof.Machine

/-! ### The matrix array -/

/-- A matrix context of a core. -/
def matOf (s : State) (c i : Nat) : MatCtx := (s.core c).mat i

/-- A core's matrix contexts and a team's claim are the only things changed, besides what the issue itself moves: of a core, the
record of who issued last and the party's place in the queue for Lantern entries. -/
def matOnly (s t : State) (w : Who) : Prop :=
  t.mem = s.mem ∧ t.grids = s.grids ∧
    ∀ c, t.core c = { s.core c with
        mats := (t.core c).mats, mctxWait := (t.core c).mctxWait, subs := (t.core c).subs, wickLast := (t.core c).wickLast
        entryWait := (t.core c).entryWait } ∧
      (c ≠ w.core → (t.core c).mats = (s.core c).mats ∧ (t.core c).mctxWait = (s.core c).mctxWait)

/-- The matrix context that a party's team holds, with its state. -/
def holds (s : State) (w : Who) (i : Nat) (mc : MatCtx) : Bool :=
  heldMat s (w.team s) == some i && decide (i < (s.core w.core).mats.length) && matOf s w.core i == mc && (s.core w.core).demands.isEmpty

/-- The bytes of a row in the registers of a lane: `n` words from register va on, each least significant byte first (R254). -/
def rowBytes (s : State) (g va n l : Nat) : List Byte := (List.range n).flatMap fun w => toBytes (s.vlane g (va + w) l).toNat 4

/-- The rows an instruction sends from lanes: row number and elements (R254, R270), no row being held by the reuse latch. -/
def sentRows (s : State) (g : Nat) (act : Mask) (va f k : Nat) : List (Nat × List FV) :=
  (lanesOf act).map fun l => (l, laneRow (rowBytes s g va (rowRegs f k) l) f k)

/-- The elements of an accumulator row as a drain or a delivery gives them (R272). -/
def drained (ofmt : Nat) (row : List W32) (i : Nat) : W32 :=
  if ofmt = 0 then row.getD i 0 else convertFmt Fmt.f32 (fmtOf ofmt) .rn (row.getD i 0)

/-- What a row adds to a column of an accumulator row (R252, R261): the sums of its chains, one after another. -/
def columnAfter (p : Plane) (r : MatRow) (old : List W32) (n : Nat) : W32 := (rowResult p r n).foldl (fAdd .rn) (old.getD n 0)

end Sys2Proof.Claims

/-- R255, R274, R275: a team claims a matrix context, keeps the one it holds, and gives it back; a freed context is cleared; `mfmt`
sets the formats of a group whose team holds a context. That a free context is the lowest one is the model's choice (log entry 49),
and so is b of `mfmt` from a v register or a latch as the lowest active lane's value (`onceVal`, log entry 18). -/
def Sys2Proof.Claims.MatrixContexts : Prop :=
  ∀ s w x tm, partyActs s w x = true → Tbl.get? s.teams (w.team s) = some tm →
    let d := x.dst.toNat
    let k := s.core w.core
    (∀ i, tm.mctx = some i → ∀ j, j ∈ [Instr.mctxAcq x, .mctxTry x] →
      ∃ t, exec j s = .next t ∧ partyWent s t w (some (d, BitVec.ofNat 64 i)) ∧ matOnly s t w ∧ heldMat t (w.team s) = some i) ∧
    (∀ i, tm.mctx = none → k.mctxWait = [] → i < 2 → i < k.mats.length → (k.mat i).owner = none → (k.mat i).clearing = false →
      (i = 1 → (k.mat 0).owner ≠ none ∨ (k.mat 0).clearing = true) → ∀ j, j ∈ [Instr.mctxAcq x, .mctxTry x] →
      ∃ t, exec j s = .next t ∧ partyWent s t w (some (d, BitVec.ofNat 64 i)) ∧ matOnly s t w ∧ heldMat t (w.team s) = some i ∧
        (matOf t w.core i).owner = some (w.team s)) ∧
    (tm.mctx = none → (∀ i, i < 2 → (k.mat i).owner ≠ none) →
      ∃ t, exec (.mctxTry x) s = .next t ∧ partyWent s t w (some (d, BitVec.allOnes 64)) ∧ matOnly s t w) ∧
    (tm.mctx = none → ∃ t, exec (.mctxRel x) s = .next t ∧ partyWent s t w (some (d, 0)) ∧ matOnly s t w) ∧
    (∀ i mc, holds s w i mc = true → mc.queue = [] → mc.load = none →
      ∃ t, exec (.mctxRel x) s = .next t ∧ partyWent s t w (some (d, 0)) ∧ matOnly s t w ∧ heldMat t (w.team s) = none ∧
        (matOf t w.core i).owner = none ∧ (matOf t w.core i).clearing = true ∧
        ∃ v, exec (.contextFree w.core i) t = .next v ∧ matOf v w.core i = MatCtx.fresh ∧ v = { t with cores := v.cores }) ∧
    (∀ m i, w = .group m → heldMat s (w.team s) = some i → (onceVal s w x.b).toNat % 8 < 4 → (onceVal s w x.b).toNat / 16 % 8 < 5 →
      ∃ t, exec (.mfmt x) s = .next t ∧ wentOn s t m.g ∧ sameOutside s t ∧ sameOthers s t m.g ∧ fileKept s t m.g [] [] [] ∧
        ((Tbl.get? t.groups m.g).map (·.mfmt)) =
          some (BitVec.ofNat 64 ((onceVal s w x.b).toNat / 16 % 8 * 16 + (onceVal s w x.b).toNat % 8)))

/-- R256, R268, R269: `mwl` begins to load the shadow plane from tiles, the load's end puts it there, and `mwswap` exchanges the
planes once nothing is under way. -/
def Sys2Proof.Claims.PlaneLoads : Prop :=
  ∀ s w x i mc, partyActs s w x = true → holds s w i mc = true →
    (mc.load = none → modBits x 8 2 = 0 → numOf x.a % 2 = 0 →
      ∃ t p, exec (.mwl x) s = .next t ∧ partyWent s t w none ∧ matOnly s t w ∧ matOf t w.core i = { mc with load := some p } ∧
        p.fmt = modBits x 4 3 ∧ p.split = false ∧
        ∀ n, n < 128 → p.cols.getD n [] =
          columnOf (mc.operand (numOf x.a)) (mc.tile (numOf x.b)).toArray p.fmt (modBits x 7 1 == 1) (planeK p.fmt) n) ∧
    (mc.load = none → (modBits x 8 2 = 1 ∨ modBits x 8 2 = 2) →
      ∃ t p, exec (.mwl x) s = .next t ∧ partyWent s t w none ∧ matOf t w.core i = { mc with load := some p } ∧ p.fmt = modBits x 4 3 ∧ p.split = true) ∧
    (∀ p, mc.load = some p →
      ∃ t, exec (.mwlComplete w.core i) s = .next t ∧ matOf t w.core i = { mc with shadow := p, load := none } ∧ t.groups = s.groups ∧ t.mem = s.mem) ∧
    (mc.load = none → mc.queue = [] →
      ∃ t, exec (.mwswap x) s = .next t ∧ partyWent s t w none ∧ matOnly s t w ∧
        matOf t w.core i = { mc with active := mc.shadow, shadow := mc.active })

/-- R257, R259, R260, R270, R271: `mma` and `mma.g` from lanes send one row for each active lane to an accumulator block, `mma.v` to the
registers that await it; the rows arrive as many cycles later as a row takes registers, behind those that have arrived. -/
def Sys2Proof.Claims.MatrixRows : Prop :=
  ∀ s g grp x i mc, mayAct s g grp [x] = true → roomy grp 4096 = true → actives s grp x ≠ 0 → holds s (.group (issueMem s g grp x)) i mc = true →
    x.mod.getLsbD 5 = false → modBits x 7 2 = 0 → grp.reuse = none →
    let f := grp.mfmt.toNat % 8
    let k := planeK mc.active.fmt
    let rows := sentRows s g (actives s grp x) (numOf x.a) f k
    (pairP f mc.active.fmt).isSome = true → numOf x.a + rowRegs f k ≤ 1024 → (∀ q, q ∈ mc.queue → q.arrive ≤ s.now) →
    (∀ j, j = Instr.mma x ∨ (j = .mmaG x ∧ ∃ b, grp.pair = some b ∧ b.joined = false ∧ b.cond = true) →
      ∃ t, exec j s = .next t ∧ wentOn s t g ∧ sameOthers s t g ∧ regsKept s t g [] [] [] ∧ matOnly s t (.group (issueMem s g grp x)) ∧
        matOf t (coreOfGroup g) i = { mc with queue := mc.queue ++ rows.map fun p =>
          { acc := x.dst.toNat % 4, row := 32 * (x.dst.toNat / 4 % 2) + p.1, elems := p.2, afmt := f, half := 0, tile := false
            pair := false, deliver := none, issuer := g, arrive := s.now + k * elemBits f / 32 } }) ∧
    ((∀ l, l < 32 → (actives s grp x).getLsbD l = true → x.dst.toNat + 4 * l + 3 ≤ 1023) →
      ∃ t id, exec (.mmaV x) s = .next t ∧ wentOn s t g ∧ sameOthers s t g ∧ matOnly s t (.group (issueMem s g grp x)) ∧
        regsKept s t g ((lanesOf (actives s grp x)).flatMap fun l => (List.range 4).map fun c => x.dst.toNat + 4 * l + c) [] [] ∧
        awaits t g ((lanesOf (actives s grp x)).flatMap fun l => (List.range 4).map fun c => x.dst.toNat + 4 * l + c) ∧
        matOf t (coreOfGroup g) i = { mc with queue := mc.queue ++ rows.map fun p =>
          { acc := 4, row := p.1, elems := p.2, afmt := f, half := 0, tile := false, pair := false
            deliver := some (g, id, x.dst.toNat + 4 * p.1, grp.mfmt.toNat / 16 % 8), issuer := g, arrive := s.now + k * elemBits f / 32 } })

/-- R252, R258, R259, R261, R262: a pass of one row, which is not the other context's turn, adds it to its accumulator row, or delivers it to the registers of its group, which
then await nothing. -/
def Sys2Proof.Claims.MatrixPasses : Prop :=
  ∀ s c i mc r rest, matOf s c i = mc → i < (s.core c).mats.length → mc.queue = r :: rest → mc.clearing = false → r.arrive < s.now →
    otherPass s c i = false →
    (r.deliver = none → (mc.accRow r.acc r.row).length = 128 →
      ∃ t, exec (.matrixPassStart c i 1) s = .next t ∧ t = { s with cores := t.cores } ∧ (t.core c).passTurn = i ∧ (matOf t c i).queue = rest ∧
        (∀ n, n < 128 → ((matOf t c i).accRow r.acc r.row).getD n 0 = columnAfter mc.active r (mc.accRow r.acc r.row) n) ∧
        ∀ b j, (b * 64 + j ≠ r.acc * 64 + r.row) → (matOf t c i).accRow b j = mc.accRow b j) ∧
    ∀ g id vd ofmt grp p, r.deliver = some (g, id, vd, ofmt) → Tbl.get? s.groups g = some grp → Tbl.get? grp.pending id = some p →
      p.merge = false → p.regs = (List.range 4).map (vd + ·) → (∀ q, q ∈ rest → (q.deliver.map fun d => (d.1, d.2.1)) ≠ some (g, id)) →
      ∃ t, exec (.matrixPassStart c i 1) s = .next t ∧ (matOf t c i).queue = rest ∧ t.mem = s.mem ∧
        (∀ j l, j < 4 → l < 32 → t.vlane g (vd + j) l =
          drained ofmt ((List.range 128).map (columnAfter mc.active r (List.replicate 128 0))) (32 * j + l)) ∧
        ∀ j, j < 4 → ((Tbl.get? t.groups g).map fun q => (q.reg (vd + j)).pend) = some none

/-- R262, R272, R273: `mdrain` gives the rows of an accumulator block to the active lanes' registers, and clears them where asked;
`mzero` sets rows of a block to +0. -/
def Sys2Proof.Claims.Drains : Prop :=
  ∀ s g grp x i mc, mayAct s g grp [x] = true → roomy grp 4096 = true → actives s grp x ≠ 0 → holds s (.group (issueMem s g grp x)) i mc = true →
    mc.queue = [] →
    let block := numOf x.a
    let row := fun j => mc.accRow block (32 * modBits x 4 1 + j)
    let act := actives s grp x
    (x.mod.getLsbD 6 = false → (∀ l, l < 32 → act.getLsbD l = true → x.dst.toNat + 4 * l + 3 ≤ 1023) →
      (∀ j, j < 32 → (row j).length = 128) →
      ∃ t, exec (.mdrain x) s = .next t ∧ wentOn s t g ∧ sameOthers s t g ∧ matOnly s t (.group (issueMem s g grp x)) ∧
        regsKept s t g ((lanesOf act).flatMap fun l => (List.range 4).map fun c => x.dst.toNat + 4 * l + c) [] [] ∧
        (∀ j c l, j < 32 → act.getLsbD j = true → c < 4 → l < 32 →
          t.vlane g (x.dst.toNat + 4 * j + c) l = drained (grp.mfmt.toNat / 16 % 8) (row j) (32 * c + l)) ∧
        ∀ b j, j < 64 → (matOf t (coreOfGroup g) i).accRow b j =
          if modBits x 5 1 = 1 ∧ b = block ∧ 32 * modBits x 4 1 ≤ j ∧ j < 32 * modBits x 4 1 + 32 ∧ act.getLsbD (j - 32 * modBits x 4 1) = true then List.replicate 128 0
          else mc.accRow b j) ∧
    (x.mod.getLsbD 6 = true → (grp.mfmt.toNat / 16 % 8 = 0 → x.dst.toNat % 2 = 0) →
      (∀ j, j < 32 → (row j).length = 128) →
      ∃ t, exec (.mdrain x) s = .next t ∧ wentOn s t g ∧ sameOthers s t g ∧ matOnly s t (.group (issueMem s g grp x)) ∧ regsKept s t g [] [] [] ∧
        let ofmt := grp.mfmt.toNat / 16 % 8
        let after := matOf t (coreOfGroup g) i
        ∀ j n, j < 32 → n < 128 →
          ((after.tile x.dst.toNat ++ after.tile (x.dst.toNat + 1)).drop (ofmtBytes ofmt * (128 * j + n))).take (ofmtBytes ofmt) =
            toBytes (drained ofmt (row j) n).toNat (ofmtBytes ofmt)) ∧
    ∃ t, exec (.mzero x) s = .next t ∧ wentOn s t g ∧ sameOthers s t g ∧ matOnly s t (.group (issueMem s g grp x)) ∧ regsKept s t g [] [] [] ∧
      ∀ b j, j < 64 → b < 4 → (matOf t (coreOfGroup g) i).accRow b j =
        if b = x.dst.toNat ∧ (modBits x 4 2 = 0 ∨ (modBits x 4 2 = 1 ∧ j < 32) ∨ (2 ≤ modBits x 4 2 ∧ 32 ≤ j)) then List.replicate 128 0 else mc.accRow b j

/-- R94, R264, R271: a `gdrain` of a JOINED pair, each member with all its lanes, leaves the guided extrapolation of two
accumulator blocks in a block, and both members go on. -/
def Sys2Proof.Claims.GuidedDrain : Prop :=
  ∀ s g p grp q x i mc, s.cur.by_ = .group g → Tbl.get? s.groups g = some grp → Tbl.get? s.groups p = some q → p ≠ g →
    coreOfGroup p = coreOfGroup g → grp.pair = some { partner := q.idx, cond := true, joined := true } →
    q.pair = some { partner := grp.idx, cond := false, joined := true } → q.team = grp.team →
    s.groupAt grp.team q.idx = some p → s.groupAt grp.team grp.idx = some g →
    grp.lanes.length = 32 → q.lanes.length = 32 → grp.parked = none → q.parked = none → grp.debug = false → q.debug = false →
    nothingUnderWay s grp = true → nothingUnderWay s q = true → grp.wait = none → q.wait = none → grp.trap = none → q.trap = none →
    x.pred = 0 → x.pneg = false → s.cur.lanes = grp.live → grp.live ≠ 0 → q.live ≠ 0 → q.issuable = q.live → grp.subs.length = 1 → q.subs.length = 1 →
    x.dst.toNat / 8 % 2 = 0 → (∀ n, x.a ≠ .latch n ∧ x.b ≠ .latch n ∧ x.c ≠ .latch n) →
    holds s (.group (issueMem s g grp x)) i mc = true → mc.queue = [] → (∀ b j, (mc.accRow b j).length = 128) →
    let half := 32 * (x.dst.toNat / 4 % 2)
    let kc := uniVal s g x.c
    ∃ t, exec (.gdrain x) s = .next t ∧ t.mem = s.mem ∧
      (∀ j n, j < 32 → n < 128 → ((matOf t (coreOfGroup g) i).accRow (x.dst.toNat % 4) (half + j)).getD n 0 =
        let c := (mc.accRow (numOf x.b % 4) (half + j)).getD n 0
        let u := (mc.accRow (numOf x.b / 4 % 4) (half + j)).getD n 0
        fFma kc (fSub .rn c u) u) ∧
      (∀ l, l < 32 → t.lanePc g l = if grp.live.getLsbD l then BitVec.ofNat 32 s.nextPc else s.lanePc g l) ∧
      ∀ l, l < 32 → t.lanePc p l = if q.live.getLsbD l then BitVec.ofNat 32 s.nextPc else s.lanePc p l

/-- R277: `tmov` copies a tile to a tile, rows of lanes' registers to a tile, or rows of a tile to lanes' registers. -/
def Sys2Proof.Claims.TileMovesOnCore : Prop :=
  ∀ s g grp x i mc, mayAct s g grp [x] = true → roomy grp 1024 = true → actives s grp x ≠ 0 → holds s (.group (issueMem s g grp x)) i mc = true →
    let act := actives s grp x
    let d := x.dst.toNat
    let rh := modBits x 6 1
    (modBits x 4 2 = 0 →
      ∃ t, exec (.tmov x) s = .next t ∧ wentOn s t g ∧ sameOthers s t g ∧ matOnly s t (.group (issueMem s g grp x)) ∧ regsKept s t g [] [] [] ∧
        ∀ n, (matOf t (coreOfGroup g) i).tile n = if n = d then mc.tile (numOf x.a) else mc.tile n) ∧
    (modBits x 4 2 = 1 → (mc.tile d).length = 8192 →
      ∃ t, exec (.tmov x) s = .next t ∧ wentOn s t g ∧ sameOthers s t g ∧ matOnly s t (.group (issueMem s g grp x)) ∧ regsKept s t g [] [] [] ∧
        (∀ r b, r < 64 → b < 128 → ((matOf t (coreOfGroup g) i).tile d).getD (128 * r + b) 0 =
          if 32 * rh ≤ r ∧ r < 32 * rh + 32 ∧ act.getLsbD (r - 32 * rh) then (rowBytes s g (numOf x.a) 32 (r - 32 * rh)).getD b 0
          else (mc.tile d).getD (128 * r + b) 0) ∧
        ∀ n, n ≠ d → (matOf t (coreOfGroup g) i).tile n = mc.tile n) ∧
    (2 ≤ modBits x 4 2 →
      ∃ t, exec (.tmov x) s = .next t ∧ wentOn s t g ∧ sameOthers s t g ∧ matOnly s t (.group (issueMem s g grp x)) ∧
        regsKept s t g ((List.range 32).map (d + ·)) [] [] ∧
        ∀ n l, n < 32 → l < 32 → t.vlane g (d + n) l =
          if act.getLsbD l then BitVec.ofNat 32 (ofBytes (((mc.tile (numOf x.a)).drop (128 * (32 * rh + l) + 4 * n)).take 4)) else s.vlane g (d + n) l)
namespace Sys2Proof.Claims

open Sys2Proof.Machine

/-! ### Handles, tiles and coordinate requests -/

/-- No engine operation holds a range of the party's core, none waits there, no demand operation or request is under way, no answer
is kept for the party, and the step performs a resolve's accesses without a break (log entry 20). -/
def engineQuiet (s : State) (w : Who) : Bool :=
  (s.core w.core).locks.isEmpty && (s.core w.core).entryWait.isEmpty && (s.core w.core).demands.isEmpty &&
    (s.core w.core).path.isEmpty && !busyParty s w.party && s.split.isNone

/-- The address A + b of an access that a party makes once, on chip (R200, R67). -/
def onceAt (s : State) (w : Who) (x : Args) : Nat :=
  match w with
  | .group m => laneAddr s m.g x ((lowest m.act).getD 0)
  | .wick t => (lo32 (wickVal s t false x.a + wickVal s t false x.b)).toNat

/-- Such an access of n bytes passes its checks. -/
def onceOk (s : State) (w : Who) (x : Args) (space n align : Nat) : Bool :=
  let a := areaOf s w
  let p := onceAt s w x
  decide (space < 2) && p % align == 0 && a.ok space p n && homeUp s space p &&
    (match w with
      | .group _ => true
      | .wick t => (wickVal s t false x.a + wickVal s t false x.b).toNat % align == 0 &&
          (space == 0 || hi32 (wickVal s t false x.a + wickVal s t false x.b) == 0))

/-- A handle of an array on chip that may be used, whose home answers, with no mirror. -/
def chipArray (s : State) (w : Who) (h : Handle) : Bool :=
  h.ok (areaOf s w) && decide (h.home < 2) && h.field 487 1 == 0 && homeUp s h.home h.base

/-- Bytes of an array on chip. -/
def arrayBytes (s : State) (w : Who) (h : Handle) (off n : Nat) : List Byte :=
  Memory.readN s.mem ((areaOf s w).key h.home (h.base + off)) n

/-- The channels of an element of a DENSE or TABLE array on chip (R284, R308); zeros where an edge drops the tap. -/
def elementOf (s : State) (w : Who) (h : Handle) (f : Fetch) : List W32 :=
  match f.is with
  | none => List.replicate h.ch 0
  | some is => (List.range h.ch).map fun c => h.value (arrayBytes s w h (h.linear is * h.cell + c * h.elem) h.elem)

/-- The coordinates of a lane: the registers from one on. -/
def coordsAt (s : State) (g v n l : Nat) : List W32 := (List.range n).map fun i => s.vlane g (v + i) l

/-- The plan of a lane's request. -/
def planAt (s : State) (g : Nat) (h : Handle) (x : Args) (order : Nat) (grad direct : Bool) (l : Nat) : Option Plan :=
  h.plan order grad direct l (coordsAt s g (numOf x.b) h.dim l)

/-- A uniform 64-bit operand, a literal extended by its sign; of a v register or a latch the lowest active lane's (log entry 18). -/
def wholeVal (s : State) (w : Who) (src : Src) : W64 :=
  match w, src with
  | .group _, .v _ | .group _, .latch _ => onceVal s w src
  | w, src => partyVal s w false src

/-- A handle register as it reads: its reserved fields are zero (R2, R278, R279, R294). -/
def asRead (img : BitVec 512) : BitVec 512 :=
  img &&& ~~~(0xFFFFFF#512 <<< 488 ||| 0x62#512 <<< 480 ||| 0x7FF#512 <<< 117 ||| 7#512 <<< 85 ||| 1#512 <<< 77)

/-- A signed 64-bit value. -/
def signed64 (bs : List Byte) : Int := (BitVec.ofNat 64 (ofBytes bs)).toInt

end Sys2Proof.Claims

/-- R2, R74, R278, R282, R300, R301: `hst` stores a handle register, its reserved fields as zero, `hld` loads one that is no table's, with
MIRROR clear, `hinfo` gives a word of one and clears its sticky bits where asked. -/
def Obligations.HandleRegisters : Prop :=
  ∀ s w x tm, partyActs s w x = true → engineQuiet s w = true → Tbl.get? s.teams (w.team s) = some tm →
    let t := w.team s
    let a := areaOf s w
    let key := a.key (modBits x 4 2) (onceAt s w x)
    (onceOk s w x (modBits x 4 2) 64 64 = true →
      ∃ u, exec (.hst x) s = .next u ∧ partyWent s u w none ∧ u.handle t x.dst.toNat = s.handle t x.dst.toNat ∧
        ∀ k, Memory.read u.mem k = storedByte s.mem [(key, toBytes (asRead (s.handle t x.dst.toNat)).toNat 64)] k) ∧
    (∀ v, w = .wick v → onceOk s w x (modBits x 4 2) 64 64 = true →
      let img : BitVec 512 := BitVec.ofNat 512 (ofBytes (Memory.readN s.mem key 64))
      ({ num := x.dst.toNat, img := img } : Handle).typ ≠ 3 →
      ∃ u, exec (.hld x) s = .next u ∧ partyWent s u w none ∧ u.mem = s.mem ∧
        ∀ n, u.handle t n = if n = x.dst.toNat then img &&& ~~~(1#512 <<< 487) else s.handle t n) ∧
    ∃ u, exec (.hinfo x) s = .next u ∧ u.mem = s.mem ∧
      partyWent s u w (some (x.dst.toNat, BitVec.ofNat 64 ((asRead (s.handle t (numOf x.a))).toNat / 2 ^ (64 * modBits x 4 3) % 2 ^ 64))) ∧
      ∀ n, u.handle t n = if n = numOf x.a ∧ modBits x 7 1 = 1 then s.handle t n &&& ~~~(0x1D#512 <<< 480) else s.handle t n

/-- R276: `tld` and `tst` move a whole tile from and to memory on chip. -/
def Sys2Proof.Claims.ChipTiles : Prop :=
  ∀ s w x i mc, partyActs s w x = true → engineQuiet s w = true → holds s w i mc = true → onceOk s w x (modBits x 8 2) 8192 64 = true →
    let key := (areaOf s w).key (modBits x 8 2) (onceAt s w x)
    (∃ t, exec (.tld x) s = .next t ∧ partyWent s t w none ∧ matOnly s t w ∧
      ∀ n, (matOf t w.core i).tile n = if n = x.dst.toNat then Memory.readN s.mem key 8192 else mc.tile n) ∧
    ((mc.tile x.dst.toNat).length = 8192 →
      ∃ t, exec (.tst x) s = .next t ∧ partyWent s t w none ∧ matOf t w.core i = mc ∧
        ∀ k, Memory.read t.mem k = storedByte s.mem [(key, mc.tile x.dst.toNat)] k)

/-- R302 to R308, R310, R320, R321: a coordinate load from a DENSE or TABLE array on chip gives each active lane the block its plan's
elements give, and an integer one the element its indices name; the registers await the results. -/
def Obligations.CoordinateLoads : Prop :=
  ∀ s g grp x, mayAct s g grp [x] = true → roomy grp 1024 = true → actives s grp x ≠ 0 →
    let w : Who := .group (issueMem s g grp x)
    let h := takeHandle s grp.team (numOf x.a)
    let act := actives s grp x
    let given (i : Instr) (n : Nat) (val : Nat → Nat → W32) : Prop :=
      ∃ t, exec i s = .next t ∧ wentOn s t g ∧ sameOthers s t g ∧ t.mem = s.mem ∧
        fileKept s t g ((List.range n).map (x.dst.toNat + ·)) [] (if modBits x 5 1 = 1 then [modBits x 6 4] else []) ∧
        awaits t g ((List.range n).map (x.dst.toNat + ·)) ∧
        ∀ j l, j < n → l < 32 → t.vlane g (x.dst.toNat + j) l = if act.getLsbD l then val l j else s.vlane g (x.dst.toNat + j) l
    engineQuiet s w = true → chipArray s w h = true → (h.typ = 0 ∨ h.typ = 3) → numOf x.b + h.dim ≤ 1024 →
    (let grad := decide (modBits x 4 1 = 1)
     let n := h.ch * (if grad then 1 + h.dim else 1)
     x.dst.toNat + n ≤ 1024 → n ≤ 32 →
     (∀ l, l < 32 → act.getLsbD l = true → ∃ p, planAt s g h x (modBits x 2 2) grad false l = some p ∧ p.invalid = false) →
     given (.cld x) n fun l j => match planAt s g h x (modBits x 2 2) grad false l with
       | some p => (h.block grad (p.fetches.map fun f => (f, elementOf s w h f))).getD j 0
       | none => 0) ∧
    (x.dst.toNat + h.ch ≤ 1024 →
     (∀ l, l < 32 → act.getLsbD l = true → ∀ d, d < h.dim → 0 ≤ (s.vlane g (numOf x.b + d) l).toInt ∧ (s.vlane g (numOf x.b + d) l).toInt < h.size d) →
     given (.cldi x) h.ch fun l j =>
       h.value (arrayBytes s w h (h.linear ((coordsAt s g (numOf x.b) h.dim l).map (·.toNat)) * h.cell + j * h.elem) h.elem))

/-- R286, R288, R324, R325: with one active lane, `cfind` gives the slot whose key is the lane's, or 0xFFFFFFFF where the first slot is
empty; `cins` takes the first slot where that is empty, and marks it as new. -/
def Obligations.HashSearches : Prop :=
  ∀ s g grp x l, mayAct s g grp [x] = true → roomy grp 64 = true → l < 32 → actives s grp x = 1#32 <<< l → modBits x 5 1 = 0 →
    let w : Who := .group (issueMem s g grp x)
    let h := takeHandle s grp.team (numOf x.a)
    let is := (coordsAt s g (numOf x.b) h.dim l).map (·.toNat)
    let slot := h.hash is
    let held := ofBytes (arrayBytes s w h (8 * slot) 8)
    let given (i : Instr) (v : W32) (mem : Nat → Byte) : Prop :=
      ∃ t, exec i s = .next t ∧ wentOn s t g ∧ sameOthers s t g ∧ regsKept s t g [x.dst.toNat] [] [] ∧ awaits t g [x.dst.toNat] ∧
        (∀ j, j < 32 → t.vlane g x.dst.toNat j = if j = l then v else s.vlane g x.dst.toNat j) ∧ ∀ k, Memory.read t.mem k = mem k
    engineQuiet s w = true → chipArray s w h = true → h.typ = 2 → numOf x.b + h.dim ≤ 1024 →
    (∀ d, d < h.dim → 0 ≤ (s.vlane g (numOf x.b + d) l).toInt ∧ (s.vlane g (numOf x.b + d) l).toInt < h.size d) →
    (held = Handle.key is → given (.cfind x) (BitVec.ofNat 32 slot) (Memory.read s.mem)) ∧
    (held = 0 → given (.cfind x) 0xFFFFFFFF (Memory.read s.mem)) ∧
    (held = Handle.key is → given (.cins x) (BitVec.ofNat 32 slot) (Memory.read s.mem)) ∧
    (held = 0 → given (.cins x) (BitVec.ofNat 32 (2 ^ 31 + slot)) fun k =>
      storedByte s.mem [((areaOf s w).key h.home (h.base + 8 * slot), toBytes (Handle.key is) 8)] k)

/-- R315, R316, R322: a splat of one lane to one element of one channel on chip adds its product there: rounded FP32 to an FP32
array, a fixed-point integer to a FIXED one. -/
def Sys2Proof.Claims.Splats : Prop :=
  ∀ s g grp x l p f is, mayAct s g grp [x] = true → roomy grp 0 = true → l < 32 → actives s grp x = 1#32 <<< l →
    let w : Who := .group (issueMem s g grp x)
    let h := takeHandle s grp.team (numOf x.a)
    engineQuiet s w = true → chipArray s w h = true → (h.typ = 0 ∨ h.typ = 3) → h.ch = 1 → numOf x.b + h.dim ≤ 1024 →
    planAt s g h x (modBits x 2 2) false false l = some p → p.fetches = [f] → f.is = some is →
    let key := (areaOf s w).key h.home (h.base + h.linear is * h.elem)
    let v := s.vlane g x.dst.toNat l
    (h.fixed = false → h.fmt = 0 →
      ∃ t, exec (.spl x) s = .next t ∧ wentOn s t g ∧ sameOthers s t g ∧ regsKept s t g [] [] [] ∧
        ∀ k, Memory.read t.mem k = storedByte s.mem
          [(key, toBytes (fAdd .rn (BitVec.ofNat 32 (Memory.readLE s.mem key 4)) (fMul .rn f.w v)).toNat 4)] k) ∧
    (h.fixed = true → (fixedPart h f.w v).2 = false →
      ∃ t, exec (.splX x) s = .next t ∧ wentOn s t g ∧ sameOthers s t g ∧ regsKept s t g [] [] [] ∧
        ∀ k, Memory.read t.mem k = storedByte s.mem
          [(key, toBytes (BitVec.ofNat 64 (Memory.readLE s.mem key 8) + BitVec.ofInt 64 (fixedPart h f.w v).1).toNat 8)] k)

/-- R323: `splres` converts every element of a FIXED DENSE array on chip into one of another array, takes a range-lock entry and marks its
token; when it completes, the entry is free and the token register holds the record. -/
def Sys2Proof.Claims.Resolves : Prop :=
  ∀ s w x tm, partyActs s w x = true → engineQuiet s w = true → Tbl.get? s.teams (w.team s) = some tm →
    let hs := takeHandle s (w.team s) (numOf x.a)
    let hd := takeHandle s (w.team s) x.dst.toNat
    let n := hs.count * hs.ch
    let a := areaOf s w
    chipArray s w hs = true → chipArray s w hd = true → hs.typ = 0 → hd.typ = 0 → hs.fixed = true → hd.fixed = false → hd.ch = hs.ch →
    hd.count = hs.count → areasOverlap hs (8 * n) hd (n * hd.elem) = false →
    ∃ t, exec (.splres x) s = .next t ∧ partyWent s t w none ∧
      (∀ i, i < n → ofBytes (Memory.readN t.mem (a.key hd.home (hd.base + hd.elem * i)) hd.elem) =
        let z := signed64 (arrayBytes s w hs (8 * i) 8)
        hd.format.roundS .rn (decide (z < 0)) z.natAbs hs.fixE false) ∧
      (∀ i, i < n → ofBytes (Memory.readN t.mem (a.key hs.home (hs.base + 8 * i)) 8) =
        if modBits x 4 1 = 1 then 0 else ofBytes (arrayBytes s w hs (8 * i) 8)) ∧
      (Tbl.get? (t.core w.core).locks 64).isSome = true ∧
      ∃ u, exec (.splresComplete w.core 64) t = .next u ∧ Tbl.get? (u.core w.core).locks 64 = none ∧
        Tbl.get? (u.core w.core).demands 64 = none ∧ u.mem = t.mem ∧
        (match w with
          | .group m => u.kreg m.g (tokenReg x.b) = BitVec.ofNat 64 (n * hd.elem * 256)
          | .wick v => u.sreg v (tokenReg x.b) = BitVec.ofNat 64 (n * hd.elem * 256))

/-- R276, R296, R331: through the handle of a DENSE array on chip of two dimensions or more `tld` and `tst` move a tile that lies inside
the array row by row, with index 0 in dimensions 2 and 3, and hold a range-lock entry until the move completes. That b from a v
register or a latch is the lowest active lane's value (`wholeVal`) is the model's choice (log entry 18). -/
def Sys2Proof.Claims.HandleTiles : Prop :=
  ∀ s w x i mc, partyActs s w x = true → engineQuiet s w = true → holds s w i mc = true → modBits x 8 2 = 2 →
    let h := takeHandle s (w.team s) (numOf x.a)
    let b := wholeVal s w x.b
    let c0 := (lo32 b).toNat
    let r0 := (hi32 b).toNat
    let at_ := fun r => h.linear ([c0, r0 + r] ++ List.replicate (h.dim - 2) 0) * h.elem
    chipArray s w h = true → h.typ = 0 → 2 ≤ h.dim → h.ch = 1 → h.fixed = false → c0 + 128 / h.elem ≤ h.size 0 → r0 + 64 ≤ h.size 1 →
    (∃ t, exec (.tld x) s = .next t ∧ partyWent s t w none ∧ t.mem = s.mem ∧ (Tbl.get? (t.core w.core).locks 64).isSome = true ∧
      (∀ r, r < 64 → (((matOf t w.core i).tile x.dst.toNat).drop (128 * r)).take 128 = arrayBytes s w h (at_ r) 128) ∧
      ∃ u, exec (.tileMoveComplete w.core 64) t = .next u ∧ Tbl.get? (u.core w.core).locks 64 = none ∧
        u = { t with cores := u.cores }) ∧
    ((mc.tile x.dst.toNat).length = 8192 →
      ∃ t, exec (.tst x) s = .next t ∧ partyWent s t w none ∧ (Tbl.get? (t.core w.core).locks 64).isSome = true ∧
        ∀ k, Memory.read t.mem k = storedByte s.mem ((List.range 64).map fun r =>
          ((areaOf s w).key h.home (h.base + at_ r), ((mc.tile x.dst.toNat).drop (128 * r)).take 128)) k)
namespace Sys2Proof.Claims

open Sys2Proof.Machine

/-! ### Generators, special registers and traps -/

/-- One step of the generator of R189. -/
def stepGen (x : W64) : W64 :=
  let x := x ^^^ (x <<< 13)
  let x := x ^^^ (x >>> 7)
  x ^^^ (x <<< 17)

/-- Some steps of it. -/
def stepsGen : Nat → W64 → W64
  | 0, x => x
  | n + 1, x => stepsGen n (stepGen x)

/-- A group with another generator. -/
def withGen (s : State) (g : Nat) (v : W64) : State := s.updGroup g fun q => { q with gen := v }

/-- The special registers a group may read (R407); the fault count needs supervisor mode, which a grid has that the firmware context's
launch unit started (R384). -/
def specialOf (s : State) (g : Nat) (grp : Group) (tm : Team) (c : Nat) : Nat → Option W64
  | 0 => some grp.gsr
  | 1 => some grp.tvec
  | 2 => some grp.epc
  | 3 => some grp.ecause
  | 4 => some grp.edetail
  | 5 => some grp.eaddr
  | 6 => some grp.elanes
  | 7 => some (if grp.trap.isSome then 1 else 0)
  | 8 => some (BitVec.ofNat 64 (s.now - (s.core (g / 64)).clkBase))
  | 9 => some (BitVec.ofNat 64 s.ts)
  | 10 => some (BitVec.ofNat 64 tm.lin)
  | 11 => some (BitVec.ofNat 64 tm.grid)
  | 12 => some (BitVec.ofNat 64 c)
  | 13 => some (BitVec.ofNat 64 (g % 16 * 2 ^ 16 + g / 16 % 4 * 2 ^ 12 + g / 64 / 36 * 2 ^ 8 + g / 64 % 36))
  | 14 => some grp.einst
  | 15 => some grp.elit
  | 32 => if (Tbl.get? s.grids tm.grid).any fun q => q.ctx == 64 && q.parent.isNone then some (BitVec.ofNat 64 (s.die (g / 64 / 36)).faults.length) else none
  | _ => none

/-- What a group's register of flags and vectors holds beside those named. -/
def vectorsOf (s : State) (g : Nat) : Option (W64 × W64 × Bool × Bool × Bool × Bool) :=
  (Tbl.get? s.groups g).map fun q => (q.tvec, q.epc, q.pdis, q.spin, q.jto, q.empty)

/-- A fault an instruction raises in a group: its arguments, CODE, NUM, the detail word, EADDR, and whether EPC is the next
instruction (R390). -/
def groupFault (s : State) (g : Nat) (grp : Group) : Instr → Option (Args × Nat × Nat × Nat × Nat × Bool)
  | .trap x => if actives s grp x = 0 then none else some (x, 0x010A, (uniVal s g x.b).toNat % 256, 0, 0, true)
  | .brk x =>
    if actives s grp x = 0 || (s.ctx (s.ctxOfTeam grp.team)).debugger then none else some (x, 0x0109, 0, 0, 0, true)
  | .jmp x =>
    let a := (uniVal s g x.a).toNat
    if actives s grp x = 0 || a % 4 == 0 then none else some (x, 0x0105, 0, (lowest (actives s grp x)).getD 0 * 256, a, false)
  | .eret x =>
    if grp.trap.isSome then none
    else some (x, 0x0106, 0, ((lowest (actives s grp x)).getD ((lowest s.cur.lanes).getD 0)) * 256 + 0x1A, 0, false)
  | .mtsr x =>
    let v := (uni64 s g false x.b).toNat
    let l := (lowest (actives s grp x)).getD 0
    if actives s grp x = 0 || x.dst != 1 then none
    else if v % 4 != 0 then some (x, 0x0105, 0, l * 256, v, false)
    else if v != 0 && (v < 32 || 2 ^ 32 ≤ v) then some (x, 0x0106, 0, l * 256 + 0x17, v, false)
    else none
  | _ => none

/-- What a group holds when it begins its handler (R389, R390). -/
def handlerBegun (s t : State) (g : Nat) (grp : Group) (code num detail addr : Nat) (after : Bool) : Prop :=
  ∃ q, Tbl.get? t.groups g = some q ∧
    q.epc = BitVec.ofNat 64 (if after then s.nextPc else s.cur.pc) ∧
    q.ecause = BitVec.ofNat 64 (code * 2 ^ 16 + s.cur.len * 2 ^ 10 + num) ∧ q.edetail = BitVec.ofNat 64 detail ∧
    q.eaddr = BitVec.ofNat 64 addr ∧ q.elanes = s.cur.lanes.zeroExtend 64 ∧
    q.einst = (if 2 ≤ s.cur.len then s.cur.u1 else 0#32) ++ s.cur.u0 ∧ q.elit = (if s.cur.len = 3 then s.cur.u2 else 0#32).zeroExtend 64 ∧
    (∃ f, q.trap = some f ∧ f.x = s.cur.lanes ∧ f.erets = 0) ∧ (∀ n, n ∈ q.latches → n.valid = false) ∧
    q.subs.map (fun c => (c.lanes, c.hprio)) = [(s.cur.lanes, 0)] ∧ q.tvec = grp.tvec ∧ q.gen = grp.gen ∧ q.mfmt = grp.mfmt ∧
    ∀ l, l < 32 → q.lane l =
      if s.cur.lanes.getLsbD l then { grp.lane l with pc := lo32 grp.tvec, tag := 0, st := .run, strict := false } else grp.lane l

/-- The last record of the device log is of a code, with a detail word and a place, under the next sequence number. -/
def recorded (s t : State) (code detail iaddr : Nat) : Prop :=
  ∃ r, t.errLog.getLast? = some r ∧ (r.getD 0 0).toNat = code * 2 ^ 48 + 1 * 2 ^ 40 + 2 * 2 ^ 36 + 3 * 2 ^ 32 + s.nextSeq ∧
    r.getD 1 0 = BitVec.ofNat 64 s.ts ∧ (r.getD 4 0).toNat / 2 ^ 32 = iaddr ∧ r.getD 7 0 = BitVec.ofNat 64 detail

/-- A grid that has ended with status FAULT: its teams have stopped and their groups are gone (R46, R388). -/
def gridFaulted (s t : State) (n : Nat) : Prop :=
  (∃ g a, Tbl.get? s.grids n = some a ∧ Tbl.get? t.grids n = some g ∧ g.st = .ending ∧ g.status = 1 ∧
    g.seq = if a.seq = 0 then s.nextSeq else a.seq) ∧
  ∀ k tm, Tbl.get? s.teams k = some tm → tm.grid = n →
    (∃ u, Tbl.get? t.teams k = some u ∧ u.wst = .ended ∧ u.killed = true) ∧ ∀ h q, Tbl.get? t.groups h = some q → q.team ≠ k

/-- A grid that has not ended yet. -/
def gridRuns (s : State) (n : Nat) : Bool :=
  ((Tbl.get? s.grids n).map fun g => g.st != .retired && g.st != .ending).getD false

end Sys2Proof.Claims

/-- R189, R190: `rngx` gives each active lane the word of its place in the next 32 of the generator's sequence; `rngx.seed` sets the
generator, of a v register or a latch from the lowest active lane (the model's reading, log entry 18), `rngx.st` reads it; with no active
lane none of them does anything. -/
def Obligations.Generators : Prop :=
  ∀ s g grp x, mayAct s g grp [x] = true → roomy grp 64 = true →
    (actives s grp x = 0 → ∀ i, i = .rngx x ∨ i = .rngxSeed x ∨ i = .rngxSt x →
      ∃ t, exec i s = .next t ∧ onlyChanged s t g [] [] [] ∧ wentOn s t g) ∧
    (actives s grp x ≠ 0 →
      (∃ t, exec (.rngx x) s = .next t ∧
        laneWritten s t g x (actives s grp x) false (fun l =>
          let w := stepsGen (l + 1) grp.gen
          (lo32 w ^^^ hi32 w).zeroExtend 64) ∧
        onlyChanged (withGen s g (stepsGen 32 grp.gen)) t g (laneDests x false) (laneKDests x) [] ∧ wentOn s t g) ∧
      (∃ t, exec (.rngxSeed x) s = .next t ∧
        onlyChanged (withGen s g (let v := wholeVal s (.group (issueMem s g grp x)) x.b
          if v = 0 then 1 else v)) t g [] [] [] ∧ wentOn s t g) ∧
      ∃ t, exec (.rngxSt x) s = .next t ∧ t.kreg g x.dst.toNat = grp.gen ∧ onlyChanged s t g [] [x.dst.toNat] [] ∧ wentOn s t g)

/-- R407 to R409: `mfsr` reads every special register into a k register; `mtsr` writes the trap vector, in a handler EPC, and clears
the flags of `gsr` that it writes as 1; `preack` tells whether a request is pending; `errw` emits a record. -/
def Sys2Proof.Claims.SpecialRegisters : Prop :=
  (∀ s g grp tm x v, mayAct s g grp [x] = true → actives s grp x ≠ 0 → Tbl.get? s.teams grp.team = some tm →
    (∀ n : BitVec 10, x.a = .num n → specialOf s g grp tm (s.ctxOfTeam grp.team) n.toNat = some v →
      ∃ t, exec (.mfsr x) s = .next t ∧ t.kreg g x.dst.toNat = v ∧ onlyChanged s t g [] [x.dst.toNat] [] ∧ wentOn s t g) ∧
    (∃ t, exec (.preack x) s = .next t ∧ t.kreg g x.dst.toNat = (if (s.ctx (s.ctxOfTeam grp.team)).request then 1 else 0) ∧
      regsKept s t g [] [x.dst.toNat] [] ∧ sameOthers s t g ∧ t.mem = s.mem ∧ wentOn s t g) ∧
    (v = uni64 s g false x.b →
      (x.dst = 0 → ∃ t, exec (.mtsr x) s = .next t ∧ fileKept s t g [] [] [] ∧ wentOn s t g ∧ vectorsOf t g =
        some (grp.tvec, grp.epc, grp.pdis && !v.getLsbD 15, grp.spin && !v.getLsbD 3, grp.jto && !v.getLsbD 1, grp.empty && !v.getLsbD 0)) ∧
      (x.dst = 1 → v.toNat % 4 = 0 → v = 0 ∨ (32 ≤ v.toNat ∧ v.toNat < 2 ^ 32) →
        ∃ t, exec (.mtsr x) s = .next t ∧ fileKept s t g [] [] [] ∧ wentOn s t g ∧
          vectorsOf t g = some (v, grp.epc, grp.pdis, grp.spin, grp.jto, grp.empty)) ∧
      (x.dst = 2 → grp.trap.isSome = true →
        ∃ t, exec (.mtsr x) s = .next t ∧ fileKept s t g [] [] [] ∧ wentOn s t g ∧
          vectorsOf t g = some (grp.tvec, v, grp.pdis, grp.spin, grp.jto, grp.empty)))) ∧
  ∀ s w x, partyActs s w x = true → ((s.core w.core).errwLast.all fun c => decide (c + 1024 ≤ s.now)) = true →
    (s.errLog.all fun r => decide ((r.getD 1 0).toNat + 1000000 ≤ s.ts)) = true → s.errLog.length < 65536 →
    ∃ t r, exec (.errw x) s = .next t ∧ partyWent s t w none ∧ t.errLog = s.errLog ++ [r] ∧ (t.core w.core).errwLast = some s.now ∧
      r.getD 0 0 = BitVec.ofNat 64 (0x01FF * 2 ^ 48 + 7 * 2 ^ 40 + s.nextSeq) ∧ r.getD 1 0 = BitVec.ofNat 64 s.ts ∧
      r.getD 5 0 = partyVal s w false x.b ∧ r.getD 7 0 = partyVal s w false x.a

/-- R388 to R390, R392, R405, R406: a user-route fault in a group enters the handler at the trap vector; with no vector, or in a
handler, the grid ends with status FAULT. Of the faults these of `trap`, `brk`, a jump, `eret` and `mtsr` are stated. -/
def Sys2Proof.Claims.TrapEntry : Prop :=
  ∀ i s g grp x code num detail addr after, groupFault s g grp i = some (x, code, num, detail, addr, after) →
    mayAct s g grp [x] = true → grp.pair = none → 1 ≤ s.cur.len → s.cur.len ≤ 3 → s.cur.lanes &&& grp.live ≠ 0 →
    s.asksPath g = false →
    (grp.tvec ≠ 0 → grp.trap = none → ∃ t, exec i s = .next t ∧ handlerBegun s t g grp code num detail addr after ∧
      fileKept s t g [] [] [] ∧ sameOthers s t g ∧ t.mem = s.mem) ∧
    ((grp.tvec = 0 ∨ grp.trap.isSome = true) → ∀ tm, Tbl.get? s.teams grp.team = some tm → gridRuns s tm.grid = true → s.nextSeq < 2 ^ 32 →
      s.cur.pc < 2 ^ 32 → grp.idx < 32 →
      ∃ t, exec i s = .next t ∧ gridFaulted s t tm.grid ∧
        recorded s t code (if grp.trap.isSome then grp.epc.toNat % 2 ^ 32 * 2 ^ 32 + detail else detail) s.cur.pc)

/-- R406: an `eret` in a handler waits, with its SKIP, for the other lanes of the handler; with the last of them every lane returns to
EPC, or past the instruction that faulted, with the trip tag it had. -/
def Sys2Proof.Claims.TrapReturn : Prop :=
  ∀ s g grp x f, mayAct s g grp [x] = true → grp.trap = some f →
    let act := actives s grp x
    let skips := if modBits x 4 1 = 1 then f.skips ||| act else f.skips
    let moved (l : Nat) : Lane :=
      if s.cur.lanes.getLsbD l && !act.getLsbD l then { grp.lane l with pc := BitVec.ofNat 32 s.nextPc } else grp.lane l
    ∃ t q, exec (.eret x) s = .next t ∧ Tbl.get? t.groups g = some q ∧ regsKept s t g [] [] [] ∧ sameOthers s t g ∧ sameOutside s t ∧
      (grp.live &&& f.x &&& ~~~(f.erets ||| act) ≠ 0 →
        q.trap = some { f with erets := f.erets ||| act, skips := skips } ∧ ∀ l, l < 32 → q.lane l = moved l) ∧
      (grp.live &&& f.x &&& ~~~(f.erets ||| act) = 0 →
        q.trap = none ∧ (∀ n, n ∈ q.latches → n.valid = false) ∧
        ∀ l, l < 32 → q.lane l =
          if (f.erets ||| act).getLsbD l ∧ grp.live.getLsbD l then
            { grp.lane l with
              pc := if skips.getLsbD l then lo32 grp.epc + 4 * BitVec.ofNat 32 (grp.ecause.toNat / 2 ^ 10 % 4) else lo32 grp.epc
              tag := (f.tags.getD l (0, false)).1, strict := (f.tags.getD l (0, false)).2, st := .run }
          else moved l)

/-- R46, R66, R386: a `sret` to a target that is no multiple of 4, or beyond 32 bits, ends the grid with status FAULT, with the record of
the fault; where an engine operation that the Wick has issued is under way, the Wick stops, and the grid ends once they are over. -/
def Sys2Proof.Claims.WickFaults : Prop :=
  ∀ s t tm x, wickActs s t tm = true → gridRuns s tm.grid = true → s.nextSeq < 2 ^ 32 → s.cur.pc < 2 ^ 32 →
    let v := (wickVal s t false x.a).toNat
    let faults (u : State) : Prop := gridFaulted s u tm.grid ∧
      if v % 4 ≠ 0 then recorded s u 0x0105 0 s.cur.pc else recorded s u 0x0106 0x17 s.cur.pc
    v % 4 ≠ 0 ∨ 2 ^ 32 ≤ v →
    (wickBusy s t = false → ∃ u, exec (.sret x) s = .next u ∧ faults u) ∧
    (wickBusy s t = true →
      ∃ u tm', exec (.sret x) s = .next u ∧ teamOnly s u t ∧ Tbl.get? u.teams t = some tm' ∧ tm' = { tm with wait := none, stop := tm'.stop } ∧
        tm'.stop.isSome = true ∧ exec (.teamEnd t) u = .next u ∧
        ∀ k : Core, (k.copies.isEmpty && k.demands.isEmpty && k.streams.isEmpty) = true →
          ∃ z, exec (.teamEnd t) (u.updCore (coreOfTeam t) fun _ => k) = .next z ∧ faults z)
namespace Sys2Proof.Claims

open Sys2Proof.Machine

/-! ### Firmware -/

/-- A party that may act, of a grid that the firmware context's launch unit started (R52, R384). -/
def firmActs (s : State) (w : Who) (x : Args) : Bool :=
  partyActs s w x && ((Tbl.get? s.teams (w.team s)).bind fun tm => Tbl.get? s.grids tm.grid).any fun g => g.ctx == 64 && g.parent.isNone

/-- A party that has gone on, whatever has become of others. -/
def partyStepped (s t : State) (w : Who) (d : Option (Nat × W64)) : Prop :=
  match w with
  | .group m => wentOn s t m.g ∧ regsKept s t m.g [] (d.toList.map (·.1)) [] ∧ (∀ p, d = some p → t.kreg m.g p.1 = p.2)
  | .wick u => ∃ tm, Tbl.get? t.teams u = some tm ∧ tm.wpc = s.nextPc ∧
      ∀ r, t.sreg u r = match d with
        | some (n, v) => if r = n then v else s.sreg u r
        | none => s.sreg u r

/-- The word of a buffer table. -/
def bufWord (s : State) (c n : Nat) : BitVec 256 := Tbl.get (s.ctx c).bufs n 0

/-- A name whose bits from one on, below FW, are zero, and whose context is zero where FW is set (R401). -/
def goodName (n low : Nat) : Bool := n / 2 ^ low % 2 ^ (41 - low) == 0 && (n / 2 ^ 41 % 2 == 0 || n / 2 ^ 58 == 0)

/-- The context and the buffer of a name. -/
def namedBuf (n : Nat) : Nat × Nat := (if n / 2 ^ 41 % 2 = 1 then 64 else n / 2 ^ 58 % 64, n / 2 ^ 42 % 2 ^ 16)

/-- A name of a scope of `tinv`, and the pages it covers (R415). -/
def scopeName (scope n : Nat) : Bool :=
  goodName n (if scope = 0 then 31 else 0) && (scope != 2 || n / 2 ^ 42 % 2 ^ 16 == 0)

/-- Whether a name of a scope covers a page name. -/
def coveredBy (scope n p : Nat) : Bool :=
  match scope with
  | 0 => p == n
  | 1 => p / 2 ^ 41 % 2 ^ 23 == n / 2 ^ 41 % 2 ^ 23
  | _ => p / 2 ^ 58 % 64 == n / 2 ^ 58 % 64 && p / 2 ^ 41 % 2 == n / 2 ^ 41 % 2

/-- The faults of a die. -/
def faultsOf (s : State) (d : Nat) : List FaultEntry := ((Tbl.get? s.dies d).map (·.faults)).getD []

/-- Whether a group is parked. -/
def groupParked (s : State) (g : Nat) : Bool := ((Tbl.get? s.groups g).map fun q => q.parked.isSome).getD false

/-- Whether an access of a party is parked on a page that a name of a scope covers. -/
def parkedUnder (s : State) (scope n : Nat) (p : Party) : Bool :=
  s.dies.any fun d => d.2.faults.any fun f => coveredBy scope n f.page.toNat && f.parked.contains p

/-- A register some places after a uniform one. -/
def regAfter (n : Nat) : Src → Src
  | .k r => .k (r + BitVec.ofNat 5 n)
  | .s r => .s (r + BitVec.ofNat 6 n)
  | .v r => .v (r + BitVec.ofNat 10 n)
  | y => y

/-- A word of device memory whose home answers, in a channel that has not failed, with no bad granule under it. -/
def goodWord (s : State) (k : Nat) : Bool :=
  ((keyDie k).all fun d => (s.die d).up) && !channelFailed s k && (granules k 8).all fun g => !s.poison.contains g && !s.badUE.contains g

/-- No grid has lines of code that could not be read at its launch. -/
def codeWhole (s : State) : Bool := s.grids.all fun p => p.2.holes.isEmpty

/-- A Wick of the firmware context at an operation on a context. -/
def opBegun (s : State) (v c : Nat) : State := s.updCtx c fun x => { x with ops := [(1, v)] }

end Sys2Proof.Claims

/-- R401, R413, R414, R431: `bufw` writes the entry of a buffer table, `mapw` the entry of a page map but for VERIFIED, at its home where no
granule is bad. The case of `bufw` that seals a buffer is not stated, nor that either lets a running grid's code be read which could
not be read at its launch (log entry 11). -/
def Sys2Proof.Claims.TableWrites : Prop :=
  ∀ s w x, firmActs s w x = true → codeWhole s = true →
    let n := (partyVal s w false x.a).toNat
    let c := (namedBuf n).1
    let b := (namedBuf n).2
    let e : BitVec 256 := partyVal s w false (regAfter 3 x.b) ++ partyVal s w false (regAfter 2 x.b) ++ partyVal s w false (regAfter 1 x.b) ++
      partyVal s w false x.b
    (goodName n 0 = true → bufBusy s c b = false → seals c (bufEntry s c b) (BufEntry.of e) = false →
      ∃ t, exec (.bufw x) s = .next t ∧ partyWent s t w none ∧ t.mem = s.mem ∧
        ∀ i j, bufWord t i j = if i = c ∧ j = b then e else bufWord s i j) ∧
    ∀ old k, goodName n 31 = true → hasMap c (bufEntry s c b) = true → pmapEntry s (bufEntry s c b) (n % 2 ^ 31) = some old →
      pmapKey s (bufEntry s c b) (n % 2 ^ 31) = some k → goodWord s k = true →
      ∃ t, exec (.mapw x) s = .next t ∧ partyWent s t w none ∧
        ∀ i, Memory.read t.mem i = storedByte s.mem [(k, toBytes ((partyVal s w false x.b &&& ~~~16#64) ||| (old &&& 16#64)).toNat 8)] i

/-- R396, R415: `tinv` with ACT 0 changes nothing; with ACT 1 it frees the fault-buffer entries that its name covers, and what was parked
on them, and nothing else, is parked no longer, but is to be issued again, in the order in which it was parked. -/
def Sys2Proof.Claims.Invalidations : Prop :=
  ∀ s w x, firmActs s w x = true →
    let n := (partyVal s w false x.a).toNat
    let scope := modBits x 4 2
    scope < 3 → scopeName scope n = true →
    (modBits x 6 2 = 0 → ∃ t, exec (.tinv x) s = .next t ∧ partyWent s t w none ∧ t.mem = s.mem ∧ t.dies = s.dies) ∧
    (modBits x 6 2 = 1 → ∃ t, exec (.tinv x) s = .next t ∧ partyStepped s t w none ∧ t.mem = s.mem ∧ t.errLog = s.errLog ∧
      (∀ d, faultsOf t d = (faultsOf s d).filter fun f => !coveredBy scope n f.page.toNat) ∧
      t.replay = (s.replay.map fun q => if parkedUnder s scope n q.1 then (q.1, true) else q) ∧
      ∀ g, groupParked t g = (groupParked s g && !(parkedUnder s scope n (0, g))))

/-- R416, R428: `pmig` moves a page's granules and then maps the page to its new frame, and gives 0; a buffer without a page map has no
page to migrate, which gives the failure code and a record. -/
def Sys2Proof.Claims.PageMigrations : Prop :=
  ∀ s v tm x, firmActs s (.wick v) x = true → Tbl.get? s.teams v = some tm →
    let n := (wickVal s v false x.a).toNat
    let e := bufEntry s (namedBuf n).1 (namedBuf n).2
    let p := n % 2 ^ 31
    let dst := wickVal s v false x.b
    goodName n 31 = true →
    (∀ old k s1 s2 u, hasMap (namedBuf n).1 e = true → readMapEntry s e p = .ok old s1 → readMapping s1 e p = .ok old s2 →
      mapsPage old = true → mapsPage dst = true → moveGranules e old dst (List.range 4096) s2 = .ok () u →
      u.teams = s.teams → pmapEntry u e p = some old → pmapKey u e p = some k → goodWord u k = true →
      ∃ t, exec (.pmig x) s = .next t ∧ partyStepped s t (.wick v) (some (x.dst.toNat, 0)) ∧
        ∀ i, Memory.read t.mem i = storedByte u.mem [(k, toBytes ((dst &&& ~~~16#64) ||| (old &&& 16#64)).toNat 8)] i) ∧
    (hasMap (namedBuf n).1 e = false → s.errLog.length < 65536 →
      ∃ t r, exec (.pmig x) s = .next t ∧ partyStepped s t (.wick v) (some (x.dst.toNat, 0x8000000000000003)) ∧ t.mem = s.mem ∧
        t.errLog = s.errLog ++ [r])

/-- R397, R398, R412: `halt.freeze` freezes a running context that is quiet, `halt.resume` lets a frozen one run, `halt.kill` ends one
whose copies have completed and every grid of it; in the other states they change nothing of it, and `halt.resume` none that a level 2
alarm froze (R466). -/
def Sys2Proof.Claims.Halts : Prop :=
  ∀ s w x, firmActs s w x = true →
    let c := (partyVal s w false x.a).toNat
    let k := s.ctx c
    c ≤ 63 → k.ops = [] →
    (k.st = .running → k.request = false → quiet s c = true →
      ∃ t, exec (.haltFreeze x) s = .next t ∧ partyStepped s t w none ∧ t.mem = s.mem ∧
        t.ctx c = { k with st := .frozen, request := false, reqAt := s.ts, quietTs := s.ts, quietAt := s.now } ∧
        ∀ g q, Tbl.get? t.groups g = some q → s.ctxOfTeam q.team = c → ∀ n, n ∈ q.latches → n.valid = false) ∧
    (k.st = .frozen → k.alarmFrozen = false →
      ∃ t, exec (.haltResume x) s = .next t ∧ partyStepped s t w none ∧ t.mem = s.mem ∧ t.ctx c = { k with st := .running, thaw := false }) ∧
    ((k.st = .running ∨ k.st = .frozen) → copiesLeft s c = false → s.grids.length < 2 ^ 25 - 1 →
      ∃ t, exec (.haltKill x) s = .next t ∧ partyStepped s t w none ∧ (t.ctx c).st = .ended ∧
        ∀ n g, Tbl.get? s.grids n = some g → g.ctx = c → g.st ≠ .retired → g.st ≠ .ending →
          ∃ h, Tbl.get? t.grids n = some h ∧ h.st = .ending ∧ h.status = 3) ∧
    (k.st ≠ .running → ∃ t, exec (.haltFreeze x) s = .next t ∧ partyWent s t w none ∧ t.ctx c = k ∧ t.mem = s.mem) ∧
    (k.st ≠ .frozen ∨ k.alarmFrozen = true → ∃ t, exec (.haltResume x) s = .next t ∧ partyWent s t w none ∧ t.ctx c = k ∧ t.mem = s.mem) ∧
    (k.st = .saved ∨ k.st = .ended → ∃ t, exec (.haltKill x) s = .next t ∧ partyWent s t w none ∧ t.ctx c = k ∧ t.mem = s.mem)

/-- R397, R399, R410, R411: `csave` of a frozen context writes its image, keeps it as SAVED and frees its teams; `crest` of such an image
lets the context run again; each gives the image's length. A context in another state gives BADCTX. The model's choices: what of a context
is kept beside its image, in `State.images`, and how `crest` knows its own image (log entry 7); the order and lengths of the records, and
where they are aligned (log entry 25). -/
def Sys2Proof.Claims.ContextImages : Prop :=
  ∀ s v tm x, firmActs s (.wick v) x = true → Tbl.get? s.teams v = some tm →
    (let c := (wickVal s v false x.a).toNat
     let ptr := (wickVal s v false x.b).toNat
     let k := s.ctx c
     let im := makeImage (opBegun s v c) c
     let bs := imageBytes c (overrunOf k) k.quietTs im.records
     let e := bufEntry s 64 (ptr / 2 ^ 48)
     ptr % 64 = 0 → c ≤ 63 → k.ops = [] →
     (k.st = .frozen → (e.valid = false ∨ e.malformed true = true ∨ ptr % 2 ^ 48 + bs.length ≤ e.length) →
       ∀ u, writeBytes (1, v) 64 ptr (bs.length / 256 + 1) 0 bs (opBegun s v c) = .ok () u → u.teams = s.teams → u.grids = s.grids →
       u.groups = s.groups →
       ∃ t, exec (.csave x) s = .next t ∧ partyStepped s t (.wick v) (some (x.dst.toNat, BitVec.ofNat 64 bs.length)) ∧
         (t.ctx c).st = .saved ∧ t.images = u.images ++ [im] ∧
         (∀ j q, Tbl.get? t.teams j = some q → s.ctxOfTeam j ≠ c) ∧ ∀ g q, Tbl.get? t.groups g = some q → s.ctxOfTeam q.team ≠ c) ∧
     (k.st = .saved ∨ k.st = .ended →
       ∃ t, exec (.csave x) s = .next t ∧ partyWent s t (.wick v) (some (x.dst.toNat, 0x8000000000000001)) ∧ t.mem = s.mem)) ∧
    (let ptr := (wickVal s v false x.a).toNat
     ptr % 64 = 0 → ∀ hb u, portRead (1, v) (2 ^ 40) 64 ptr 64 .read true s = .ok hb u →
     let word (i : Nat) : Nat := ofBytes ((hb.drop (8 * i)).take 8)
     let c := word 0 / 2 ^ 16 % 2 ^ 16
     word 0 % 2 ^ 16 = 1 → 80 ≤ word 1 → word 1 % 16 = 0 →
     ptr % 2 ^ 48 + word 1 ≤ (bufEntry u 64 (ptr / 2 ^ 48)).length → c ≤ 63 → (u.ctx c).ops = [] → (u.ctx c).st = .saved →
     ∀ bs u2 rs im mv z, readBytes (1, v) 64 ptr (word 1) (word 1 / 256 + 1) 0 (opBegun u v c) = .ok bs u2 →
       parseRecords (word 1 / 16) (bs.drop 64) = some rs →
       u2.images.reverse.find? (fun i => i.ctx == c && skeleton i.records == skeleton rs) = some im →
       recordsOk im rs = true → gridsTaken im u2 = false →
       restoreAll_ im rs (u2.now - im.time) (clustersOf im) { s := u2, teams := [], groups := [] } = some mv →
       finishRestore (1, v) im mv = .ok () z → (Tbl.get? z.teams v).isSome = true →
       ∃ t, exec (.crest x) s = .next t ∧ t.sreg v x.dst.toNat = BitVec.ofNat 64 (word 1) ∧
         (t.ctx c).st = (if (z.ctx c).alarmFrozen then .frozen else .running) ∧
         (t.ctx c).queue = im.queue)
namespace Sys2Proof.Claims

open Sys2Proof.Machine

/-! ### Bulk copies -/

/-- A party whose instruction nothing holds, though other registers may await results or tokens; `ks` are the registers it names by
number. -/
def partyReady (s : State) (w : Who) (x : Args) (ks : List Nat) : Bool :=
  match w with
  | .group m => (match Tbl.get? s.groups m.g with
      | some grp => grp.lanes.length == 32 && grp.latches.length == 6 && s.cur.by_ == .group m.g && (joinedPartner s grp).isNone &&
          grp.parked.isNone && !grp.debug && (lostLatch (grp.freshen [x] s.cur.lanes) [x]).isNone && !awaiting s grp [x] [] ks &&
          m == issueMem s m.g grp x && m.act != 0
      | none => false)
  | .wick t => (match Tbl.get? s.teams t with
      | some tm => s.cur.by_ == .wick t && tm.parked.isNone && !tokensPending s t (ks ++ [x.a, x.b, x.c].filterMap wsOf)
      | none => false)

/-- An address in the low 32 bits of a party's first operand. -/
def aAddr (s : State) (w : Who) (x : Args) : Nat := (lo32 (partyVal s w false x.a)).toNat

/-- Team-shared bytes of a party. -/
def sharedBytes (s : State) (w : Who) (addr n : Nat) : List Byte := Memory.readN s.mem ((Space.shared (w.team s)).key addr) n

/-- The kind, the number of slices and the signal of a copy instruction (R359, R370). -/
def copyOf (s : State) (w : Who) : Instr → Option (Args × Nat × W64 × Option (W64 × W64))
  | .bcp x => some (x, 0, partyVal s w false x.b, none)
  | .bcpMc x => some (x, 1, partyVal s w false x.b, none)
  | .bcpV x => some (x, 2, partyVal s w false x.b, none)
  | .wsig x => some (x, 3, 1, some (partyVal s w false x.b, partyVal s w false x.c))
  | _ => none

/-- A copy entry of a core. -/
def copyAt (s : State) (c e : Nat) : Option Copy := Tbl.get? (s.core c).copies e

/-- The intervals an entry of a core's range-lock table locks. -/
def lockedBy (s : State) (c e : Nat) : List LockIv := ((Tbl.get? (s.core c).locks e).map (·.ivs)).getD []

/-- Whether some intervals cover an interval. -/
def coveredIv (ivs : List LockIv) (h : LockIv) : Prop :=
  ∃ i, i ∈ ivs ∧ i.space = h.space ∧ i.unit = h.unit ∧ i.write = h.write ∧ i.lo ≤ h.lo ∧ h.hi ≤ i.hi

/-- The two words of a barrier of a team's shared memory (R366). -/
def barWords (s : State) (t off : Nat) : Nat × Nat :=
  (Memory.readLE s.mem ((Space.shared t).key off) 8, Memory.readLE s.mem ((Space.shared t).key (off + 8)) 8)

/-- The bytes of a barrier, from ARRIVED, EXPECT, the reserved bits, ARMED, PHASE and PENDING. -/
def barBytes (arrived expect rsv : Nat) (armed : Bool) (phase pending : Nat) : List Byte :=
  toBytes (arrived * 2 ^ 32 + expect) 8 ++ toBytes (rsv * 2 ^ 49 + (if armed then 2 ^ 48 else 0) + phase * 2 ^ 32 + pending) 8

/-- A barrier after bytes have arrived: those of it that were reserved leave PENDING (R367). -/
def barArrived (ws : Nat × Nat) (n reserved : Nat) : List Byte :=
  let arrived := ws.1 / 2 ^ 32 + n
  let full := arrived == ws.1 % 2 ^ 32
  barBytes arrived (ws.1 % 2 ^ 32) (ws.2 / 2 ^ 49) (!full)
    (if full then (ws.2 / 2 ^ 32 % 2 ^ 16 + 1) % 2 ^ 16 else ws.2 / 2 ^ 32 % 2 ^ 16) (ws.2 % 2 ^ 32 - reserved)

/-- Whether a barrier is armed and has room for some bytes. -/
def barRoom (ws : Nat × Nat) (n : Nat) : Bool :=
  ws.2 / 2 ^ 48 % 2 == 1 && decide (ws.1 / 2 ^ 32 + ws.2 % 2 ^ 32 + n ≤ ws.1 % 2 ^ 32)

/-- A barrier address of a party that passes its checks (R379). -/
def barOk (s : State) (w : Who) (x : Args) : Bool :=
  let a := aAddr s w x
  a % 16 == 0 && (areaOf s w).ok 0 a 16 && ((areaOf s w).lockHit s 0 a 16 true).isNone

/-- A copy of one slice, which reads on chip and writes on chip in its own team, about to move a block, no part of which has been moved
and which the step moves without a break (log entry 20). -/
def chipBlock (s : State) (core : Nat) (c : Copy) (d : Desc) (i : Nat) (b : Block) : Bool :=
  c.st == .running && c.kind != 2 && c.status == 0 && c.slices == [d] && decide (d.sspace < 2) && decide (d.dspace < 2) &&
    !c.moved.contains i && c.flying.isEmpty && c.part.isEmpty && s.split.isNone && blockOf c.slices i == some b && homeUp s d.sspace b.src && homeUp s d.dspace b.dst &&
    c.receivers == [((rankOf s c.team).1, c.team)] && coreOfTeam c.team == core

/-- What an address of a copy reads or writes. -/
def copyKey (c : Copy) (core space addr : Nat) : Nat :=
  ({ core := core, team := c.team, group := 0, shared := 0, spill := 0 } : Area).key space addr

/-- A register of a party that receives tokens: k in group code, s in Wick code. -/
def tokenVal (s : State) (p : Party) (n : Nat) : W64 := if p.1 = 0 then s.kreg p.2 n else s.sreg p.2 n

/-- A party of whose group or team the device has a record. -/
def hasParty (s : State) (p : Party) : Bool := if p.1 = 0 then (Tbl.get? s.groups p.2).isSome else (Tbl.get? s.teams p.2).isSome

/-- No access of a copy is under way at a remote device, none of it is parked, and it stands behind no other to be issued again; the
memory has its form. -/
def copyCalm (s : State) (p : Party) : Bool :=
  (s.txns.all fun t => t.2.party != p) && (s.replies.all fun r => r.party != p) && !standsBack s p && s.mem.wf

end Sys2Proof.Claims

/-- R358, R359, R361, R364, R377, R378: a copy instruction that passes its checks adds its slice to the collecting slot it names, or
opens it; the copy is held for its start once it has all its slices, its token is pending, and its bytes are locked. -/
def Obligations.CopyIssues : Prop :=
  ∀ i s w x kind count sig e, copyOf s w i = some (x, kind, count, sig) → partyActs s w x = true →
    let addr := aAddr s w x
    let bs := sharedBytes s w addr 64
    let d := Desc.of bs
    let t := w.team s
    let slot := if kind = 3 then none else openSlot (s.core w.core) t d.id
    let old := slot.bind fun e => copyAt s w.core e
    (Tbl.get? s.teams t).isSome = true → addr % 64 = 0 → (areaOf s w).ok 0 addr 64 = true → ((areaOf s w).lockHit s 0 addr 64 false) = none →
    descBad kind bs d ((old.map Copy.total).getD 0) = false → 1 ≤ count.toNat → count.toNat ≤ 33 →
    (old.map (sliceBad kind count.toNat d)).getD false = false → (kind = 1 → d.mask ≠ 0 ∧ d.mask < 2 ^ (rankOf s t).2) →
    sliceAddr w d s = none → (sig.bind fun g => signalCause w d g.1 s) = none →
    (slot = some e ∨ (slot = none ∧ freeCopy (s.core w.core) = some e)) → (∀ o, copyAt s w.core e = some o → o.st = .collecting) →
    ∃ u c, exec i s = .next u ∧ partyWent s u w none ∧ u.mem = s.mem ∧ copyAt u w.core e = some c ∧
      c.slices = ((copyAt s w.core e).map (·.slices)).getD [] ++ [d] ∧
      c.issuers = ((copyAt s w.core e).map (·.issuers)).getD [] ++ [(w.party, x.dst.toNat)] ∧
      c.st = (if c.slices.length = count.toNat then .held else .collecting) ∧
      (slot = none → c.kind = kind ∧ c.n = count.toNat ∧ c.team = t ∧ c.moved = [] ∧ c.bytes = 0 ∧ c.status = 0 ∧ c.refuse = 0 ∧
        c.signal = sig.map fun g => (d.dspace, g.1, g.2, false)) ∧
      tokenPending u w.party x.dst.toNat = true ∧ (∀ h, h ∈ lockedBy s w.core e → coveredIv (lockedBy u w.core e) h) ∧
      (∀ h, h ∈ sideIvs (w.eng s) d false → coveredIv (lockedBy u w.core e) h) ∧
      (kind ≠ 1 → ∀ h, h ∈ sideIvs (w.eng s) d true → coveredIv (lockedBy u w.core e) h)

/-- R360, R365, R367: a copy held for its start, in conflict with none before it and behind no other held one, starts; with BAREN it reserves its bytes at its
team's barrier, or is refused there. -/
def Sys2Proof.Claims.CopyStarts : Prop :=
  ∀ s core e c d, copyAt s core e = some c → c.st = .held → c.status = 0 → c.refuse = 0 → c.receivers = [] → c.kind ≠ 1 → s.mem.wf = true →
    startHeld (s.core core) e c = false → behindHeld (s.core core) c = false → c.slices.head? = some d →
    ∃ t, exec (.copyStart core e) s = .next t ∧ t.groups = s.groups ∧ t.teams = s.teams ∧
      (d.baren = false → t.mem = s.mem ∧
        (copyAt t core e).map (fun k => (k.st, k.receivers, k.refuse)) = some (.running, [((rankOf s c.team).1, c.team)], 0)) ∧
      (d.baren = true → barRoom (barWords s c.team d.bar) c.total = true →
        (copyAt t core e).map (fun k => (k.st, k.receivers, k.refuse)) = some (.running, [((rankOf s c.team).1, c.team)], 0) ∧
        let ws := barWords s c.team d.bar
        ∀ k, Memory.read t.mem k = storedByte s.mem [((Space.shared c.team).key d.bar,
          barBytes (ws.1 / 2 ^ 32) (ws.1 % 2 ^ 32) (ws.2 / 2 ^ 49) true (ws.2 / 2 ^ 32 % 2 ^ 16) (ws.2 % 2 ^ 32 + c.total))] k) ∧
      (d.baren = true → barRoom (barWords s c.team d.bar) c.total = false → s.errLog.length < 65536 → t.mem = s.mem ∧ (∃ r, t.errLog = s.errLog ++ [r]) ∧
        (copyAt t core e).map (fun k => (k.st, k.receivers, k.refuse)) = some (.running, [], 2 ^ (rankOf s c.team).1))

/-- R354, R367: a block of the copy whose turn it is moves from its source to its destination, here on chip, and is counted at the barrier; BYTES grows by what is
written. -/
def Sys2Proof.Claims.CopyBlocks : Prop :=
  ∀ s core e i c d b, copyAt s core e = some c → chipBlock s core c d i b = true → nextCopy s core = some e → copyCalm s (copyParty core e) = true →
    let bs := Memory.readN s.mem (copyKey c core d.sspace b.src) b.n
    let dst := (copyKey c core d.dspace b.dst, bs)
    let mid (off : Nat) : Nat := ofBytes ((List.range 8).map fun j => storedByte s.mem [dst] ((Space.shared c.team).key (off + j)))
    let ws := (mid d.bar, mid (d.bar + 8))
    (d.baren = true → barRoom ws 0 = true ∧ b.n ≤ ws.2 % 2 ^ 32) →
    ∃ t, exec (.copyBlock core e i) s = .next t ∧ t.groups = s.groups ∧ t.teams = s.teams ∧
      (copyAt t core e).map (fun k => (k.st, k.moved, k.bytes, k.status)) = some (.running, i :: c.moved, c.bytes + b.n, 0) ∧
      ∀ k, Memory.read t.mem k = storedByte s.mem (dst :: if d.baren then [((Space.shared c.team).key d.bar, barArrived ws b.n b.n)] else []) k

/-- R361, R370: a `wsig` that has moved all its bytes stores or adds its signal, here on chip; a copy that has moved everything and owes no
signal writes its completion record into the token, and its entry is free. -/
def Sys2Proof.Claims.CopyEnds : Prop :=
  ∀ s core e c d, copyAt s core e = some c → c.st = .running → c.flying = [] → c.slices = [d] → copyCalm s (copyParty core e) = true →
    (c.status ≠ 0 ∨ c.receivers = [] ∨ c.moved.length = c.blocks) →
    (∀ space addr v, c.signal = some (space, addr, v, false) → c.status = 0 → c.refuse = 0 → space < 2 → homeUp s space (lo32 addr).toNat = true →
      let key := copyKey c core space (lo32 addr).toNat
      ∃ t, exec (.wsigSignal core e) s = .next t ∧ (copyAt t core e).map (·.signal) = some (some (space, addr, v, true)) ∧
        ∀ k, Memory.read t.mem k = storedByte s.mem
          [(key, toBytes (if d.sigop = 1 then (Memory.readLE s.mem key 8 + v.toNat) % 2 ^ 64 else v.toNat) 8)] k) ∧
    (∀ p n, c.issuers = [(p, n)] → hasParty s p = true → d.baren = false → c.owesSignal = false →
      ∃ t, exec (.copyComplete core e) s = .next t ∧ copyAt t core e = none ∧ Tbl.get? (t.core core).locks e = none ∧ t.mem = s.mem ∧
        tokenPending t p n = false ∧
        tokenVal t p n = BitVec.ofNat 64 (c.seq % 2 ^ 16 * 2 ^ 48 + c.bytes % 2 ^ 40 * 2 ^ 8 + c.refuse * 2 ^ 4 +
          if c.status ≠ 0 then c.status else if c.refuse ≠ 0 then 1 else 0))

/-- R366, R367, R379: `abinit` arms a barrier and gives its phase, `abarr` counts bytes at one that has room for them, `abwait` goes on
once the phase is another. -/
def Sys2Proof.Claims.ArrivalBarriers : Prop :=
  ∀ s w x, partyActs s w x = true → barOk s w x = true →
    let off := aAddr s w x
    let key := (Space.shared (w.team s)).key off
    let ws := barWords s (w.team s) off
    let b := (partyVal s w false x.b).toNat
    let phase := ws.2 / 2 ^ 32 % 2 ^ 16
    (ws.2 / 2 ^ 48 % 2 = 0 → b ≠ 0 → b < 2 ^ 32 →
      ∃ t, exec (.abinit x) s = .next t ∧ partyWent s t w (some (x.dst.toNat, BitVec.ofNat 64 phase)) ∧
        ∀ k, Memory.read t.mem k = storedByte s.mem [(key, barBytes 0 b (ws.2 / 2 ^ 49) true phase 0)] k) ∧
    (barRoom ws b = true → w.owesPath s = false → ∃ t, exec (.abarr x) s = .next t ∧ partyWent s t w none ∧
        ∀ k, Memory.read t.mem k = storedByte s.mem [(key, barArrived ws b 0)] k) ∧
    (b % 2 ^ 16 ≠ phase → ∃ t, exec (.abwait x) s = .next t ∧ partyWent s t w none ∧ t.mem = s.mem)

/-- R363, R380, R381: `tokwait` copies the record of a token that is not pending, `tokwait.try` gives all ones for one that is; `bcancel`
ends a collecting copy with CANCELLED, stops one that runs unless its signal has been sent, and leaves a register that awaits nothing; `bpf` changes nothing. -/
def Sys2Proof.Claims.TokensOfCopies : Prop :=
  (∀ s w x, partyActs s w x = true →
    (∃ t, exec (.tokwait x) s = .next t ∧ partyWent s t w (some (x.dst.toNat, tokenVal s w.party (numOf x.a))) ∧ t.mem = s.mem) ∧
    ∃ t, exec (.bpf x) s = .next t ∧ partyWent s t w none ∧ t.mem = s.mem) ∧
  ∀ s w x n, x.a = .num n →
    (partyReady s w x [x.dst.toNat] = true → modBits x 4 1 = 1 → x.dst.toNat ≠ n.toNat → tokenPending s w.party n.toNat = true →
      ∃ t, exec (.tokwait x) s = .next t ∧ partyWent s t w (some (x.dst.toNat, BitVec.allOnes 64)) ∧ t.mem = s.mem) ∧
    (partyReady s w x [] = true →
      (copyOfToken (s.core w.core) w.party n.toNat = none → ∃ t, exec (.bcancel x) s = .next t ∧ partyWent s t w none ∧ t.mem = s.mem) ∧
      ∀ e c d, copyOfToken (s.core w.core) w.party n.toNat = some e → copyAt s w.core e = some c →
        (signalSent w.core e c s = false → c.st = .collecting → c.issuers = [(w.party, n.toNat)] → c.slices.head? = some d → d.baren = false → c.seq = 0 → c.bytes = 0 →
          c.refuse = 0 →
          ∃ t, exec (.bcancel x) s = .next t ∧ partyStepped s t w (some (n.toNat, 2)) ∧ copyAt t w.core e = none ∧
            Tbl.get? (t.core w.core).locks e = none ∧ tokenPending t w.party n.toNat = false ∧ t.mem = s.mem) ∧
        (signalSent w.core e c s = true → ∃ t, exec (.bcancel x) s = .next t ∧ partyWent s t w none ∧ copyAt t w.core e = some c ∧ t.mem = s.mem) ∧
        (signalSent w.core e c s = false → c.st ≠ .collecting → c.status = 0 →
          ∃ t, exec (.bcancel x) s = .next t ∧ partyWent s t w none ∧ (copyAt t w.core e).map (·.status) = some 2 ∧ t.mem = s.mem))
namespace Sys2Proof.Claims

open Sys2Proof.Machine

/-! ### Lantern streams and queues -/

/-- A stream of a core. -/
def streamAt (s : State) (core slot : Nat) : Option Stream := Tbl.get? (s.core core).streams slot

/-- The entries of a queue. -/
def entriesOf (s : State) (core q : Nat) : List QEntry := ((s.core core).queue q).entries

/-- A stream executes: neither it nor its team is to stop, no range of its core is locked but its own, and the core has its eight queues. -/
def streamActs (s : State) (core slot : Nat) (st : Stream) : Bool :=
  s.cur.by_ == .stream core slot && streamAt s core slot == some st && !st.stopReq && !teamOver s st.team && (s.core core).queues.length == 8 && s.mem.wf &&
    (s.core core).locks.all fun p => decide (64 ≤ p.1) && p.2.owner == slot

/-- The place of a stream after an execution: at the end of a loop's body its next trip begins, or it is left (R347). -/
def tripOf : List (Nat × Nat × Nat) → Nat → Nat × List (Nat × Nat × Nat)
  | [], pc => (pc, [])
  | (first, last, left) :: rest, pc =>
    if pc ≠ last then (pc, (first, last, left) :: rest)
    else if 2 ≤ left then (first, (first, last, left - 1) :: rest) else tripOf rest pc

/-- A stream goes on as one, past the end of a loop's body where it stands there; its team and groups are as they were. -/
def streamWent (s t : State) (core slot : Nat) (st : Stream) : Prop :=
  streamAt t core slot = some { st with pc := (tripOf st.loops st.pc).1, loops := (tripOf st.loops st.pc).2 } ∧
    t.groups = s.groups ∧ t.teams = s.teams

/-- A stream at its next instruction. -/
def nextUnit (s : State) (st : Stream) : Stream := { st with pc := st.pc + s.cur.len }

/-- A stream has ended: its queues are closed, its locks released (R336). -/
def streamOver (s t : State) (core slot : Nat) (st : Stream) (how : StreamSt) : Prop :=
  (streamAt t core slot).map (fun q => (q.st, q.xs, q.drops)) = some (how, st.xs, st.drops) ∧
    (∀ q, q < 8 → (t.core core).queue q =
      let u := (s.core core).queue q
      if u.st = .opened ∧ u.team = st.team ∧ u.stream = slot then { u with st := .closed } else u) ∧
    (∀ e, 64 ≤ e → ∀ l, Tbl.get? (t.core core).locks e = some l → l.owner ≠ slot) ∧ t.groups = s.groups ∧ t.mem = s.mem

/-- What the queues of a core hold after n entries have been taken from one and some put into another. -/
def queuesMoved (s t : State) (core qin n qout : Nat) (es : List QEntry) : Prop :=
  ∀ q, q < 8 → entriesOf t core q =
    (if q = qin then (entriesOf s core q).drop n else entriesOf s core q) ++ if q = qout then es else []

/-- An entry of a LANES and lane values. -/
def isEntry (e : QEntry) (n : Nat) (f : Nat → W32) : Prop := e.lanes = n ∧ ∀ l, l < 32 → Runs.val e.runs l = f l

/-- Accesses that read have moved on the counters that number an engine's accesses, and nothing else (R372). -/
def countedOn (s t : State) : Prop := t = { s with versions := t.versions }

/-- A field of the dst of lantern code. -/
def qField (x : Args) (lo n : Nat) : Nat := x.dst.toNat / 2 ^ lo % 2 ^ n

/-- The size of an element by FMT, and its value in a lane (R337, R339). -/
def elemSize (fmt : Nat) : Nat := if fmt = 0 ∨ fmt = 5 then 4 else if fmt = 1 ∨ fmt = 2 then 2 else 1
/-- An element as a lane value. -/
def elemLane (fmt v : Nat) : W32 := if fmt = 0 ∨ fmt = 5 then BitVec.ofNat 32 v else convertFmt (fmtOf fmt) Fmt.f32 .rn (BitVec.ofNat 32 v)

/-- The accesses of a list instruction: the list, the count, the base and the channels. -/
structure ListOp where
  space : Nat
  fmt : Nat
  ch : Nat
  list : W64
  count : W64
  base : W64

/-- The fields of `sgat` and `ssct`. -/
def listOp (st : Stream) (x : Args) : ListOp :=
  { space := qField x 8 2, fmt := qField x 5 3, ch := qField x 3 2 + 1, list := st.x (numOf x.a), count := st.x (numOf x.a + 1)
    base := st.x (numOf x.b) }

/-- Lanes of an element. -/
def ListOp.m (o : ListOp) : Nat := min 32 o.count.toNat
/-- The address of an index on chip. -/
def ListOp.at_ (o : ListOp) (l : Nat) : Nat := (o.list.toNat + 4 * l) % 2 ^ 32
/-- The index of a lane. -/
def ListOp.idx (o : ListOp) (s : State) (a : Area) (l : Nat) : Nat := Memory.readLE s.mem (a.key o.space (o.at_ l)) 4
/-- The address of an element on chip. -/
def ListOp.elem (o : ListOp) (s : State) (a : Area) (c l : Nat) : Nat :=
  (o.base.toNat + (o.idx s a l * o.ch + c) * elemSize o.fmt) % 2 ^ 32

/-- Every access of a list instruction is on chip, aligned and in its space. -/
def ListOp.ok (o : ListOp) (s : State) (a : Area) : Bool :=
  let good (addr n : Nat) : Bool := addr % n == 0 && a.ok o.space addr n && homeUp s o.space addr
  decide (o.space < 2) && (List.range o.m).all fun l =>
    good (o.at_ l) 4 && (List.range o.ch).all fun c => good (o.elem s a c l) (elemSize o.fmt)

/-- An element after an add (R340). -/
def addedTo (fmt n old v : Nat) : Nat :=
  if fmt = 5 then (old + v) % 2 ^ 32
  else if fmt = 0 then (fAdd .rn (BitVec.ofNat 32 old) (BitVec.ofNat 32 v)).toNat
  else atomOp (20 + fmt) false n old v 0

/-- The coordinates a record of a LIST gives, and the plan of its point (R302, R342). -/
def pointPlan (s : State) (w : Who) (h p : Handle) (k : Nat) : Option Plan :=
  let xs := (List.range h.dim).map fun c => p.value (arrayBytes s w p (k * p.cell + c * p.elem) p.elem)
  let is := (xs.mapIdx fun d v => h.coord d v).filterMap id
  if is.length = xs.length then h.plan 0 false true 0 (is.map fun i => BitVec.ofInt 32 i.1) else h.plan 0 false false 0 xs

/-- The handles of a point instruction: a voxel table or an octant tree, and a LIST, both on chip. -/
def pointArrays (s : State) (w : Who) (h p : Handle) : Bool :=
  chipArray s w h && chipArray s w p && p.typ == 6 && p.fmt == 0 && decide (h.dim ≤ p.ch)

/-- What `sxfm` makes of an entry, where its CTL is valid (R345). -/
def transformed (op ctl : Nat) (n : QEntry) : Option (Nat × (Nat → W32)) :=
  let v (l : Nat) : W32 := if l < n.lanes then Runs.val n.runs l else 0
  match op with
  | 0 =>
    if 256 ≤ ctl ∨ 4 < ctl % 8 ∨ 4 < ctl / 8 % 8 ∨ ctl % 8 = ctl / 8 % 8 then none
    else some (n.lanes, fun l =>
      if l < n.lanes then convertFmt (fmtOf (ctl % 8)) (fmtOf (ctl / 8 % 8)) (RM.of (ctl / 64 % 4)) (v l) else 0)
  | 1 => some (n.lanes, fun l => if l < n.lanes then fMul .rn (v l) (BitVec.ofNat 32 ctl) else 0)
  | 2 => some (5, fun l => if l < 5 then (packBlock (ctl % 256) (maskOf fun i => decide (i < n.lanes)) v).getD l 0 else 0)
  | _ => if ctl = 0 then some (32, unpackElem v) else none

/-- A value of lantern code: an x register, or a literal extended by its sign. -/
def streamVal (st : Stream) : Src → W64
  | .lit w => w.signExtend 64
  | .num n => st.x n.toNat
  | _ => 0

/-- The slots of a hash table on chip from one on whose keys are not zero. -/
def usedSlots (s : State) (w : Who) (h : Handle) (from_ : Nat) : List Nat :=
  (List.range (2 ^ h.logT)).filter fun i => decide (from_ ≤ i) && ofBytes (arrayBytes s w h (8 * i) 8) != 0

/-- The state in which the meaning of a party's instruction begins. -/
def issueBegun (s : State) (w : Who) (x : Args) : State :=
  match w with
  | .group m => begun s m.g [x]
  | .wick _ => s

/-- A parameter that `lrun` gives a stream in x register i: the registers of the issuer from that of its operand on (R349). -/
def paramAt (s : State) (w : Who) (x : Args) (i : Nat) : W64 :=
  let own (r : Nat) : W64 := match w with
    | .group m => s.kreg m.g r
    | .wick t => s.sreg t r
  if modBits x 4 4 < i then 0
  else match x.b with
    | .v r => own (r.toNat + i)
    | .k r => own (r.toNat + i)
    | .s r => s.sreg (w.team s) (r.toNat + i)
    | _ => 0

/-- The range of a lock descriptor: space, address, length and WR (R329, R330). -/
def lockOf (s : State) (w : Who) (x : Args) (l : Nat × Nat × Nat × Bool) : Nat × Nat × Nat × Bool :=
  let at_ := paramAt s w x l.2.1
  (l.1, if l.1 = 2 then at_.toNat else (lo32 at_).toNat, (paramAt s w x l.2.2.1).toNat, l.2.2.2)

/-- A group's queue, which its team owns. -/
def ownQueue (grp : Group) (u : Queue) : Bool := u.st != .free && u.team == grp.team

/-- The predicate of a queue instruction after it: in the active lanes those below a count (R352). -/
def predBelow (s t : State) (g : Nat) (x : Args) (act : Mask) (n : Nat) : Prop :=
  ∀ l, l < 32 → (t.pmask g (numOf x.b)).getLsbD l =
    if numOf x.b ≠ 0 ∧ act.getLsbD l then decide (l < n) else (s.pmask g (numOf x.b)).getLsbD l

end Sys2Proof.Claims

/-- R336, R345 to R347: `sput` pushes a ramp, `sxfm` takes an entry and pushes what it makes of it, or ends the stream where CTL is none;
`sloop` enters a loop or skips it; `send` ends the stream. That a CTL naming one format twice, or a format past the table, is none,
and that a literal is extended by its sign, are the model's choices (log entry 24). -/
def Sys2Proof.Claims.StreamControl : Prop :=
  ∀ s core slot st x, streamActs s core slot st = true →
    let st' := nextUnit s st
    let q := qField x 0 3
    ((entriesOf s core q).length < 64 →
      ∃ t e, exec (.sput x) s = .next t ∧ t.mem = s.mem ∧ queuesMoved s t core q 0 q [e] ∧
        isEntry e 32 (fun l => lo32 (st.x (numOf x.a) + BitVec.ofNat 64 l * streamVal st x.b)) ∧
        streamWent s t core slot (st'.setX (numOf x.a) (st.x (numOf x.a) + 32 * streamVal st x.b))) ∧
    (∀ n rest, entriesOf s core (qField x 3 3) = n :: rest → (if q = qField x 3 3 then rest else entriesOf s core q).length < 64 →
      (∀ m f, transformed (qField x 6 2) (streamVal st x.b).toNat n = some (m, f) →
        ∃ t e, exec (.sxfm x) s = .next t ∧ t.mem = s.mem ∧ queuesMoved s t core (qField x 3 3) 1 q [e] ∧ isEntry e m f ∧
          streamWent s t core slot st') ∧
      (transformed (qField x 6 2) (streamVal st x.b).toNat n = none →
        ∃ t, exec (.sxfm x) s = .next t ∧ streamOver s t core slot st .faulted)) ∧
    (∃ t, exec (.sloop x) s = .next t ∧ t.mem = s.mem ∧ (∀ q, q < 8 → entriesOf t core q = entriesOf s core q) ∧
      let n := (lo32 (st.x (numOf x.a))).toNat
      let last := unitAfter st.code (litOf x.b) st'.pc
      streamWent s t core slot (if n = 0 then { st' with pc := last } else { st' with loops := (st'.pc, last, n) :: st.loops })) ∧
    ∃ t, exec (.send x) s = .next t ∧ streamOver s t core slot st (if st.drops = 0 then .done else .overflow)

/-- R334, R339, R340: on chip, `sgat` pushes an entry for each channel of the elements its list names, and `ssct` adds the lanes of the
entries it takes into them; both advance the list. -/
def Sys2Proof.Claims.StreamLists : Prop :=
  ∀ s core slot st x, streamActs s core slot st = true →
    let o := listOp st x
    let a := areaOf s (.wick st.team)
    let q := qField x 0 3
    let after := ((nextUnit s st).setX (numOf x.a) (o.list + BitVec.ofNat 64 (4 * o.m))).setX (numOf x.a + 1) (o.count - BitVec.ofNat 64 o.m)
    (o.count = 0 → ∀ i, i = .sgat x ∨ i = .ssct x →
      ∃ t, exec i s = .next t ∧ t.mem = s.mem ∧ queuesMoved s t core q 0 q [] ∧ streamWent s t core slot (nextUnit s st)) ∧
    (o.count ≠ 0 → o.ok s a = true →
      ((entriesOf s core q).length + o.ch ≤ 64 →
        ∃ t es, exec (.sgat x) s = .next t ∧ t.mem = s.mem ∧ queuesMoved s t core q 0 q es ∧ es.length = o.ch ∧ streamWent s t core slot after ∧
          ∀ c, c < o.ch → ∃ e, es[c]? = some e ∧ isEntry e o.m fun l =>
            if l < o.m then elemLane o.fmt (Memory.readLE s.mem (a.key o.space (o.elem s a c l)) (elemSize o.fmt)) else 0) ∧
      (o.ch ≤ (entriesOf s core q).length →
        ∃ t, exec (.ssct x) s = .next t ∧ queuesMoved s t core q o.ch q [] ∧ streamWent s t core slot after ∧
          t.mem = (inOrder (fun n old v _ => addedTo o.fmt n old v) (elemSize o.fmt)
            (fun i => a.key o.space (o.elem s a (i / 32) (i % 32)))
            (fun i => ((((entriesOf s core q)[i / 32]?.map fun e => Runs.val e.runs (i % 32)).getD 0).toNat, 0))
            ((List.range (32 * o.ch)).filter fun i =>
              decide (i % 32 < o.m) && decide (i % 32 < ((entriesOf s core q)[i / 32]?.map (·.lanes)).getD 0)) s.mem).2))

/-- R341 to R344: `sdct` pushes the next row or tile of its walk, and ends the stream after the last; `svox.emit` pushes the words of the
next used slots, and ends it where there are none; `svox.ins` and `soct` put one point into a table or tree on chip. -/
def Sys2Proof.Claims.StreamWalks : Prop :=
  ∀ s core slot st x, streamActs s core slot st = true →
    let w : Who := .wick st.team
    let e := st.eng core slot s
    let h := takeHandle s st.team (numOf x.a)
    let p := takeHandle s st.team (numOf x.b)
    let c := numOf x.c
    let st' := nextUnit s st
    let q := qField x 0 3
    (∀ hd t i s1, h.ok (areaOf s w) = true → h.typ = 5 → Tbl.get st.walks h.num (0, 0) = (t, i) →
      (entriesOf s core q).length + (if qField x 3 1 = 1 then 33 else 2) ≤ 64 → h.dctHead e s = .ok (.ok hd) s1 →
      countedOn s s1 →
      (hd.nt ≤ t → ∃ u, exec (.sdct x) s = .next u ∧ streamOver s u core slot st (if st.drops = 0 then .done else .overflow)) ∧
      ∀ d s2, t < hd.nt → h.dctTile e hd t s1 = .ok (.ok d) s2 → countedOn s s2 → d.bad = false →
        let value (row j : Nat) : W32 := match d.entries.reverse.find? fun f => f.1 == row && f.2.1 == j with
          | some f => h.value f.2.2
          | none => 0
        (∀ r, qField x 3 1 = 0 → d.rows[i]? = some r →
          ∃ u a b, exec (.sdct x) s = .next u ∧ u.mem = s.mem ∧ queuesMoved s u core q 0 q [a, b] ∧
            isEntry a 2 (fun l => BitVec.ofNat 32 (if l = 0 then 32 * d.row + r else if l = 1 then 32 * d.col else 0)) ∧
            isEntry b 32 (value r) ∧
            streamWent s u core slot { st' with walks := Tbl.set st.walks h.num (if i + 1 < d.rows.length then (t, i + 1) else (t + 1, 0)) }) ∧
        (qField x 3 1 = 1 → i = 0 →
          ∃ u a es, exec (.sdct x) s = .next u ∧ u.mem = s.mem ∧ queuesMoved s u core q 0 q (a :: es) ∧ es.length = 32 ∧
            isEntry a 2 (fun l => BitVec.ofNat 32 (if l = 0 then 32 * d.row else if l = 1 then 32 * d.col else 0)) ∧
            (∀ r, r < 32 → ∃ b, es[r]? = some b ∧ isEntry b 32 (value r)) ∧
            streamWent s u core slot { st' with walks := Tbl.set st.walks h.num (t + 1, 0) })) ∧
    (chipArray s w h = true → h.typ = 2 → h.ch = 1 → h.fmt = 0 → h.fixed = false → (entriesOf s core (qField x 1 3)).length < 64 →
      let used := (usedSlots s w h (st.x c).toNat).take 32
      (used = [] → ∃ u, exec (.svoxEmit x) s = .next u ∧ streamOver s u core slot st (if st.drops = 0 then .done else .overflow)) ∧
      (used ≠ [] → ∃ u a, exec (.svoxEmit x) s = .next u ∧ u.mem = s.mem ∧ queuesMoved s u core (qField x 1 3) 0 (qField x 1 3) [a] ∧
        isEntry a used.length (fun l => if l < used.length then
          BitVec.ofNat 32 (ofBytes (arrayBytes s w h (8 * 2 ^ h.logT + 4 * used.getD l 0) 4)) else 0) ∧
        streamWent s u core slot (st'.setX c (BitVec.ofNat 64 (if used.length = 32 then used.getD 31 0 + 1 else 2 ^ h.logT))))) ∧
    (pointArrays s w h p = true → st.x (c + 1) = 1 → (st.x c).toNat < p.size 0 →
      let after := (st'.setX c (st.x c + 1)).setX (c + 1) 0
      ∀ pl, pointPlan s w h p (st.x c).toNat = some pl →
      (∀ f is, pl.fetches = [f] → f.is = some is →
        (h.typ = 2 → h.ch = 1 → h.fmt = 0 → h.fixed = false →
          let i := h.hash is
          let held := ofBytes (arrayBytes s w h (8 * i) 8)
          let word := 8 * 2 ^ h.logT + 4 * i
          let key (off : Nat) : Nat := (areaOf s w).key h.home (h.base + off)
          (held = 0 ∨ held = Handle.key is) →
          ∃ u, exec (.svoxIns x) s = .next u ∧ streamWent s u core slot after ∧ ∀ k, Memory.read u.mem k = storedByte s.mem
            [(key (8 * i), toBytes (Handle.key is) 8),
             (key word, toBytes (min (ofBytes (arrayBytes s w h word 4)) (st.x c).toNat) 4)] k) ∧
        (∀ r u, h.typ = 4 → (entriesOf s core q).length < 64 → h.insertOct e (tapTag 0 0) is h.depth 0 false s = .ok r u →
          countedOn { s with mem := u.mem } u →
          (∀ n, (r = .found n ∨ r = .new n) →
            ∃ v a, exec (.soct x) s = .next v ∧ v.mem = u.mem ∧ queuesMoved s v core q 0 q [a] ∧ streamWent s v core slot after ∧
              isEntry a 1 fun l => if l = 0 then BitVec.ofNat 32 ((if r = .new n then 2 ^ 31 else 0) + n % 2 ^ 31) else 0))) ∧
      ((∀ f, f ∈ pl.fetches → f.is = none) →
        (h.typ = 2 → h.ch = 1 → h.fmt = 0 → h.fixed = false →
          ∃ u, exec (.svoxIns x) s = .next u ∧ u.mem = s.mem ∧ streamWent s u core slot after) ∧
        (h.typ = 4 → (entriesOf s core q).length < 64 →
          ∃ u a, exec (.soct x) s = .next u ∧ u.mem = s.mem ∧ queuesMoved s u core q 0 q [a] ∧ streamWent s u core slot after ∧
            isEntry a 1 fun l => if l = 0 then 0xFFFFFFFF else 0)))

/-- R327, R334, R350, R351: the running stream whose turn it is executes the instruction at its PC, and past its last unit it ends; `lstop` stops a stream that
has nothing under way, and `lstat` gives a stream's status word, with STATE 15 where there is none. That PC in it counts units from the
first instruction, modulo 2^12, is the model's choice (log entry 24). -/
def Sys2Proof.Claims.StreamStates : Prop :=
  (∀ s core slot st, streamAt s core slot = some st → nextStream s core = some slot → (s.die (dieOfCore core)).up = true → st.stopReq = false → teamOver s st.team = false →
    (∀ o x n, st.pc < st.code.length → lanternAt st.code st.pc = some (o, x, n) →
      exec (.streamElement core slot) s =
        lanternExec o x { (s.updCore core fun k => { k with streamTurn := slot }) with
          replay := s.replay.filter (· != (streamParty core slot, true))
          cur := { Cur.idle with by_ := .stream core slot, pc := 64 + 4 * st.pc, len := n } }) ∧
    (st.code.length ≤ st.pc → (s.core core).queues.length = 8 →
      ∃ t, exec (.streamElement core slot) s = .next t ∧ streamOver s t core slot st (if st.drops = 0 then .done else .overflow))) ∧
  ∀ s w x, partyActs s w x = true → (s.core w.core).queues.length = 8 →
    let id := partyVal s w false x.a
    (∀ slot st, streamOf s w.core (w.team s) id = some slot → streamAt s w.core slot = some st →
      (st.st = .running → busyParty s (streamParty w.core slot) = false →
        ∃ t, exec (.lstop x) s = .next t ∧ partyWent s t w none ∧ (streamAt t w.core slot).map (·.st) = some .stopped ∧ t.mem = s.mem) ∧
      (st.st ≠ .running ∨ modBits x 4 1 = 0 →
        ∃ t, exec (.lstat x) s = .next t ∧ t.mem = s.mem ∧
          partyWent s t w (some (x.dst.toNat, BitVec.ofNat 64 (min st.drops (2 ^ 24 - 1) * 2 ^ 40 + st.seq % 2 ^ 16 * 2 ^ 16 + st.pc % 2 ^ 12 * 2 ^ 4 +
            match st.st with
            | .running => 0
            | .done => 1
            | .overflow => 2
            | .stopped => 3
            | .faulted => 4))) ∧
          streamAt t w.core slot = if st.st ≠ .running ∧ modBits x 5 1 = 0 then none else some st)) ∧
    (streamOf s w.core (w.team s) id = none →
      (∃ t, exec (.lstop x) s = .next t ∧ partyWent s t w none ∧ t.mem = s.mem) ∧
      ∃ t, exec (.lstat x) s = .next t ∧ partyWent s t w (some (x.dst.toNat, 15)) ∧ t.mem = s.mem)

/-- R328, R330, R332, R349: `lrun` in group or Wick code, of code that passes R338, takes a slot, its queues and an entry for each of its locks
that has a length, and gives the stream's number; with no slot or a queue in its way, or code that does not pass, it gives a failure
code. Not stated: the wait for entries that are not free. -/
def Sys2Proof.Claims.StreamStarts : Prop :=
  ∀ s w x, partyActs s w x = true → w.owesPath s = false →
    let t := w.team s
    let ptr := (partyVal s w false x.a).toNat
    ∀ r s', readStream w.party (s.ctxOfTeam t) ptr (issueBegun s w x) = .ok r s' → s'.groups = (issueBegun s w x).groups →
    s'.teams = s.teams → (∀ c, s'.core c = { s.core c with tcache := (s'.core c).tcache }) →
    let k := s.core w.core
    let failed (code : Nat) : Prop :=
      ∃ u, exec (.lrun x) s = .next u ∧ partyWent s u w (some (x.dst.toNat, BitVec.ofNat 64 (2 ^ 63 + code))) ∧ u.mem = s'.mem
    k.queues.length = 8 →
    (r = none → failed 3) ∧
    ∀ h code, r = some (h, code) →
      let blocked := (List.range 8).any fun q => (h.qmask / 2 ^ q % 2 == 1) && queueBusy t (k.queue q)
      (8 ≤ k.streams.length → failed 1) ∧
      (k.streams.length < 8 → blocked = true → failed 2) ∧
      ∀ slot, k.streams.length < 8 → blocked = false →
        (List.range 8).find? (fun n => (Tbl.get? k.streams n).isNone && !busyParty s' (streamParty w.core n)) = some slot →
        let locks := (h.locks.map (lockOf s w x)).filter fun l => l.2.2.1 ≠ 0
        k.entryWait = [] → locks.length ≤ (freeEntries k).length →
        ∃ u st, exec (.lrun x) s = .next u ∧ partyWent s u w (some (x.dst.toNat, BitVec.ofNat 64 st.id)) ∧ u.mem = s'.mem ∧
          streamAt u w.core slot = some st ∧ st.team = t ∧ st.st = .running ∧ st.code = code ∧ st.pc = 0 ∧ st.drops = 0 ∧ st.loops = [] ∧
          (∀ i, st.x i = paramAt s w x i) ∧
          (∀ q, q < 8 → (u.core w.core).queue q =
            if h.qmask / 2 ^ q % 2 = 1 then { st := .opened, team := t, stream := slot, entries := [] } else k.queue q) ∧
          (∀ e l, Tbl.get? k.locks e = some l → Tbl.get? (u.core w.core).locks e = some l) ∧
          ∀ l, l ∈ locks → ∃ e, 64 ≤ e ∧ Tbl.get? k.locks e = none ∧
            Tbl.get? (u.core w.core).locks e = some { ivs := [homeIv (w.eng s') l.1 l.2.1 l.2.2.1 l.2.2.2], owner := slot }

/-- R332, R352, R353: `qpop` takes entries from a queue of the team into registers, `qpeek` reads one, `qpush` puts a register's lanes at its
end; of a closed queue that is empty both clear the predicate. -/
def Sys2Proof.Claims.QueueMoves : Prop :=
  ∀ s g grp x, mayAct s g grp [x] = true → roomy grp 128 = true → actives s grp x ≠ 0 →
    let core := coreOfGroup g
    let q := numOf x.a
    let u := (s.core core).queue q
    let act := actives s grp x
    q < 8 → (s.core core).queues.length = 8 → ownQueue grp u = true → (u.entries.all fun e => Runs.wf e.runs) = true →
    (∀ n i, (n = modBits x 4 2 + 1 ∧ i = Instr.qpop x) ∨ (n = 1 ∧ i = .qpeek x) → x.dst.toNat + n ≤ 1024 → n ≤ u.entries.length →
      let ds := (List.range n).map (x.dst.toNat + ·)
      ∃ t, exec i s = .next t ∧ wentOn s t g ∧ sameOthers s t g ∧ t.mem = s.mem ∧
        fileKept s t g (if x.nwb then [] else ds) [] [numOf x.b] ∧
        (∀ j l, j < n → l < 32 → x.nwb = false → t.vlane g (x.dst.toNat + j) l =
          if act.getLsbD l then Runs.val ((u.entries[j]?.map (·.runs)).getD []) l else s.vlane g (x.dst.toNat + j) l) ∧
        predBelow s t g x act ((u.entries.head?.map (·.lanes)).getD 0) ∧
        (∃ z, t.latch0 g = some z ∧ z.valid = true ∧ ∀ l, l < 32 → Runs.val z.runs l =
          if act.getLsbD l then Runs.val ((u.entries[n - 1]?.map (·.runs)).getD []) l else s.vlane g (x.dst.toNat + (n - 1)) l) ∧
        queuesMoved s t core q (if i = .qpop x then n else 0) q []) ∧
    (u.entries = [] → ∀ i, (i = .qpop x ∧ u.st = .closed) ∨ i = .qpeek x →
      ∃ t, exec i s = .next t ∧ wentOn s t g ∧ sameOthers s t g ∧ t.mem = s.mem ∧ fileKept s t g [] [] [numOf x.b] ∧ predBelow s t g x act 0 ∧
        queuesMoved s t core q 0 q []) ∧
    (u.st = .opened → u.entries.length < 64 → (Who.group (issueMem s g grp x)).owesPath s = false →
      ∃ t e, exec (.qpush x) s = .next t ∧ wentOn s t g ∧ sameOthers s t g ∧ regsKept s t g [] [] [] ∧ t.mem = s.mem ∧
        queuesMoved s t core q 0 q [e] ∧ isEntry e (min 32 (lo32 (uni64 s g false x.c)).toNat) fun l => srcLane s g x.b l)
namespace Sys2Proof.Claims

open Sys2Proof.Machine

/-! ### The scheduler of a sub-core, timers -/

/-- A slot of a set meets a test, and of those that do it entered first; of equals it stands first (R80, R81). -/
def oldestIn (set : Tbl Nat) (p : Nat → Bool) (i : Nat) : Prop :=
  ∃ pre at_ post, set = pre ++ (i, at_) :: post ∧ p i = true ∧
    (∀ q, q ∈ pre → p q.1 = true → at_ < q.2) ∧ ∀ q, q ∈ post → p q.1 = true → at_ ≤ q.2

/-- The group in a slot of a sub-core has no JOINED partner. -/
def lonely (s : State) (c b i : Nat) : Bool :=
  ((Tbl.get? s.groups (c * 64 + b * 16 + i)).bind fun g => joinedPartner s g).isNone

/-- The sets of a sub-core. -/
def setsOf (s : State) (c b : Nat) : Option SubCore := (s.core c).subs[b]?

/-- A sub-core after one swap: a slot has left, a slot has come in, and nothing issues for three cycles (R80). -/
def swappedSets (now : Nat) (out in_ : Option Nat) (q r : SubCore) : Prop :=
  (∀ i, Tbl.get? r.active i = if in_ = some i then some now else if out = some i then none else Tbl.get? q.active i) ∧
    (∀ i, Tbl.get? r.pending i = if in_ = some i then none else if out = some i then some now else Tbl.get? q.pending i) ∧
    r.bubble = now + 3 ∧ r.last = q.last

/-- What one swap of a sub-core does: its sets, and the latches of the group that leaves; nothing else. -/
def swapDone (s t : State) (c b : Nat) (out in_ : Option Nat) : Prop :=
  t = { s with cores := t.cores, groups := t.groups } ∧
    (∀ q, setsOf s c b = some q → ∃ r, setsOf t c b = some r ∧ swappedSets s.now out in_ q r) ∧
    (∀ c' b', (c', b') ≠ (c, b) → setsOf t c' b' = setsOf s c' b') ∧
    ∀ g, Tbl.get? t.groups g = (Tbl.get? s.groups g).map fun q =>
      if out.map (fun o => c * 64 + b * 16 + o) = some g then
        { q with latches := q.latches.map (fun n => { n with valid := false }), protect := 0 } else q

/-- The candidate of a group after its yield by the count (R91, R92). -/
def countYielded (grp : Group) (c : Nat) (k : SubG) : SubG :=
  let p := ((lowest (grp.issueSet k)).map fun l => (grp.lane l).pc.toNat).getD 0
  let ahead (l : Nat) : Bool := (grp.issuable &&& k.lanes).getLsbD l && decide (p < (grp.lane l).pc.toNat)
  let low := (lanes32.filter ahead).foldl (fun a l => min a (grp.lane l).pc.toNat) (2 ^ 32)
  if grp.subs[c]? = some k then { k with back := 0, hprio := maskOf fun l => ahead l && (grp.lane l).pc.toNat == low } else k

end Sys2Proof.Claims

/-- R80, R81: a swap takes the oldest ready pending group in, and the waiting group that has been active longest out where no place is
free; an aged group takes the place of the active one that has been there longest and that R24 does not keep. Groups of JOINED
pairs move with their partners, of which the case of two free places is stated. -/
def Sys2Proof.Claims.SubcoreSwaps : Prop :=
  ∀ s c b q, setsOf s c b = some q → q.bubble ≤ s.now →
    let num (i : Nat) : Nat := c * 64 + b * 16 + i
    let ready (i : Nat) : Bool := groupReady s (num i)
    let aged (i : Nat) : Bool := decide (Tbl.get q.pending i 0 + 2048 < s.now) && ready i
    let waits (o : Nat) : Bool := groupWaits s (num o)
    let free (o : Nat) : Bool := !keptBy24 s (num o)
    (∀ i, (∀ j, j ∈ q.pending → aged j.1 = false) → oldestIn q.pending ready i →
      (lonely s c b i = true → q.active.length < 8 → ∃ t, exec (.swap c b) s = .next t ∧ swapDone s t c b none (some i)) ∧
      (lonely s c b i = true → 8 ≤ q.active.length → ∀ o, oldestIn q.active waits o → lonely s c b o = true →
        ∃ t, exec (.swap c b) s = .next t ∧ swapDone s t c b (some o) (some i)) ∧
      ∀ grp b' i' q', Tbl.get? s.groups (num i) = some grp → joinedPartner s grp = some (c * 64 + b' * 16 + i') → b' < 4 → i' < 16 → b' ≠ b →
        setsOf s c b' = some q' → q'.bubble ≤ s.now → (Tbl.get? q'.pending i').isSome = true → q.active.length < 8 → q'.active.length < 8 →
        ∃ t r r', exec (.swap c b) s = .next t ∧ t = { s with cores := t.cores } ∧ setsOf t c b = some r ∧ setsOf t c b' = some r' ∧
          swappedSets s.now none (some i) q r ∧ swappedSets s.now none (some i') q' r') ∧
    ∀ i, oldestIn q.pending aged i → lonely s c b i = true →
      (q.active.length < 8 → ∃ t, exec (.agedSwap c b) s = .next t ∧ swapDone s t c b none (some i)) ∧
      (8 ≤ q.active.length → ∀ o, oldestIn q.active free o → lonely s c b o = true →
        ∃ t, exec (.agedSwap c b) s = .next t ∧ swapDone s t c b (some o) (some i))

/-- R24, R89, R91, R92, R97, R102, R104, R108: the counts and timers of a group. A candidate yields at 32 backward branches; latch
protection ends after 64 instructions; a join record times out; sleeping lanes wake; a bounded wait, of a group with or without a partner, ends in a PAIR fault; the slot of a
group that has exited is freed. -/
def Sys2Proof.Claims.GroupTimers : Prop :=
  (∀ s g grp c k, Tbl.get? s.groups g = some grp → grp.subs[c]? = some k → 32 ≤ k.back → grp.issueSet k ≠ 0 →
    exec (.progressYield g c) s = .next (s.updGroup g fun q => { q with subs := q.subs.set c (countYielded grp c k), spin := true })) ∧
  (∀ s c b i q grp, setsOf s c b = some q → q.last = some i → Tbl.get? s.groups (c * 64 + b * 16 + i) = some grp → 64 < grp.protect →
    exec (.latchProtectionEnd c b) s = .next (s.updGroup (c * 64 + b * 16 + i) fun u => { u with protect := 0 })) ∧
  (∀ s g grp r, Tbl.get? s.groups g = some grp → ctxRuns s (s.ctxOfTeam grp.team) = true → grp.trap = none → grp.joins = [r] → r.late = false →
    r.start + r.kt < s.now → r.awaited &&& ~~~r.parked ≠ 0 → r.parked &&& ~~~grp.live = 0 →
    ∃ t q, exec (.joinTimeout g 0) s = .next t ∧ t = { s with groups := t.groups } ∧ sameOthers s t g ∧ regsKept s t g [] [] [] ∧
      Tbl.get? t.groups g = some q ∧ q.jto = true ∧
      (∀ l, l < 32 → q.lane l = if r.parked.getLsbD l then { grp.lane l with pc := r.target, st := .run } else grp.lane l) ∧
      q.joins = [{ r with late := true, awaited := r.awaited &&& ~~~r.parked, parked := 0 }]) ∧
  (∀ s g grp, Tbl.get? s.groups g = some grp → ctxRuns s (s.ctxOfTeam grp.team) = true →
    ∃ t, exec (.sleepExpire g) s = .next t ∧ t = { s with groups := t.groups } ∧ sameOthers s t g ∧ regsKept s t g [] [] [] ∧
      ∀ l, l < 32 → laneOf t g l =
        if (grp.lane l).st = .asleep ∧ (grp.lane l).wake ≤ s.now ∧ (grp.trap = none ∨ ∃ f, grp.trap = some f ∧ f.x.getLsbD l = true) then
          { grp.lane l with st := .run } else grp.lane l) ∧
  (∀ s g grp w cur k n, Tbl.get? s.groups g = some grp → ctxRuns s (s.ctxOfTeam grp.team) = true → grp.wait = some w →
    (w.kind = .pjoin ∨ w.kind = .gdrain ∨ ∃ c, w.kind = .pair c) → w.start + w.bound < s.now → fetchAt s g grp grp.lastSub = some (cur, k, n) →
    cur.pc = w.pc → grp.parked = none → cur.lanes &&& grp.live ≠ 0 → 1 ≤ cur.len → cur.len ≤ 3 → grp.trap = none → grp.tvec ≠ 0 →
    ∃ t, exec (.pairtimeout g) s = .next t ∧ handlerBegun { s with cur := cur } t g grp 0x0108 0 0 0 false ∧ sameOthers s t g ∧ t.mem = s.mem) ∧
  ∀ s g grp, Tbl.get? s.groups g = some grp → slotFreeable s g grp = true →
    ∃ t, exec (.groupSlotFree g) s = .next t ∧ Tbl.get? t.groups g = none ∧ sameOthers s t g ∧ t.teams = s.teams ∧ t.grids = s.grids ∧
      ∀ q, setsOf t (coreOfGroup g) (subOfGroup g) = some q →
        Tbl.get? q.active (slotOfGroup g) = none ∧ Tbl.get? q.pending (slotOfGroup g) = none
namespace Sys2Proof.Claims

open Sys2Proof.Machine

/-! ### Teams, grids and the host -/

/-- A team at its entry in a Wick context (R51, R56): its parameters are in s0 to s15, and its shared bytes read 0. -/
def teamBegun (t : State) (k n lin : Nat) (g : Grid) : Prop :=
  (∃ tm, Tbl.get? t.teams k = some tm ∧ tm.grid = n ∧ tm.lin = lin ∧ tm.wpc = g.header.wentry ∧ tm.wst = .run ∧ tm.children = [] ∧
    tm.dq = [] ∧ tm.dqClosed = false ∧ tm.mctx = none ∧ tm.shared = g.header.shared) ∧
  (∀ r, t.sreg k r = g.launch.params.getD r 0) ∧ ∀ a, a < 2 ^ 32 → Memory.read t.mem ((Space.shared k).key a) = 0

/-- A group at its entry (R8, R51, R189): every lane runs at GENTRY; registers, predicates and latches are clear. -/
def groupBegun (t : State) (k team idx : Nat) (h : Header) : Prop :=
  (∃ q, Tbl.get? t.groups k = some q ∧ q.team = team ∧ q.idx = idx ∧ q.quota = h.quota ∧ q.trap = none ∧ q.tvec = 0 ∧ q.pair = none ∧
    q.gen = BitVec.ofNat 64 (idx + 1) ∧ q.subs.map (·.lanes) = [BitVec.allOnes 32] ∧ (∀ n, n ∈ q.latches → n.valid = false) ∧
    ∀ l, l < 32 → (q.lane l).pc = BitVec.ofNat 32 h.gentry ∧ (q.lane l).st = .run ∧ (q.lane l).tag = 0 ∧
      q.tids.getD l 0 = BitVec.ofNat 32 (32 * idx + l)) ∧
  (∀ j l, l < 32 → t.vlane k j l = 0) ∧ (∀ r, t.kreg k r = 0) ∧ (∀ p, p ≠ 0 → t.pmask k p = 0) ∧
    ∃ q, setsOf t (coreOfGroup k) (subOfGroup k) = some q ∧
      ((Tbl.get? q.active (slotOfGroup k)).isSome = true ∨ (Tbl.get? q.pending (slotOfGroup k)).isSome = true)

/-- A grid ends for good: it is gone, or kept as retired for a parent that can still collect it (R55, R73). -/
def gridOver (s t : State) (n : Nat) (g : Grid) (status seq : Nat) : Prop :=
  (∀ m, m ≠ n → Tbl.get? t.grids m = Tbl.get? s.grids m) ∧
    if g.host = true ∨ g.collected = true then Tbl.get? t.grids n = none
    else (Tbl.get? t.grids n).map (fun q => (q.st, q.status, q.seq)) = some (.retired, status, seq)

/-- A kernel header read for a record, and the code with it, by accesses that change no memory, grid, context or group. -/
def kernelRead (z : State) (c : Nat) (r : LaunchRec) (h : Header) (code : Captured) : Prop :=
  ∃ hs v w, portRead (4, c) 0 c r.kernel 32 .read true z = .ok hs v ∧ headerFor r hs = some h ∧
    captureCode v (4, c) c r.kernel = .ok code w ∧ w.mem = z.mem ∧ w.grids = z.grids ∧ w.ctxs = z.ctxs ∧ w.groups = z.groups

/-- The grid of a record waits in its context's order of launches, under an identifier that no grid had. -/
def recordWaits (s t : State) (c : Nat) (r : LaunchRec) (h : Header) (code : Captured) : Prop :=
  ∃ n g, Tbl.get? s.grids n = none ∧ Tbl.get? t.grids n = some g ∧ (∀ m, m ≠ n → Tbl.get? t.grids m = Tbl.get? s.grids m) ∧
    (t.ctx c).queue = (s.ctx c).queue ++ [n] ∧ (t.ctx c).taking = none ∧ t.groups = s.groups ∧
    g.st = .waiting ∧ g.ctx = c ∧ g.launch = r ∧ g.header = h ∧ g.depth = 0 ∧ g.parent = none ∧ g.host = true ∧ g.status = 0 ∧
    g.code = code.bytes ∧ g.holes = code.holes ∧ g.bad = code.bad

/-- A context may take launch records (R444, R445). -/
def takesRecords (s : State) (c : Nat) : Bool :=
  s.stage == .s3 && (s.ctx c).created && ((s.ctx c).st == .running || (s.ctx c).st == .ended) && !(s.ctx c).alarmFrozen && !standsBack s (4, c)

/-- No granule of some bytes has an error, and their channel works (R427, R429, R430). -/
def cleanAt (s : State) (k n : Nat) : Bool :=
  !channelFailed s k && (granules k n).all fun g => !s.poison.contains g && !s.badUE.contains g && !s.badCE.contains g

/-- The key of a device address behind a decoder, where the die of its home answers and no error is met (R425, R440). -/
def windowKey (s : State) (h : Hdm) (d : Nat) : Option Nat :=
  (hdmKey s h d).bind fun k => if cleanAt s k 1 && ((keyDie k).all fun die => (s.die die).up) then some k else none

/-- The bytes of a host write, each with its key. -/
def windowBytes (s : State) (h : Hdm) (a : Nat) (bs : List Byte) : List (Nat × List Byte) :=
  (List.range bs.length).map fun i => ((windowKey s h (hdmAddr h a + i)).getD 0, [bs.getD i 0])

end Sys2Proof.Claims

/-- R54, R73, R102: a team whose Wick has ended, or whose grid a fault has ended, and whose groups and engine operations are over, ends: its
context, its groups and its shared bytes are free, its children belong to the grid, and the grid counts it. -/
def Sys2Proof.Claims.TeamEnds : Prop :=
  ∀ s k tm, Tbl.get? s.teams k = some tm → tm.stop = none → teamQuiet s k = true →
    (tm.killed = true ∨ (tm.wst = .ended ∧ (s.groupsOf k).all (fun p => p.2.live == 0 && p.2.pending.all fun q => !q.2.demand) = true)) →
    ∃ t, exec (.teamEnd k) s = .next t ∧ Tbl.get? t.teams k = none ∧ (∀ m, m ≠ k → Tbl.get? t.teams m = Tbl.get? s.teams m) ∧
      (∀ g q, Tbl.get? t.groups g = some q → q.team ≠ k) ∧
      (∀ g, (∀ p, p ∈ s.groups → p.1 = g → p.2.team ≠ k) → Tbl.get? t.groups g = Tbl.get? s.groups g) ∧
      (∀ a, a < 2 ^ 32 → Memory.read t.mem ((Space.shared k).key a) = 0) ∧ t.ctxs = s.ctxs ∧ t.errLog = s.errLog ∧
      ∀ n, (n ∉ tm.children → Tbl.get? t.grids n = (Tbl.get? s.grids n).map fun g =>
          if n = tm.grid then { g with placed := Tbl.erase g.placed tm.lin, ended := g.ended + 1 } else g) ∧
        (n ∈ tm.children → n ≠ tm.grid → Tbl.get? t.grids n = (Tbl.get? s.grids n).bind fun g =>
          if g.st = .retired then none else some { g with collected := true })

/-- R53, R55 to R58: the next grid of a context starts, or with no room for it ever retires with NORES; a die whose dispatcher has room
draws eight clusters of a grid's teams, or those that are left; a grid whose teams and children are over retires, and its DONE word is written. -/
def Sys2Proof.Claims.GridSteps : Prop :=
  ∀ s n g, Tbl.get? s.grids n = some g →
    (g.st = .waiting → (s.ctx g.ctx).queue.head? = some n → placing s g.ctx = true → (g.launch.serial = true → earlierRetired s g.ctx n = true) →
      (neverFits s g.ctx g.header g.launch.total = false →
        ∃ t, exec (.gridStart n) s = .next t ∧ Tbl.get? t.grids n = some { g with st := .running } ∧
          (∀ m, m ≠ n → Tbl.get? t.grids m = Tbl.get? s.grids m) ∧ (t.ctx g.ctx).queue = (s.ctx g.ctx).queue.drop 1 ∧ t.mem = s.mem ∧
          t.groups = s.groups ∧ t.teams = s.teams ∧ ∀ c l, l ∈ (t.core c).fcache → l.ctx ≠ g.ctx) ∧
      (neverFits s g.ctx g.header g.launch.total = true → g.launch.done = 0 → s.errLog.length < 65536 →
        (s.errLog.all fun r => decide ((r.getD 1 0).toNat + 1000000 ≤ s.ts)) = true →
        ∃ t r, exec (.gridStart n) s = .next t ∧ gridOver s t n g 5 s.nextSeq ∧ (t.ctx g.ctx).queue = (s.ctx g.ctx).queue.drop 1 ∧
          t.mem = s.mem ∧ t.errLog = s.errLog ++ [r] ∧
          r.getD 0 0 = BitVec.ofNat 64 (0x0307 * 2 ^ 48 + 3 * 2 ^ 40 + s.nextSeq) ∧ r.getD 7 0 = BitVec.ofNat 64 g.launch.num)) ∧
    (∀ die, g.st = .running → placing s g.ctx = true → g.header.coop = false → (s.die die).up = true → g.counter < g.launch.total →
      dieHasRoom s g die = true →
      let m := min (8 * g.header.cluster) (g.launch.total - g.counter)
      exec (.dispatcherRangeDraw n die) s =
        .next (s.updGrid n fun q => { q with counter := g.counter + m, grants := g.grants ++ [(die, g.counter, m)] })) ∧
    (canRetire s n g = true → (s.ctx g.ctx).st ≠ .frozen → (s.ctx g.ctx).st ≠ .saved →
      (g.launch.done = 0 → ∃ t, exec (.gridRetire n) s = .next t ∧ t = { s with grids := t.grids } ∧ gridOver s t n g g.status g.seq) ∧
      (∀ u, g.launch.done ≠ 0 → g.launch.done % 8 = 0 → standsBack s (doneParty g.ctx n) = false →
        portWrite (doneParty g.ctx n) 1 g.ctx g.launch.done (toBytes (g.seq % 2 ^ 32 * 2 ^ 32 + g.status) 8) .write true
          (s.replayed (doneParty g.ctx n)) = .ok () u →
        u.grids = s.grids → ∃ t, exec (.gridRetire n) s = .next t ∧ t.mem = u.mem ∧ t.groups = u.groups ∧ gridOver s t n g g.status g.seq))

/-- R48, R49, R51, R56, R57: a team of a one-team cluster granted to a die is placed on a core of the quad that has room for it, its groups
in free slots of sub-cores idx mod 4; a cooperative grid is placed whole, or not at all. Which core of the quad and which free Wick
context it is (`quadCores`, `freeWick`: the core with the most room, the lowest context), and which quads a cooperative grid goes to
(`placeAll`), are the model's choices (log entry 41). -/
def Sys2Proof.Claims.TeamPlacement : Prop :=
  (∀ s n g die quad lin c rest i, Tbl.get? s.grids n = some g → g.st = .running → placing s g.ctx = true → g.header.cluster = 1 →
    (g.grants.any fun p => p.1 == die && decide (p.2.1 ≤ lin) && decide (lin < p.2.1 + p.2.2)) = true → (s.die die).up = true → quad < 9 →
    framesFree s g.ctx 1 g.header = true → quadCores s g.header die quad = c :: rest → freeWick s c = some i →
    (s.core c).subs.length = 4 →
    ∃ t q, exec (.teamPlace n die quad lin) s = .next t ∧ Tbl.get? s.teams (c * 8 + i) = none ∧ teamBegun t (c * 8 + i) n lin g ∧
      (∀ m, m ≠ c * 8 + i → Tbl.get? t.teams m = Tbl.get? s.teams m) ∧
      (∀ k, (Tbl.get? s.groups k).isSome = true → Tbl.get? t.groups k = Tbl.get? s.groups k) ∧
      (∀ idx, idx < g.header.groups → ∃ slot, slot < 16 ∧ Tbl.get? s.groups (c * 64 + idx % 4 * 16 + slot) = none ∧
        groupBegun t (c * 64 + idx % 4 * 16 + slot) (c * 8 + i) idx g.header) ∧
      Tbl.get? t.grids n = some q ∧ Tbl.get? q.placed lin = some die ∧ q.counter = g.counter ∧
      (q.grants.any fun p => p.1 == die && decide (p.2.1 ≤ lin) && decide (lin < p.2.1 + p.2.2)) = false) ∧
  ∀ s n g, Tbl.get? s.grids n = some g → g.st = .running → placing s g.ctx = true → g.header.coop = true → g.counter = 0 →
    g.header.cluster ≠ 0 → g.launch.total % g.header.cluster = 0 →
    let all := placeAll n g.header.cluster (List.range (g.launch.total / g.header.cluster)) s
    (all = none → exec (.coopGridPlace n) s = .next s) ∧
    (all ≠ none → ∃ t q, exec (.coopGridPlace n) s = .next t ∧ Tbl.get? t.grids n = some q ∧ q.counter = g.launch.total ∧
      ∀ lin, lin < g.launch.total → ∃ k, Tbl.get? s.teams k = none ∧ teamBegun t k n lin g)

/-- R49, R50, R53, R55, R444, R445: the launch unit takes the next record of a launch buffer: CONSUMED advances, and the grid waits in the
context's order of launches; a record that fails R50 leaves a record BADREC instead. A record that has been taken, whose kernel could
not be read then, waits likewise once it can be. The grid keeps the kernel's code as `captureCode` reads it here: that this is where
it is fixed is the model's choice (log entries 11 and 42). -/
def Sys2Proof.Claims.RecordsTaken : Prop :=
  ∀ s c, takesRecords s c = true → s.mem.wf = true → s.grids.length < 2 ^ 25 - 2 →
    let s0 := s.replayed (4, c)
    let n := (s.ctx c).consumed
    (∀ r h code, (s.ctx c).taking = some r → kernelRead s0 c r h code →
      ∃ t, exec (.launchRecordTake c) s = .next t ∧ recordWaits s t c r h code ∧ (t.ctx c).consumed = n ∧ t.mem = s.mem) ∧
    ∀ hdr bs key, (s.ctx c).taking = none → readDevice s0 (s.ctx c) 0 1 = .ok hdr s0 → wordAt hdr 0 ≠ n → n + 1 < 2 ^ 64 →
      readDevice s0 (s.ctx c) (64 + 192 * (n % (s.ctx c).nslot)) 3 = .ok bs s0 →
      deviceKey s (s.ctx c).cgroup (s.ctx c).stripe ((s.ctx c).dframe * 2 ^ 17) = some key →
      ((keyDie key).all fun d => (s.die d).up) = true → cleanAt s (key + 8) 8 = true →
      let r := readRecord bs n
      let counted (t : State) : Prop := (t.ctx c).consumed = n + 1 ∧
        ∀ a, Memory.read t.mem a = storedByte s.mem [(key + 8, toBytes (n + 1) 8)] a
      (∀ u h code, recordOk bs r = true → consume s0 c (n + 1) = .ok () u →
        kernelRead (u.updCtx c fun x => { x with taking := some r }) c r h code →
        ∃ t, exec (.launchRecordTake c) s = .next t ∧ counted t ∧ recordWaits s t c r h code) ∧
      (recordOk bs r = false → r.done = 0 → s.errLog.length < 65536 →
        (s.errLog.all fun e => decide ((e.getD 1 0).toNat + 1000000 ≤ s.ts)) = true →
        ∃ t e, exec (.launchRecordTake c) s = .next t ∧ counted t ∧ t.grids = s.grids ∧ (t.ctx c).queue = (s.ctx c).queue ∧
          t.errLog = s.errLog ++ [e] ∧ e.getD 0 0 = BitVec.ofNat 64 (0x0306 * 2 ^ 48 + 3 * 2 ^ 40 + s.nextSeq) ∧
          e.getD 7 0 = BitVec.ofNat 64 n)

/-- R421, R440 to R443: the host reads and writes any number of bytes of its window, each at the place the decoder gives it; with ENABLE
clear, or at addresses behind no channel, it reads poison and a write is dropped, each with one record that names the device address; at
an address of no decoder, or before the start-up is over, nothing is accessed. A snoop, and a write of a read-only register, change
nothing; a write of a decoder register keeps its reserved bits. The management controller reads and writes through a port. That an access
outside every decoder is not done at all, that one record stands for a whole access, and the code XLATE of an address behind no channel are
the model's choices (log entry 35). -/
def Obligations.HostAccesses : Prop :=
  (∀ s a n h, s.stage = .s3 → hdmOf s a n = some h → (∀ i, i < n → (windowKey s h (hdmAddr h a + i)).isSome = true) →
    ∃ t, exec (.hostMemRead a n) s = .next t ∧ t = { s with hostReply := t.hostReply, hostPoison := false } ∧ t.hostReply.length = n ∧
      ∀ i k, i < n → windowKey s h (hdmAddr h a + i) = some k → t.hostReply[i]? = some (Memory.read s.mem k)) ∧
  (∀ s a bs h, s.stage = .s3 → s.mem.wf = true → hdmOf s a bs.length = some h →
    (∀ i, i < bs.length → (windowKey s h (hdmAddr h a + i)).isSome = true) →
    ∃ t, exec (.hostMemWrite a bs) s = .next t ∧ t = { s with mem := t.mem, dirty := t.dirty } ∧
      ∀ i, Memory.read t.mem i = storedByte s.mem (windowBytes s h a bs) i) ∧
  (∀ s a bs, s.stage ≠ .s3 ∨ hdmOf s a bs.length = none →
    exec (.hostMemRead a bs.length) s = .next s ∧ exec (.hostMemWrite a bs) s = .next s) ∧
  (∀ s a bs h, s.stage = .s3 → hdmOf s a bs.length = some h → bs ≠ [] →
    (∀ i, i < bs.length → hdmKey s h (hdmAddr h a + i) = none) → s.errLog.length < 65536 →
    ∃ t u r, exec (.hostMemRead a bs.length) s = .next t ∧ exec (.hostMemWrite a bs) s = .next u ∧ t.hostPoison = true ∧
      t.hostReply.length = bs.length ∧ t.mem = s.mem ∧ u.mem = s.mem ∧ t.errLog = s.errLog ++ [r] ∧ u.errLog = s.errLog ++ [r] ∧
      r.getD 0 0 = BitVec.ofNat 64 (0x0201 * 2 ^ 48 + 2 * 2 ^ 40 + 2 * 2 ^ 36 + 3 * 2 ^ 32 + s.nextSeq) ∧
      r.getD 5 0 = BitVec.ofNat 64 (hdmAddr h a)) ∧
  (∀ s a, exec (.snoop a) s = .next s ∧ ∀ v, exec (.registerWrite .readOnly v) s = .next s) ∧
  (∀ s n v, s.stage = .off ∨ s.hdms[n]? = none → exec (.registerWrite (.decoderBase n) v) s = .next s ∧
    exec (.registerWrite (.decoderSize n) v) s = .next s ∧ exec (.registerWrite (.decoderTarget n) v) s = .next s) ∧
  (∀ s n v d, s.stage ≠ .off → s.hdms[n]? = some d →
    exec (.registerWrite (.decoderBase n) v) s = .next { s with hdms := s.hdms.set n { d with base := (v >>> 28) <<< 28 } } ∧
    exec (.registerWrite (.decoderSize n) v) s = .next { s with hdms := s.hdms.set n { d with size := (v >>> 28) <<< 28 } } ∧
    exec (.registerWrite (.decoderTarget n) v) s =
      .next { s with hdms := s.hdms.set n { d with target := v &&& 0x000FFFFFFFFFFF01 } }) ∧
  (∀ s r, ∃ t, exec (.memoryPortAccess r) s = .next t ∧ (s.stage ≠ .s3 ∨ 64 < r.ctx → t = s)) ∧
  ∀ s c ptr, s.stage = .s3 → c ≤ 64 →
    (∀ n bs u, portRead (7, 0) 0 c ptr.toNat n .read false s = .ok bs u →
      ∃ t, exec (.memoryPortAccess { ctx := c, ptr := ptr, op := .read n }) s = .next t ∧ t.hostReply = bs ∧ t.hostPoison = false ∧
        t.mem = u.mem ∧ t.groups = u.groups) ∧
    ∀ bs u, portWrite (7, 0) 0 c ptr.toNat bs .write false s = .ok () u →
      ∃ t, exec (.memoryPortAccess { ctx := c, ptr := ptr, op := .write bs }) s = .next t ∧ t.mem = u.mem ∧ t.groups = u.groups
namespace Sys2Proof.Claims

open Sys2Proof.Machine

/-! ### Links and dies -/

/-- The pointer a packet names, and the party of its request. -/
def ptrOf (p : Packet) : Nat := p.buf * 2 ^ 48 + p.offset
/-- The party of a request that has arrived. -/
def askedBy (p : Packet) : Party := (8, p.src * 4096 + p.txid)

/-- A request that the device takes: start-up is over, it is for this device and names a tenant's buffer (R385), no earlier request of
its source is left to perform (R451), and a port is up for its answer. -/
def asks (s : State) (p : Packet) (op : Nat) : Bool :=
  s.stage == .s3 && p.dest == s.devId && decide (p.ctx < 64) && p.op == op && !p.reserved && firstOfSource p (intoInbox p s) && livePorts s != []

/-- A packet that has been performed has left the order of arrivals. -/
def departed (p : Packet) (s : State) : State := { s with inbox := s.inbox.filter fun q => !samePacket p q }

/-- One answer has been given to a port for a request, which is performed, with an OP and a guard tag, and what it says of a failure. -/
def repliedWith (s t : State) (p : Packet) (op aop offset : Nat) (guard : BitVec 80) (data : List Byte) : Prop :=
  t.inbox = (departed p (intoInbox p s)).inbox ∧
  ∃ pk n, t.outbox = s.outbox ++ [pk] ∧ portOf s false p.txid = some n ∧
    t.ports = Tbl.upd s.ports n (fun v => { v with waiting := v.waiting ++ [packetBytes pk] }) ∧ pk.op = op ∧ pk.dest = p.src ∧
    pk.src = s.devId ∧ pk.txid = p.txid ∧ pk.aop = aop ∧ pk.offset = offset ∧ pk.guard = guard ∧
    pk.payload = if data = [] then [] else compress data

/-- The VERSION of a packet. -/
def versionOf (p : Packet) : Nat := p.guard.toNat / 2 ^ 72 % 256

/-- A transaction over, with what its party receives (R372, R453). -/
def txnOver (s : State) (id : Nat) (t : Txn) (data : List Byte) (ok : Bool) (how seq : Nat) : State :=
  { s with txns := Tbl.erase s.txns id
           replies := s.replies ++ [{ party := t.party, tag := t.tag, ptr := t.ptr, data := data, ok := ok, how := how, seq := seq, version := t.version, ctx := t.ctx }] }

/-- A transaction that a packet answers. -/
def answers (s : State) (p : Packet) (t : Txn) : Bool :=
  Tbl.get? s.txns p.txid == some t && p.dest == s.devId && p.src == t.dev && t.party.1 != 9 && !p.reserved

/-- A trailer field of a flit. -/
def trailer (f : List Byte) (lo n : Nat) : Nat := ofBytes (f.drop 240) / 2 ^ lo % 2 ^ n
/-- The CRC of a flit is right (R446). -/
def flitSound (f : List Byte) : Bool := (crc32c (f.take 240 ++ f.drop 244)).toNat == trailer f 0 32

/-- A port after an acknowledgement: flits up to the one named are kept no longer, nor the packets that ended in them. -/
def ackedPort (v : VPort) (n : Nat) : VPort :=
  match v.unacked.findIdx? fun f => f.seq == n with
  | some i => { v with unacked := v.unacked.drop (i + 1)
                       packets := v.packets.filter fun p => (v.unacked.take (i + 1)).all fun f => f.seq != p.1 }
  | none => v

/-- A port that has taken a flit in order. -/
def tookFlit (v : VPort) (f : List Byte) (part : List Byte) : VPort :=
  ackedPort { v with rxSeq := (v.rxSeq + 1) % 4096, freed := v.freed + 1, credits := v.credits + trailer f 96 7, part := part } (trailer f 104 12)

/-- A packet that a flit has brought whole arrives, where it is for this device. -/
def arrivedPacket (bs : List Byte) (s : State) : State :=
  if (packetOf bs).dest = s.devId then intoInbox (packetOf bs) s else s

/-- The bytes of one packet that a flit can hold: a header with an OP that is not fill, and as much payload as it says. -/
def onePacket (bs : List Byte) : Bool :=
  decide (32 ≤ bs.length) && decide (bs.length ≤ 240) && ofBytes (bs.take 32) / 2 ^ 102 % 2 ^ 6 != 0 &&
    bs.length == 32 + ofBytes (bs.take 32) / 2 ^ 93 % 2 ^ 9

/-- A port that is down, with packets that wait. -/
def downPort (s : State) (v : VPort) (waiting : List (List Byte)) : VPort :=
  { VPort.fresh with lanes := v.lanes, since := v.since, downAt := s.ts, waiting := waiting }

/-- A record added to the log by a step, and its first and last words. -/
def oneRecord (s t : State) (code cls sev recov detail : Nat) : Prop :=
  ∃ r, t.errLog = s.errLog ++ [r] ∧
    r.getD 0 0 = BitVec.ofNat 64 (code * 2 ^ 48 + cls * 2 ^ 40 + sev * 2 ^ 36 + recov * 2 ^ 32 + s.nextSeq) ∧
    r.getD 1 0 = BitVec.ofNat 64 s.ts ∧ r.getD 7 0 = BitVec.ofNat 64 detail

/-- The log has room, and its records are older than a millisecond (R472). -/
def quietLog (s : State) : Bool :=
  decide (s.errLog.length < 65536) && s.errLog.all fun r => decide ((r.getD 1 0).toNat + 1000000 ≤ s.ts)

/-- A die holds no team and no core (R59, R454, R463). -/
def dieEmpty (t : State) (d : Nat) : Prop :=
  (∀ k, k / 8 / 36 = d → Tbl.get? t.teams k = none) ∧ ∀ c, c / 36 = d → Tbl.get? t.cores c = none

end Sys2Proof.Claims

/-- R372, R448, R451 to R453: a read, write, atomic or signal packet that is sound, is the first of its source to be performed, and passes its
checks is performed here, and answered under its TXID; a guard tag that fails leaves a record GUARDTAG and is answered by an error
packet, and nothing is written. The form of the error packet (AOP 2, OFFSET the record's SEQ, the detail word as data), a read's AOP 1
and 2 and an atomic's U in bit 6 of AOP are the model's choices (log entry 12). -/
def Sys2Proof.Claims.RemoteRequests : Prop :=
  ∀ s p,
    let q := askedBy p
    let r := intoInbox p s
    let bare : BitVec 80 := BitVec.ofNat 80 (versionOf p * 2 ^ 72)
    let tag (bs : List Byte) : BitVec 80 := BitVec.ofNat 80 (versionOf p * 2 ^ 72 + p.offset % 2 ^ 40 * 2 ^ 32 + (crc32c bs).toNat)
    let calm (u : State) : Prop := u.outbox = s.outbox ∧ u.ports = s.ports ∧ u.devId = s.devId ∧ u.inbox = r.inbox
    (∀ bs u, asks s p 1 = true → p.payload = [] → p.guard.toNat % 2 ^ 72 = 0 → p.len ≤ 256 → p.aop ≠ 1 →
      portRead q 0 p.ctx (ptrOf p) p.len (if p.aop = 2 then .exec else .read) true r = .ok bs u → calm u →
      ∃ t, exec (.remoteRead p) s = .next t ∧ t.mem = u.mem ∧ repliedWith s t p 2 0 p.offset (tag bs) bs) ∧
    (∀ bs u, asks s p 3 = true → packetData p p.len p.offset none = .ok bs → portWrite q 0 p.ctx (ptrOf p) bs .write true r = .ok () u → calm u →
      ∃ t, exec (.remoteWrite p) s = .next t ∧ t.mem = u.mem ∧ repliedWith s t p 4 0 p.offset bare []) ∧
    (∀ bs u old, asks s p 5 = true →
      let code := p.aop % 64
      let m := atomOperandBytes code p.len
      packetData p (m + if code = 7 then p.len else 0) p.offset none = .ok bs →
      portAtomic q 0 p.ctx (ptrOf p) p.len code (decide (p.aop / 64 % 2 = 1)) (ofBytes (bs.take m)) (ofBytes (bs.drop m)) true r = .ok old u → calm u →
      ∃ t, exec (.remoteAtomic p) s = .next t ∧ t.mem = u.mem ∧ repliedWith s t p 6 0 p.offset (tag (toBytes old p.len)) (toBytes old p.len)) ∧
    (∀ bs u, asks s p 7 = true → packetData p 8 p.offset none = .ok bs → calm u →
      (p.aop % 2 = 0 → portWrite q 0 p.ctx (ptrOf p) bs .write true r = .ok () u →
        ∃ t, exec (.signal p) s = .next t ∧ t.mem = u.mem ∧ repliedWith s t p 4 0 p.offset bare []) ∧
      ∀ old, p.aop % 2 = 1 → portAtomic q 0 p.ctx (ptrOf p) 8 0 false (ofBytes bs) 0 true r = .ok old u →
        ∃ t, exec (.signal p) s = .next t ∧ t.mem = u.mem ∧ repliedWith s t p 4 0 p.offset bare []) ∧
    (∀ d, asks s p 3 = true → packetData p p.len p.offset none = .error d → s.errLog.length < 65536 →
      ∃ t, exec (.remoteWrite p) s = .next t ∧ t.mem = s.mem ∧ oneRecord s t 0x0302 3 1 1 d ∧
        repliedWith s t p 8 2 s.nextSeq (BitVec.ofNat 80 (versionOf p * 2 ^ 72 + s.nextSeq % 2 ^ 40 * 2 ^ 32 + (crc32c (toBytes d 8)).toNat)) (toBytes d 8)) ∧
    ∀ i op, (i, op) ∈ [(Instr.remoteRead p, 1), (.remoteWrite p, 3), (.remoteAtomic p, 5), (.signal p, 7)] →
      s.stage = .s3 → p.dest = s.devId → p.op = op → firstOfSource p r = false → exec i s = .next r

/-- R371, R372, R448, R453: an answer of the device that was asked ends the transaction, with its data where its guard tag is right; an
error packet, and 10 ms without an answer, end it as failed. What the AOP and the OFFSET of an error packet say is the model's choice
(log entry 12). -/
def Sys2Proof.Claims.RemoteAnswers : Prop :=
  (∀ s p t, answers s p t = true →
    let place := t.ptr.toNat % 2 ^ 48
    (∀ i op, (i, op, t.op) ∈ [(Instr.readData p, 2, 1), (.atomicResult p, 6, 5)] → p.op = op →
      (∀ bs, packetData p t.n place (some t.version) = .ok bs → exec i s = .next (departed p (txnOver s p.txid t bs true 0 0))) ∧
      ∀ d, packetData p t.n place (some t.version) = .error d →
        exec i s = .next (departed p (txnOver s p.txid t [] false 2 (if t.party.1 = 3 then d else 0)))) ∧
    (p.op = 4 → t.op = 3 ∨ t.op = 7 → exec (.writeDone p) s = .next (departed p
      (if p.payload = [] ∧ p.guard.toNat % 2 ^ 72 = 0 ∧ versionOf p = t.version then txnOver s p.txid t [] true 0 0
        else txnOver s p.txid t [] false 2 0))) ∧
    (p.op = 8 → p.aop ≠ 2 → t.op ∈ [1, 3, 5, 7] →
      exec (.errorPacket p) s = .next (departed p (txnOver s p.txid t [] false (if p.aop = 1 then 1 else 0) p.offset)))) ∧
  ∀ s id t, Tbl.get? s.txns id = some t → t.party.1 ≠ 9 → t.sent + 10000000 ≤ s.ts →
    exec (.remoteTimeout id) s = .next (txnOver s id t [] false 0 0)

/-- R446 to R448, R451, R455: a port takes a sound flit in order, whose packet for this device arrives, and replays what is not acknowledged where
a NAK asks for it; it answers a broken flit by a NAK, and drops one out of order; one of whose flits has been replayed 8 times goes
down, and its traffic moves; a lane's failure leaves 4 lanes; a port that has retrained sends its traffic anew. As a turn begins, a
port sends a flit of what waits. That packets stay whole on the port they move to, that flits number anew after a retrain, and that a
NAK rides on the next flit, are the model's choices (log entry 33). -/
def Sys2Proof.Claims.LinkPorts : Prop :=
  ∀ s q v, Tbl.get? s.ports q = some v →
    let put (w : VPort) : State := { s with ports := Tbl.set s.ports q w }
    (∀ f, v.up = true → f.length = 256 →
      (flitSound f = false → exec (.flitReceive q f) s = .next (put { v with nak := true })) ∧
      (flitSound f = true → trailer f 116 12 ≠ v.rxSeq → exec (.flitReceive q f) s = .next s) ∧
      (flitSound f = true → trailer f 116 12 = v.rxSeq → v.part = [] → ofBytes (f.take 32) / 2 ^ 102 % 2 ^ 6 = 0 →
        let w := tookFlit v f []
        (trailer f 103 1 = 0 ∨ w.unacked = [] → exec (.flitReceive q f) s = .next (put w)) ∧
        (trailer f 103 1 = 1 → w.unacked ≠ [] → quietLog s = true → ∃ t, exec (.flitReceive q f) s = .next t ∧
          Tbl.get? t.ports q = some { w with unacked := w.unacked.map (fun g => { g with replays := g.replays + 1 })
                                             wire := w.wire ++ w.unacked.map (·.bytes), since := 0 } ∧
          oneRecord s t 0x0404 4 1 0 (w.since + w.unacked.length))) ∧
      (∀ bs, flitSound f = true → trailer f 116 12 = v.rxSeq → v.part = [] → onePacket bs = true →
        f.take 240 = bs ++ List.replicate (240 - bs.length) 0 → trailer f 103 1 = 0 → q < 36 →
        exec (.flitReceive q f) s = .next { arrivedPacket bs s with ports := Tbl.set s.ports q (tookFlit v f []) })) ∧
    (v.up = true → (v.unacked.any fun f => decide (8 ≤ f.replays)) = true → s.errLog.length < 65536 →
      let traffic := v.packets.map (·.2) ++ v.waiting
      ∃ t, exec (.linkdown q) s = .next t ∧ oneRecord s t 0x0401 4 1 1 (if q < 64 then q else q % 8) ∧
        (∀ r w rest, q < 36 → (livePorts s).filter (· != q) = r :: rest → Tbl.get? s.ports r = some w →
          Tbl.get? t.ports q = some (downPort s v []) ∧ Tbl.get? t.ports r = some { w with waiting := w.waiting ++ traffic }) ∧
        (36 ≤ q ∨ (livePorts s).filter (· != q) = [] → Tbl.get? t.ports q = some (downPort s v traffic))) ∧
    (v.up = true → v.lanes = 8 → quietLog s = true →
      ∃ t, exec (.laneFailure q) s = .next t ∧ Tbl.get? t.ports q = some { v with lanes := 4, since := 0 } ∧ oneRecord s t 0x0404 4 1 0 v.since) ∧
    (v.up = false → exec (.retrainComplete q 8) s =
      .next (put { VPort.fresh with up := true, lanes := 8, since := v.since, waiting := v.packets.map (·.2) ++ v.waiting })) ∧
    (v.up = true → v.cut = 0 → v.unacked.length < 512 → v.waiting.length ≤ 1 → (v.waiting.flatten).length ≤ 240 → v.nak = true ∨ v.waiting ≠ [] →
      let n := min 127 v.freed
      ∃ g, Tbl.get? (pumpPorts s).ports q = some { v with
          unacked := v.unacked ++ [{ seq := v.txSeq, bytes := g, replays := 0 }], txSeq := (v.txSeq + 1) % 4096
          packets := v.packets ++ v.waiting.map (v.txSeq, ·), waiting := [], nak := false, freed := v.freed - n, wire := [g] } ∧
        g.length = 256 ∧ g.take 240 = v.waiting.flatten ++ List.replicate (240 - (v.waiting.flatten).length) 0 ∧ flitSound g = true ∧
        trailer g 116 12 = v.txSeq % 4096 ∧ trailer g 104 12 = (v.rxSeq + 4095) % 4096 ∧ trailer g 103 1 = (if v.nak then 1 else 0) ∧
        trailer g 96 7 = n)

/-- R59, R454, R463: a die every link to which has been down for 1 ms is lost; it, and one that firmware resets, is down with nothing left on
it; DIELOST is recorded, a reset die's scratchpad reads 0; the grids it had teams of end, unless they are IDEM, whose teams are granted
to a survivor again, all of them to the die that leads the grid now, which is the model's choice (log entry 49). After 100 ms a die
stays lost. -/
def Sys2Proof.Claims.DieLosses : Prop :=
  ∀ s d, d < 8 →
    let gone (t : State) : Prop := (t.die d).up = false ∧ dieEmpty t d ∧ faultsOf t d = [] ∧
      ∀ n g, Tbl.get? s.grids n = some g → g.st = .running → ((g.grants.any fun p => p.1 == d) || g.placed.any fun p => p.2 == d) = true →
        (g.launch.idem = false ∨ g.header.coop = true → ∃ q, Tbl.get? t.grids n = some q ∧ q.st = .ending ∧ (q.status = 2 ∨ q.status = 3)) ∧
        (g.launch.idem = true → g.header.coop = false → g.parent = none → ∀ l, leaderOf t n = some l →
          ∃ q, Tbl.get? t.grids n = some q ∧ q.st = .running ∧ (∀ p, p ∈ q.placed → p.2 ≠ d) ∧ (∀ p, p ∈ q.grants → p.1 ≠ d) ∧
            ∀ lin, (lin, d) ∈ g.placed → (l, lin, 1) ∈ q.grants)
    (s.stage = .s3 → (s.die d).up = true → linksLost s d = true → ∃ t, exec (.dielost d) s = .next t ∧ gone t ∧
      (s.grids = [] → s.errLog.length < 65536 → oneRecord s t 0x0403 4 4 5 d)) ∧
    (s.stage = .s3 → (s.die d).gone = false → (s.die d).resetting = false →
      ∃ t, exec (.resetdie d) s = .next t ∧ gone t ∧ (t.die d).resetting = true ∧ (t.die d).resetAt = s.ts ∧
        ∀ a, a < Config.scratchBytes → Memory.read t.mem ((Space.scratch d).key a) = 0) ∧
    ((s.die d).resetting = true → (s.die d).resetAt + 100000000 ≤ s.ts →
      ∃ t, exec (.dieReturnTimeout d) s = .next t ∧ t = { s with dies := t.dies } ∧ t.die d = { s.die d with resetting := false, gone := true } ∧
        ∀ e, e ≠ d → t.die e = s.die e)
namespace Sys2Proof.Claims

open Sys2Proof.Machine

/-! ### Start-up, resets, monitors and the mailbox -/

/-- Every byte but the host's reads 0; the host's is as it was. -/
def onlyHostKept (s t : State) : Prop := ∀ k, Memory.read t.mem k = if 5 * 2 ^ 68 ≤ k then Memory.read s.mem k else 0

/-- What is left of a device without power: fuses, the firmware store unless an update was under way, and the model's own fields. -/
def withoutPower (s t : State) : State :=
  { State.reset with schedule := s.schedule, draws := s.draws, mem := t.mem, fwStore := if s.fwNew = [] then s.fwStore else []
                     keyHash := s.keyHash, minVersion := s.minVersion, retired := s.retired, startRetired := s.retired }

/-- LASTRST after a reset for a cause: of causes with no time between them in S0 the highest (R462; log entry 37). -/
def causeLeft (s : State) (cause : Nat) : Nat := if s.stage = .s0 ∧ s.ts = 0 then max cause s.lastRst else cause

/-- The temperature sensors that hold S0 after a reset: those that held it before, and on a thermal trip those at or above WARN, as
72 times the die plus the sensor (R462; log entry 31). -/
def heldBy (s : State) (cause : Nat) : List Nat :=
  let before := if s.stage = .s0 ∧ s.tripped = true then s.hot else []
  let hot := s.dies.flatMap fun d => (d.2.sensors.filter fun q => decide (q.1 < 48) && q.2.state != 0).map fun q => 72 * d.1 + q.1
  if cause = 5 then before ++ hot.filter fun n => !before.contains n else before

/-- A device that has been reset for a cause (R75, R462): the timestamp is 0, the error log stays, every other register of the device is
as at power-on, so the dies are down. -/
def wasReset (s t : State) (cause : Nat) : Prop :=
  onlyHostKept s t ∧ t.dies = [] ∧
    t = { withoutPower s t with now := s.now, ts := 0, errLog := s.errLog, nextSeq := s.nextSeq, suppressed := s.suppressed
                                lastRst := causeLeft s cause, tripped := cause == 5 || (s.stage == .s0 && s.tripped), hot := heldBy s cause }

/-- The boot log after some entries of step, result, argument and stage (R459). -/
def bootNotes (s : State) (es : List (Nat × Nat × Nat × Nat)) : List W64 :=
  s.bootLog ++ es.flatMap fun e =>
    [BitVec.ofNat 64 s.ts, BitVec.ofNat 64 (e.2.2.1 * 2 ^ 32 + e.2.1 * 2 ^ 16 + e.1 * 2 ^ 8 + e.2.2.2)]

/-- Start-up stops at a step with a code (R457, R458, R459). -/
def failedStart (s : State) (step code arg stage : Nat) : State :=
  { s with stage := .failed, bootErr := if s.bootErr = 0 then code else s.bootErr, fwValid := false, fwRunning := []
           bootLog := bootNotes s [(step, code, arg, stage)] }

/-- The records in the order of SEQ, which wraps past 0 (R472): those up to the last one's number come last in time but first in order. -/
def inSeqOrder (log : List ErrRec) : List ErrRec :=
  let seq (r : ErrRec) : Nat := (r.getD 0 0).toNat % 2 ^ 32
  let last := (log.getLast?.map seq).getD 0
  (log.filter fun r => decide (seq r ≤ last)) ++ log.filter fun r => decide (last < seq r)

/-- A sensor's point in the harmful direction (R464): upward for temperature, downward for voltage and process. -/
def harmful (n : Nat) (r p : BitVec 16) (trip : Bool) : Bool :=
  if n < 48 then (if trip then decide (p.toInt ≤ r.toInt) else decide (p.toInt < r.toInt))
  else if trip then decide (r.toNat ≤ p.toNat) else decide (r.toNat < p.toNat)

/-- A reading has returned past a point by 2 °C, 10 mV or 1 %. -/
def recovered (n : Nat) (r p : BitVec 16) : Bool :=
  if n < 48 then decide (r.toInt + 32 ≤ p.toInt)
  else if n < 64 then decide (p.toNat + 40 ≤ r.toNat) else decide (101 * p.toNat ≤ 100 * r.toNat)

/-- STATE after a reading: the highest whose point is crossed, or which has been entered and not left. -/
def sensorState (n : Nat) (q : Sensor) (r : BitVec 16) : Nat :=
  let in_ (i : Nat) (p : BitVec 16) : Bool := harmful n r p (i == 3) || (decide (i ≤ q.state) && !recovered n r p)
  if in_ 3 q.trip then 3 else if in_ 2 q.throttle then 2 else if in_ 1 q.warn then 1 else 0

/-- The sensor of a die as it stands. -/
def sensorOf (s : State) (d n : Nat) : Sensor := sensorAt s d n

/-- A reply of the mailbox that changes nothing else. -/
def repliedOnly (s : State) (code : MailCode) (data : List Byte) : State := { s with mailReply := { code := code, data := data } }

/-- A command in a stage that does not allow it is Unsupported (R468), once no other is under way. -/
def elseUnsupported (s : State) (i : Instr) (ok : Bool) : Prop :=
  s.stage ≠ .off → s.mailBusy = none → ok = false → exec i s = .next (repliedOnly s .unsupported [])

end Sys2Proof.Claims

/-- R2, R75, R461, R462, R469: power, and the resets of the host, the watchdog, a Function Level Reset before S3, and the RESET command: each but
loss of power begins at S0 with its cause; the error log survives all but power-on. A Function Level Reset at S3 zeroes memory, which
the boot log notes, and keeps training and the running firmware. The model's choices: what an FLR keeps beside those, and that it goes on
from S2 (log entry 29); the store that an interrupted update leaves empty (log entry 30); LASTRST of causes that arise together, and the
sensors that hold S0 (log entries 31 and 37). -/
def Obligations.DeviceResets : Prop :=
  ∀ s,
    (s.stage = .off → (∃ t, exec .poweron s = .next t ∧ onlyHostKept s t ∧ t = withoutPower s t) ∧
      ∀ i, i ∈ [Instr.hostreset, .watchdog, .flr, .reset] → exec i s = .next s) ∧
    (s.stage ≠ .off → exec .poweron s = .next s) ∧
    (∃ t, exec .powerLoss s = .next t ∧ onlyHostKept s t ∧ t = { withoutPower s t with stage := .off }) ∧
    (s.stage ≠ .off →
      (∃ t, exec .hostreset s = .next t ∧ wasReset s t 2) ∧ (∃ t, exec .watchdog s = .next t ∧ wasReset s t 4) ∧
      (s.stage ≠ .s3 → ∃ t, exec .flr s = .next t ∧ wasReset s t 3) ∧
      (s.mailBusy = none → ∃ t u, exec .reset s = .next t ∧ wasReset s u 7 ∧ t = repliedOnly u .success [])) ∧
    (s.stage = .s3 → s.bootLog.length < 512 → ∃ t, exec .flr s = .next t ∧ onlyHostKept s t ∧ t.stage = .s2 ∧ t.lastRst = 3 ∧ t.groups = [] ∧ t.teams = [] ∧
      t.grids = [] ∧ t.ctxs = [] ∧ t.poison = [] ∧ t.errLog = s.errLog ∧ t.fwStore = (if s.fwNew = [] then s.fwStore else []) ∧ t.fwNew = [] ∧ t.fwRunning = s.fwRunning ∧ t.fwValid = s.fwValid ∧
      t.bootLog = bootNotes s [(3, 0, 0, 1)] ∧ t.ports = s.ports ∧ t.devId = s.devId ∧ t.memActive = false ∧ t.ts = s.ts ∧ t.dirty = [] ∧ t.counters = [] ∧
      t.startRetired = s.startRetired ∧ ∀ d, (t.die d).up = (s.die d).up ∧ (t.die d).faults = [])

/-- R456 to R460, R462, R463: stage S0 checks the image and begins S1 with its digest as entry 0 of the attestation log, or fails with a code;
S1 zeroes memory, or fails at a channel that is not retired; S2 numbers cores and maps their rows, or fails, and reruns for one die; S3
makes the device usable and starts the firmware context. After a thermal trip S0 waits until every sensor is below WARN; BOOTERR keeps a
start's first code, and a failed start leaves no firmware valid. The model's choices: a stage whose turn it is not does nothing (log entry
26); the sensors that hold S0 (log entry 31); which cores are used, how they are numbered, and ARG of a core that fails (log entry 47).
`startRetired` holds the channels that were retired when the start began. -/
def Obligations.StartupStages : Prop :=
  ∀ s, s.bootLog.length < 400 →
    (∀ n, s.stage ≠ .s0 ∨ n ∉ [16, 8, 4] ∨ (s.tripped = true ∧ s.hot ≠ []) →
      exec (.stageS0 n) s = .next s) ∧
    (∀ bad, s.stage ≠ .s1 → exec (.stageS1 bad) s = .next s) ∧
    (∀ r, r.die = none → s.stage ≠ .s2 ∨ 768 ≤ r.devId ∨ (∀ d, d < 8 → (s.die d).up = true) → exec (.stageS2 r) s = .next s) ∧
    (∀ r d, r.die = some d → (s.die d).resetting = false → exec (.stageS2 r) s = .next s) ∧
    (∀ f, s.stage ≠ .s2 ∨ (∃ d, d < 8 ∧ (s.die d).up = false) → exec (.stageS3 f) s = .next s) ∧
    (∀ n, s.stage = .s0 → n ∈ [16, 8, 4] → (s.tripped = true → s.hot = []) →
      exec (.stageS0 n) s = .next
        (let e := imageError { s with cxlLanes := n } s.fwStore
         if e = 0 then
          { s with cxlLanes := n, stage := .s1, fwRunning := s.fwStore, fwValid := true, bootLog := bootNotes s [(1, 0, 0, 0)]
                   attLog := [{ ctx := 127, buf := 0, digest := imageDigest s.fwStore }] }
         else failedStart { s with cxlLanes := n } 1 e 0 0) ∧
      (s.fwStore.length < 256 → ∃ t, exec (.stageS0 n) s = .next t ∧ t.stage = .failed ∧ (s.bootErr = 0 → t.bootErr = 3))) ∧
    (∀ bad, s.stage = .s1 →
      ((∀ c, c ∈ bad → c ∈ s.startRetired ∨ 24 * 32 ≤ c) → ∃ t, exec (.stageS1 bad) s = .next t ∧ onlyHostKept s t ∧
        t = { s with mem := t.mem, poison := [], badUE := [], badCE := [], dirty := [], counters := [], stage := .s2, untrained := s.startRetired
                     bootLog := bootNotes s [(2, 0, 0, 1), (3, 0, 0, 1)] }) ∧
      (∀ c, c ∈ bad → c ∉ s.startRetired → c < 24 * 32 → ∃ e, e ∈ bad ∧ e ∉ s.startRetired ∧ e < 24 * 32 ∧
        exec (.stageS1 bad) s = .next (failedStart s 2 4 (e / 32) 1))) ∧
    (∀ r, s.stage = .s2 → r.die = none → r.devId < 768 → (∃ d, d < 8 ∧ (s.die d).up = false) →
      let ds := (List.range 8).filter fun d => !(s.die d).up
      (∀ a, coreFault r ds = some a → exec (.stageS2 r) s = .next (failedStart s 4 5 a 2)) ∧
      (coreFault r ds = none → (∃ d, d ∈ ds ∧ d ∈ r.linkDown) →
        ∃ t, exec (.stageS2 r) s = .next t ∧ t.stage = .failed ∧ t.fwValid = false ∧ (s.bootErr = 0 → t.bootErr = 6)) ∧
      (coreFault r ds = none → (∀ d, d ∈ ds → d ∉ r.linkDown) → ∃ t, exec (.stageS2 r) s = .next t ∧ t.stage = .s2 ∧
        (∀ d, d < 8 → (t.die d).up = true) ∧ t.mem = s.mem ∧
        (∀ d i p, d ∈ ds → i < 36 → (usedCores r d)[i]? = some p →
          t.core (d * 36 + i) = { Core.fresh with phys := p, rowMap := (goodRows r (d * 40 + p)).take 64, clkBase := s.now }) ∧
        (∀ k, k / 36 ∉ ds → t.core k = s.core k) ∧ (ds ≠ List.range 8 → t.devId = s.devId) ∧
        (ds = List.range 8 → t.devId = r.devId ∧ ∀ q, q < 36 → (Tbl.get? t.ports q).map (fun v => (v.up, v.lanes)) =
          some (if Tbl.get r.ports q 8 = 8 ∨ Tbl.get r.ports q 8 = 4 then (true, Tbl.get r.ports q 8) else (false, 0))))) ∧
    (∀ r d a, r.die = some d → (s.die d).resetting = true → coreFault r [d] = some a →
      exec (.stageS2 r) s = .next { s with bootLog := bootNotes s [(4, 5, a, 2)] }) ∧
    (∀ r d, r.die = some d → (s.die d).resetting = true → coreFault r [d] = none → d ∉ r.linkDown →
      ∃ t, exec (.stageS2 r) s = .next t ∧ t.stage = s.stage ∧ t.bootLog = bootNotes s [(4, 0, 0, 2), (5, 0, 0, 2), (6, 0, 0, 2)] ∧
        (t.die d).up = true ∧ (t.die d).resetting = false ∧
        (∀ i p, i < 36 → (usedCores r d)[i]? = some p →
          t.core (d * 36 + i) = { Core.fresh with phys := p, rowMap := (goodRows r (d * 40 + p)).take 64, clkBase := s.now }) ∧ t.mem = s.mem) ∧
    ∀ f, s.stage = .s2 → (∀ d, d < 8 → (s.die d).up = true) → quietLog s = true →
      ∃ t, exec (.stageS3 f) s = .next t ∧ t.stage = .s3 ∧ t.memActive = true ∧ (t.ctx 64).st = .running ∧ (t.ctx 64).created = true ∧
        (t.ctx 64).nslot = f.nslot ∧ (∀ c, c ≠ 64 → t.ctx c = s.ctx c) ∧ t.bootLog = bootNotes s [(8, 0, 0, 3)] ∧
        ((∀ k, deviceKey s f.cgroup f.stripe (f.dframe * 2 ^ 17) = some k → k % 32 = 0) →
          (s.lastRst = 1 → t.errLog = s.errLog) ∧ (s.lastRst ≠ 1 → oneRecord s t 0x0606 6 0 0 s.lastRst))

/-- R464, R465: a sample gives a sensor its reading and its state, a point left only by the hysteresis; once firmware runs, crossing WARN or
THROTTLE leaves a record, and a temperature at TRIP resets the device with cause 5 and holds S0 until it and every other that holds it
has been below WARN. A die's clocks step down while a temperature or voltage is above THROTTLE, and back up after; firmware steps every
die's down, with a record whose detail is 255, where the package draws too much: when it does is a free value, and the sensors that hold
S0, the hysteresis at TRIP and the clock as an event of its own are the model's choices (log entry 31). LASTRST is log entry 37. -/
def Sys2Proof.Claims.Sensors : Prop :=
  ∀ s d, s.stage ≠ .off → d < 8 →
    (∀ n r, n < 72 →
      let q := sensorOf s d n
      let st := sensorState n q r
      (∃ t, exec (.sensorSample d n r) s = .next t ∧
        ((q.state < 3 ∧ st < 3 ∨ 3 ≤ q.state ∧ 3 ≤ st ∨ 3 ≤ q.state ∧ n < 48 ∨ 64 ≤ n) →
          (sensorOf t d n).reading = r ∧ (sensorOf t d n).state = st ∧ (sensorOf t d n).trip = q.trip ∧ t.mem = s.mem ∧ t.groups = s.groups ∧
          (∀ m, m ∈ t.hot ↔ if s.stage = .s0 ∧ s.tripped = true ∧ n < 48 ∧ m = 72 * d + n then st ≠ 0 else m ∈ s.hot) ∧
          (∀ e m, (e, m) ≠ (d, n) → sensorOf t e m = sensorOf s e m) ∧
          (s.fwValid = false ∨ (st ≤ q.state) → t.errLog = s.errLog) ∧
          (s.fwValid = true → n < 64 → q.state = 0 → st = 1 → s.errLog.length < 65536 →
            oneRecord s t (if n < 48 then 0x0603 else 0x0602) 6 1 0 (n + r.toNat * 2 ^ 16)) ∧
          (s.fwValid = true → q.state = 1 → st = 2 → s.errLog.length < 65536 →
            oneRecord s t 0x0604 6 1 0 (n + (t.die d).steps * 2 ^ 8)))) ∧
      (n < 48 → q.state = 2 → st = 3 → s.errLog.length < 65536 → ∃ t u, exec (.sensorSample d n r) s = .next t ∧
        oneRecord s u 0x0601 6 5 6 (n + r.toNat * 2 ^ 16) ∧ u.mem = s.mem ∧ u.retired = s.retired ∧ t.lastRst = causeLeft s 5 ∧ t.tripped = true ∧ 72 * d + n ∈ t.hot ∧ t.stage = .s0 ∧
        t.errLog = u.errLog ∧ onlyHostKept s t)) ∧
    ∃ t, exec (.clockStep d) s = .next t ∧
      if (s.fwValid && Config.powerOver s.draws) = true then
        (s.errLog.length < 65536 → oneRecord s t 0x0604 6 1 0 255) ∧ t.mem = s.mem ∧ t.ctxs = s.ctxs ∧ t.groups = s.groups ∧
          ∀ e, e < 8 → t.die e = { s.die e with steps := min 6 ((s.die e).steps + 1) }
      else t = { s with dies := t.dies, draws := s.draws + 1 } ∧ (∀ e, e ≠ d → t.die e = s.die e) ∧
        let hot := (s.die d).sensors.any fun p => decide (p.1 < 64) && decide (2 ≤ p.2.state)
        t.die d = { s.die d with steps := if hot then min 6 ((s.die d).steps + 1) else max (s.die d).agedSteps ((s.die d).steps - 1) }

/-- R464, R466, R467: an alarm source acts at the level ALARMCFG gives it: a record, at level 2 every tenant context freezes, one that runs by
quiescing first, at level 3 the device resets with cause 6; a firmware that no longer matches entry 0 raises one. SETALARM keeps MESH, and does nothing once
LOCK is set; SETTHRESH takes points on the safe side of TRIP only; RESUMEALL ends what a level 2 alarm has frozen. The model's choices: the freeze flag
of a context that an alarm stops, and that RESUMEALL waits for what is under way on a context (log entry 28); the hysteresis and TRIP (log
entry 31); that SETALARM under LOCK answers Success (log entry 26); LASTRST of causes that arise together (log entry 37). -/
def Sys2Proof.Claims.Alarms : Prop :=
  ∀ s, s.stage ≠ .off → s.errLog.length < 65535 →
    (∀ src i, (src, i) ∈ [(AlarmSrc.mesh, 0), (.glitch, 1), (.monitor, 2), (.attest, 3)] →
      let level := max 1 (s.alarmCfg / 4 ^ i % 4)
      ∃ t, exec (.alarmSource src) s = .next t ∧
        (level = 1 → oneRecord s t 0x0501 5 6 0 i ∧ t.ctxs = s.ctxs ∧ t.alarmLvl = max s.alarmLvl 1) ∧
        (level = 2 → oneRecord s t 0x0502 5 6 7 i ∧ t.alarmLvl = max s.alarmLvl 2 ∧
          ∀ c, c < 64 → (t.ctx c).alarmFrozen = ((s.ctx c).alarmFrozen || (s.ctx c).created) ∧ (t.ctx c).st = (s.ctx c).st ∧
            (t.ctx c).request = ((s.ctx c).request || ((s.ctx c).created && (s.ctx c).st == .running))) ∧
        (level = 3 → oneRecord s t 0x0503 5 6 6 i ∧ t.lastRst = causeLeft s 6 ∧ t.stage = .s0 ∧ t.ctxs = [] ∧ t.attLog = [])) ∧
    ((s.fwValid = false ∨ (s.attLog.head?.map (·.digest)) = some (sm3 (imageBody s.fwRunning))) → exec .firmwareRemeasure s = .next s) ∧
    (s.fwValid = true → (s.attLog.head?.map (·.digest)) ≠ some (sm3 (imageBody s.fwRunning)) → s.alarmCfg / 64 % 4 = 1 →
      ∃ t, exec .firmwareRemeasure s = .next t ∧ t.errLog.length = s.errLog.length + 2 ∧ t.alarmLvl = max s.alarmLvl 1 ∧ t.ctxs = s.ctxs) ∧
    (∀ v, s.mailBusy = none → exec (.setalarm v) s = .next (repliedOnly
      (if s.alarmCfg / 256 % 2 = 1 then s else { s with alarmCfg := v.toNat / 4 % 128 * 4 + 3 }) .success [])) ∧
    (∀ d n w h, s.stage = .s3 → s.mailBusy = none →
      let q := sensorOf s d n
      let safe := d < 8 ∧ n < 72 ∧ harmful n w q.trip true = false ∧ harmful n h q.trip true = false
      (safe → ∃ t, exec (.setthresh d n w h) s = .next t ∧ t.mailReply = { code := .success, data := [] } ∧
        sensorOf t d n = { q with warn := w, throttle := h } ∧ t.errLog = s.errLog ∧ t.mem = s.mem) ∧
      (¬safe → exec (.setthresh d n w h) s = .next (repliedOnly s .invalidInput []))) ∧
    (s.stage = .s3 → s.mailBusy = none →
      (s.alarmLvl < 2 → exec .resumeall s = .next (repliedOnly s .success [])) ∧
      (2 ≤ s.alarmLvl → (∃ c, c < 64 ∧ (s.ctx c).ops ≠ []) → exec .resumeall s = .next s) ∧
      (2 ≤ s.alarmLvl → (∀ c, c < 64 → (s.ctx c).ops = []) → ∃ t, exec .resumeall s = .next t ∧ t.mailReply = { code := .success, data := [] } ∧ t.mem = s.mem ∧
        ∀ c, c < 64 → (t.ctx c).alarmFrozen = false ∧ ((s.ctx c).st = .frozen → (t.ctx c).st = .running))) ∧
    elseUnsupported s .resumeall (s.stage == .s3)

/-- R405, R427, R457, R460, R461, R467 to R469: the mailbox answers its commands: the status words, the logs, an image written and checked, a
fuse blown, the attestation log signed, a context created and destroyed; a command while another is under way does nothing yet; a
debugger resumes a group at EPC. The model's choices: the bytes of the replies to GETSTAT, GETLOG, GETBOOTLOG and ATTEST, and a command
that has to wait as one that does nothing (log entry 26); the resume as the debugger's only act (log entry 15). -/
def Obligations.MailboxCommands : Prop :=
  (∀ s i, s.stage ≠ .off → s.mailBusy ≠ none → i ∈ [Instr.getstat, .getbootlog, .reset, .resumeall] → exec i s = .next s) ∧
  (∀ s, s.stage ≠ .off → s.mailBusy = none →
    (∃ data, exec .getstat s = .next (repliedOnly s .success data) ∧ data.length = 16 + 8 * 72 * 8 ∧
      ofBytes (data.take 8) % 16 = (match s.stage with
        | .off => 0
        | .s0 => 0
        | .s1 => 1
        | .s2 => 2
        | .s3 => 3
        | .failed => 15) ∧
      (s.lastRst < 16 → s.alarmLvl ≤ 3 → ofBytes (data.take 8) / 2 ^ 32 % 16 = s.lastRst)) ∧
    (∀ a n, (n = 0 ∨ 64 < n → exec (.getlog a n) s = .next (repliedOnly s .invalidInput [])) ∧
      (1 ≤ n → n ≤ 64 → ∃ data, exec (.getlog a n) s = .next (repliedOnly s .success data) ∧
        data.drop 32 = (((inSeqOrder s.errLog).filter fun r => decide (a ≤ (r.getD 0 0).toNat % 2 ^ 32)).take n).flatMap fun r => r.flatMap fun w => toBytes w.toNat 8)) ∧
    exec .getbootlog s = .next (repliedOnly s .success (s.bootLog.flatMap fun w => toBytes w.toNat 8)) ∧
    (∀ off bs commit, s.stage = .s0 ∨ s.stage = .failed ∨ s.stage = .s3 → bs.length ≤ 4096 → off + bs.length ≤ 256 + 2 ^ 24 →
      let im := putGrow (if s.fwNew = [] then s.fwStore else s.fwNew) off bs
      let raised := if commit = true ∧ s.fwValid = true then max s.minVersion (imageField s.fwRunning 8 4) else s.minVersion
      exec (.fwupdate off bs false commit) s = .next (repliedOnly { s with fwNew := im, minVersion := raised } .success []) ∧
      exec (.fwupdate off bs true commit) s = .next (repliedOnly { s with fwStore := im, fwNew := [], minVersion := raised }
        (if imageError { s with minVersion := raised } im = 0 then .success else .fail) [])) ∧
    (∀ k c, s.stage = .s0 ∨ s.stage = .failed ∨ s.stage = .s3 → k < 24 → c < 32 →
      (s.retired.length < 32 → exec (.retire k c) s = .next (repliedOnly { s with retired := s.retired ++ [k * 32 + c] } .success [])) ∧
      (32 ≤ s.retired.length → ∃ t, exec (.retire k c) s = .next t ∧ t.mailReply = { code := .retireFull, data := [] } ∧ t.retired = s.retired)) ∧
    (∀ nonce, s.stage = .s3 → let log := s.attLog.flatMap fun a => toBytes (a.ctx + a.buf * 2 ^ 16) 8 ++ toBytes a.digest.toNat 32
      exec (.attest nonce) s = .next (repliedOnly s .success
        (log ++ toBytes (Config.sm2Sign (sm3 (toBytes nonce.toNat 32 ++ log))).toNat 64))) ∧
    (∀ nonce, elseUnsupported s (.attest nonce) (s.stage == .s3)) ∧
    (∀ c n f st g key, s.stage = .s3 → s.mem.wf = true → c < 64 → n ∈ [1, 2, 4, 8, 16, 32, 64, 128, 256, 512, 1024, 2048, 4096] → f < 2 ^ 36 → st ≤ 2 →
      g ≤ 32 → (s.ctx c).created = false → deviceKey s g st (f * 2 ^ 17) = some key → ((keyDie key).all fun d => (s.die d).up) = true → cleanAt s key 64 = true →
      ∃ t, exec (.ctxcreate c n f st g) s = .next t ∧ t.mailReply = { code := .success, data := [] } ∧ (t.ctx c).created = true ∧
        (t.ctx c).bufs = [] ∧ (t.ctx c).nslot = n ∧ (t.ctx c).consumed = 0 ∧ (∀ e, e ≠ c → t.ctx e = s.ctx e) ∧
        ∀ k, Memory.read t.mem k = storedByte s.mem [(key, toBytes (n * 2 ^ 128) 64)] k) ∧
    ∀ c, s.stage = .s3 → c < 64 → (s.ctx c).ops = [] → s.grids.length < 2 ^ 25 - 1 →
      ((∃ k e m, Tbl.get? (s.core k).copies e = some m ∧ m.ctx = c ∧ m.st ≠ .collecting) →
        ∃ t, exec (.ctxdestroy c) s = .next t ∧ t.mailBusy = some c ∧ t.mailReply = s.mailReply) ∧
      ((∀ p, p ∈ s.cores → ∀ q, q ∈ p.2.copies → q.2.ctx ≠ c) →
      ∃ t, exec (.ctxdestroy c) s = .next t ∧ t.mailReply = { code := .success, data := [] } ∧ (t.ctx c).st = .ended ∧
        (t.ctx c).created = false ∧ (t.ctx c).kd = 0 ∧ (t.ctx c).km = 0 ∧ (∀ a, a ∈ t.attLog → a.ctx ≠ c) ∧
        ∀ n g, Tbl.get? t.grids n = some g → g.ctx = c → g.st = .ending ∨ g.st = .retired)) ∧
  ∀ s g grp, Tbl.get? s.groups g = some grp → grp.debug = true →
    ∃ t, exec (.debuggerResume g) s = .next t ∧ t = { s with groups := t.groups } ∧ sameOthers s t g ∧ regsKept s t g [] [] [] ∧
      ((Tbl.get? t.groups g).map (·.debug)) = some false ∧
      ∀ l, l < 32 → laneOf t g l = if grp.lastX.getLsbD l ∧ l < grp.lanes.length then { grp.lane l with pc := lo32 grp.epc } else grp.lane l

/-! ### The machine as a whole -/

namespace Sys2Proof.Claims

open Sys2Proof.Machine

/-- The state in which a turn acts: the time until then has passed, nobody issues, ports have put on the wire what they have, and a
context that an alarm freezes stands still if it is quiet. -/
def atTurn (s : State) (t : Turn) (rest : List Turn) : State :=
  beginTurn { s with schedule := rest, now := s.now + t.cycles, ts := s.ts + t.ticks, cur := .idle, split := t.split }

/-- The first candidate of a sub-core takes part in issue and has fetched `cur`, whose bytes in the code of its grid decode to an
instruction or to the two of a P64. -/
def groupFetches (u : State) (c b : Nat) (cur : Cur) (d : Read) : Prop :=
  ∃ g k more grp tm gr rest, issueOrder u c b = (g, k) :: more ∧ (u.sub c b).bubble ≤ u.now ∧
    Tbl.get? (countYields u g k).groups g = some grp ∧ mayIssue (countYields u g k) g grp = true ∧ pairFree (countYields u g k) g grp = true ∧
    fetchAt (countYields u g k) g grp k = some (cur, true, []) ∧
    Tbl.get? u.teams grp.team = some tm ∧ u.gridOf tm = some gr ∧ cur.pc % 4 = 0 ∧
    decode .group true ((gr.codeAt u.now).drop cur.pc) = .ok (d, rest)

/-- The same for the Wick contexts of a core, of which t comes first. -/
def wickFetches (u : State) (c t : Nat) (cur : Cur) (d : Decoded) : Prop :=
  ∃ more tm gr rest, wickOrder u c = t :: more ∧ Tbl.get? u.teams t = some tm ∧ wickMay u t tm = true ∧
    wickFetch u t tm = some (cur, true, []) ∧ u.gridOf tm = some gr ∧ cur.pc % 4 = 0 ∧
    decode .wick true ((gr.codeAt u.now).drop cur.pc) = .ok (.one d, rest)

/-- The state in which the first candidate of a sub-core issues: the yields that R91 asks for are made, and its group, with a JOINED
partner, has no access to issue again (R396). -/
def issuingState (u : State) (c b : Nat) : State :=
  match issueOrder u c b with
  | (g, k) :: _ =>
    let v := countYields u g k
    (((Tbl.get? v.groups g).bind fun q => joinedPartner v q).toList).foldl (fun v p => v.replayed (0, p)) (v.replayed (0, g))
  | [] => u

/-- A team's grid runs in user mode: the firmware context's launch unit did not start it (R52, R384). -/
def userMode (s : State) (t : Nat) : Bool :=
  ((Tbl.get? s.teams t).bind fun tm => Tbl.get? s.grids tm.grid).all fun g => !(g.ctx == 64 && g.parent.isNone)

/-- The supervisor-only instructions. -/
noncomputable def supervisorOnly (x : Args) : List Instr :=
  [.csave x, .crest x, .haltFreeze x, .haltResume x, .haltKill x, .bufw x, .mapw x, .tinv x, .pmig x]

/-- Words that the spec writes out. -/
def sampleWords : List (Kind × List W32 × Decoded) :=
  [ (.group, [0x0300A201, 0x00204023], .instr (.iadd { Args.bare with dst := 10, a := .v 12, b := .k 3, mod := 0x10 })),
    (.group, [0x0080A40D, 0x0C609001], .instr (.ffma { Args.bare with pred := 3, dst := 10, a := .v 2, b := .latch 1, c := .k 4 })),
    (.group, [0x400905C0], .instr (.cvtFiC32 { Args.bare with dst := 5, a := .v 9, mod := 0x4 })),
    (.group, [0x00C0C803, 0, 0x40], .instr (.ld { Args.bare with dst := 12, a := .v 3, b := .lit 0x40 })),
    (.wick, [0x00C00153, 0, 0xFFFFFFFA], .instr (.sbr { Args.bare with a := .v 3, b := .lit 0xFFFFFFFA })),
    (.lantern, [0x01000C8D, 0x00000005], .late .svoxIns { Args.bare with a := .num 4, b := .num 5, c := .num 0 }),
    (.group, [0x00000E05, 0x00004000], .instr (.eret { Args.bare with mod := 0x10 })),
    (.wick, [0x01000E39, 0x00010000], .late .tinv { Args.bare with a := .v 4, mod := 0x40 }) ]

end Sys2Proof.Claims

/-- R440, R451, R456, R462, R463, R466 and log entry 3: what the device holds at power-on. Nothing is resident, no context is created, no
error is logged, memory is empty and inactive, the alarm registers hold 0 and 0xAF, and the cause is POWERON. -/
def Obligations.ResetValues : Prop :=
  let s := State.reset
  s.stage = .s0 ∧ s.lastRst = 1 ∧ s.tripped = false ∧ s.bootErr = 0 ∧ s.alarmLvl = 0 ∧ s.alarmCfg = 0xAF ∧ s.memActive = false ∧ s.errLog = [] ∧
  s.groups = [] ∧ s.teams = [] ∧ s.grids = [] ∧ (∀ c, (s.ctx c).created = false) ∧ (∀ d, (s.die d).up = false) ∧
  (∀ p, ((Tbl.get? s.ports p).getD VPort.fresh).up = false) ∧ s.hdms.length = 4 ∧
  (∀ h, h ∈ s.hdms → h.base = 0 ∧ h.size = 0 ∧ h.target = 0) ∧ ∀ k, Memory.read s.mem k = 0

/-- The memory at power-on has the canonical form. -/
def Obligations.ResetForm : Prop := State.reset.memOk = true

/-- Every step keeps the canonical form of the memory and of the spill stacks that saved images hold. -/
def Obligations.MemoryForm : Prop := ∀ s t, s.memOk = true → step s = .next t → t.memOk = true

/-- From every state a step goes on: the device reports an error by a record and a state of its own, and never stops. -/
def Obligations.NeverStops : Prop := ∀ s, Continues (step s)

/-- A step runs what is fetched: in a group turn the instruction that the bytes at the candidate's program counter decode to, in a Wick
turn the context's, and in the turn of an event that event; time passes first (R42, R79, R84, R387). An instruction that waits is passed
over, so it is none of these. -/
def Obligations.StepRuns : Prop :=
  ∀ s turn rest, s.schedule = turn :: rest →
    let u := atTurn s turn rest
    (∀ c b cur d i t, turn.act = .sub c b → groupFetches u c b cur (.one d) → d.stands i = true →
      exec i { issuingState u c b with cur := cur } = .next t → t.cur.stalled = false → step s = .next t) ∧
    (∀ c b cur i j t, turn.act = .sub c b → groupFetches u c b cur (.pair i j) →
      runRead (.pair i j) { issuingState u c b with cur := cur } = .next t → t.cur.stalled = false → step s = .next t) ∧
    (∀ c k cur d i t, turn.act = .wick c → wickFetches u c k cur d → d.stands i = true →
      exec i { u.replayed (1, k) with cur := cur } = .next t → t.cur.stalled = false → step s = .next t) ∧
    (∀ i, turn.act = .event i → encOf i = .event → step s = exec i u)

/-- Words that the spec writes out decode to the instructions they stand for (R14, R16, R27, R29, R40, R132, R188, R346, R417). That the
first unit of an L96 ends in 11, as R14 says, where the spec's own L96 words end in 01, is log entry 27. -/
def Obligations.DecodeSamples : Prop :=
  (∀ kd us d, (kd, us, d) ∈ Sys2Proof.Claims.sampleWords → decode kd true (unitBytes us) = .ok (.one d, [])) ∧
  decode .group false (unitBytes [0x00080422, 0x00090588]) = .ok (.pair
    (.iaddC32 { Args.bare with dst := 4, a := .v 4, b := .v 8 }) (.fmulC32 { Args.bare with dst := 5, a := .v 5, b := .v 9 }), []) ∧
  decode .group false (unitBytes [0]) = .error .copcode ∧
  decode .group false (unitBytes [0x01000E39, 0x00010000]) = .error .supervisor

/-- Decoding gives back every well-formed instruction from its encoding, with every operand, in each kind of code (R14, R16, R21, R27,
R28); what follows it in memory is left. -/
def Obligations.RoundTrip : Prop :=
  ∀ kd sup i rest, i.wf kd sup = true →
    ∃ d, decode kd sup (unitBytes (encode i) ++ rest) = .ok (.one d, rest) ∧ d.stands i = true

/-- R384, R35, R46, R388: a supervisor-only instruction issued in user mode raises UNDEF: a group enters its handler, or
its grid ends; the grid of a Wick ends. No buffer table changes, and in a group no memory. -/
def Obligations.SupervisorOnly : Prop :=
  ∀ i x, i ∈ Sys2Proof.Claims.supervisorOnly x →
    (∀ s g grp, mayAct s g grp [x] = true → grp.pair = none → 1 ≤ s.cur.len → s.cur.len ≤ 3 → s.cur.lanes &&& grp.live ≠ 0 →
      userMode s grp.team = true → s.asksPath g = false →
      (grp.tvec ≠ 0 → grp.trap = none → ∃ t, exec i s = .next t ∧ handlerBegun s t g grp 0x0101 0 0 0 false ∧
        fileKept s t g [] [] [] ∧ sameOthers s t g ∧ t.mem = s.mem ∧ t.ctxs = s.ctxs) ∧
      (grp.tvec = 0 → grp.trap = none → ∀ tm, Tbl.get? s.teams grp.team = some tm → gridRuns s tm.grid = true → s.nextSeq < 2 ^ 32 →
        s.cur.pc < 2 ^ 32 → grp.idx < 32 →
        ∃ t, exec i s = .next t ∧ gridFaulted s t tm.grid ∧ recorded s t 0x0101 0 s.cur.pc ∧ ∀ c, (t.ctx c).bufs = (s.ctx c).bufs)) ∧
    (∀ s t tm, wickActs s t tm = true → gridRuns s tm.grid = true → s.nextSeq < 2 ^ 32 → s.cur.pc < 2 ^ 32 → userMode s t = true → wickBusy s t = false →
      ∃ u, exec i s = .next u ∧ gridFaulted s u tm.grid ∧ recorded s u 0x0101 0 s.cur.pc ∧ ∀ c, (u.ctx c).bufs = (s.ctx c).bufs)

/-! ### Two instructions or two groups at once, and parties that a system fault parks -/

namespace Sys2Proof.Claims

open Sys2Proof.Machine

/-- A half of a P64: its operands, and the value it gives a lane unless it is `nop` (R27, R28, R30). -/
def halfLane : Instr → Option (Args × Option Fn)
  | .nopC32 x => some (x, none)
  | i =>
    if (halfOp i).isSome then
      (((intLane i).orElse fun _ => floatLane i).orElse fun _ => convertLane i).map fun p => (p.1, some p.2.2)
    else none

/-- A latch of a group holds a result: its values in the lanes written, and in the others what the destination held (R22). -/
def latchHolds (s t : State) (g n d : Nat) (w : Mask) (val : Nat → W32) : Prop :=
  ∃ m, ((Tbl.get? t.groups g).bind (·.latches[n]?)) = some m ∧ m.valid = true ∧
    ∀ l, l < 32 → Runs.val m.runs l = if w.getLsbD l then val l else s.vlane g d l

/-- A member of a JOINED pair whose lanes stand together and issue; nothing holds its part, and the latches it names are valid. -/
def memberReady (s : State) (g : Nat) (grp : Group) (lanes : Mask) (xs : List Args) : Bool :=
  grp.lanes.length == 32 && grp.latches.length == 6 && Tbl.get? s.groups g == some grp && grp.parked.isNone && !grp.debug &&
    grp.converged && grp.live != 0 && lanes == grp.live && nothingUnderWay s grp && (lostLatch (grp.freshen xs lanes) xs).isNone

/-- What a lane instruction has done in one member of a pair. -/
def memberDid (s t : State) (g : Nat) (grp : Group) (lanes : Mask) (x : Args) (wide : Bool) (f : Fn) : Prop :=
  laneWritten s t g x (lanes &&& grp.predLanes x) wide (fun l => f (srcVal s g wide x.a l) (srcVal s g wide x.b l) (srcVal s g wide x.c l)) ∧
    sameGroup s t g (laneDests x wide) (laneKDests x) [] ∧
    ∀ l, l < 32 → t.lanePc g l = if lanes.getLsbD l then BitVec.ofNat 32 s.nextPc else s.lanePc g l

/-- No entry of a page map that could map a page of a buffer is present: neither the page's own nor the head of a run (R424). -/
def unmapped (s : State) (e : BufEntry) (page : Nat) : Prop :=
  ∀ q, q = page / 16 * 16 ∨ q = page / 512 * 512 ∨ q = page → ∃ w, readMapEntry s e q = .ok w s ∧ pmPresent w = false

/-- A group is parked at a page: it stands where it was with its registers as they were, and takes no part in issue. -/
def parkedAtPage (s t : State) (g page : Nat) : Prop :=
  t.mem = s.mem ∧ regsKept s t g [] [] [] ∧ sameOthers s t g ∧ (∀ l, l < 32 → laneOf t g l = laneOf s g l) ∧ isParked t (0, g) = true ∧
    (∀ e, e ≠ dieOfCore (coreOfGroup g) → (t.die e).faults = (s.die e).faults) ∧
    ∃ q, Tbl.get? t.groups g = some q ∧ q.parked = some page ∧ mayIssue t g q = false

end Sys2Proof.Claims

/-- R27 to R31: a P64 issues its halves as one: both read before either writes, each under its own predicate, and the second half's result
enters the latch chain after the first's. One that breaks the bank rules raises PAIRBANK with the bank, and nothing is written: of
several banks that break them the lowest (the model's choice, log entry 49). -/
def Obligations.CompactPairs : Prop :=
  ∀ a b x y f h, halfLane a = some (x, f) → halfLane b = some (y, h) → ∀ s g grp,
    (mayAct s g grp [x, y] = true → roomy grp 64 = true → pairBankOf x y f.isSome h.isSome = none →
      (∀ z, z = x ∨ z = y → z.dsel = false ∧ z.nwb = false ∧ wBit z = false) →
      let val (z : Args) (k : Fn) (l : Nat) : W32 := lo32 (k (srcVal s g false z.a l) (srcVal s g false z.b l) (srcVal s g false z.c l))
      let mine := actives s grp x
      let other := actives s grp y
      ∃ t, runRead (.pair a b) s = .next t ∧
        onlyChanged s t g ((if f.isSome then [x.dst.toNat] else []) ++ if h.isSome then [y.dst.toNat] else []) [] [] ∧ wentOn s t g ∧
        (∀ k, f = some k → (∀ l, l < 32 → t.vlane g x.dst.toNat l = if mine.getLsbD l then val x k l else s.vlane g x.dst.toNat l) ∧
          latchHolds s t g (if h.isSome then 1 else 0) x.dst.toNat mine (val x k)) ∧
        ∀ k, h = some k → (∀ l, l < 32 → t.vlane g y.dst.toNat l = if other.getLsbD l then val y k l else s.vlane g y.dst.toNat l) ∧
          latchHolds s t g 0 y.dst.toNat other (val y k)) ∧
    ∀ bank, pairBankOf x y f.isSome h.isSome = some bank → mayAct s g grp [] = true → grp.pair = none → 1 ≤ s.cur.len → s.cur.len ≤ 3 →
      s.cur.lanes &&& grp.live ≠ 0 → s.asksPath g = false → grp.tvec ≠ 0 → grp.trap = none →
      ∃ t, runRead (.pair a b) s = .next t ∧ handlerBegun s t g grp 0x0102 0 bank 0 false ∧ fileKept s t g [] [] [] ∧ sameOthers s t g ∧
        t.mem = s.mem

/-- R94, R100: the members of a JOINED pair, which stand at one PC and trip tag, issue a lane instruction together: each on its own
registers, predicates and latches, both go on to the next instruction, and they stay JOINED. -/
def Sys2Proof.Claims.JoinedIssue : Prop :=
  ∀ i x wide f, intLane i = some (x, wide, f) ∨ floatLane i = some (x, wide, f) ∨ convertLane i = some (x, wide, f) →
    ∀ s g p grp q, s.cur.by_ = .group g → s.mem.wf = true → p ≠ g → coreOfGroup p = coreOfGroup g → subOfGroup p ≠ subOfGroup g →
    joinedPartner s grp = some p → joinedPartner s q = some g → grp.minKey grp.live = q.minKey q.live →
    memberReady s g grp s.cur.lanes [x] = true → memberReady s p q q.live [x] = true → roomy grp 64 = true → roomy q 64 = true →
    ∃ t, exec i s = .next t ∧ memberDid s t g grp s.cur.lanes x wide f ∧ memberDid s t p q q.live x wide f ∧ sameOutside s t ∧
      ∀ k, k ≠ g → k ≠ p → (Tbl.get? t.groups k).map Group.loseLatches = (Tbl.get? s.groups k).map Group.loseLatches

/-- R221, R394 to R396: an atomic of one active lane to a page that is not mapped present is withdrawn, and its group parked: at a new entry
of its die's fault buffer, with one error record whose detail is the entry's index, or at the entry its page already has, without a
record. While the buffer is full it waits, and nothing is recorded. -/
def Sys2Proof.Claims.Parking : Prop :=
  ∀ i x s g grp l, i ∈ [Instr.atomAdd x, .atomMin x, .atomMax x, .atomAnd x, .atomOr x, .atomXor x, .atomExch x, .atomcas x, .atomFAdd x,
      .atomFMin x, .atomFMax x, .amaxF32 x] →
    mayAct s g grp [x] = true → roomy grp 64 = true → spaceBits x = 2 → l < 32 → actives s grp x = 1#32 <<< l →
    (2 ≤ modBits x 2 2 → (Who.group (issueMem s g grp x)).owesPath s = false) →
    let n := atomBytes x
    let ctx := s.ctxOfTeam grp.team
    let ptr := (srcLane64 s g x.a l).toNat
    let d := dieOfCore (coreOfGroup g)
    let fs := (s.die d).faults
    let page := pageName ctx ptr
    let e := bufEntry s ctx (ptr / 2 ^ 48)
    ptr % n = 0 → lockHitMM s (coreOfGroup g) ctx ptr n = none → checkEntry s ctx ptr n .atomic true = .ok e → e.home = 0 → ctx ≠ 64 →
    cachedWord s (0, g) page = none → unmapped (begun s g [x]) e (ptr % 2 ^ 48 / 2 ^ 17) →
    ((∀ f, f ∈ fs → f.page.toNat ≠ page) → fs.length < 4096 → s.errLog.length < 65536 →
      ∃ t f, exec i s = .next t ∧ parkedAtPage s t g page ∧ oneRecord s t 0x0201 2 2 2 f.index ∧ (t.die d).faults = fs ++ [f] ∧
        f.page = BitVec.ofNat 64 page ∧ f.kind = 4 ∧ f.time = s.ts ∧ f.seq = s.nextSeq ∧ f.parked = [(0, g)] ∧
        f.index < 4096 ∧ ∀ h, h ∈ fs → h.index ≠ f.index) ∧
    ((∃ f, f ∈ fs ∧ f.page.toNat = page) →
      ∃ t, exec i s = .next t ∧ parkedAtPage s t g page ∧ t.errLog = s.errLog ∧
        (t.die d).faults = fs.map fun f =>
          if f.page.toNat = page then { f with kind := f.kind ||| 4, parked := f.parked ++ [(0, g)] } else f) ∧
    ((∀ f, f ∈ fs → f.page.toNat ≠ page) → 4096 ≤ fs.length →
      ∃ t, exec i s = .next t ∧ t.errLog = s.errLog ∧ t.dies = s.dies ∧ t.mem = s.mem ∧ regsKept s t g [] [] [] ∧ t.cur.stalled = true ∧
        ∀ l, l < 32 → laneOf t g l = laneOf s g l)

/-! ### Statements of several parts -/

/-- The vote, match, compare and predicate-logic instructions, and the counts and reductions that go to a k register. -/
def Obligations.PredicateResults : Prop := Sys2Proof.Claims.PredicateWrites ∧ Sys2Proof.Claims.CountsToK

/-- What the instructions do that only place lanes: `nop`, `fuse`, `sleep` and `yield`. -/
def Obligations.PlacesInCode : Prop := Sys2Proof.Claims.Nops ∧ Sys2Proof.Claims.Fuses ∧ Sys2Proof.Claims.Sleeps ∧ Sys2Proof.Claims.Yields

/-- Strict loops, the first lanes at a join, and the end of lanes. -/
def Obligations.LoopsAndJoins : Prop := Sys2Proof.Claims.StrictLoops ∧ Sys2Proof.Claims.FirstJoin ∧ Sys2Proof.Claims.Exits

/-- The pairs of groups: their binding, and the issue of a JOINED pair. -/
def Obligations.PairBinding : Prop := Sys2Proof.Claims.PairsBound ∧ Sys2Proof.Claims.JoinedIssue

/-- The decision queue: the Wick appends, groups pop. -/
def Obligations.DecisionQueues : Prop := Sys2Proof.Claims.QueuePops ∧ Sys2Proof.Claims.QueuePushes

/-- The status words and the special registers. -/
def Obligations.StatusAndSpecials : Prop := Sys2Proof.Claims.StatusReads ∧ Sys2Proof.Claims.SpecialRegisters

/-- R66: the Wick's branches, with the faults of their targets. -/
def Obligations.WickBranches : Prop := Sys2Proof.Claims.WickTargets ∧ Sys2Proof.Claims.WickFaults

/-- The end of a Wick, its barriers, and its child grids. -/
def Obligations.WickFlow : Prop := Sys2Proof.Claims.WickEndsAndBarriers ∧ Sys2Proof.Claims.ChildLaunches ∧ Sys2Proof.Claims.ChildWaits

/-- Loads of lanes and of words. -/
def Obligations.Loads : Prop := Sys2Proof.Claims.LaneLoads ∧ Sys2Proof.Claims.WordLoads

/-- Atomics on chip and at the ports. -/
def Obligations.Atomics : Prop := Sys2Proof.Claims.ChipAtomics ∧ Sys2Proof.Claims.PortAtomics

/-- Signals, range locks and fences. -/
def Obligations.SignalsAndFences : Prop := Sys2Proof.Claims.ChipSignals ∧ Sys2Proof.Claims.RegionsAndFences

/-- Matrix contexts, and the loading of their planes. -/
def Obligations.MatrixLoading : Prop := Sys2Proof.Claims.MatrixContexts ∧ Sys2Proof.Claims.PlaneLoads

/-- The rows that wait for the grid, and what a pass adds to the accumulators. -/
def Obligations.MatrixSums : Prop := Sys2Proof.Claims.MatrixRows ∧ Sys2Proof.Claims.MatrixPasses

/-- What leaves a matrix context: drains and tile moves. -/
def Obligations.MatrixResults : Prop := Sys2Proof.Claims.Drains ∧ Sys2Proof.Claims.GuidedDrain ∧ Sys2Proof.Claims.TileMovesOnCore

/-- Moves of tiles between a matrix context and the spaces. -/
def Obligations.TileMoves : Prop := Sys2Proof.Claims.ChipTiles ∧ Sys2Proof.Claims.HandleTiles

/-- Splats and their resolves. -/
def Obligations.Splatting : Prop := Sys2Proof.Claims.Splats ∧ Sys2Proof.Claims.Resolves

/-- A bulk copy from its start to its end. -/
def Obligations.CopyProgress : Prop := Sys2Proof.Claims.CopyStarts ∧ Sys2Proof.Claims.CopyBlocks ∧ Sys2Proof.Claims.CopyEnds

/-- Arrival barriers and the tokens of copies. -/
def Obligations.CopySignals : Prop := Sys2Proof.Claims.ArrivalBarriers ∧ Sys2Proof.Claims.TokensOfCopies

/-- What firmware does to buffer tables and page maps. -/
def Obligations.FirmwareTables : Prop := Sys2Proof.Claims.TableWrites ∧ Sys2Proof.Claims.Invalidations ∧ Sys2Proof.Claims.PageMigrations

/-- Taking an exception in a group, the return from it, and the parking of a group by a system fault. -/
def Obligations.Traps : Prop := Sys2Proof.Claims.TrapEntry ∧ Sys2Proof.Claims.TrapReturn ∧ Sys2Proof.Claims.Parking

/-- Halting, saving and restoring a context. -/
def Obligations.ContextControl : Prop := Sys2Proof.Claims.Halts ∧ Sys2Proof.Claims.ContextImages

/-- The placement of a team, and its end. -/
def Obligations.TeamsPlaced : Prop := Sys2Proof.Claims.TeamPlacement ∧ Sys2Proof.Claims.TeamEnds

/-- A launch record taken, and the steps of its grid. -/
def Obligations.GridProgress : Prop := Sys2Proof.Claims.RecordsTaken ∧ Sys2Proof.Claims.GridSteps

/-- The control instructions of streams, and the hardware queues. -/
def Obligations.StreamFlow : Prop := Sys2Proof.Claims.StreamControl ∧ Sys2Proof.Claims.QueueMoves

/-- The instructions of streams that move data. -/
def Obligations.StreamData : Prop := Sys2Proof.Claims.StreamLists ∧ Sys2Proof.Claims.StreamWalks

/-- The start of a stream, and its states. -/
def Obligations.StreamLives : Prop := Sys2Proof.Claims.StreamStarts ∧ Sys2Proof.Claims.StreamStates

/-- Packets of other devices: requests and answers. -/
def Obligations.RemoteTraffic : Prop := Sys2Proof.Claims.RemoteRequests ∧ Sys2Proof.Claims.RemoteAnswers

/-- The ports, and the loss and return of a die. -/
def Obligations.LinksAndLosses : Prop := Sys2Proof.Claims.LinkPorts ∧ Sys2Proof.Claims.DieLosses

/-- Sensors, throttling, and alarms. -/
def Obligations.SensorsAndAlarms : Prop := Sys2Proof.Claims.Sensors ∧ Sys2Proof.Claims.Alarms

/-- The swaps of a sub-core, and the timers of groups. -/
def Obligations.Scheduling : Prop := Sys2Proof.Claims.SubcoreSwaps ∧ Sys2Proof.Claims.GroupTimers
end

