-- ==== Sys2Proof/Laws/Decode.lean ====
section
/-! SUPPORT. What is read from code runs as the instruction it stands for. -/

namespace Sys2Proof.Machine

/-- A late instruction runs by its name as by its constructor. -/
theorem lateExec_eq {i : Instr} {o : Late} {x : Args} (h : lateOf i = some (o, x)) (s : State) : lateExec o x s = exec i s := by
  cases i <;> simp only [lateOf, Option.some.injEq, Prod.mk.injEq, reduceCtorEq] at h <;> obtain ⟨rfl, rfl⟩ := h <;> rfl

/-- What a decoder's answer stands for is what it runs as. -/
theorem runRead_stands {d : Decoded} {i : Instr} (h : d.stands i = true) (s : State) : runRead (.one d) s = exec i s := by
  cases d with
  | instr j =>
    have : i = j := by simpa [Decoded.stands] using h
    rw [this]; rfl
  | late o x => exact lateExec_eq (by simpa [Decoded.stands] using h) s

end Sys2Proof.Machine
end

