-- ==== Sys2Proof/Laws/Runs.lean ====
section
/-! SUPPORT. Laws of run lists: what each lane of a spliced list holds, and that splicing keeps the invariant of R112. -/

namespace Sys2Proof.Machine

/-! ### Reading lanes -/

theorem Runs.val_cons (r : Run) (t : Runs) (l : Nat) :
    Runs.val (r :: t) l = if l < r.cnt then r.val else Runs.val t (l - r.cnt) := by
  unfold Runs.val
  by_cases h : l < r.cnt <;> simp [Runs.find, h]

theorem Runs.starts_cons (r : Run) (t : Runs) (l : Nat) :
    Runs.starts (r :: t) l = if l < r.cnt then l == 0 else Runs.starts t (l - r.cnt) := by
  unfold Runs.starts
  by_cases h : l < r.cnt <;> simp [Runs.find, h]

theorem Runs.starts_zero {rs : Runs} (h : 0 < Runs.total rs) (w : rs.all (fun r => decide (1 ≤ r.cnt)) = true) :
    Runs.starts rs 0 = true := by
  cases rs with
  | nil => simp [Runs.total] at h
  | cons r t =>
    simp only [List.all_cons, Bool.and_eq_true, decide_eq_true_eq] at w
    rw [Runs.starts_cons, if_pos (by omega)]
    rfl

/-- A lane at which no run begins holds what the lane before it holds. -/
theorem Runs.val_of_not_starts {rs : Runs} {l : Nat} (w : rs.all (fun r => decide (1 ≤ r.cnt)) = true)
    (h : l + 1 < Runs.total rs) (hs : Runs.starts rs (l + 1) = false) : Runs.val rs (l + 1) = Runs.val rs l := by
  induction rs generalizing l with
  | nil => simp [Runs.total] at h
  | cons r t ih =>
    simp only [List.all_cons, Bool.and_eq_true, decide_eq_true_eq] at w
    simp only [Runs.total] at h
    rw [Runs.starts_cons] at hs
    rw [Runs.val_cons, Runs.val_cons]
    by_cases h1 : l + 1 < r.cnt
    · rw [if_pos h1, if_pos (by omega)]
    · rw [if_neg h1] at hs ⊢
      by_cases h2 : l < r.cnt
      · have e : l + 1 - r.cnt = 0 := by omega
        rw [e, Runs.starts_zero (by omega) w.2] at hs
        exact absurd hs (by simp)
      · rw [if_neg h2]
        have e : l + 1 - r.cnt = (l - r.cnt) + 1 := by omega
        rw [e] at hs ⊢
        exact ih w.2 (by omega) hs

/-! ### Collapsing run beginnings -/

/-- The value of the last run beginning at or before a place. -/
def lastBegin : List (Option (W32 × Bool)) → Nat → Option W32
  | [], _ => none
  | d :: _, 0 => d.map (·.1)
  | d :: ds, l + 1 => (lastBegin ds l).or (d.map (·.1))

theorem collapse_cons (d : Option (W32 × Bool)) (ds : List (Option (W32 × Bool))) :
    collapse (d :: ds) =
      match d with
      | none => ((collapse ds).1 + 1, (collapse ds).2)
      | some (v, s) => (0, { val := v, cnt := (collapse ds).1 + 1, splice := s } :: (collapse ds).2) := by
  cases d <;> rfl

theorem lastBegin_collapse (ds : List (Option (W32 × Bool))) (l : Nat) (h : l < ds.length) :
    lastBegin ds l = if l < (collapse ds).1 then none else some (Runs.val (collapse ds).2 (l - (collapse ds).1)) := by
  induction ds generalizing l with
  | nil => simp at h
  | cons d ds ih =>
    rw [collapse_cons]
    cases d with
    | none =>
      cases l with
      | zero => simp [lastBegin]
      | succ l =>
        simp only [List.length_cons] at h
        simp only [lastBegin, Option.map_none, Option.or_none, ih l (by omega)]
        by_cases h1 : l < (collapse ds).1
        · simp [h1]
        · simp [h1]
    | some p =>
      obtain ⟨v, s⟩ := p
      cases l with
      | zero => simp [lastBegin, Runs.val_cons]
      | succ l =>
        simp only [List.length_cons] at h
        simp only [lastBegin, Option.map_some, ih l (by omega), Runs.val_cons]
        by_cases h1 : l < (collapse ds).1
        · simp [h1]
        · simp [h1]

theorem collapse_total (ds : List (Option (W32 × Bool))) :
    (collapse ds).1 + Runs.total (collapse ds).2 = ds.length := by
  induction ds with
  | nil => rfl
  | cons d ds ih =>
    rw [collapse_cons]
    cases d with
    | none => simp only [List.length_cons]; omega
    | some p =>
      obtain ⟨v, s⟩ := p
      simp only [List.length_cons, Runs.total]
      omega

theorem collapse_pos (ds : List (Option (W32 × Bool))) :
    ((collapse ds).2.all fun r => decide (1 ≤ r.cnt)) = true := by
  induction ds with
  | nil => rfl
  | cons d ds ih =>
    rw [collapse_cons]
    cases d with
    | none => exact ih
    | some p => simpa using ih

theorem collapse_length_le (ds : List (Option (W32 × Bool))) : (collapse ds).2.length ≤ ds.length := by
  induction ds with
  | nil => simp [collapse]
  | cons d ds ih =>
    rw [collapse_cons]
    cases d with
    | none => simp only [List.length_cons]; omega
    | some p => simp only [List.length_cons]; omega

theorem lastBegin_succ (ds : List (Option (W32 × Bool))) (l : Nat) (h : l + 1 < ds.length) :
    lastBegin ds (l + 1) = ((ds[l + 1]).map (·.1)).or (lastBegin ds l) := by
  induction ds generalizing l with
  | nil => simp at h
  | cons d ds ih =>
    simp only [List.length_cons] at h
    cases l with
    | zero =>
      cases ds with
      | nil => simp at h
      | cons e es => simp [lastBegin]
    | succ l =>
      simp only [lastBegin]
      rw [ih l (by omega), Option.or_assoc]
      simp

/-! ### Pieces -/

theorem pieceList_length (A : Mask) (cut : Nat → Bool) (merge : Bool) (op : Nat → W64) (n l : Nat) (prev : W64) :
    (pieceList A cut merge op n l prev).length = n := by
  induction n generalizing l prev with
  | zero => rfl
  | succ n ih =>
    simp only [pieceList]
    split
    · split <;> simp [ih]
    · simp [ih]

theorem pieceList_head (A : Mask) (cut : Nat → Bool) (merge : Bool) (op : Nat → W64) (n : Nat) (prev : W64)
    (h : A.getLsbD 0 = true) : ∃ t, pieceList A cut merge op (n + 1) 0 prev = some (op 0) :: t := by
  refine ⟨pieceList A cut merge op n 1 (op 0), ?_⟩
  rw [pieceList, h]
  simp

/-- What holds of the piece at each lane: a lane of the active set that begins no piece holds its neighbour's value, and a
piece holds its lane's. -/
theorem pieceList_get (A : Mask) (cut : Nat → Bool) (merge : Bool) (op : Nat → W64)
    (hop : ∀ l, A.getLsbD l = true → A.getLsbD (l - 1) = true → l ≠ 0 → cut l = false → op l = op (l - 1))
    (n l : Nat) (prev : W64) (hprev : l ≠ 0 → A.getLsbD (l - 1) = true → prev = op (l - 1)) (i : Nat) (hi : i < n) :
    ((pieceList A cut merge op n l prev)[i]?) = some none ∧
      (A.getLsbD (l + i) = true → l + i ≠ 0 ∧ A.getLsbD (l + i - 1) = true ∧ op (l + i) = op (l + i - 1)) ∨
    ((pieceList A cut merge op n l prev)[i]?) = some (some (op (l + i))) ∧ A.getLsbD (l + i) = true := by
  induction n generalizing l prev i with
  | zero => omega
  | succ n ih =>
    simp only [pieceList]
    by_cases hA : A.getLsbD l = true
    · by_cases hb : ((l == 0 || !A.getLsbD (l - 1)) || cut l) = true
      · rw [if_pos (by simp [hA, hb])]
        by_cases hm : (merge && !(l == 0 || !A.getLsbD (l - 1)) && op l == prev) = true
        · rw [if_pos hm]
          simp only [Bool.and_eq_true, Bool.not_eq_true', Bool.or_eq_false_iff, beq_eq_false_iff_ne, beq_iff_eq,
            Bool.not_eq_false'] at hm
          obtain ⟨⟨-, h0, hl⟩, hv⟩ := hm
          have hpv := hprev h0 hl
          cases i with
          | zero => left; refine ⟨rfl, fun _ => ⟨by simpa using h0, by simpa using hl, ?_⟩⟩; simpa [hv] using hpv
          | succ i =>
            have := ih (l + 1) prev (fun _ _ => by rw [Nat.add_sub_cancel, hv]) i (by omega)
            simpa [Nat.add_assoc, Nat.add_comm 1 i] using this
        · rw [if_neg hm]
          cases i with
          | zero => right; exact ⟨rfl, hA⟩
          | succ i =>
            have := ih (l + 1) (op l) (fun _ _ => by rw [Nat.add_sub_cancel]) i (by omega)
            simpa [Nat.add_assoc, Nat.add_comm 1 i] using this
      · rw [if_neg (by simp [hA, hb])]
        simp only [Bool.or_eq_true, not_or, Bool.not_eq_true, beq_eq_false_iff_ne, Bool.not_eq_eq_eq_not,
          Bool.not_true] at hb
        obtain ⟨⟨h0, hl⟩, hc⟩ := hb
        have hl' : A.getLsbD (l - 1) = true := by simpa using hl
        have he := hop l hA hl' h0 hc
        cases i with
        | zero => left; exact ⟨rfl, fun _ => ⟨h0, hl', he⟩⟩
        | succ i =>
          have := ih (l + 1) prev (fun _ _ => by rw [Nat.add_sub_cancel, he]; exact hprev h0 hl') i (by omega)
          simpa [Nat.add_assoc, Nat.add_comm 1 i] using this
    · rw [if_neg (by simp [hA])]
      cases i with
      | zero => left; exact ⟨rfl, fun h => absurd h hA⟩
      | succ i =>
        have := ih (l + 1) prev (fun _ h => absurd (by simpa using h) hA) i (by omega)
        simpa [Nat.add_assoc, Nat.add_comm 1 i] using this

/-! ### Splicing -/

theorem spliceList_length (A : Mask) (old : Runs) (proj : W64 → W32) (ps : List (Option W64)) (l : Nat) :
    (spliceList A old proj ps l).length = ps.length := by
  induction ps generalizing l with
  | nil => rfl
  | cons p ps ih => simp [spliceList, ih]

theorem spliceList_get (A : Mask) (old : Runs) (proj : W64 → W32) (ps : List (Option W64)) (l i : Nat) (p : Option W64)
    (h : ps[i]? = some p) :
    (spliceList A old proj ps l)[i]? = some (
      let k := l + i
      let edge := k != 0 && (A.getLsbD k != A.getLsbD (k - 1))
      if A.getLsbD k then p.map fun v => (proj v, edge)
      else if k == 0 || edge || Runs.starts old k then some (Runs.val old k, edge || Runs.spliced old k)
      else none) := by
  induction ps generalizing l i with
  | nil => simp at h
  | cons q ps ih =>
    cases i with
    | zero =>
      simp only [List.getElem?_cons_zero, Option.some.injEq] at h
      subst h
      simp [spliceList]
    | succ i =>
      simp only [List.getElem?_cons_succ] at h
      have := ih (l + 1) i h
      simpa [spliceList, Nat.add_assoc, Nat.add_comm 1 i] using this

/-- What each lane holds after a splice (R117): its new value inside the active set, its old one outside. -/
theorem Runs.val_splice {A : Mask} {old : Runs} {cut : Nat → Bool} {merge : Bool} {op : Nat → W64} (proj : W64 → W32)
    (w : Runs.wf old = true)
    (hop : ∀ l, A.getLsbD l = true → A.getLsbD (l - 1) = true → l ≠ 0 → cut l = false → op l = op (l - 1))
    (l : Nat) (hl : l < 32) :
    Runs.val (spliceRuns A old proj (pieces A cut merge op)) l = if A.getLsbD l then proj (op l) else Runs.val old l := by
  simp only [Runs.wf, Bool.and_eq_true, beq_iff_eq] at w
  have hplen : (pieces A cut merge op).length = 32 := pieceList_length ..
  have hslen : (spliceList A old proj (pieces A cut merge op) 0).length = 32 := by rw [spliceList_length, hplen]
  have key : ∀ l, l < 32 → lastBegin (spliceList A old proj (pieces A cut merge op) 0) l =
      some (if A.getLsbD l then proj (op l) else Runs.val old l) := by
    intro l
    have entry : ∀ k, k < 32 → ∀ p, (pieces A cut merge op)[k]? = some p →
        (spliceList A old proj (pieces A cut merge op) 0)[k]? = some (
          let edge := k != 0 && (A.getLsbD k != A.getLsbD (k - 1))
          if A.getLsbD k then p.map fun v => (proj v, edge)
          else if k == 0 || edge || Runs.starts old k then some (Runs.val old k, edge || Runs.spliced old k)
          else none) := by
      intro k hk p hp
      simpa using spliceList_get A old proj _ 0 k p hp
    induction l with
    | zero =>
      intro h0
      have hp := pieceList_get A cut merge op hop 32 0 0 (by simp) 0 (by omega)
      simp only [Nat.zero_add] at hp
      have hz : ∀ q, (spliceList A old proj (pieces A cut merge op) 0)[0]? = some q →
          lastBegin (spliceList A old proj (pieces A cut merge op) 0) 0 = q.map (·.1) := by
        intro q hq
        cases hL : spliceList A old proj (pieces A cut merge op) 0 with
        | nil => simp [hL] at hq
        | cons d ds => simp [hL] at hq; simp [lastBegin, hq]
      rcases hp with ⟨hp, hn⟩ | ⟨hp, hA⟩
      · have hA : A.getLsbD 0 = false := by
          by_contra h
          exact (hn (by simpa using h)).1 rfl
        rw [hz _ (entry 0 (by omega) _ hp)]
        simp only [hA]
        simp
      · rw [hz _ (entry 0 (by omega) _ hp)]
        simp only [hA]
        simp
    | succ k ih =>
      intro hk
      rw [lastBegin_succ _ _ (by omega), ih (by omega)]
      have hp := pieceList_get A cut merge op hop 32 0 0 (by simp) (k + 1) (by omega)
      simp only [Nat.zero_add] at hp
      have hget : ∀ q, (spliceList A old proj (pieces A cut merge op) 0)[k + 1]? = some q →
          (spliceList A old proj (pieces A cut merge op) 0)[k + 1]'(by omega) = q := by
        intro q hq
        rw [List.getElem?_eq_getElem (by omega)] at hq
        simpa using hq
      rcases hp with ⟨hp, hn⟩ | ⟨hp, hA⟩
      · rw [hget _ (entry (k + 1) hk _ hp)]
        by_cases hA : A.getLsbD (k + 1) = true
        · obtain ⟨-, h1, h2⟩ := hn hA
          simp only [Nat.add_sub_cancel] at h1 h2
          simp only [hA, h1, h2]
          simp
        · have hA' : A.getLsbD (k + 1) = false := by simpa using hA
          by_cases hc : (((k + 1 == 0) || (k + 1 != 0 && (A.getLsbD (k + 1) != A.getLsbD (k + 1 - 1)))) ||
              Runs.starts old (k + 1)) = true
          · simp only [hA', Bool.false_eq_true, if_false] at hc ⊢
            rw [if_pos hc]
            simp
          · simp only [hA', Bool.false_eq_true, if_false] at hc ⊢
            rw [if_neg hc]
            simp only [Bool.or_eq_true, not_or, Bool.not_eq_true] at hc
            obtain ⟨⟨-, he⟩, hs⟩ := hc
            have hA0 : A.getLsbD k = false := by
              simpa using he
            simp only [hA0, Runs.val_of_not_starts w.2 (by omega) hs]
            simp
      · rw [hget _ (entry (k + 1) hk _ hp)]
        simp only [hA]
        simp
  have hc := lastBegin_collapse (spliceList A old proj (pieces A cut merge op) 0) l (by omega)
  have h0 : (collapse (spliceList A old proj (pieces A cut merge op) 0)).1 = 0 := by
    have h00 := lastBegin_collapse (spliceList A old proj (pieces A cut merge op) 0) 0 (by omega)
    rw [key 0 (by omega)] at h00
    by_contra hne
    simp only [show 0 < (collapse (spliceList A old proj (pieces A cut merge op) 0)).1 by omega, if_true] at h00
    exact absurd h00 (by simp)
  rw [key l hl, h0] at hc
  simpa [spliceRuns] using hc.symm

/-- A splice keeps the invariant of R112. -/
theorem Runs.wf_splice {A : Mask} {old : Runs} {cut : Nat → Bool} {merge : Bool} {op : Nat → W64} (proj : W64 → W32) :
    Runs.wf (spliceRuns A old proj (pieces A cut merge op)) = true := by
  have hplen : (pieces A cut merge op).length = 32 := pieceList_length ..
  have hslen : (spliceList A old proj (pieces A cut merge op) 0).length = 32 := by rw [spliceList_length, hplen]
  have ht := collapse_total (spliceList A old proj (pieces A cut merge op) 0)
  have h0 : (collapse (spliceList A old proj (pieces A cut merge op) 0)).1 = 0 := by
    have hpz : ∃ p, (pieces A cut merge op)[0]? = some p := by
      rw [List.getElem?_eq_getElem (by omega)]
      exact ⟨_, rfl⟩
    obtain ⟨p, hp⟩ := hpz
    have he := spliceList_get A old proj _ 0 0 p hp
    have hsome : ∃ q, (spliceList A old proj (pieces A cut merge op) 0)[0]? = some (some q) := by
      simp only [Nat.add_zero] at he
      by_cases hA : A.getLsbD 0 = true
      · have hpp : ∃ v, p = some v := by
          obtain ⟨u, hu⟩ := pieceList_head A cut merge op 31 0 hA
          unfold pieces at hp
          rw [hu] at hp
          exact ⟨op 0, by simpa using hp.symm⟩
        obtain ⟨v, rfl⟩ := hpp
        rw [he]
        simp [hA]
      · have hA' : A.getLsbD 0 = false := by simpa using hA
        rw [he]
        simp only [hA']
        exact ⟨_, rfl⟩
    obtain ⟨q, hq⟩ := hsome
    cases hL : spliceList A old proj (pieces A cut merge op) 0 with
    | nil => simp [hL] at hslen
    | cons d ds =>
      simp [hL] at hq
      rw [hq, collapse_cons]
  rw [h0, hslen] at ht
  simp only [Runs.wf, spliceRuns, Bool.and_eq_true, beq_iff_eq]
  exact ⟨by omega, collapse_pos _⟩

/-- A spliced list has at most 32 runs. -/
theorem Runs.length_splice_le {A : Mask} {old : Runs} {cut : Nat → Bool} {merge : Bool} {op : Nat → W64} (proj : W64 → W32) :
    (spliceRuns A old proj (pieces A cut merge op)).length ≤ 32 := by
  have h := collapse_length_le (spliceList A old proj (pieces A cut merge op) 0)
  rw [spliceList_length] at h
  have hplen : (pieces A cut merge op).length = 32 := pieceList_length ..
  unfold spliceRuns
  omega

theorem Runs.cells_le {rs : Runs} (h : rs.length ≤ 32) : Runs.cells rs ≤ 32 := by
  unfold Runs.cells
  split <;> omega

/-! ### Coalescing -/

theorem mergeRuns_val {rs : Runs} (w : (rs.all fun r => decide (1 ≤ r.cnt)) = true) (l : Nat) :
    Runs.val (mergeRuns rs) l = Runs.val rs l := by
  induction rs generalizing l with
  | nil => rfl
  | cons r t ih =>
    simp only [List.all_cons, Bool.and_eq_true] at w
    have ht := ih w.2
    simp only [mergeRuns]
    cases hm : mergeRuns t with
    | nil =>
      rw [hm] at ht
      simp only [Runs.val_cons, ht]
    | cons q u =>
      rw [hm] at ht
      dsimp only
      split
      · next he =>
        rw [Runs.val_cons, Runs.val_cons r t, ← ht, Runs.val_cons]
        by_cases h1 : l < r.cnt
        · rw [if_pos h1, if_pos (by show l < r.cnt + q.cnt; omega)]
        · rw [if_neg h1]
          by_cases h2 : l - r.cnt < q.cnt
          · rw [if_pos h2, if_pos (by show l < r.cnt + q.cnt; omega)]
            exact he
          · rw [if_neg h2, if_neg (by show ¬ l < r.cnt + q.cnt; omega)]
            show Runs.val u (l - (r.cnt + q.cnt)) = _
            congr 1
            omega
      · rw [Runs.val_cons, Runs.val_cons r t, ← ht]

theorem mergeRuns_total (rs : Runs) : Runs.total (mergeRuns rs) = Runs.total rs := by
  induction rs with
  | nil => rfl
  | cons r t ih =>
    simp only [mergeRuns]
    cases hm : mergeRuns t with
    | nil => simp [hm, Runs.total] at ih ⊢; omega
    | cons q u =>
      rw [hm] at ih
      dsimp only
      simp only [Runs.total] at ih ⊢
      split <;> simp only [Runs.total] <;> omega

theorem mergeRuns_pos {rs : Runs} (w : (rs.all fun r => decide (1 ≤ r.cnt)) = true) :
    ((mergeRuns rs).all fun r => decide (1 ≤ r.cnt)) = true := by
  induction rs with
  | nil => rfl
  | cons r t ih =>
    simp only [List.all_cons, Bool.and_eq_true, decide_eq_true_eq] at w
    have ht := ih w.2
    simp only [mergeRuns]
    cases hm : mergeRuns t with
    | nil => simpa using w.1
    | cons q u =>
      rw [hm] at ht
      simp only [List.all_cons, Bool.and_eq_true, decide_eq_true_eq] at ht
      dsimp only
      split
      · simp only [List.all_cons, Bool.and_eq_true, decide_eq_true_eq]
        exact ⟨by omega, ht.2⟩
      · simp only [List.all_cons, Bool.and_eq_true, decide_eq_true_eq]
        exact ⟨w.1, ht.1, ht.2⟩

theorem mergeRuns_length_le (rs : Runs) : (mergeRuns rs).length ≤ rs.length := by
  induction rs with
  | nil => simp [mergeRuns]
  | cons r t ih =>
    simp only [mergeRuns]
    cases hm : mergeRuns t with
    | nil => simp
    | cons q u =>
      rw [hm] at ih
      dsimp only
      simp only [List.length_cons] at ih ⊢
      split <;> simp only [List.length_cons] <;> omega

theorem Runs.wf_merge {rs : Runs} (w : Runs.wf rs = true) : Runs.wf (mergeRuns rs) = true := by
  simp only [Runs.wf, Bool.and_eq_true, beq_iff_eq] at w ⊢
  exact ⟨by rw [mergeRuns_total]; exact w.1, mergeRuns_pos w.2⟩

end Sys2Proof.Machine
end

