-- ==== Sys2Proof/Laws/State.lean ====
section
/-! SUPPORT. What each update of the state and of a group leaves of every field: one lemma for each field and update. -/

namespace Sys2Proof.Machine

@[simp] theorem State.updCore_cur (s : State) (c : Nat) (f : Core → Core) : (s.updCore c f).cur = s.cur := rfl
@[simp] theorem State.updCore_schedule (s : State) (c : Nat) (f : Core → Core) : (s.updCore c f).schedule = s.schedule := rfl
@[simp] theorem State.updCore_now (s : State) (c : Nat) (f : Core → Core) : (s.updCore c f).now = s.now := rfl
@[simp] theorem State.updCore_ts (s : State) (c : Nat) (f : Core → Core) : (s.updCore c f).ts = s.ts := rfl
@[simp] theorem State.updCore_mem (s : State) (c : Nat) (f : Core → Core) : (s.updCore c f).mem = s.mem := rfl
@[simp] theorem State.updCore_groups (s : State) (c : Nat) (f : Core → Core) : (s.updCore c f).groups = s.groups := rfl
@[simp] theorem State.updCore_teams (s : State) (c : Nat) (f : Core → Core) : (s.updCore c f).teams = s.teams := rfl
@[simp] theorem State.updCore_grids (s : State) (c : Nat) (f : Core → Core) : (s.updCore c f).grids = s.grids := rfl
@[simp] theorem State.updCore_nextGrid (s : State) (c : Nat) (f : Core → Core) : (s.updCore c f).nextGrid = s.nextGrid := rfl
@[simp] theorem State.updCore_dies (s : State) (c : Nat) (f : Core → Core) : (s.updCore c f).dies = s.dies := rfl
@[simp] theorem State.updCore_ctxs (s : State) (c : Nat) (f : Core → Core) : (s.updCore c f).ctxs = s.ctxs := rfl
@[simp] theorem State.updCore_images (s : State) (c : Nat) (f : Core → Core) : (s.updCore c f).images = s.images := rfl
@[simp] theorem State.updCore_stage (s : State) (c : Nat) (f : Core → Core) : (s.updCore c f).stage = s.stage := rfl
@[simp] theorem State.updCore_bootErr (s : State) (c : Nat) (f : Core → Core) : (s.updCore c f).bootErr = s.bootErr := rfl
@[simp] theorem State.updCore_lastRst (s : State) (c : Nat) (f : Core → Core) : (s.updCore c f).lastRst = s.lastRst := rfl
@[simp] theorem State.updCore_tripped (s : State) (c : Nat) (f : Core → Core) : (s.updCore c f).tripped = s.tripped := rfl
@[simp] theorem State.updCore_hot (s : State) (c : Nat) (f : Core → Core) : (s.updCore c f).hot = s.hot := rfl
@[simp] theorem State.updCore_alarmLvl (s : State) (c : Nat) (f : Core → Core) : (s.updCore c f).alarmLvl = s.alarmLvl := rfl
@[simp] theorem State.updCore_fwValid (s : State) (c : Nat) (f : Core → Core) : (s.updCore c f).fwValid = s.fwValid := rfl
@[simp] theorem State.updCore_memActive (s : State) (c : Nat) (f : Core → Core) : (s.updCore c f).memActive = s.memActive := rfl
@[simp] theorem State.updCore_bootLog (s : State) (c : Nat) (f : Core → Core) : (s.updCore c f).bootLog = s.bootLog := rfl
@[simp] theorem State.updCore_errLog (s : State) (c : Nat) (f : Core → Core) : (s.updCore c f).errLog = s.errLog := rfl
@[simp] theorem State.updCore_nextSeq (s : State) (c : Nat) (f : Core → Core) : (s.updCore c f).nextSeq = s.nextSeq := rfl
@[simp] theorem State.updCore_suppressed (s : State) (c : Nat) (f : Core → Core) : (s.updCore c f).suppressed = s.suppressed := rfl
@[simp] theorem State.updCore_alarmCfg (s : State) (c : Nat) (f : Core → Core) : (s.updCore c f).alarmCfg = s.alarmCfg := rfl
@[simp] theorem State.updCore_attLog (s : State) (c : Nat) (f : Core → Core) : (s.updCore c f).attLog = s.attLog := rfl
@[simp] theorem State.updCore_fwStore (s : State) (c : Nat) (f : Core → Core) : (s.updCore c f).fwStore = s.fwStore := rfl
@[simp] theorem State.updCore_fwNew (s : State) (c : Nat) (f : Core → Core) : (s.updCore c f).fwNew = s.fwNew := rfl
@[simp] theorem State.updCore_fwRunning (s : State) (c : Nat) (f : Core → Core) : (s.updCore c f).fwRunning = s.fwRunning := rfl
@[simp] theorem State.updCore_keyHash (s : State) (c : Nat) (f : Core → Core) : (s.updCore c f).keyHash = s.keyHash := rfl
@[simp] theorem State.updCore_minVersion (s : State) (c : Nat) (f : Core → Core) : (s.updCore c f).minVersion = s.minVersion := rfl
@[simp] theorem State.updCore_retired (s : State) (c : Nat) (f : Core → Core) : (s.updCore c f).retired = s.retired := rfl
@[simp] theorem State.updCore_startRetired (s : State) (c : Nat) (f : Core → Core) : (s.updCore c f).startRetired = s.startRetired := rfl
@[simp] theorem State.updCore_untrained (s : State) (c : Nat) (f : Core → Core) : (s.updCore c f).untrained = s.untrained := rfl
@[simp] theorem State.updCore_hdms (s : State) (c : Nat) (f : Core → Core) : (s.updCore c f).hdms = s.hdms := rfl
@[simp] theorem State.updCore_cxlLanes (s : State) (c : Nat) (f : Core → Core) : (s.updCore c f).cxlLanes = s.cxlLanes := rfl
@[simp] theorem State.updCore_ports (s : State) (c : Nat) (f : Core → Core) : (s.updCore c f).ports = s.ports := rfl
@[simp] theorem State.updCore_devId (s : State) (c : Nat) (f : Core → Core) : (s.updCore c f).devId = s.devId := rfl
@[simp] theorem State.updCore_txns (s : State) (c : Nat) (f : Core → Core) : (s.updCore c f).txns = s.txns := rfl
@[simp] theorem State.updCore_nextTx (s : State) (c : Nat) (f : Core → Core) : (s.updCore c f).nextTx = s.nextTx := rfl
@[simp] theorem State.updCore_replies (s : State) (c : Nat) (f : Core → Core) : (s.updCore c f).replies = s.replies := rfl
@[simp] theorem State.updCore_outbox (s : State) (c : Nat) (f : Core → Core) : (s.updCore c f).outbox = s.outbox := rfl
@[simp] theorem State.updCore_inbox (s : State) (c : Nat) (f : Core → Core) : (s.updCore c f).inbox = s.inbox := rfl
@[simp] theorem State.updCore_versions (s : State) (c : Nat) (f : Core → Core) : (s.updCore c f).versions = s.versions := rfl
@[simp] theorem State.updCore_poison (s : State) (c : Nat) (f : Core → Core) : (s.updCore c f).poison = s.poison := rfl
@[simp] theorem State.updCore_badUE (s : State) (c : Nat) (f : Core → Core) : (s.updCore c f).badUE = s.badUE := rfl
@[simp] theorem State.updCore_badCE (s : State) (c : Nat) (f : Core → Core) : (s.updCore c f).badCE = s.badCE := rfl
@[simp] theorem State.updCore_failed (s : State) (c : Nat) (f : Core → Core) : (s.updCore c f).failed = s.failed := rfl
@[simp] theorem State.updCore_dirty (s : State) (c : Nat) (f : Core → Core) : (s.updCore c f).dirty = s.dirty := rfl
@[simp] theorem State.updCore_counters (s : State) (c : Nat) (f : Core → Core) : (s.updCore c f).counters = s.counters := rfl
@[simp] theorem State.updCore_replay (s : State) (c : Nat) (f : Core → Core) : (s.updCore c f).replay = s.replay := rfl
@[simp] theorem State.updCore_mailReply (s : State) (c : Nat) (f : Core → Core) : (s.updCore c f).mailReply = s.mailReply := rfl
@[simp] theorem State.updCore_mailBusy (s : State) (c : Nat) (f : Core → Core) : (s.updCore c f).mailBusy = s.mailBusy := rfl
@[simp] theorem State.updCore_hostReply (s : State) (c : Nat) (f : Core → Core) : (s.updCore c f).hostReply = s.hostReply := rfl
@[simp] theorem State.updCore_hostPoison (s : State) (c : Nat) (f : Core → Core) : (s.updCore c f).hostPoison = s.hostPoison := rfl
@[simp] theorem State.updCore_draws (s : State) (c : Nat) (f : Core → Core) : (s.updCore c f).draws = s.draws := rfl
@[simp] theorem State.updCore_split (s : State) (c : Nat) (f : Core → Core) : (s.updCore c f).split = s.split := rfl

@[simp] theorem State.updDie_cur (s : State) (d : Nat) (f : Die → Die) : (s.updDie d f).cur = s.cur := rfl
@[simp] theorem State.updDie_schedule (s : State) (d : Nat) (f : Die → Die) : (s.updDie d f).schedule = s.schedule := rfl
@[simp] theorem State.updDie_now (s : State) (d : Nat) (f : Die → Die) : (s.updDie d f).now = s.now := rfl
@[simp] theorem State.updDie_ts (s : State) (d : Nat) (f : Die → Die) : (s.updDie d f).ts = s.ts := rfl
@[simp] theorem State.updDie_mem (s : State) (d : Nat) (f : Die → Die) : (s.updDie d f).mem = s.mem := rfl
@[simp] theorem State.updDie_groups (s : State) (d : Nat) (f : Die → Die) : (s.updDie d f).groups = s.groups := rfl
@[simp] theorem State.updDie_teams (s : State) (d : Nat) (f : Die → Die) : (s.updDie d f).teams = s.teams := rfl
@[simp] theorem State.updDie_grids (s : State) (d : Nat) (f : Die → Die) : (s.updDie d f).grids = s.grids := rfl
@[simp] theorem State.updDie_nextGrid (s : State) (d : Nat) (f : Die → Die) : (s.updDie d f).nextGrid = s.nextGrid := rfl
@[simp] theorem State.updDie_cores (s : State) (d : Nat) (f : Die → Die) : (s.updDie d f).cores = s.cores := rfl
@[simp] theorem State.updDie_ctxs (s : State) (d : Nat) (f : Die → Die) : (s.updDie d f).ctxs = s.ctxs := rfl
@[simp] theorem State.updDie_images (s : State) (d : Nat) (f : Die → Die) : (s.updDie d f).images = s.images := rfl
@[simp] theorem State.updDie_stage (s : State) (d : Nat) (f : Die → Die) : (s.updDie d f).stage = s.stage := rfl
@[simp] theorem State.updDie_bootErr (s : State) (d : Nat) (f : Die → Die) : (s.updDie d f).bootErr = s.bootErr := rfl
@[simp] theorem State.updDie_lastRst (s : State) (d : Nat) (f : Die → Die) : (s.updDie d f).lastRst = s.lastRst := rfl
@[simp] theorem State.updDie_tripped (s : State) (d : Nat) (f : Die → Die) : (s.updDie d f).tripped = s.tripped := rfl
@[simp] theorem State.updDie_hot (s : State) (d : Nat) (f : Die → Die) : (s.updDie d f).hot = s.hot := rfl
@[simp] theorem State.updDie_alarmLvl (s : State) (d : Nat) (f : Die → Die) : (s.updDie d f).alarmLvl = s.alarmLvl := rfl
@[simp] theorem State.updDie_fwValid (s : State) (d : Nat) (f : Die → Die) : (s.updDie d f).fwValid = s.fwValid := rfl
@[simp] theorem State.updDie_memActive (s : State) (d : Nat) (f : Die → Die) : (s.updDie d f).memActive = s.memActive := rfl
@[simp] theorem State.updDie_bootLog (s : State) (d : Nat) (f : Die → Die) : (s.updDie d f).bootLog = s.bootLog := rfl
@[simp] theorem State.updDie_errLog (s : State) (d : Nat) (f : Die → Die) : (s.updDie d f).errLog = s.errLog := rfl
@[simp] theorem State.updDie_nextSeq (s : State) (d : Nat) (f : Die → Die) : (s.updDie d f).nextSeq = s.nextSeq := rfl
@[simp] theorem State.updDie_suppressed (s : State) (d : Nat) (f : Die → Die) : (s.updDie d f).suppressed = s.suppressed := rfl
@[simp] theorem State.updDie_alarmCfg (s : State) (d : Nat) (f : Die → Die) : (s.updDie d f).alarmCfg = s.alarmCfg := rfl
@[simp] theorem State.updDie_attLog (s : State) (d : Nat) (f : Die → Die) : (s.updDie d f).attLog = s.attLog := rfl
@[simp] theorem State.updDie_fwStore (s : State) (d : Nat) (f : Die → Die) : (s.updDie d f).fwStore = s.fwStore := rfl
@[simp] theorem State.updDie_fwNew (s : State) (d : Nat) (f : Die → Die) : (s.updDie d f).fwNew = s.fwNew := rfl
@[simp] theorem State.updDie_fwRunning (s : State) (d : Nat) (f : Die → Die) : (s.updDie d f).fwRunning = s.fwRunning := rfl
@[simp] theorem State.updDie_keyHash (s : State) (d : Nat) (f : Die → Die) : (s.updDie d f).keyHash = s.keyHash := rfl
@[simp] theorem State.updDie_minVersion (s : State) (d : Nat) (f : Die → Die) : (s.updDie d f).minVersion = s.minVersion := rfl
@[simp] theorem State.updDie_retired (s : State) (d : Nat) (f : Die → Die) : (s.updDie d f).retired = s.retired := rfl
@[simp] theorem State.updDie_startRetired (s : State) (d : Nat) (f : Die → Die) : (s.updDie d f).startRetired = s.startRetired := rfl
@[simp] theorem State.updDie_untrained (s : State) (d : Nat) (f : Die → Die) : (s.updDie d f).untrained = s.untrained := rfl
@[simp] theorem State.updDie_hdms (s : State) (d : Nat) (f : Die → Die) : (s.updDie d f).hdms = s.hdms := rfl
@[simp] theorem State.updDie_cxlLanes (s : State) (d : Nat) (f : Die → Die) : (s.updDie d f).cxlLanes = s.cxlLanes := rfl
@[simp] theorem State.updDie_ports (s : State) (d : Nat) (f : Die → Die) : (s.updDie d f).ports = s.ports := rfl
@[simp] theorem State.updDie_devId (s : State) (d : Nat) (f : Die → Die) : (s.updDie d f).devId = s.devId := rfl
@[simp] theorem State.updDie_txns (s : State) (d : Nat) (f : Die → Die) : (s.updDie d f).txns = s.txns := rfl
@[simp] theorem State.updDie_nextTx (s : State) (d : Nat) (f : Die → Die) : (s.updDie d f).nextTx = s.nextTx := rfl
@[simp] theorem State.updDie_replies (s : State) (d : Nat) (f : Die → Die) : (s.updDie d f).replies = s.replies := rfl
@[simp] theorem State.updDie_outbox (s : State) (d : Nat) (f : Die → Die) : (s.updDie d f).outbox = s.outbox := rfl
@[simp] theorem State.updDie_inbox (s : State) (d : Nat) (f : Die → Die) : (s.updDie d f).inbox = s.inbox := rfl
@[simp] theorem State.updDie_versions (s : State) (d : Nat) (f : Die → Die) : (s.updDie d f).versions = s.versions := rfl
@[simp] theorem State.updDie_poison (s : State) (d : Nat) (f : Die → Die) : (s.updDie d f).poison = s.poison := rfl
@[simp] theorem State.updDie_badUE (s : State) (d : Nat) (f : Die → Die) : (s.updDie d f).badUE = s.badUE := rfl
@[simp] theorem State.updDie_badCE (s : State) (d : Nat) (f : Die → Die) : (s.updDie d f).badCE = s.badCE := rfl
@[simp] theorem State.updDie_failed (s : State) (d : Nat) (f : Die → Die) : (s.updDie d f).failed = s.failed := rfl
@[simp] theorem State.updDie_dirty (s : State) (d : Nat) (f : Die → Die) : (s.updDie d f).dirty = s.dirty := rfl
@[simp] theorem State.updDie_counters (s : State) (d : Nat) (f : Die → Die) : (s.updDie d f).counters = s.counters := rfl
@[simp] theorem State.updDie_replay (s : State) (d : Nat) (f : Die → Die) : (s.updDie d f).replay = s.replay := rfl
@[simp] theorem State.updDie_mailReply (s : State) (d : Nat) (f : Die → Die) : (s.updDie d f).mailReply = s.mailReply := rfl
@[simp] theorem State.updDie_mailBusy (s : State) (d : Nat) (f : Die → Die) : (s.updDie d f).mailBusy = s.mailBusy := rfl
@[simp] theorem State.updDie_hostReply (s : State) (d : Nat) (f : Die → Die) : (s.updDie d f).hostReply = s.hostReply := rfl
@[simp] theorem State.updDie_hostPoison (s : State) (d : Nat) (f : Die → Die) : (s.updDie d f).hostPoison = s.hostPoison := rfl
@[simp] theorem State.updDie_draws (s : State) (d : Nat) (f : Die → Die) : (s.updDie d f).draws = s.draws := rfl
@[simp] theorem State.updDie_split (s : State) (d : Nat) (f : Die → Die) : (s.updDie d f).split = s.split := rfl

@[simp] theorem State.updCtx_cur (s : State) (c : Nat) (f : Ctx → Ctx) : (s.updCtx c f).cur = s.cur := rfl
@[simp] theorem State.updCtx_schedule (s : State) (c : Nat) (f : Ctx → Ctx) : (s.updCtx c f).schedule = s.schedule := rfl
@[simp] theorem State.updCtx_now (s : State) (c : Nat) (f : Ctx → Ctx) : (s.updCtx c f).now = s.now := rfl
@[simp] theorem State.updCtx_ts (s : State) (c : Nat) (f : Ctx → Ctx) : (s.updCtx c f).ts = s.ts := rfl
@[simp] theorem State.updCtx_mem (s : State) (c : Nat) (f : Ctx → Ctx) : (s.updCtx c f).mem = s.mem := rfl
@[simp] theorem State.updCtx_groups (s : State) (c : Nat) (f : Ctx → Ctx) : (s.updCtx c f).groups = s.groups := rfl
@[simp] theorem State.updCtx_teams (s : State) (c : Nat) (f : Ctx → Ctx) : (s.updCtx c f).teams = s.teams := rfl
@[simp] theorem State.updCtx_grids (s : State) (c : Nat) (f : Ctx → Ctx) : (s.updCtx c f).grids = s.grids := rfl
@[simp] theorem State.updCtx_nextGrid (s : State) (c : Nat) (f : Ctx → Ctx) : (s.updCtx c f).nextGrid = s.nextGrid := rfl
@[simp] theorem State.updCtx_cores (s : State) (c : Nat) (f : Ctx → Ctx) : (s.updCtx c f).cores = s.cores := rfl
@[simp] theorem State.updCtx_dies (s : State) (c : Nat) (f : Ctx → Ctx) : (s.updCtx c f).dies = s.dies := rfl
@[simp] theorem State.updCtx_images (s : State) (c : Nat) (f : Ctx → Ctx) : (s.updCtx c f).images = s.images := rfl
@[simp] theorem State.updCtx_stage (s : State) (c : Nat) (f : Ctx → Ctx) : (s.updCtx c f).stage = s.stage := rfl
@[simp] theorem State.updCtx_bootErr (s : State) (c : Nat) (f : Ctx → Ctx) : (s.updCtx c f).bootErr = s.bootErr := rfl
@[simp] theorem State.updCtx_lastRst (s : State) (c : Nat) (f : Ctx → Ctx) : (s.updCtx c f).lastRst = s.lastRst := rfl
@[simp] theorem State.updCtx_tripped (s : State) (c : Nat) (f : Ctx → Ctx) : (s.updCtx c f).tripped = s.tripped := rfl
@[simp] theorem State.updCtx_hot (s : State) (c : Nat) (f : Ctx → Ctx) : (s.updCtx c f).hot = s.hot := rfl
@[simp] theorem State.updCtx_alarmLvl (s : State) (c : Nat) (f : Ctx → Ctx) : (s.updCtx c f).alarmLvl = s.alarmLvl := rfl
@[simp] theorem State.updCtx_fwValid (s : State) (c : Nat) (f : Ctx → Ctx) : (s.updCtx c f).fwValid = s.fwValid := rfl
@[simp] theorem State.updCtx_memActive (s : State) (c : Nat) (f : Ctx → Ctx) : (s.updCtx c f).memActive = s.memActive := rfl
@[simp] theorem State.updCtx_bootLog (s : State) (c : Nat) (f : Ctx → Ctx) : (s.updCtx c f).bootLog = s.bootLog := rfl
@[simp] theorem State.updCtx_errLog (s : State) (c : Nat) (f : Ctx → Ctx) : (s.updCtx c f).errLog = s.errLog := rfl
@[simp] theorem State.updCtx_nextSeq (s : State) (c : Nat) (f : Ctx → Ctx) : (s.updCtx c f).nextSeq = s.nextSeq := rfl
@[simp] theorem State.updCtx_suppressed (s : State) (c : Nat) (f : Ctx → Ctx) : (s.updCtx c f).suppressed = s.suppressed := rfl
@[simp] theorem State.updCtx_alarmCfg (s : State) (c : Nat) (f : Ctx → Ctx) : (s.updCtx c f).alarmCfg = s.alarmCfg := rfl
@[simp] theorem State.updCtx_attLog (s : State) (c : Nat) (f : Ctx → Ctx) : (s.updCtx c f).attLog = s.attLog := rfl
@[simp] theorem State.updCtx_fwStore (s : State) (c : Nat) (f : Ctx → Ctx) : (s.updCtx c f).fwStore = s.fwStore := rfl
@[simp] theorem State.updCtx_fwNew (s : State) (c : Nat) (f : Ctx → Ctx) : (s.updCtx c f).fwNew = s.fwNew := rfl
@[simp] theorem State.updCtx_fwRunning (s : State) (c : Nat) (f : Ctx → Ctx) : (s.updCtx c f).fwRunning = s.fwRunning := rfl
@[simp] theorem State.updCtx_keyHash (s : State) (c : Nat) (f : Ctx → Ctx) : (s.updCtx c f).keyHash = s.keyHash := rfl
@[simp] theorem State.updCtx_minVersion (s : State) (c : Nat) (f : Ctx → Ctx) : (s.updCtx c f).minVersion = s.minVersion := rfl
@[simp] theorem State.updCtx_retired (s : State) (c : Nat) (f : Ctx → Ctx) : (s.updCtx c f).retired = s.retired := rfl
@[simp] theorem State.updCtx_startRetired (s : State) (c : Nat) (f : Ctx → Ctx) : (s.updCtx c f).startRetired = s.startRetired := rfl
@[simp] theorem State.updCtx_untrained (s : State) (c : Nat) (f : Ctx → Ctx) : (s.updCtx c f).untrained = s.untrained := rfl
@[simp] theorem State.updCtx_hdms (s : State) (c : Nat) (f : Ctx → Ctx) : (s.updCtx c f).hdms = s.hdms := rfl
@[simp] theorem State.updCtx_cxlLanes (s : State) (c : Nat) (f : Ctx → Ctx) : (s.updCtx c f).cxlLanes = s.cxlLanes := rfl
@[simp] theorem State.updCtx_ports (s : State) (c : Nat) (f : Ctx → Ctx) : (s.updCtx c f).ports = s.ports := rfl
@[simp] theorem State.updCtx_devId (s : State) (c : Nat) (f : Ctx → Ctx) : (s.updCtx c f).devId = s.devId := rfl
@[simp] theorem State.updCtx_txns (s : State) (c : Nat) (f : Ctx → Ctx) : (s.updCtx c f).txns = s.txns := rfl
@[simp] theorem State.updCtx_nextTx (s : State) (c : Nat) (f : Ctx → Ctx) : (s.updCtx c f).nextTx = s.nextTx := rfl
@[simp] theorem State.updCtx_replies (s : State) (c : Nat) (f : Ctx → Ctx) : (s.updCtx c f).replies = s.replies := rfl
@[simp] theorem State.updCtx_outbox (s : State) (c : Nat) (f : Ctx → Ctx) : (s.updCtx c f).outbox = s.outbox := rfl
@[simp] theorem State.updCtx_inbox (s : State) (c : Nat) (f : Ctx → Ctx) : (s.updCtx c f).inbox = s.inbox := rfl
@[simp] theorem State.updCtx_versions (s : State) (c : Nat) (f : Ctx → Ctx) : (s.updCtx c f).versions = s.versions := rfl
@[simp] theorem State.updCtx_poison (s : State) (c : Nat) (f : Ctx → Ctx) : (s.updCtx c f).poison = s.poison := rfl
@[simp] theorem State.updCtx_badUE (s : State) (c : Nat) (f : Ctx → Ctx) : (s.updCtx c f).badUE = s.badUE := rfl
@[simp] theorem State.updCtx_badCE (s : State) (c : Nat) (f : Ctx → Ctx) : (s.updCtx c f).badCE = s.badCE := rfl
@[simp] theorem State.updCtx_failed (s : State) (c : Nat) (f : Ctx → Ctx) : (s.updCtx c f).failed = s.failed := rfl
@[simp] theorem State.updCtx_dirty (s : State) (c : Nat) (f : Ctx → Ctx) : (s.updCtx c f).dirty = s.dirty := rfl
@[simp] theorem State.updCtx_counters (s : State) (c : Nat) (f : Ctx → Ctx) : (s.updCtx c f).counters = s.counters := rfl
@[simp] theorem State.updCtx_replay (s : State) (c : Nat) (f : Ctx → Ctx) : (s.updCtx c f).replay = s.replay := rfl
@[simp] theorem State.updCtx_mailReply (s : State) (c : Nat) (f : Ctx → Ctx) : (s.updCtx c f).mailReply = s.mailReply := rfl
@[simp] theorem State.updCtx_mailBusy (s : State) (c : Nat) (f : Ctx → Ctx) : (s.updCtx c f).mailBusy = s.mailBusy := rfl
@[simp] theorem State.updCtx_hostReply (s : State) (c : Nat) (f : Ctx → Ctx) : (s.updCtx c f).hostReply = s.hostReply := rfl
@[simp] theorem State.updCtx_hostPoison (s : State) (c : Nat) (f : Ctx → Ctx) : (s.updCtx c f).hostPoison = s.hostPoison := rfl
@[simp] theorem State.updCtx_draws (s : State) (c : Nat) (f : Ctx → Ctx) : (s.updCtx c f).draws = s.draws := rfl
@[simp] theorem State.updCtx_split (s : State) (c : Nat) (f : Ctx → Ctx) : (s.updCtx c f).split = s.split := rfl

@[simp] theorem State.updGroup_cur (s : State) (g : Nat) (f : Group → Group) : (s.updGroup g f).cur = s.cur := rfl
@[simp] theorem State.updGroup_schedule (s : State) (g : Nat) (f : Group → Group) : (s.updGroup g f).schedule = s.schedule := rfl
@[simp] theorem State.updGroup_now (s : State) (g : Nat) (f : Group → Group) : (s.updGroup g f).now = s.now := rfl
@[simp] theorem State.updGroup_ts (s : State) (g : Nat) (f : Group → Group) : (s.updGroup g f).ts = s.ts := rfl
@[simp] theorem State.updGroup_mem (s : State) (g : Nat) (f : Group → Group) : (s.updGroup g f).mem = s.mem := rfl
@[simp] theorem State.updGroup_teams (s : State) (g : Nat) (f : Group → Group) : (s.updGroup g f).teams = s.teams := rfl
@[simp] theorem State.updGroup_grids (s : State) (g : Nat) (f : Group → Group) : (s.updGroup g f).grids = s.grids := rfl
@[simp] theorem State.updGroup_nextGrid (s : State) (g : Nat) (f : Group → Group) : (s.updGroup g f).nextGrid = s.nextGrid := rfl
@[simp] theorem State.updGroup_cores (s : State) (g : Nat) (f : Group → Group) : (s.updGroup g f).cores = s.cores := rfl
@[simp] theorem State.updGroup_dies (s : State) (g : Nat) (f : Group → Group) : (s.updGroup g f).dies = s.dies := rfl
@[simp] theorem State.updGroup_ctxs (s : State) (g : Nat) (f : Group → Group) : (s.updGroup g f).ctxs = s.ctxs := rfl
@[simp] theorem State.updGroup_images (s : State) (g : Nat) (f : Group → Group) : (s.updGroup g f).images = s.images := rfl
@[simp] theorem State.updGroup_stage (s : State) (g : Nat) (f : Group → Group) : (s.updGroup g f).stage = s.stage := rfl
@[simp] theorem State.updGroup_bootErr (s : State) (g : Nat) (f : Group → Group) : (s.updGroup g f).bootErr = s.bootErr := rfl
@[simp] theorem State.updGroup_lastRst (s : State) (g : Nat) (f : Group → Group) : (s.updGroup g f).lastRst = s.lastRst := rfl
@[simp] theorem State.updGroup_tripped (s : State) (g : Nat) (f : Group → Group) : (s.updGroup g f).tripped = s.tripped := rfl
@[simp] theorem State.updGroup_hot (s : State) (g : Nat) (f : Group → Group) : (s.updGroup g f).hot = s.hot := rfl
@[simp] theorem State.updGroup_alarmLvl (s : State) (g : Nat) (f : Group → Group) : (s.updGroup g f).alarmLvl = s.alarmLvl := rfl
@[simp] theorem State.updGroup_fwValid (s : State) (g : Nat) (f : Group → Group) : (s.updGroup g f).fwValid = s.fwValid := rfl
@[simp] theorem State.updGroup_memActive (s : State) (g : Nat) (f : Group → Group) : (s.updGroup g f).memActive = s.memActive := rfl
@[simp] theorem State.updGroup_bootLog (s : State) (g : Nat) (f : Group → Group) : (s.updGroup g f).bootLog = s.bootLog := rfl
@[simp] theorem State.updGroup_errLog (s : State) (g : Nat) (f : Group → Group) : (s.updGroup g f).errLog = s.errLog := rfl
@[simp] theorem State.updGroup_nextSeq (s : State) (g : Nat) (f : Group → Group) : (s.updGroup g f).nextSeq = s.nextSeq := rfl
@[simp] theorem State.updGroup_suppressed (s : State) (g : Nat) (f : Group → Group) : (s.updGroup g f).suppressed = s.suppressed := rfl
@[simp] theorem State.updGroup_alarmCfg (s : State) (g : Nat) (f : Group → Group) : (s.updGroup g f).alarmCfg = s.alarmCfg := rfl
@[simp] theorem State.updGroup_attLog (s : State) (g : Nat) (f : Group → Group) : (s.updGroup g f).attLog = s.attLog := rfl
@[simp] theorem State.updGroup_fwStore (s : State) (g : Nat) (f : Group → Group) : (s.updGroup g f).fwStore = s.fwStore := rfl
@[simp] theorem State.updGroup_fwNew (s : State) (g : Nat) (f : Group → Group) : (s.updGroup g f).fwNew = s.fwNew := rfl
@[simp] theorem State.updGroup_fwRunning (s : State) (g : Nat) (f : Group → Group) : (s.updGroup g f).fwRunning = s.fwRunning := rfl
@[simp] theorem State.updGroup_keyHash (s : State) (g : Nat) (f : Group → Group) : (s.updGroup g f).keyHash = s.keyHash := rfl
@[simp] theorem State.updGroup_minVersion (s : State) (g : Nat) (f : Group → Group) : (s.updGroup g f).minVersion = s.minVersion := rfl
@[simp] theorem State.updGroup_retired (s : State) (g : Nat) (f : Group → Group) : (s.updGroup g f).retired = s.retired := rfl
@[simp] theorem State.updGroup_startRetired (s : State) (g : Nat) (f : Group → Group) : (s.updGroup g f).startRetired = s.startRetired := rfl
@[simp] theorem State.updGroup_untrained (s : State) (g : Nat) (f : Group → Group) : (s.updGroup g f).untrained = s.untrained := rfl
@[simp] theorem State.updGroup_hdms (s : State) (g : Nat) (f : Group → Group) : (s.updGroup g f).hdms = s.hdms := rfl
@[simp] theorem State.updGroup_cxlLanes (s : State) (g : Nat) (f : Group → Group) : (s.updGroup g f).cxlLanes = s.cxlLanes := rfl
@[simp] theorem State.updGroup_ports (s : State) (g : Nat) (f : Group → Group) : (s.updGroup g f).ports = s.ports := rfl
@[simp] theorem State.updGroup_devId (s : State) (g : Nat) (f : Group → Group) : (s.updGroup g f).devId = s.devId := rfl
@[simp] theorem State.updGroup_txns (s : State) (g : Nat) (f : Group → Group) : (s.updGroup g f).txns = s.txns := rfl
@[simp] theorem State.updGroup_nextTx (s : State) (g : Nat) (f : Group → Group) : (s.updGroup g f).nextTx = s.nextTx := rfl
@[simp] theorem State.updGroup_replies (s : State) (g : Nat) (f : Group → Group) : (s.updGroup g f).replies = s.replies := rfl
@[simp] theorem State.updGroup_outbox (s : State) (g : Nat) (f : Group → Group) : (s.updGroup g f).outbox = s.outbox := rfl
@[simp] theorem State.updGroup_inbox (s : State) (g : Nat) (f : Group → Group) : (s.updGroup g f).inbox = s.inbox := rfl
@[simp] theorem State.updGroup_versions (s : State) (g : Nat) (f : Group → Group) : (s.updGroup g f).versions = s.versions := rfl
@[simp] theorem State.updGroup_poison (s : State) (g : Nat) (f : Group → Group) : (s.updGroup g f).poison = s.poison := rfl
@[simp] theorem State.updGroup_badUE (s : State) (g : Nat) (f : Group → Group) : (s.updGroup g f).badUE = s.badUE := rfl
@[simp] theorem State.updGroup_badCE (s : State) (g : Nat) (f : Group → Group) : (s.updGroup g f).badCE = s.badCE := rfl
@[simp] theorem State.updGroup_failed (s : State) (g : Nat) (f : Group → Group) : (s.updGroup g f).failed = s.failed := rfl
@[simp] theorem State.updGroup_dirty (s : State) (g : Nat) (f : Group → Group) : (s.updGroup g f).dirty = s.dirty := rfl
@[simp] theorem State.updGroup_counters (s : State) (g : Nat) (f : Group → Group) : (s.updGroup g f).counters = s.counters := rfl
@[simp] theorem State.updGroup_replay (s : State) (g : Nat) (f : Group → Group) : (s.updGroup g f).replay = s.replay := rfl
@[simp] theorem State.updGroup_mailReply (s : State) (g : Nat) (f : Group → Group) : (s.updGroup g f).mailReply = s.mailReply := rfl
@[simp] theorem State.updGroup_mailBusy (s : State) (g : Nat) (f : Group → Group) : (s.updGroup g f).mailBusy = s.mailBusy := rfl
@[simp] theorem State.updGroup_hostReply (s : State) (g : Nat) (f : Group → Group) : (s.updGroup g f).hostReply = s.hostReply := rfl
@[simp] theorem State.updGroup_hostPoison (s : State) (g : Nat) (f : Group → Group) : (s.updGroup g f).hostPoison = s.hostPoison := rfl
@[simp] theorem State.updGroup_draws (s : State) (g : Nat) (f : Group → Group) : (s.updGroup g f).draws = s.draws := rfl
@[simp] theorem State.updGroup_split (s : State) (g : Nat) (f : Group → Group) : (s.updGroup g f).split = s.split := rfl

@[simp] theorem State.updTeam_cur (s : State) (t : Nat) (f : Team → Team) : (s.updTeam t f).cur = s.cur := rfl
@[simp] theorem State.updTeam_schedule (s : State) (t : Nat) (f : Team → Team) : (s.updTeam t f).schedule = s.schedule := rfl
@[simp] theorem State.updTeam_now (s : State) (t : Nat) (f : Team → Team) : (s.updTeam t f).now = s.now := rfl
@[simp] theorem State.updTeam_ts (s : State) (t : Nat) (f : Team → Team) : (s.updTeam t f).ts = s.ts := rfl
@[simp] theorem State.updTeam_mem (s : State) (t : Nat) (f : Team → Team) : (s.updTeam t f).mem = s.mem := rfl
@[simp] theorem State.updTeam_groups (s : State) (t : Nat) (f : Team → Team) : (s.updTeam t f).groups = s.groups := rfl
@[simp] theorem State.updTeam_grids (s : State) (t : Nat) (f : Team → Team) : (s.updTeam t f).grids = s.grids := rfl
@[simp] theorem State.updTeam_nextGrid (s : State) (t : Nat) (f : Team → Team) : (s.updTeam t f).nextGrid = s.nextGrid := rfl
@[simp] theorem State.updTeam_cores (s : State) (t : Nat) (f : Team → Team) : (s.updTeam t f).cores = s.cores := rfl
@[simp] theorem State.updTeam_dies (s : State) (t : Nat) (f : Team → Team) : (s.updTeam t f).dies = s.dies := rfl
@[simp] theorem State.updTeam_ctxs (s : State) (t : Nat) (f : Team → Team) : (s.updTeam t f).ctxs = s.ctxs := rfl
@[simp] theorem State.updTeam_images (s : State) (t : Nat) (f : Team → Team) : (s.updTeam t f).images = s.images := rfl
@[simp] theorem State.updTeam_stage (s : State) (t : Nat) (f : Team → Team) : (s.updTeam t f).stage = s.stage := rfl
@[simp] theorem State.updTeam_bootErr (s : State) (t : Nat) (f : Team → Team) : (s.updTeam t f).bootErr = s.bootErr := rfl
@[simp] theorem State.updTeam_lastRst (s : State) (t : Nat) (f : Team → Team) : (s.updTeam t f).lastRst = s.lastRst := rfl
@[simp] theorem State.updTeam_tripped (s : State) (t : Nat) (f : Team → Team) : (s.updTeam t f).tripped = s.tripped := rfl
@[simp] theorem State.updTeam_hot (s : State) (t : Nat) (f : Team → Team) : (s.updTeam t f).hot = s.hot := rfl
@[simp] theorem State.updTeam_alarmLvl (s : State) (t : Nat) (f : Team → Team) : (s.updTeam t f).alarmLvl = s.alarmLvl := rfl
@[simp] theorem State.updTeam_fwValid (s : State) (t : Nat) (f : Team → Team) : (s.updTeam t f).fwValid = s.fwValid := rfl
@[simp] theorem State.updTeam_memActive (s : State) (t : Nat) (f : Team → Team) : (s.updTeam t f).memActive = s.memActive := rfl
@[simp] theorem State.updTeam_bootLog (s : State) (t : Nat) (f : Team → Team) : (s.updTeam t f).bootLog = s.bootLog := rfl
@[simp] theorem State.updTeam_errLog (s : State) (t : Nat) (f : Team → Team) : (s.updTeam t f).errLog = s.errLog := rfl
@[simp] theorem State.updTeam_nextSeq (s : State) (t : Nat) (f : Team → Team) : (s.updTeam t f).nextSeq = s.nextSeq := rfl
@[simp] theorem State.updTeam_suppressed (s : State) (t : Nat) (f : Team → Team) : (s.updTeam t f).suppressed = s.suppressed := rfl
@[simp] theorem State.updTeam_alarmCfg (s : State) (t : Nat) (f : Team → Team) : (s.updTeam t f).alarmCfg = s.alarmCfg := rfl
@[simp] theorem State.updTeam_attLog (s : State) (t : Nat) (f : Team → Team) : (s.updTeam t f).attLog = s.attLog := rfl
@[simp] theorem State.updTeam_fwStore (s : State) (t : Nat) (f : Team → Team) : (s.updTeam t f).fwStore = s.fwStore := rfl
@[simp] theorem State.updTeam_fwNew (s : State) (t : Nat) (f : Team → Team) : (s.updTeam t f).fwNew = s.fwNew := rfl
@[simp] theorem State.updTeam_fwRunning (s : State) (t : Nat) (f : Team → Team) : (s.updTeam t f).fwRunning = s.fwRunning := rfl
@[simp] theorem State.updTeam_keyHash (s : State) (t : Nat) (f : Team → Team) : (s.updTeam t f).keyHash = s.keyHash := rfl
@[simp] theorem State.updTeam_minVersion (s : State) (t : Nat) (f : Team → Team) : (s.updTeam t f).minVersion = s.minVersion := rfl
@[simp] theorem State.updTeam_retired (s : State) (t : Nat) (f : Team → Team) : (s.updTeam t f).retired = s.retired := rfl
@[simp] theorem State.updTeam_startRetired (s : State) (t : Nat) (f : Team → Team) : (s.updTeam t f).startRetired = s.startRetired := rfl
@[simp] theorem State.updTeam_untrained (s : State) (t : Nat) (f : Team → Team) : (s.updTeam t f).untrained = s.untrained := rfl
@[simp] theorem State.updTeam_hdms (s : State) (t : Nat) (f : Team → Team) : (s.updTeam t f).hdms = s.hdms := rfl
@[simp] theorem State.updTeam_cxlLanes (s : State) (t : Nat) (f : Team → Team) : (s.updTeam t f).cxlLanes = s.cxlLanes := rfl
@[simp] theorem State.updTeam_ports (s : State) (t : Nat) (f : Team → Team) : (s.updTeam t f).ports = s.ports := rfl
@[simp] theorem State.updTeam_devId (s : State) (t : Nat) (f : Team → Team) : (s.updTeam t f).devId = s.devId := rfl
@[simp] theorem State.updTeam_txns (s : State) (t : Nat) (f : Team → Team) : (s.updTeam t f).txns = s.txns := rfl
@[simp] theorem State.updTeam_nextTx (s : State) (t : Nat) (f : Team → Team) : (s.updTeam t f).nextTx = s.nextTx := rfl
@[simp] theorem State.updTeam_replies (s : State) (t : Nat) (f : Team → Team) : (s.updTeam t f).replies = s.replies := rfl
@[simp] theorem State.updTeam_outbox (s : State) (t : Nat) (f : Team → Team) : (s.updTeam t f).outbox = s.outbox := rfl
@[simp] theorem State.updTeam_inbox (s : State) (t : Nat) (f : Team → Team) : (s.updTeam t f).inbox = s.inbox := rfl
@[simp] theorem State.updTeam_versions (s : State) (t : Nat) (f : Team → Team) : (s.updTeam t f).versions = s.versions := rfl
@[simp] theorem State.updTeam_poison (s : State) (t : Nat) (f : Team → Team) : (s.updTeam t f).poison = s.poison := rfl
@[simp] theorem State.updTeam_badUE (s : State) (t : Nat) (f : Team → Team) : (s.updTeam t f).badUE = s.badUE := rfl
@[simp] theorem State.updTeam_badCE (s : State) (t : Nat) (f : Team → Team) : (s.updTeam t f).badCE = s.badCE := rfl
@[simp] theorem State.updTeam_failed (s : State) (t : Nat) (f : Team → Team) : (s.updTeam t f).failed = s.failed := rfl
@[simp] theorem State.updTeam_dirty (s : State) (t : Nat) (f : Team → Team) : (s.updTeam t f).dirty = s.dirty := rfl
@[simp] theorem State.updTeam_counters (s : State) (t : Nat) (f : Team → Team) : (s.updTeam t f).counters = s.counters := rfl
@[simp] theorem State.updTeam_replay (s : State) (t : Nat) (f : Team → Team) : (s.updTeam t f).replay = s.replay := rfl
@[simp] theorem State.updTeam_mailReply (s : State) (t : Nat) (f : Team → Team) : (s.updTeam t f).mailReply = s.mailReply := rfl
@[simp] theorem State.updTeam_mailBusy (s : State) (t : Nat) (f : Team → Team) : (s.updTeam t f).mailBusy = s.mailBusy := rfl
@[simp] theorem State.updTeam_hostReply (s : State) (t : Nat) (f : Team → Team) : (s.updTeam t f).hostReply = s.hostReply := rfl
@[simp] theorem State.updTeam_hostPoison (s : State) (t : Nat) (f : Team → Team) : (s.updTeam t f).hostPoison = s.hostPoison := rfl
@[simp] theorem State.updTeam_draws (s : State) (t : Nat) (f : Team → Team) : (s.updTeam t f).draws = s.draws := rfl
@[simp] theorem State.updTeam_split (s : State) (t : Nat) (f : Team → Team) : (s.updTeam t f).split = s.split := rfl

@[simp] theorem State.updGrid_cur (s : State) (n : Nat) (f : Grid → Grid) : (s.updGrid n f).cur = s.cur := rfl
@[simp] theorem State.updGrid_schedule (s : State) (n : Nat) (f : Grid → Grid) : (s.updGrid n f).schedule = s.schedule := rfl
@[simp] theorem State.updGrid_now (s : State) (n : Nat) (f : Grid → Grid) : (s.updGrid n f).now = s.now := rfl
@[simp] theorem State.updGrid_ts (s : State) (n : Nat) (f : Grid → Grid) : (s.updGrid n f).ts = s.ts := rfl
@[simp] theorem State.updGrid_mem (s : State) (n : Nat) (f : Grid → Grid) : (s.updGrid n f).mem = s.mem := rfl
@[simp] theorem State.updGrid_groups (s : State) (n : Nat) (f : Grid → Grid) : (s.updGrid n f).groups = s.groups := rfl
@[simp] theorem State.updGrid_teams (s : State) (n : Nat) (f : Grid → Grid) : (s.updGrid n f).teams = s.teams := rfl
@[simp] theorem State.updGrid_nextGrid (s : State) (n : Nat) (f : Grid → Grid) : (s.updGrid n f).nextGrid = s.nextGrid := rfl
@[simp] theorem State.updGrid_cores (s : State) (n : Nat) (f : Grid → Grid) : (s.updGrid n f).cores = s.cores := rfl
@[simp] theorem State.updGrid_dies (s : State) (n : Nat) (f : Grid → Grid) : (s.updGrid n f).dies = s.dies := rfl
@[simp] theorem State.updGrid_ctxs (s : State) (n : Nat) (f : Grid → Grid) : (s.updGrid n f).ctxs = s.ctxs := rfl
@[simp] theorem State.updGrid_images (s : State) (n : Nat) (f : Grid → Grid) : (s.updGrid n f).images = s.images := rfl
@[simp] theorem State.updGrid_stage (s : State) (n : Nat) (f : Grid → Grid) : (s.updGrid n f).stage = s.stage := rfl
@[simp] theorem State.updGrid_bootErr (s : State) (n : Nat) (f : Grid → Grid) : (s.updGrid n f).bootErr = s.bootErr := rfl
@[simp] theorem State.updGrid_lastRst (s : State) (n : Nat) (f : Grid → Grid) : (s.updGrid n f).lastRst = s.lastRst := rfl
@[simp] theorem State.updGrid_tripped (s : State) (n : Nat) (f : Grid → Grid) : (s.updGrid n f).tripped = s.tripped := rfl
@[simp] theorem State.updGrid_hot (s : State) (n : Nat) (f : Grid → Grid) : (s.updGrid n f).hot = s.hot := rfl
@[simp] theorem State.updGrid_alarmLvl (s : State) (n : Nat) (f : Grid → Grid) : (s.updGrid n f).alarmLvl = s.alarmLvl := rfl
@[simp] theorem State.updGrid_fwValid (s : State) (n : Nat) (f : Grid → Grid) : (s.updGrid n f).fwValid = s.fwValid := rfl
@[simp] theorem State.updGrid_memActive (s : State) (n : Nat) (f : Grid → Grid) : (s.updGrid n f).memActive = s.memActive := rfl
@[simp] theorem State.updGrid_bootLog (s : State) (n : Nat) (f : Grid → Grid) : (s.updGrid n f).bootLog = s.bootLog := rfl
@[simp] theorem State.updGrid_errLog (s : State) (n : Nat) (f : Grid → Grid) : (s.updGrid n f).errLog = s.errLog := rfl
@[simp] theorem State.updGrid_nextSeq (s : State) (n : Nat) (f : Grid → Grid) : (s.updGrid n f).nextSeq = s.nextSeq := rfl
@[simp] theorem State.updGrid_suppressed (s : State) (n : Nat) (f : Grid → Grid) : (s.updGrid n f).suppressed = s.suppressed := rfl
@[simp] theorem State.updGrid_alarmCfg (s : State) (n : Nat) (f : Grid → Grid) : (s.updGrid n f).alarmCfg = s.alarmCfg := rfl
@[simp] theorem State.updGrid_attLog (s : State) (n : Nat) (f : Grid → Grid) : (s.updGrid n f).attLog = s.attLog := rfl
@[simp] theorem State.updGrid_fwStore (s : State) (n : Nat) (f : Grid → Grid) : (s.updGrid n f).fwStore = s.fwStore := rfl
@[simp] theorem State.updGrid_fwNew (s : State) (n : Nat) (f : Grid → Grid) : (s.updGrid n f).fwNew = s.fwNew := rfl
@[simp] theorem State.updGrid_fwRunning (s : State) (n : Nat) (f : Grid → Grid) : (s.updGrid n f).fwRunning = s.fwRunning := rfl
@[simp] theorem State.updGrid_keyHash (s : State) (n : Nat) (f : Grid → Grid) : (s.updGrid n f).keyHash = s.keyHash := rfl
@[simp] theorem State.updGrid_minVersion (s : State) (n : Nat) (f : Grid → Grid) : (s.updGrid n f).minVersion = s.minVersion := rfl
@[simp] theorem State.updGrid_retired (s : State) (n : Nat) (f : Grid → Grid) : (s.updGrid n f).retired = s.retired := rfl
@[simp] theorem State.updGrid_startRetired (s : State) (n : Nat) (f : Grid → Grid) : (s.updGrid n f).startRetired = s.startRetired := rfl
@[simp] theorem State.updGrid_untrained (s : State) (n : Nat) (f : Grid → Grid) : (s.updGrid n f).untrained = s.untrained := rfl
@[simp] theorem State.updGrid_hdms (s : State) (n : Nat) (f : Grid → Grid) : (s.updGrid n f).hdms = s.hdms := rfl
@[simp] theorem State.updGrid_cxlLanes (s : State) (n : Nat) (f : Grid → Grid) : (s.updGrid n f).cxlLanes = s.cxlLanes := rfl
@[simp] theorem State.updGrid_ports (s : State) (n : Nat) (f : Grid → Grid) : (s.updGrid n f).ports = s.ports := rfl
@[simp] theorem State.updGrid_devId (s : State) (n : Nat) (f : Grid → Grid) : (s.updGrid n f).devId = s.devId := rfl
@[simp] theorem State.updGrid_txns (s : State) (n : Nat) (f : Grid → Grid) : (s.updGrid n f).txns = s.txns := rfl
@[simp] theorem State.updGrid_nextTx (s : State) (n : Nat) (f : Grid → Grid) : (s.updGrid n f).nextTx = s.nextTx := rfl
@[simp] theorem State.updGrid_replies (s : State) (n : Nat) (f : Grid → Grid) : (s.updGrid n f).replies = s.replies := rfl
@[simp] theorem State.updGrid_outbox (s : State) (n : Nat) (f : Grid → Grid) : (s.updGrid n f).outbox = s.outbox := rfl
@[simp] theorem State.updGrid_inbox (s : State) (n : Nat) (f : Grid → Grid) : (s.updGrid n f).inbox = s.inbox := rfl
@[simp] theorem State.updGrid_versions (s : State) (n : Nat) (f : Grid → Grid) : (s.updGrid n f).versions = s.versions := rfl
@[simp] theorem State.updGrid_poison (s : State) (n : Nat) (f : Grid → Grid) : (s.updGrid n f).poison = s.poison := rfl
@[simp] theorem State.updGrid_badUE (s : State) (n : Nat) (f : Grid → Grid) : (s.updGrid n f).badUE = s.badUE := rfl
@[simp] theorem State.updGrid_badCE (s : State) (n : Nat) (f : Grid → Grid) : (s.updGrid n f).badCE = s.badCE := rfl
@[simp] theorem State.updGrid_failed (s : State) (n : Nat) (f : Grid → Grid) : (s.updGrid n f).failed = s.failed := rfl
@[simp] theorem State.updGrid_dirty (s : State) (n : Nat) (f : Grid → Grid) : (s.updGrid n f).dirty = s.dirty := rfl
@[simp] theorem State.updGrid_counters (s : State) (n : Nat) (f : Grid → Grid) : (s.updGrid n f).counters = s.counters := rfl
@[simp] theorem State.updGrid_replay (s : State) (n : Nat) (f : Grid → Grid) : (s.updGrid n f).replay = s.replay := rfl
@[simp] theorem State.updGrid_mailReply (s : State) (n : Nat) (f : Grid → Grid) : (s.updGrid n f).mailReply = s.mailReply := rfl
@[simp] theorem State.updGrid_mailBusy (s : State) (n : Nat) (f : Grid → Grid) : (s.updGrid n f).mailBusy = s.mailBusy := rfl
@[simp] theorem State.updGrid_hostReply (s : State) (n : Nat) (f : Grid → Grid) : (s.updGrid n f).hostReply = s.hostReply := rfl
@[simp] theorem State.updGrid_hostPoison (s : State) (n : Nat) (f : Grid → Grid) : (s.updGrid n f).hostPoison = s.hostPoison := rfl
@[simp] theorem State.updGrid_draws (s : State) (n : Nat) (f : Grid → Grid) : (s.updGrid n f).draws = s.draws := rfl
@[simp] theorem State.updGrid_split (s : State) (n : Nat) (f : Grid → Grid) : (s.updGrid n f).split = s.split := rfl

@[simp] theorem State.dropReplies_cur (s : State) (p : Party) : (s.dropReplies p).cur = s.cur := rfl
@[simp] theorem State.dropReplies_schedule (s : State) (p : Party) : (s.dropReplies p).schedule = s.schedule := rfl
@[simp] theorem State.dropReplies_now (s : State) (p : Party) : (s.dropReplies p).now = s.now := rfl
@[simp] theorem State.dropReplies_ts (s : State) (p : Party) : (s.dropReplies p).ts = s.ts := rfl
@[simp] theorem State.dropReplies_mem (s : State) (p : Party) : (s.dropReplies p).mem = s.mem := rfl
@[simp] theorem State.dropReplies_groups (s : State) (p : Party) : (s.dropReplies p).groups = s.groups := rfl
@[simp] theorem State.dropReplies_teams (s : State) (p : Party) : (s.dropReplies p).teams = s.teams := rfl
@[simp] theorem State.dropReplies_grids (s : State) (p : Party) : (s.dropReplies p).grids = s.grids := rfl
@[simp] theorem State.dropReplies_nextGrid (s : State) (p : Party) : (s.dropReplies p).nextGrid = s.nextGrid := rfl
@[simp] theorem State.dropReplies_cores (s : State) (p : Party) : (s.dropReplies p).cores = s.cores := rfl
@[simp] theorem State.dropReplies_dies (s : State) (p : Party) : (s.dropReplies p).dies = s.dies := rfl
@[simp] theorem State.dropReplies_ctxs (s : State) (p : Party) : (s.dropReplies p).ctxs = s.ctxs := rfl
@[simp] theorem State.dropReplies_images (s : State) (p : Party) : (s.dropReplies p).images = s.images := rfl
@[simp] theorem State.dropReplies_stage (s : State) (p : Party) : (s.dropReplies p).stage = s.stage := rfl
@[simp] theorem State.dropReplies_bootErr (s : State) (p : Party) : (s.dropReplies p).bootErr = s.bootErr := rfl
@[simp] theorem State.dropReplies_lastRst (s : State) (p : Party) : (s.dropReplies p).lastRst = s.lastRst := rfl
@[simp] theorem State.dropReplies_tripped (s : State) (p : Party) : (s.dropReplies p).tripped = s.tripped := rfl
@[simp] theorem State.dropReplies_hot (s : State) (p : Party) : (s.dropReplies p).hot = s.hot := rfl
@[simp] theorem State.dropReplies_alarmLvl (s : State) (p : Party) : (s.dropReplies p).alarmLvl = s.alarmLvl := rfl
@[simp] theorem State.dropReplies_fwValid (s : State) (p : Party) : (s.dropReplies p).fwValid = s.fwValid := rfl
@[simp] theorem State.dropReplies_memActive (s : State) (p : Party) : (s.dropReplies p).memActive = s.memActive := rfl
@[simp] theorem State.dropReplies_bootLog (s : State) (p : Party) : (s.dropReplies p).bootLog = s.bootLog := rfl
@[simp] theorem State.dropReplies_errLog (s : State) (p : Party) : (s.dropReplies p).errLog = s.errLog := rfl
@[simp] theorem State.dropReplies_nextSeq (s : State) (p : Party) : (s.dropReplies p).nextSeq = s.nextSeq := rfl
@[simp] theorem State.dropReplies_suppressed (s : State) (p : Party) : (s.dropReplies p).suppressed = s.suppressed := rfl
@[simp] theorem State.dropReplies_alarmCfg (s : State) (p : Party) : (s.dropReplies p).alarmCfg = s.alarmCfg := rfl
@[simp] theorem State.dropReplies_attLog (s : State) (p : Party) : (s.dropReplies p).attLog = s.attLog := rfl
@[simp] theorem State.dropReplies_fwStore (s : State) (p : Party) : (s.dropReplies p).fwStore = s.fwStore := rfl
@[simp] theorem State.dropReplies_fwNew (s : State) (p : Party) : (s.dropReplies p).fwNew = s.fwNew := rfl
@[simp] theorem State.dropReplies_fwRunning (s : State) (p : Party) : (s.dropReplies p).fwRunning = s.fwRunning := rfl
@[simp] theorem State.dropReplies_keyHash (s : State) (p : Party) : (s.dropReplies p).keyHash = s.keyHash := rfl
@[simp] theorem State.dropReplies_minVersion (s : State) (p : Party) : (s.dropReplies p).minVersion = s.minVersion := rfl
@[simp] theorem State.dropReplies_retired (s : State) (p : Party) : (s.dropReplies p).retired = s.retired := rfl
@[simp] theorem State.dropReplies_startRetired (s : State) (p : Party) : (s.dropReplies p).startRetired = s.startRetired := rfl
@[simp] theorem State.dropReplies_untrained (s : State) (p : Party) : (s.dropReplies p).untrained = s.untrained := rfl
@[simp] theorem State.dropReplies_hdms (s : State) (p : Party) : (s.dropReplies p).hdms = s.hdms := rfl
@[simp] theorem State.dropReplies_cxlLanes (s : State) (p : Party) : (s.dropReplies p).cxlLanes = s.cxlLanes := rfl
@[simp] theorem State.dropReplies_ports (s : State) (p : Party) : (s.dropReplies p).ports = s.ports := rfl
@[simp] theorem State.dropReplies_devId (s : State) (p : Party) : (s.dropReplies p).devId = s.devId := rfl
@[simp] theorem State.dropReplies_txns (s : State) (p : Party) : (s.dropReplies p).txns = s.txns := rfl
@[simp] theorem State.dropReplies_nextTx (s : State) (p : Party) : (s.dropReplies p).nextTx = s.nextTx := rfl
@[simp] theorem State.dropReplies_outbox (s : State) (p : Party) : (s.dropReplies p).outbox = s.outbox := rfl
@[simp] theorem State.dropReplies_inbox (s : State) (p : Party) : (s.dropReplies p).inbox = s.inbox := rfl
@[simp] theorem State.dropReplies_versions (s : State) (p : Party) : (s.dropReplies p).versions = s.versions := rfl
@[simp] theorem State.dropReplies_poison (s : State) (p : Party) : (s.dropReplies p).poison = s.poison := rfl
@[simp] theorem State.dropReplies_badUE (s : State) (p : Party) : (s.dropReplies p).badUE = s.badUE := rfl
@[simp] theorem State.dropReplies_badCE (s : State) (p : Party) : (s.dropReplies p).badCE = s.badCE := rfl
@[simp] theorem State.dropReplies_failed (s : State) (p : Party) : (s.dropReplies p).failed = s.failed := rfl
@[simp] theorem State.dropReplies_dirty (s : State) (p : Party) : (s.dropReplies p).dirty = s.dirty := rfl
@[simp] theorem State.dropReplies_counters (s : State) (p : Party) : (s.dropReplies p).counters = s.counters := rfl
@[simp] theorem State.dropReplies_replay (s : State) (p : Party) : (s.dropReplies p).replay = s.replay := rfl
@[simp] theorem State.dropReplies_mailReply (s : State) (p : Party) : (s.dropReplies p).mailReply = s.mailReply := rfl
@[simp] theorem State.dropReplies_mailBusy (s : State) (p : Party) : (s.dropReplies p).mailBusy = s.mailBusy := rfl
@[simp] theorem State.dropReplies_hostReply (s : State) (p : Party) : (s.dropReplies p).hostReply = s.hostReply := rfl
@[simp] theorem State.dropReplies_hostPoison (s : State) (p : Party) : (s.dropReplies p).hostPoison = s.hostPoison := rfl
@[simp] theorem State.dropReplies_draws (s : State) (p : Party) : (s.dropReplies p).draws = s.draws := rfl
@[simp] theorem State.dropReplies_split (s : State) (p : Party) : (s.dropReplies p).split = s.split := rfl

@[simp] theorem Group.setK_team (g : Group) (r : Nat) (v : W64) : (g.setK r v).team = g.team := rfl
@[simp] theorem Group.setK_idx (g : Group) (r : Nat) (v : W64) : (g.setK r v).idx = g.idx := rfl
@[simp] theorem Group.setK_regs (g : Group) (r : Nat) (v : W64) : (g.setK r v).regs = g.regs := rfl
@[simp] theorem Group.setK_preds (g : Group) (r : Nat) (v : W64) : (g.setK r v).preds = g.preds := rfl
@[simp] theorem Group.setK_ktok (g : Group) (r : Nat) (v : W64) : (g.setK r v).ktok = g.ktok := rfl
@[simp] theorem Group.setK_latches (g : Group) (r : Nat) (v : W64) : (g.setK r v).latches = g.latches := rfl
@[simp] theorem Group.setK_lanes (g : Group) (r : Nat) (v : W64) : (g.setK r v).lanes = g.lanes := rfl
@[simp] theorem Group.setK_subs (g : Group) (r : Nat) (v : W64) : (g.setK r v).subs = g.subs := rfl
@[simp] theorem Group.setK_lastSub (g : Group) (r : Nat) (v : W64) : (g.setK r v).lastSub = g.lastSub := rfl
@[simp] theorem Group.setK_lastX (g : Group) (r : Nat) (v : W64) : (g.setK r v).lastX = g.lastX := rfl
@[simp] theorem Group.setK_joins (g : Group) (r : Nat) (v : W64) : (g.setK r v).joins = g.joins := rfl
@[simp] theorem Group.setK_tids (g : Group) (r : Nat) (v : W64) : (g.setK r v).tids = g.tids := rfl
@[simp] theorem Group.setK_pdis (g : Group) (r : Nat) (v : W64) : (g.setK r v).pdis = g.pdis := rfl
@[simp] theorem Group.setK_spin (g : Group) (r : Nat) (v : W64) : (g.setK r v).spin = g.spin := rfl
@[simp] theorem Group.setK_dqend (g : Group) (r : Nat) (v : W64) : (g.setK r v).dqend = g.dqend := rfl
@[simp] theorem Group.setK_jto (g : Group) (r : Nat) (v : W64) : (g.setK r v).jto = g.jto := rfl
@[simp] theorem Group.setK_empty (g : Group) (r : Nat) (v : W64) : (g.setK r v).empty = g.empty := rfl
@[simp] theorem Group.setK_pair (g : Group) (r : Nat) (v : W64) : (g.setK r v).pair = g.pair := rfl
@[simp] theorem Group.setK_tvec (g : Group) (r : Nat) (v : W64) : (g.setK r v).tvec = g.tvec := rfl
@[simp] theorem Group.setK_epc (g : Group) (r : Nat) (v : W64) : (g.setK r v).epc = g.epc := rfl
@[simp] theorem Group.setK_ecause (g : Group) (r : Nat) (v : W64) : (g.setK r v).ecause = g.ecause := rfl
@[simp] theorem Group.setK_edetail (g : Group) (r : Nat) (v : W64) : (g.setK r v).edetail = g.edetail := rfl
@[simp] theorem Group.setK_eaddr (g : Group) (r : Nat) (v : W64) : (g.setK r v).eaddr = g.eaddr := rfl
@[simp] theorem Group.setK_elanes (g : Group) (r : Nat) (v : W64) : (g.setK r v).elanes = g.elanes := rfl
@[simp] theorem Group.setK_einst (g : Group) (r : Nat) (v : W64) : (g.setK r v).einst = g.einst := rfl
@[simp] theorem Group.setK_elit (g : Group) (r : Nat) (v : W64) : (g.setK r v).elit = g.elit := rfl
@[simp] theorem Group.setK_trap (g : Group) (r : Nat) (v : W64) : (g.setK r v).trap = g.trap := rfl
@[simp] theorem Group.setK_gen (g : Group) (r : Nat) (v : W64) : (g.setK r v).gen = g.gen := rfl
@[simp] theorem Group.setK_mfmt (g : Group) (r : Nat) (v : W64) : (g.setK r v).mfmt = g.mfmt := rfl
@[simp] theorem Group.setK_reuse (g : Group) (r : Nat) (v : W64) : (g.setK r v).reuse = g.reuse := rfl
@[simp] theorem Group.setK_dqPtr (g : Group) (r : Nat) (v : W64) : (g.setK r v).dqPtr = g.dqPtr := rfl
@[simp] theorem Group.setK_quota (g : Group) (r : Nat) (v : W64) : (g.setK r v).quota = g.quota := rfl
@[simp] theorem Group.setK_peak (g : Group) (r : Nat) (v : W64) : (g.setK r v).peak = g.peak := rfl
@[simp] theorem Group.setK_protect (g : Group) (r : Nat) (v : W64) : (g.setK r v).protect = g.protect := rfl
@[simp] theorem Group.setK_wait (g : Group) (r : Nat) (v : W64) : (g.setK r v).wait = g.wait := rfl
@[simp] theorem Group.setK_held (g : Group) (r : Nat) (v : W64) : (g.setK r v).held = g.held := rfl
@[simp] theorem Group.setK_parked (g : Group) (r : Nat) (v : W64) : (g.setK r v).parked = g.parked := rfl
@[simp] theorem Group.setK_debug (g : Group) (r : Nat) (v : W64) : (g.setK r v).debug = g.debug := rfl
@[simp] theorem Group.setK_pending (g : Group) (r : Nat) (v : W64) : (g.setK r v).pending = g.pending := rfl

@[simp] theorem Group.putReg_team (g : Group) (j : Nat) (r : Reg) : (g.putReg j r).team = g.team := rfl
@[simp] theorem Group.putReg_idx (g : Group) (j : Nat) (r : Reg) : (g.putReg j r).idx = g.idx := rfl
@[simp] theorem Group.putReg_preds (g : Group) (j : Nat) (r : Reg) : (g.putReg j r).preds = g.preds := rfl
@[simp] theorem Group.putReg_ks (g : Group) (j : Nat) (r : Reg) : (g.putReg j r).ks = g.ks := rfl
@[simp] theorem Group.putReg_ktok (g : Group) (j : Nat) (r : Reg) : (g.putReg j r).ktok = g.ktok := rfl
@[simp] theorem Group.putReg_latches (g : Group) (j : Nat) (r : Reg) : (g.putReg j r).latches = g.latches := rfl
@[simp] theorem Group.putReg_lanes (g : Group) (j : Nat) (r : Reg) : (g.putReg j r).lanes = g.lanes := rfl
@[simp] theorem Group.putReg_subs (g : Group) (j : Nat) (r : Reg) : (g.putReg j r).subs = g.subs := rfl
@[simp] theorem Group.putReg_lastSub (g : Group) (j : Nat) (r : Reg) : (g.putReg j r).lastSub = g.lastSub := rfl
@[simp] theorem Group.putReg_lastX (g : Group) (j : Nat) (r : Reg) : (g.putReg j r).lastX = g.lastX := rfl
@[simp] theorem Group.putReg_joins (g : Group) (j : Nat) (r : Reg) : (g.putReg j r).joins = g.joins := rfl
@[simp] theorem Group.putReg_tids (g : Group) (j : Nat) (r : Reg) : (g.putReg j r).tids = g.tids := rfl
@[simp] theorem Group.putReg_pdis (g : Group) (j : Nat) (r : Reg) : (g.putReg j r).pdis = g.pdis := rfl
@[simp] theorem Group.putReg_spin (g : Group) (j : Nat) (r : Reg) : (g.putReg j r).spin = g.spin := rfl
@[simp] theorem Group.putReg_dqend (g : Group) (j : Nat) (r : Reg) : (g.putReg j r).dqend = g.dqend := rfl
@[simp] theorem Group.putReg_jto (g : Group) (j : Nat) (r : Reg) : (g.putReg j r).jto = g.jto := rfl
@[simp] theorem Group.putReg_empty (g : Group) (j : Nat) (r : Reg) : (g.putReg j r).empty = g.empty := rfl
@[simp] theorem Group.putReg_pair (g : Group) (j : Nat) (r : Reg) : (g.putReg j r).pair = g.pair := rfl
@[simp] theorem Group.putReg_tvec (g : Group) (j : Nat) (r : Reg) : (g.putReg j r).tvec = g.tvec := rfl
@[simp] theorem Group.putReg_epc (g : Group) (j : Nat) (r : Reg) : (g.putReg j r).epc = g.epc := rfl
@[simp] theorem Group.putReg_ecause (g : Group) (j : Nat) (r : Reg) : (g.putReg j r).ecause = g.ecause := rfl
@[simp] theorem Group.putReg_edetail (g : Group) (j : Nat) (r : Reg) : (g.putReg j r).edetail = g.edetail := rfl
@[simp] theorem Group.putReg_eaddr (g : Group) (j : Nat) (r : Reg) : (g.putReg j r).eaddr = g.eaddr := rfl
@[simp] theorem Group.putReg_elanes (g : Group) (j : Nat) (r : Reg) : (g.putReg j r).elanes = g.elanes := rfl
@[simp] theorem Group.putReg_einst (g : Group) (j : Nat) (r : Reg) : (g.putReg j r).einst = g.einst := rfl
@[simp] theorem Group.putReg_elit (g : Group) (j : Nat) (r : Reg) : (g.putReg j r).elit = g.elit := rfl
@[simp] theorem Group.putReg_trap (g : Group) (j : Nat) (r : Reg) : (g.putReg j r).trap = g.trap := rfl
@[simp] theorem Group.putReg_gen (g : Group) (j : Nat) (r : Reg) : (g.putReg j r).gen = g.gen := rfl
@[simp] theorem Group.putReg_mfmt (g : Group) (j : Nat) (r : Reg) : (g.putReg j r).mfmt = g.mfmt := rfl
@[simp] theorem Group.putReg_reuse (g : Group) (j : Nat) (r : Reg) : (g.putReg j r).reuse = g.reuse := rfl
@[simp] theorem Group.putReg_dqPtr (g : Group) (j : Nat) (r : Reg) : (g.putReg j r).dqPtr = g.dqPtr := rfl
@[simp] theorem Group.putReg_quota (g : Group) (j : Nat) (r : Reg) : (g.putReg j r).quota = g.quota := rfl
@[simp] theorem Group.putReg_peak (g : Group) (j : Nat) (r : Reg) : (g.putReg j r).peak = g.peak := rfl
@[simp] theorem Group.putReg_protect (g : Group) (j : Nat) (r : Reg) : (g.putReg j r).protect = g.protect := rfl
@[simp] theorem Group.putReg_wait (g : Group) (j : Nat) (r : Reg) : (g.putReg j r).wait = g.wait := rfl
@[simp] theorem Group.putReg_held (g : Group) (j : Nat) (r : Reg) : (g.putReg j r).held = g.held := rfl
@[simp] theorem Group.putReg_parked (g : Group) (j : Nat) (r : Reg) : (g.putReg j r).parked = g.parked := rfl
@[simp] theorem Group.putReg_debug (g : Group) (j : Nat) (r : Reg) : (g.putReg j r).debug = g.debug := rfl
@[simp] theorem Group.putReg_pending (g : Group) (j : Nat) (r : Reg) : (g.putReg j r).pending = g.pending := rfl

@[simp] theorem Group.pushLatch_team (g : Group) (rs : Runs) : (g.pushLatch rs).team = g.team := rfl
@[simp] theorem Group.pushLatch_idx (g : Group) (rs : Runs) : (g.pushLatch rs).idx = g.idx := rfl
@[simp] theorem Group.pushLatch_regs (g : Group) (rs : Runs) : (g.pushLatch rs).regs = g.regs := rfl
@[simp] theorem Group.pushLatch_preds (g : Group) (rs : Runs) : (g.pushLatch rs).preds = g.preds := rfl
@[simp] theorem Group.pushLatch_ks (g : Group) (rs : Runs) : (g.pushLatch rs).ks = g.ks := rfl
@[simp] theorem Group.pushLatch_ktok (g : Group) (rs : Runs) : (g.pushLatch rs).ktok = g.ktok := rfl
@[simp] theorem Group.pushLatch_lanes (g : Group) (rs : Runs) : (g.pushLatch rs).lanes = g.lanes := rfl
@[simp] theorem Group.pushLatch_subs (g : Group) (rs : Runs) : (g.pushLatch rs).subs = g.subs := rfl
@[simp] theorem Group.pushLatch_lastSub (g : Group) (rs : Runs) : (g.pushLatch rs).lastSub = g.lastSub := rfl
@[simp] theorem Group.pushLatch_lastX (g : Group) (rs : Runs) : (g.pushLatch rs).lastX = g.lastX := rfl
@[simp] theorem Group.pushLatch_joins (g : Group) (rs : Runs) : (g.pushLatch rs).joins = g.joins := rfl
@[simp] theorem Group.pushLatch_tids (g : Group) (rs : Runs) : (g.pushLatch rs).tids = g.tids := rfl
@[simp] theorem Group.pushLatch_pdis (g : Group) (rs : Runs) : (g.pushLatch rs).pdis = g.pdis := rfl
@[simp] theorem Group.pushLatch_spin (g : Group) (rs : Runs) : (g.pushLatch rs).spin = g.spin := rfl
@[simp] theorem Group.pushLatch_dqend (g : Group) (rs : Runs) : (g.pushLatch rs).dqend = g.dqend := rfl
@[simp] theorem Group.pushLatch_jto (g : Group) (rs : Runs) : (g.pushLatch rs).jto = g.jto := rfl
@[simp] theorem Group.pushLatch_empty (g : Group) (rs : Runs) : (g.pushLatch rs).empty = g.empty := rfl
@[simp] theorem Group.pushLatch_pair (g : Group) (rs : Runs) : (g.pushLatch rs).pair = g.pair := rfl
@[simp] theorem Group.pushLatch_tvec (g : Group) (rs : Runs) : (g.pushLatch rs).tvec = g.tvec := rfl
@[simp] theorem Group.pushLatch_epc (g : Group) (rs : Runs) : (g.pushLatch rs).epc = g.epc := rfl
@[simp] theorem Group.pushLatch_ecause (g : Group) (rs : Runs) : (g.pushLatch rs).ecause = g.ecause := rfl
@[simp] theorem Group.pushLatch_edetail (g : Group) (rs : Runs) : (g.pushLatch rs).edetail = g.edetail := rfl
@[simp] theorem Group.pushLatch_eaddr (g : Group) (rs : Runs) : (g.pushLatch rs).eaddr = g.eaddr := rfl
@[simp] theorem Group.pushLatch_elanes (g : Group) (rs : Runs) : (g.pushLatch rs).elanes = g.elanes := rfl
@[simp] theorem Group.pushLatch_einst (g : Group) (rs : Runs) : (g.pushLatch rs).einst = g.einst := rfl
@[simp] theorem Group.pushLatch_elit (g : Group) (rs : Runs) : (g.pushLatch rs).elit = g.elit := rfl
@[simp] theorem Group.pushLatch_trap (g : Group) (rs : Runs) : (g.pushLatch rs).trap = g.trap := rfl
@[simp] theorem Group.pushLatch_gen (g : Group) (rs : Runs) : (g.pushLatch rs).gen = g.gen := rfl
@[simp] theorem Group.pushLatch_mfmt (g : Group) (rs : Runs) : (g.pushLatch rs).mfmt = g.mfmt := rfl
@[simp] theorem Group.pushLatch_reuse (g : Group) (rs : Runs) : (g.pushLatch rs).reuse = g.reuse := rfl
@[simp] theorem Group.pushLatch_dqPtr (g : Group) (rs : Runs) : (g.pushLatch rs).dqPtr = g.dqPtr := rfl
@[simp] theorem Group.pushLatch_quota (g : Group) (rs : Runs) : (g.pushLatch rs).quota = g.quota := rfl
@[simp] theorem Group.pushLatch_peak (g : Group) (rs : Runs) : (g.pushLatch rs).peak = g.peak := rfl
@[simp] theorem Group.pushLatch_protect (g : Group) (rs : Runs) : (g.pushLatch rs).protect = g.protect := rfl
@[simp] theorem Group.pushLatch_wait (g : Group) (rs : Runs) : (g.pushLatch rs).wait = g.wait := rfl
@[simp] theorem Group.pushLatch_held (g : Group) (rs : Runs) : (g.pushLatch rs).held = g.held := rfl
@[simp] theorem Group.pushLatch_parked (g : Group) (rs : Runs) : (g.pushLatch rs).parked = g.parked := rfl
@[simp] theorem Group.pushLatch_debug (g : Group) (rs : Runs) : (g.pushLatch rs).debug = g.debug := rfl
@[simp] theorem Group.pushLatch_pending (g : Group) (rs : Runs) : (g.pushLatch rs).pending = g.pending := rfl

@[simp] theorem Group.loseLatches_team (g : Group) : (g.loseLatches).team = g.team := rfl
@[simp] theorem Group.loseLatches_idx (g : Group) : (g.loseLatches).idx = g.idx := rfl
@[simp] theorem Group.loseLatches_regs (g : Group) : (g.loseLatches).regs = g.regs := rfl
@[simp] theorem Group.loseLatches_preds (g : Group) : (g.loseLatches).preds = g.preds := rfl
@[simp] theorem Group.loseLatches_ks (g : Group) : (g.loseLatches).ks = g.ks := rfl
@[simp] theorem Group.loseLatches_ktok (g : Group) : (g.loseLatches).ktok = g.ktok := rfl
@[simp] theorem Group.loseLatches_lanes (g : Group) : (g.loseLatches).lanes = g.lanes := rfl
@[simp] theorem Group.loseLatches_subs (g : Group) : (g.loseLatches).subs = g.subs := rfl
@[simp] theorem Group.loseLatches_lastSub (g : Group) : (g.loseLatches).lastSub = g.lastSub := rfl
@[simp] theorem Group.loseLatches_lastX (g : Group) : (g.loseLatches).lastX = g.lastX := rfl
@[simp] theorem Group.loseLatches_joins (g : Group) : (g.loseLatches).joins = g.joins := rfl
@[simp] theorem Group.loseLatches_tids (g : Group) : (g.loseLatches).tids = g.tids := rfl
@[simp] theorem Group.loseLatches_pdis (g : Group) : (g.loseLatches).pdis = g.pdis := rfl
@[simp] theorem Group.loseLatches_spin (g : Group) : (g.loseLatches).spin = g.spin := rfl
@[simp] theorem Group.loseLatches_dqend (g : Group) : (g.loseLatches).dqend = g.dqend := rfl
@[simp] theorem Group.loseLatches_jto (g : Group) : (g.loseLatches).jto = g.jto := rfl
@[simp] theorem Group.loseLatches_empty (g : Group) : (g.loseLatches).empty = g.empty := rfl
@[simp] theorem Group.loseLatches_pair (g : Group) : (g.loseLatches).pair = g.pair := rfl
@[simp] theorem Group.loseLatches_tvec (g : Group) : (g.loseLatches).tvec = g.tvec := rfl
@[simp] theorem Group.loseLatches_epc (g : Group) : (g.loseLatches).epc = g.epc := rfl
@[simp] theorem Group.loseLatches_ecause (g : Group) : (g.loseLatches).ecause = g.ecause := rfl
@[simp] theorem Group.loseLatches_edetail (g : Group) : (g.loseLatches).edetail = g.edetail := rfl
@[simp] theorem Group.loseLatches_eaddr (g : Group) : (g.loseLatches).eaddr = g.eaddr := rfl
@[simp] theorem Group.loseLatches_elanes (g : Group) : (g.loseLatches).elanes = g.elanes := rfl
@[simp] theorem Group.loseLatches_einst (g : Group) : (g.loseLatches).einst = g.einst := rfl
@[simp] theorem Group.loseLatches_elit (g : Group) : (g.loseLatches).elit = g.elit := rfl
@[simp] theorem Group.loseLatches_trap (g : Group) : (g.loseLatches).trap = g.trap := rfl
@[simp] theorem Group.loseLatches_gen (g : Group) : (g.loseLatches).gen = g.gen := rfl
@[simp] theorem Group.loseLatches_mfmt (g : Group) : (g.loseLatches).mfmt = g.mfmt := rfl
@[simp] theorem Group.loseLatches_reuse (g : Group) : (g.loseLatches).reuse = g.reuse := rfl
@[simp] theorem Group.loseLatches_dqPtr (g : Group) : (g.loseLatches).dqPtr = g.dqPtr := rfl
@[simp] theorem Group.loseLatches_quota (g : Group) : (g.loseLatches).quota = g.quota := rfl
@[simp] theorem Group.loseLatches_peak (g : Group) : (g.loseLatches).peak = g.peak := rfl
@[simp] theorem Group.loseLatches_protect (g : Group) : (g.loseLatches).protect = g.protect := rfl
@[simp] theorem Group.loseLatches_wait (g : Group) : (g.loseLatches).wait = g.wait := rfl
@[simp] theorem Group.loseLatches_held (g : Group) : (g.loseLatches).held = g.held := rfl
@[simp] theorem Group.loseLatches_parked (g : Group) : (g.loseLatches).parked = g.parked := rfl
@[simp] theorem Group.loseLatches_debug (g : Group) : (g.loseLatches).debug = g.debug := rfl
@[simp] theorem Group.loseLatches_pending (g : Group) : (g.loseLatches).pending = g.pending := rfl

@[simp] theorem Group.notePeak_team (g : Group) : (g.notePeak).team = g.team := rfl
@[simp] theorem Group.notePeak_idx (g : Group) : (g.notePeak).idx = g.idx := rfl
@[simp] theorem Group.notePeak_regs (g : Group) : (g.notePeak).regs = g.regs := rfl
@[simp] theorem Group.notePeak_preds (g : Group) : (g.notePeak).preds = g.preds := rfl
@[simp] theorem Group.notePeak_ks (g : Group) : (g.notePeak).ks = g.ks := rfl
@[simp] theorem Group.notePeak_ktok (g : Group) : (g.notePeak).ktok = g.ktok := rfl
@[simp] theorem Group.notePeak_latches (g : Group) : (g.notePeak).latches = g.latches := rfl
@[simp] theorem Group.notePeak_lanes (g : Group) : (g.notePeak).lanes = g.lanes := rfl
@[simp] theorem Group.notePeak_subs (g : Group) : (g.notePeak).subs = g.subs := rfl
@[simp] theorem Group.notePeak_lastSub (g : Group) : (g.notePeak).lastSub = g.lastSub := rfl
@[simp] theorem Group.notePeak_lastX (g : Group) : (g.notePeak).lastX = g.lastX := rfl
@[simp] theorem Group.notePeak_joins (g : Group) : (g.notePeak).joins = g.joins := rfl
@[simp] theorem Group.notePeak_tids (g : Group) : (g.notePeak).tids = g.tids := rfl
@[simp] theorem Group.notePeak_pdis (g : Group) : (g.notePeak).pdis = g.pdis := rfl
@[simp] theorem Group.notePeak_spin (g : Group) : (g.notePeak).spin = g.spin := rfl
@[simp] theorem Group.notePeak_dqend (g : Group) : (g.notePeak).dqend = g.dqend := rfl
@[simp] theorem Group.notePeak_jto (g : Group) : (g.notePeak).jto = g.jto := rfl
@[simp] theorem Group.notePeak_empty (g : Group) : (g.notePeak).empty = g.empty := rfl
@[simp] theorem Group.notePeak_pair (g : Group) : (g.notePeak).pair = g.pair := rfl
@[simp] theorem Group.notePeak_tvec (g : Group) : (g.notePeak).tvec = g.tvec := rfl
@[simp] theorem Group.notePeak_epc (g : Group) : (g.notePeak).epc = g.epc := rfl
@[simp] theorem Group.notePeak_ecause (g : Group) : (g.notePeak).ecause = g.ecause := rfl
@[simp] theorem Group.notePeak_edetail (g : Group) : (g.notePeak).edetail = g.edetail := rfl
@[simp] theorem Group.notePeak_eaddr (g : Group) : (g.notePeak).eaddr = g.eaddr := rfl
@[simp] theorem Group.notePeak_elanes (g : Group) : (g.notePeak).elanes = g.elanes := rfl
@[simp] theorem Group.notePeak_einst (g : Group) : (g.notePeak).einst = g.einst := rfl
@[simp] theorem Group.notePeak_elit (g : Group) : (g.notePeak).elit = g.elit := rfl
@[simp] theorem Group.notePeak_trap (g : Group) : (g.notePeak).trap = g.trap := rfl
@[simp] theorem Group.notePeak_gen (g : Group) : (g.notePeak).gen = g.gen := rfl
@[simp] theorem Group.notePeak_mfmt (g : Group) : (g.notePeak).mfmt = g.mfmt := rfl
@[simp] theorem Group.notePeak_reuse (g : Group) : (g.notePeak).reuse = g.reuse := rfl
@[simp] theorem Group.notePeak_dqPtr (g : Group) : (g.notePeak).dqPtr = g.dqPtr := rfl
@[simp] theorem Group.notePeak_quota (g : Group) : (g.notePeak).quota = g.quota := rfl
@[simp] theorem Group.notePeak_protect (g : Group) : (g.notePeak).protect = g.protect := rfl
@[simp] theorem Group.notePeak_wait (g : Group) : (g.notePeak).wait = g.wait := rfl
@[simp] theorem Group.notePeak_held (g : Group) : (g.notePeak).held = g.held := rfl
@[simp] theorem Group.notePeak_parked (g : Group) : (g.notePeak).parked = g.parked := rfl
@[simp] theorem Group.notePeak_debug (g : Group) : (g.notePeak).debug = g.debug := rfl
@[simp] theorem Group.notePeak_pending (g : Group) : (g.notePeak).pending = g.pending := rfl

end Sys2Proof.Machine
end

