-- ==== Sys2Proof/Laws/Tbl.lean ====
section
/-! SUPPORT. Laws of tables: reading after setting, erasing, changing and filtering. -/

namespace Sys2Proof.Machine

variable {α β : Type}

@[simp] theorem Tbl.get?_nil (k : Nat) : Tbl.get? ([] : Tbl α) k = none := rfl

theorem Tbl.get?_cons (j : Nat) (a : α) (t : Tbl α) (k : Nat) :
    Tbl.get? ((j, a) :: t) k = if j = k then some a else Tbl.get? t k := rfl

@[simp] theorem Tbl.get?_set_same (t : Tbl α) (k : Nat) (a : α) : Tbl.get? (Tbl.set t k a) k = some a := by
  induction t with
  | nil => simp [Tbl.set, Tbl.get?]
  | cons p t ih =>
    obtain ⟨j, b⟩ := p
    simp only [Tbl.set]
    split
    · simp [Tbl.get?]
    · split
      · simp [Tbl.get?]
      · simp [Tbl.get?, *]

@[simp] theorem Tbl.get?_set_other (t : Tbl α) {k j : Nat} (a : α) (h : j ≠ k) :
    Tbl.get? (Tbl.set t k a) j = Tbl.get? t j := by
  induction t with
  | nil => simp [Tbl.set, Tbl.get?, Ne.symm h]
  | cons p t ih =>
    obtain ⟨i, b⟩ := p
    simp only [Tbl.set]
    split
    · simp [Tbl.get?, Ne.symm h]
    · split
      · next hi => simp [Tbl.get?, hi, Ne.symm h]
      · simp [Tbl.get?, ih]

theorem Tbl.get?_set (t : Tbl α) (k j : Nat) (a : α) :
    Tbl.get? (Tbl.set t k a) j = if j = k then some a else Tbl.get? t j := by
  split
  · next h => simp [h]
  · next h => simp [h]

@[simp] theorem Tbl.get?_erase_same (t : Tbl α) (k : Nat) : Tbl.get? (Tbl.erase t k) k = none := by
  induction t with
  | nil => rfl
  | cons p t ih =>
    obtain ⟨j, b⟩ := p
    by_cases h : j = k <;> simp [Tbl.erase, Tbl.get?, h, ih]

@[simp] theorem Tbl.get?_erase_other (t : Tbl α) {k j : Nat} (h : j ≠ k) : Tbl.get? (Tbl.erase t k) j = Tbl.get? t j := by
  induction t with
  | nil => rfl
  | cons p t ih =>
    obtain ⟨i, b⟩ := p
    by_cases hi : i = k
    · have hj : i ≠ j := by omega
      simp [Tbl.erase, Tbl.get?, hi, ih, hi ▸ hj]
    · simp [Tbl.erase, Tbl.get?, hi, ih]

@[simp] theorem Tbl.get?_upd_same (t : Tbl α) (k : Nat) (f : α → α) : Tbl.get? (Tbl.upd t k f) k = (Tbl.get? t k).map f := by
  unfold Tbl.upd
  split <;> simp [*]

@[simp] theorem Tbl.get?_upd_other (t : Tbl α) {k j : Nat} (f : α → α) (h : j ≠ k) :
    Tbl.get? (Tbl.upd t k f) j = Tbl.get? t j := by
  unfold Tbl.upd
  split <;> simp [h]

@[simp] theorem Tbl.get?_mapVal (t : Tbl α) (f : Nat → α → β) (k : Nat) :
    Tbl.get? (Tbl.mapVal t f) k = (Tbl.get? t k).map (f k) := by
  induction t with
  | nil => rfl
  | cons p t ih =>
    obtain ⟨j, b⟩ := p
    by_cases h : j = k
    · simp [Tbl.mapVal, Tbl.get?, h]
    · simpa [Tbl.mapVal, Tbl.get?, h] using ih

@[simp] theorem Tbl.get_set_same (t : Tbl α) (k : Nat) (a d : α) : Tbl.get (Tbl.set t k a) k d = a := by simp [Tbl.get]

@[simp] theorem Tbl.get_set_other (t : Tbl α) {k j : Nat} (a d : α) (h : j ≠ k) :
    Tbl.get (Tbl.set t k a) j d = Tbl.get t j d := by simp [Tbl.get, h]

theorem Tbl.upd_of_none {t : Tbl α} {k : Nat} (f : α → α) (h : Tbl.get? t k = none) : Tbl.upd t k f = t := by
  simp [Tbl.upd, h]

theorem Tbl.upd_of_some {t : Tbl α} {k : Nat} {a : α} (f : α → α) (h : Tbl.get? t k = some a) :
    Tbl.upd t k f = Tbl.set t k (f a) := by simp [Tbl.upd, h]

theorem Tbl.set_set (t : Tbl α) (k : Nat) (a b : α) : Tbl.set (Tbl.set t k a) k b = Tbl.set t k b := by
  induction t with
  | nil => simp [Tbl.set]
  | cons p t ih =>
    obtain ⟨j, c⟩ := p
    simp only [Tbl.set]
    by_cases h1 : k < j
    · simp [h1, Tbl.set]
    · by_cases h2 : j = k
      · simp [h2, Tbl.set]
      · simp [h1, h2, Tbl.set, ih]

theorem Tbl.upd_upd (t : Tbl α) (k : Nat) (f h : α → α) : Tbl.upd (Tbl.upd t k f) k h = Tbl.upd t k fun a => h (f a) := by
  cases hg : Tbl.get? t k with
  | none => simp [Tbl.upd, hg]
  | some a => simp [Tbl.upd, hg, Tbl.set_set]

end Sys2Proof.Machine
end

