-- ==== Sys2Proof/Laws/Issue.lean ====
section
/-! SUPPORT. The frame of a group's issue: where nothing holds an instruction, what its meaning comes to is what the issue
comes to; and what the begin and the end of an issue leave unchanged. -/

namespace Sys2Proof.Machine

/-! ### Freshening -/

theorem Group.freshen_regs (q : Group) (xs : List Args) (x : Mask) : (q.freshen xs x).regs = q.regs := by
  unfold Group.freshen
  by_cases h : x = q.lastX <;> simp [h, Group.updSubG, Group.loseLatches]

theorem Group.freshen_pending (q : Group) (xs : List Args) (x : Mask) : (q.freshen xs x).pending = q.pending := by
  unfold Group.freshen
  by_cases h : x = q.lastX <;> simp [h, Group.updSubG, Group.loseLatches]

theorem Group.freshen_ktok (q : Group) (xs : List Args) (x : Mask) : (q.freshen xs x).ktok = q.ktok := by
  unfold Group.freshen
  by_cases h : x = q.lastX <;> simp [h, Group.updSubG, Group.loseLatches]

theorem Group.freshen_team (q : Group) (xs : List Args) (x : Mask) : (q.freshen xs x).team = q.team := by
  unfold Group.freshen
  by_cases h : x = q.lastX <;> simp [h, Group.updSubG, Group.loseLatches]

/-- Freshening keeps all but the validity of latches, the candidates' counts, the issuing set and the protection. -/
theorem Group.freshen_eq (q : Group) (xs : List Args) (x : Mask) :
    q.freshen xs x = { q with latches := (q.freshen xs x).latches, subs := (q.freshen xs x).subs, lastX := x,
                              held := 0, protect := (q.freshen xs x).protect } := by
  unfold Group.freshen
  by_cases h : x = q.lastX <;> simp [h, Group.updSubG, Group.loseLatches]

theorem Group.freshen_predMask (q : Group) (xs : List Args) (x : Mask) (p : Nat) :
    (q.freshen xs x).predMask p = q.predMask p := by
  rw [Group.freshen_eq]; rfl

theorem Group.freshen_predLanes (q : Group) (xs : List Args) (x : Mask) (y : Args) :
    (q.freshen xs x).predLanes y = q.predLanes y := by
  rw [Group.freshen_eq]; rfl

theorem Group.freshen_reg (q : Group) (xs : List Args) (x : Mask) (j : Nat) : (q.freshen xs x).reg j = q.reg j := by
  rw [Group.freshen_eq]; rfl

theorem Group.freshen_k (q : Group) (xs : List Args) (x : Mask) (r : Nat) : (q.freshen xs x).k r = q.k r := by
  rw [Group.freshen_eq]; rfl

/-- The runs and the pending results of the latches do not change when an issue begins. -/
theorem Group.freshen_latches (q : Group) (xs : List Args) (x : Mask) :
    (q.freshen xs x).latches.map (fun l => (l.runs, l.pend)) = q.latches.map fun l => (l.runs, l.pend) := by
  unfold Group.freshen
  by_cases h : x = q.lastX <;> simp [h, Group.updSubG, Group.loseLatches, Function.comp_def]

theorem Group.freshen_latch_runs (q : Group) (xs : List Args) (x : Mask) (n : Nat) :
    ((q.freshen xs x).latches[n]?.map (·.runs)) = q.latches[n]?.map (·.runs) := by
  have h := congrArg (fun t => t[n]?.map (·.1)) (Group.freshen_latches q xs x)
  simpa [Function.comp_def] using h

/-! ### Nothing under way -/

theorem Tbl.get?_mem {α : Type} {t : Tbl α} {k : Nat} {a : α} (h : Tbl.get? t k = some a) : (k, a) ∈ t := by
  induction t with
  | nil => simp [Tbl.get?] at h
  | cons p t ih =>
    obtain ⟨j, b⟩ := p
    by_cases hj : j = k
    · subst hj
      simp [Tbl.get?] at h
      simp [h]
    · simp [Tbl.get?, hj] at h
      exact List.mem_cons_of_mem _ (ih h)

theorem Group.reg_pend {q : Group} (h : (q.regs.all fun p => p.2.pend.isNone) = true) (j : Nat) : (q.reg j).pend = none := by
  unfold Group.reg Tbl.get
  cases hg : Tbl.get? q.regs j with
  | none => rfl
  | some r =>
    have := List.all_eq_true.mp h _ (Tbl.get?_mem hg)
    simpa using this

theorem tokensPending_false {s : State} {t : Nat} (h : ((Tbl.get? s.teams t).map fun tm => tm.stok.isEmpty).getD true = true)
    (rs : List Nat) : tokensPending s t rs = false := by
  unfold tokensPending
  cases hg : Tbl.get? s.teams t with
  | none => rfl
  | some tm =>
    rw [hg] at h
    have he : tm.stok = [] := by simpa using h
    simp [he, Tbl.get]

/-- Where nothing is under way, no operand holds an instruction. -/
theorem awaiting_false {s : State} {q : Group} (h : nothingUnderWay s q = true) (s' : State) (hs : s'.teams = s.teams)
    (xs ys : List Args) (x : Mask) (vs ks : List Nat) : awaiting s' (q.freshen xs x) ys vs ks = false := by
  simp only [nothingUnderWay, Bool.and_eq_true] at h
  obtain ⟨⟨⟨⟨hp, hr⟩, hk⟩, hl⟩, ht⟩ := h
  have hp' : q.pending = [] := by simpa using hp
  have hk' : q.ktok = [] := by simpa using hk
  have h1 : (vs.any fun j => ((q.freshen xs x).reg j).pend.isSome) = false := by
    rw [List.any_eq_false]
    intro j _
    rw [Group.freshen_reg, Group.reg_pend hr]
    simp
  have h5 : (((srcsOf ys).filterMap latchOf).any fun n => ((q.freshen xs x).latches[n]?.map (·.pend.isSome)).getD false) = false := by
    rw [List.any_eq_false]
    intro n _
    have hm := congrArg (fun t => t[n]?.map (·.2)) (Group.freshen_latches q xs x)
    simp only [List.getElem?_map, Option.map_map, Function.comp_def] at hm
    cases hf : (q.freshen xs x).latches[n]? with
    | none => simp
    | some a =>
      rw [hf] at hm
      cases hq : q.latches[n]? with
      | none => simp [hq] at hm
      | some b =>
        rw [hq] at hm
        have hb := List.all_eq_true.mp hl b (List.mem_of_getElem? hq)
        simp at hm hb
        simp [hm, hb]
  have h4 := tokensPending_false (s := s') (t := q.team) (by rw [hs]; exact ht)
  unfold awaiting
  simp only [Group.freshen_team, Group.freshen_ktok, Group.freshen_pending, hp', hk', h1, h4, h5]
  simp only [List.any_nil, Tbl.get, Tbl.get?_nil, Option.getD_none, bne_self_eq_false, Bool.or_false, Bool.false_or]
  simp only [List.any_eq_false]
  intro k _
  simp

/-! ### The issue -/

theorem begun_get {s : State} {g : Nat} {grp : Group} (h : Tbl.get? s.groups g = some grp) (xs : List Args) :
    Tbl.get? (begun s g xs).groups g = some (grp.freshen xs s.cur.lanes) := by
  simp [begun, State.updGroup, h]

theorem mayAct_here {s : State} {g : Nat} {grp : Group} {xs : List Args} (h : mayAct s g grp xs = true) :
    s.cur.by_ = .group g ∧ Tbl.get? s.groups g = some grp ∧ joinedPartner s grp = none := by
  simp only [mayAct, Bool.and_eq_true, beq_iff_eq, Option.isNone_iff_eq_none] at h
  exact ⟨h.1.1.1.1.1.1.1.2, h.1.1.1.1.1.1.2, h.1.1.1.1.1.2⟩

theorem mayAct_lanes {s : State} {g : Nat} {grp : Group} {xs : List Args} (h : mayAct s g grp xs = true) :
    grp.lanes.length = 32 ∧ grp.latches.length = 6 := by
  simp only [mayAct, Bool.and_eq_true, beq_iff_eq] at h
  exact h.1.1.1.1.1.1.1.1

theorem GEff.unlessOwed_false (s : State) (e : GEff) : e.unlessOwed false s = e := by cases e <;> rfl

theorem owes_false {s : State} {q : Group} (h : nothingUnderWay s q = true) (xs : List Args) (x : Mask) (ks : List Nat) :
    (q.freshen xs x).owes ks = false := by
  simp only [nothingUnderWay, Bool.and_eq_true] at h
  have hk : q.ktok = [] := by simpa using h.1.1.2
  simp [Group.owes, Group.freshen_ktok, hk, Tbl.get]

/-- A member on which nothing holds an instruction runs its meaning. -/
theorem runMember_eq {s : State} {g : Nat} {grp : Group} {x : Args} {xs : List Args} (h : mayAct s g grp (x :: xs) = true)
    (vs ks : List Nat) (body : Mem → State → GEff) :
    runMember (x :: xs) vs ks body g s.cur.lanes s = (body (issueMem s g grp x) (begun s g (x :: xs))).afterPath (begun s g (x :: xs)) g := by
  obtain ⟨-, hg, -⟩ := mayAct_here h
  simp only [mayAct, Bool.and_eq_true, beq_iff_eq, Option.isNone_iff_eq_none, Bool.not_eq_true'] at h
  obtain ⟨⟨⟨⟨⟨-, hp⟩, hd⟩, hn⟩, hl⟩, -⟩ := h
  have hb := begun_get hg (x :: xs)
  unfold begun at hb
  unfold runMember
  rw [hg]
  simp only [hp, hd, hb, hl, awaiting_false hn (s.updGroup g fun q => q.freshen (x :: xs) s.cur.lanes) rfl,
    owes_false hn, GEff.unlessOwed_false]
  simp [issueMem, actives, begun, State.nextPc, Group.freshen_predLanes]

/-- An instruction that nothing holds, whose meaning is done. -/
theorem issueGroup_done {s : State} {g : Nat} {grp : Group} {x : Args} (h : mayAct s g grp [x] = true) {vs ks : List Nat}
    {body : Mem → State → GEff} {t : State} (hb : body (issueMem s g grp x) (begun s g [x]) = .done t) :
    issueGroup x vs ks body s = .next (finished s g t) := by
  obtain ⟨hby, hg, hj⟩ := mayAct_here h
  unfold issueGroup issueHalves
  rw [hby]
  simp only [hg, hj, runMember_eq h, hb, GEff.afterPath, GEff.finish]
  rfl

/-- The same for a meaning that moves the lanes itself. -/
theorem issueGroup_jump {s : State} {g : Nat} {grp : Group} {x : Args} (h : mayAct s g grp [x] = true) {vs ks : List Nat}
    {body : Mem → State → GEff} {t : State} (hb : body (issueMem s g grp x) (begun s g [x]) = .jump t) :
    issueGroup x vs ks body s = .next (jumped s g t) := by
  obtain ⟨hby, hg, hj⟩ := mayAct_here h
  unfold issueGroup issueHalves
  rw [hby]
  simp only [hg, hj, runMember_eq h, hb, GEff.afterPath, GEff.finish]
  rfl

/-- A fault of an instruction that nothing holds, of a group whose demand requests have been performed. -/
theorem issueGroup_fault {s : State} {g : Nat} {grp : Group} {x : Args} (h : mayAct s g grp [x] = true) (hq : s.asksPath g = false)
    {vs ks : List Nat}
    {body : Mem → State → GEff} {c : Cause} (hb : body (issueMem s g grp x) (begun s g [x]) = .fault c) :
    issueGroup x vs ks body s = .next (deliver g s.cur.lanes c (splitPair s g)) := by
  obtain ⟨hby, hg, hj⟩ := mayAct_here h
  unfold issueGroup issueHalves
  rw [hby]
  simp [hg, hj, runMember_eq h, hb, GEff.afterPath, show (begun s g [x]).asksPath g = false from hq]

/-! ### The end of an issue -/

theorem Group.tidy_eq (q : Group) : q.tidy = { q with subs := q.tidy.subs } := rfl

theorem loseLatches_loseLatches (q : Group) : q.loseLatches.loseLatches = q.loseLatches := by
  simp [Group.loseLatches, Function.comp_def]

/-- What `settle` does to the group that has issued. -/
def settledGroup (lanes : Mask) (q : Group) : Group :=
  let i := q.candOf lanes
  let q := q.updSubG i fun k => { k with lastX := lanes, hprio := if k.hprio &&& lanes = 0 then k.hprio else k.hprio ||| lanes }
  { q.tidy with lastSub := lastIssued q.subs i q.tidy, wait := none, held := 0 }

/-- The group that issued last before, without its latches where it is another. -/
def beforeSettle (g : Nat) (s : State) : State :=
  match (s.core (coreOfGroup g)).subs[subOfGroup g]?.bind (·.last) with
  | some o => if o = slotOfGroup g then s else s.updGroup (coreOfGroup g * 64 + subOfGroup g * 16 + o) Group.loseLatches
  | none => s

theorem settle_eq (g : Nat) (lanes : Mask) (s : State) :
    settle g lanes s = ((((beforeSettle g s).updSub (coreOfGroup g) (subOfGroup g) fun q =>
      { q with last := some (slotOfGroup g) }).dropReplies (0, g)).leaveEntryWait (coreOfGroup g) (0, g) lanes).updGroup g
        (settledGroup lanes) := rfl

theorem beforeSettle_cases (g : Nat) (s : State) :
    beforeSettle g s = s ∨ ∃ o, o ≠ g ∧ beforeSettle g s = s.updGroup o Group.loseLatches := by
  unfold beforeSettle
  split
  · next o _ =>
    split
    · exact .inl rfl
    · next ho =>
      refine .inr ⟨_, ?_, rfl⟩
      unfold coreOfGroup subOfGroup slotOfGroup at *
      omega
  · exact .inl rfl

theorem settle_get_same (g : Nat) (lanes : Mask) (s : State) {q : Group} (h : Tbl.get? s.groups g = some q) :
    Tbl.get? (settle g lanes s).groups g = some (settledGroup lanes q) := by
  have hb : Tbl.get? (beforeSettle g s).groups g = some q := by
    rcases beforeSettle_cases g s with e | ⟨o, ho, e⟩
    · rw [e, h]
    · rw [e]
      simp [State.updGroup, Ne.symm ho, h]
  rw [settle_eq]
  simp only [State.updGroup, State.updSub, State.leaveEntryWait, State.updCore_groups, State.dropReplies_groups, Tbl.get?_upd_same, hb,
    Option.map_some]

theorem settle_outside (g : Nat) (lanes : Mask) (s : State) :
    settle g lanes s = { s with groups := (settle g lanes s).groups, cores := (settle g lanes s).cores,
                                replies := (settle g lanes s).replies } := by
  rw [settle_eq]
  rcases beforeSettle_cases g s with e | ⟨o, ho, e⟩ <;> (rw [e]; rfl)

theorem updSub_core (s : State) (c b : Nat) (f : SubCore → SubCore) (d : Nat) :
    (s.updSub c b f).core d = { s.core d with subs := ((s.updSub c b f).core d).subs } := by
  by_cases hd : d = c
  · subst hd
    simp [State.updSub, State.updCore, State.core]
  · simp [State.updSub, State.updCore, State.core, hd]

theorem leaveEntryWait_core (s : State) (c : Nat) (p : Party) (x : Mask) (k : Core) (g : Nat) (f : Group → Group) {d : Nat}
    (h : s.core d = { k with subs := (s.core d).subs }) :
    ((s.leaveEntryWait c p x).updGroup g f).core d =
      { k with subs := (((s.leaveEntryWait c p x).updGroup g f).core d).subs,
               entryWait := (((s.leaveEntryWait c p x).updGroup g f).core d).entryWait } := by
  by_cases hd : d = c
  · subst hd
    simp [State.leaveEntryWait, State.updGroup, State.updCore, State.core] at h ⊢
    rw [h]
    simp
  · simp [State.leaveEntryWait, State.updGroup, State.updCore, State.core, hd] at h ⊢
    rw [h]

theorem settle_core (g : Nat) (lanes : Mask) (s : State) (c : Nat) :
    (settle g lanes s).core c = { s.core c with subs := ((settle g lanes s).core c).subs,
                                                entryWait := ((settle g lanes s).core c).entryWait } := by
  have hb : (beforeSettle g s).core c = s.core c := by
    rcases beforeSettle_cases g s with e | ⟨o, ho, e⟩
    · rw [e]
    · rw [e]; rfl
  rw [← hb, settle_eq]
  exact leaveEntryWait_core _ _ _ _ _ _ _ (updSub_core _ _ _ _ _)

theorem settle_others (g : Nat) (lanes : Mask) (s : State) (h : Nat) (hh : h ≠ g) :
    (Tbl.get? (settle g lanes s).groups h).map Group.loseLatches = (Tbl.get? s.groups h).map Group.loseLatches := by
  have hb : (Tbl.get? (beforeSettle g s).groups h).map Group.loseLatches = (Tbl.get? s.groups h).map Group.loseLatches := by
    rcases beforeSettle_cases g s with e | ⟨o, ho, e⟩
    · rw [e]
    · rw [e]
      by_cases he : h = o
      · subst he
        simp only [State.updGroup, Tbl.get?_upd_same]
        cases Tbl.get? s.groups h with
        | none => rfl
        | some q => simp [loseLatches_loseLatches]
      · simp [State.updGroup, he]
  rw [settle_eq]
  simp only [State.updGroup, State.updSub, State.leaveEntryWait, State.updCore_groups, State.dropReplies_groups,
    Tbl.get?_upd_other _ _ hh, hb]

end Sys2Proof.Machine
end

