-- ==== Sys2Proof/Laws/Lane.lean ====
section
/-! SUPPORT. Lane results: where no register is spilled and the cells suffice, a lane result is written, latched, and nothing
else of the group changes. -/

namespace Sys2Proof.Machine

/-! ### Updates of one group -/

theorem updGroup_get {s : State} {g : Nat} {q : Group} (h : Tbl.get? s.groups g = some q) (f : Group → Group) :
    Tbl.get? (s.updGroup g f).groups g = some (f q) := by simp [State.updGroup, h]

theorem updGroup_other (s : State) {g h : Nat} (f : Group → Group) (hh : h ≠ g) :
    Tbl.get? (s.updGroup g f).groups h = Tbl.get? s.groups h := by simp [State.updGroup, hh]

theorem updGroup_core (s : State) (g c : Nat) (f : Group → Group) : (s.updGroup g f).core c = s.core c := rfl

/-- The lanes of an issuing set moved on. -/
def movedOn (x : Mask) (next : Nat) (q : Group) : Group :=
  { q with lanes := mapLanes q.lanes x fun _ a => { a with pc := BitVec.ofNat 32 next } }

/-- A group without its registers and latches. -/
def Group.rest (q : Group) : Group := { q with regs := [], preds := [], ks := [], latches := [], peak := 0, empty := false }

/-- A change of a group that touches only its registers and latches. -/
def Local (f : Group → Group) : Prop := ∀ q, (f q).rest = q.rest

theorem local_id : Local id := fun _ => rfl

theorem local_comp {f h : Group → Group} (hf : Local f) (hh : Local h) : Local fun q => f (h q) :=
  fun q => (hf (h q)).trans (hh q)

theorem eq_of_rest {a b : Group} (h : a.rest = b.rest) :
    a = { b with regs := a.regs, preds := a.preds, ks := a.ks, latches := a.latches, peak := a.peak, empty := a.empty } := by
  cases a
  cases b
  simp only [Group.rest, Group.mk.injEq] at h ⊢
  simp [h]

theorem Local.eq {f : Group → Group} (hf : Local f) (q : Group) :
    f q = { q with regs := (f q).regs, preds := (f q).preds, ks := (f q).ks, latches := (f q).latches,
                   peak := (f q).peak, empty := (f q).empty } := eq_of_rest (hf q)

/-- What the group that issued is after the issue. -/
theorem finished_get {s : State} {g : Nat} {grp : Group} (h : Tbl.get? s.groups g = some grp) (xs : List Args)
    (f : Group → Group) :
    Tbl.get? (finished s g ((begun s g xs).updGroup g f)).groups g =
      some (settledGroup s.cur.lanes (movedOn s.cur.lanes s.nextPc (f (grp.freshen xs s.cur.lanes)))) := by
  apply settle_get_same
  exact updGroup_get (updGroup_get (begun_get h xs) f) _

theorem mapLanes_getD (ls : List Lane) (x : Mask) (f : Nat → Lane → Lane) (l : Nat) (d : Lane) (h : l < ls.length) :
    (mapLanes ls x f).getD l d = if x.getLsbD l then f l (ls.getD l d) else ls.getD l d := by
  simp [mapLanes, List.getD_eq_getElem?_getD, List.getElem?_mapIdx, List.getElem?_eq_getElem h]

theorem mapLanes_length (ls : List Lane) (x : Mask) (f : Nat → Lane → Lane) : (mapLanes ls x f).length = ls.length := by
  simp [mapLanes]

theorem settledGroup_eq (x : Mask) (q : Group) :
    settledGroup x q =
      { q with subs := (settledGroup x q).subs, lastSub := (settledGroup x q).lastSub, wait := none, held := 0 } := rfl

/-- The frame of an issue that changes only registers, predicates and latches of its group. -/
theorem finished_frame {s : State} {g : Nat} {grp : Group} (h : Tbl.get? s.groups g = some grp) (hl : grp.lanes.length = 32)
    (xs : List Args) {f : Group → Group} (hf : Local f) {vs ks ps : List Nat}
    (hv : ∀ j, j ∉ vs → ∀ q, ((f q).reg j).runs = (q.reg j).runs) (hk : ∀ r, r ∉ ks → ∀ q, (f q).k r = q.k r)
    (hp : ∀ p, p ∉ ps → ∀ q, (f q).predMask p = q.predMask p) :
    let t := finished s g ((begun s g xs).updGroup g f)
    sameOutside s t ∧ sameOthers s t g ∧ sameGroup s t g vs ks ps ∧ wentOn s t g := by
  intro t
  have hget := finished_get h xs f
  refine ⟨⟨?_, ?_⟩, ?_, ?_, ?_⟩
  · exact settle_outside _ _ _
  · intro c
    have hc := settle_core g s.cur.lanes (advance g s.cur.lanes s.nextPc ((begun s g xs).updGroup g f)) c
    have hp : (t.core c).spillPages = (s.core c).spillPages := (congrArg Core.spillPages hc).trans rfl
    exact ⟨hc.trans (by rw [hp]; rfl), fun p => by rw [hp]⟩
  · intro i hi
    have := settle_others g s.cur.lanes (advance g s.cur.lanes s.nextPc ((begun s g xs).updGroup g f)) i hi
    rw [show t = settle g s.cur.lanes (advance g s.cur.lanes s.nextPc ((begun s g xs).updGroup g f)) from rfl, this]
    simp [advance, begun, State.updGroup, hi]
  · refine ⟨grp, _, h, hget, ?_, ?_, ?_, ?_⟩
    · rw [settledGroup_eq, movedOn, hf.eq (grp.freshen xs s.cur.lanes), Group.freshen_eq grp xs s.cur.lanes]
    · intro j hj
      have := hv j hj (grp.freshen xs s.cur.lanes)
      rw [Group.freshen_reg] at this
      exact this
    · intro r hr
      have := hk r hr (grp.freshen xs s.cur.lanes)
      rw [Group.freshen_k] at this
      exact this
    · intro p hp'
      have := hp p hp' (grp.freshen xs s.cur.lanes)
      rw [Group.freshen_predMask] at this
      exact this
  · intro l hl'
    unfold State.lanePc
    rw [hget, h]
    have hlanes : (f (grp.freshen xs s.cur.lanes)).lanes = grp.lanes := by
      rw [hf.eq, Group.freshen_eq]
    have hset : ∀ q : Group, (settledGroup s.cur.lanes q).lanes = q.lanes := fun _ => rfl
    simp only [Option.map_some, Option.getD_some, Group.lane, hset, movedOn, hlanes]
    rw [mapLanes_getD _ _ _ _ _ (by omega)]
    split <;> rfl

/-! ### Registers -/

theorem putReg_reg (q : Group) (i : Nat) (r : Reg) (j : Nat) : (q.putReg i r).reg j = if j = i then r else q.reg j := by
  by_cases h : j = i
  · subst h; simp [Group.reg, Group.putReg]
  · simp [Group.reg, Group.putReg, h]

theorem touch_reg (now : Nat) (js : List Nat) (q : Group) (j : Nat) :
    ((q.touch now js).reg j).runs = (q.reg j).runs ∧ ((q.touch now js).reg j).pend = (q.reg j).pend := by
  unfold Group.touch
  induction js generalizing q with
  | nil => exact ⟨rfl, rfl⟩
  | cons i js ih =>
    simp only [List.foldl_cons]
    have := ih (q.putReg i { q.reg i with stamp := now })
    rw [this.1, this.2, putReg_reg]
    split <;> simp_all

theorem touch_local (now : Nat) (js : List Nat) : Local fun q => q.touch now js := by
  unfold Group.touch
  induction js with
  | nil => exact fun _ => rfl
  | cons i js ih => exact fun q => ih (q.putReg i { q.reg i with stamp := now })

/-- The registers an instruction reads are touched and its results put in place. -/
def putRegs (now : Nat) (reads : List Nat) (news : List (Nat × Runs)) (q : Group) : Group :=
  let q := q.touch now reads
  (news.foldl (fun q p => q.putReg p.1 { q.reg p.1 with runs := p.2, spilled := none, stamp := now }) q).notePeak

theorem foldPut_local (now : Nat) (news : List (Nat × Runs)) : Local fun q : Group =>
    news.foldl (fun q p => q.putReg p.1 { q.reg p.1 with runs := p.2, spilled := none, stamp := now }) q := by
  induction news with
  | nil => exact fun _ => rfl
  | cons p ps ih => exact fun q => ih (q.putReg p.1 { q.reg p.1 with runs := p.2, spilled := none, stamp := now })

theorem putRegs_local (now : Nat) (reads : List Nat) (news : List (Nat × Runs)) : Local (putRegs now reads news) := by
  exact fun q => (foldPut_local now news (q.touch now reads)).trans (touch_local now reads q)

theorem foldPut_reg (now : Nat) (news : List (Nat × Runs)) (q : Group) (j : Nat) (h : j ∉ news.map (·.1)) :
    ((news.foldl (fun q p => q.putReg p.1 { q.reg p.1 with runs := p.2, spilled := none, stamp := now }) q).reg j) = q.reg j := by
  induction news generalizing q with
  | nil => rfl
  | cons p ps ih =>
    simp only [List.map_cons, List.mem_cons, not_or] at h
    rw [List.foldl_cons, ih _ h.2, putReg_reg, if_neg h.1]

/-- A register that is no destination keeps its runs. -/
theorem putRegs_other (now : Nat) (reads : List Nat) (news : List (Nat × Runs)) (q : Group) (j : Nat)
    (h : j ∉ news.map (·.1)) : ((putRegs now reads news q).reg j).runs = (q.reg j).runs := by
  have : (putRegs now reads news q).reg j = (q.touch now reads).reg j := by
    unfold putRegs
    simp only [Group.notePeak]
    exact foldPut_reg now news _ j h
  rw [this, (touch_reg now reads q j).1]

/-- The one destination holds the new runs. -/
theorem putRegs_one (now : Nat) (reads : List Nat) (d : Nat) (rs : Runs) (q : Group) :
    ((putRegs now reads [(d, rs)] q).reg d).runs = rs := by
  simp only [putRegs, List.foldl_cons, List.foldl_nil, Group.notePeak, Group.reg, Group.putReg]
  simp [Tbl.get]

/-- The two destinations of a pair hold the new runs. -/
theorem putRegs_two (now : Nat) (reads : List Nat) (d e : Nat) (hne : e ≠ d) (r1 r2 : Runs) (q : Group) :
    ((putRegs now reads [(d, r1), (e, r2)] q).reg d).runs = r1 ∧ ((putRegs now reads [(d, r1), (e, r2)] q).reg e).runs = r2 := by
  simp only [putRegs, List.foldl_cons, List.foldl_nil, Group.notePeak, Group.reg, Group.putReg]
  simp [Tbl.get, Ne.symm hne]

/-! ### Writing without spills -/

theorem restoreAll_none {m : Mem} {reads operands : List Nat} {new used : Nat} {js : List Nat} {s : State} {q : Group}
    (h : Tbl.get? s.groups m.g = some q) (hs : ∀ j, (q.reg j).spilled = none) :
    restoreAll m reads operands new used js s = .done s := by
  induction js with
  | nil => rfl
  | cons j js ih => simp only [restoreAll, h, hs j, ih]

/-- Where nothing is spilled, nothing is restored. -/
theorem restoreRegs_none {m : Mem} {reads operands : List Nat} {new used : Nat} {js : List Nat} {s : State} {q : Group}
    (h : Tbl.get? s.groups m.g = some q) (hs : ∀ j, (q.reg j).spilled = none) :
    restoreRegs m reads operands new used js s = .done s := by
  have hp : imagePages s m.g js = [] := by simp [imagePages, h, hs]
  simp [restoreRegs, hp, restoreAll_none h hs]

/-- A write that fits. -/
theorem writeRegs_fits {m : Mem} {reads keep : List Nat} {news : List (Nat × Runs)} {s : State} {q : Group}
    (h : Tbl.get? s.groups m.g = some q) (hs : ∀ j, (q.reg j).spilled = none)
    (hq : q.inUse + (news.map fun p => Runs.cells p.2).sum ≤ q.quota) :
    writeRegs m reads keep news s = .done (s.updGroup m.g (putRegs s.now reads news)) := by
  unfold writeRegs
  simp only [restoreRegs_none h hs, h]
  rw [if_pos (by omega)]
  rfl

theorem Group.reg_spilled {q : Group} {cells : Nat} (h : roomy q cells = true) (j : Nat) : (q.reg j).spilled = none := by
  simp only [roomy, Bool.and_eq_true] at h
  unfold Group.reg Tbl.get
  cases hg : Tbl.get? q.regs j with
  | none => rfl
  | some r =>
    have := List.all_eq_true.mp h.1.1 _ (Tbl.get?_mem hg)
    simp only [Bool.and_eq_true, Option.isNone_iff_eq_none] at this
    exact this.1

theorem Runs.wf_zero : Runs.wf Runs.zero = true := by decide

theorem Group.reg_wf {q : Group} {cells : Nat} (h : roomy q cells = true) (j : Nat) : Runs.wf (q.reg j).runs = true := by
  simp only [roomy, Bool.and_eq_true] at h
  unfold Group.reg Tbl.get
  cases hg : Tbl.get? q.regs j with
  | none => exact Runs.wf_zero
  | some r =>
    have := List.all_eq_true.mp h.1.1 _ (Tbl.get?_mem hg)
    simp only [Bool.and_eq_true] at this
    exact this.2

theorem Group.latch_wf {q : Group} {cells : Nat} (h : roomy q cells = true) (n : Nat) :
    Runs.wf ((q.latches[n]?.map (·.runs)).getD Runs.zero) = true := by
  simp only [roomy, Bool.and_eq_true] at h
  cases hg : q.latches[n]? with
  | none => exact Runs.wf_zero
  | some l => exact List.all_eq_true.mp h.1.2 l (List.mem_of_getElem? hg)

theorem roomy_room {q : Group} {cells : Nat} (h : roomy q cells = true) : q.inUse + cells ≤ q.quota := by
  simp only [roomy, Bool.and_eq_true, decide_eq_true_eq] at h
  exact h.2

theorem freshen_inUse (q : Group) (xs : List Args) (x : Mask) : (q.freshen xs x).inUse = q.inUse := by
  rw [Group.freshen_eq]; rfl

theorem freshen_quota (q : Group) (xs : List Args) (x : Mask) : (q.freshen xs x).quota = q.quota := by
  rw [Group.freshen_eq]

/-! ### Sources -/

theorem Runs.val_const (v : W32) (l : Nat) (h : l < 32) : Runs.val (Runs.const v) l = v := by
  simp [Runs.const, Runs.val_cons, h]

theorem Runs.val_map (rs : Runs) (f : W32 → W32) (h0 : f 0 = 0) (l : Nat) :
    Runs.val (rs.map fun q => { q with val := f q.val }) l = f (Runs.val rs l) := by
  induction rs generalizing l with
  | nil => exact h0.symm
  | cons r t ih =>
    simp only [List.map_cons, Runs.val_cons]
    split
    · rfl
    · exact ih _

theorem join_hi_lo (v : W64) : join64 (hi32 v) (lo32 v) = v := by
  apply BitVec.eq_of_getLsbD_eq
  intro i hi
  rw [BitVec.getLsbD_append]
  by_cases h32 : i < 32
  · simp [h32]
  · have : 32 + (i - 32) = i := by omega
    simp [h32, this]
    omega

theorem lo_sext (w : W32) : lo32 (w.signExtend 64) = w := by
  apply BitVec.eq_of_getLsbD_eq
  intro i hi
  simp [BitVec.getLsbD_signExtend, hi]
  omega

theorem join_sign (v : W32) : join64 (if v.getLsbD 31 then BitVec.allOnes 32 else 0) v = v.signExtend 64 := by
  apply BitVec.eq_of_getLsbD_eq
  intro i hi
  rw [BitVec.getLsbD_append, BitVec.getLsbD_signExtend]
  by_cases h32 : i < 32
  · simp [h32, hi]
  · by_cases hs : v.getLsbD 31 = true
    · have h1 : (BitVec.allOnes 32).getLsbD (i - 32) = true := by
        rw [BitVec.getLsbD_allOnes]
        exact decide_eq_true (by omega)
      rw [if_pos hs, BitVec.msb_eq_getLsbD_last, hs, h1]
      simp [h32, hi]
    · rw [if_neg hs, BitVec.msb_eq_getLsbD_last]
      simp [h32, hi]
      simpa using hs

/-- What a source reads in a lane when the issue begins (R17, R19). -/
theorem laneRuns_val {s : State} {g : Nat} {grp : Group} (h : Tbl.get? s.groups g = some grp) {cells : Nat}
    (hr : roomy grp cells = true) (xs : List Args) (m : Mem) (hm : m.g = g) (src : Src) (l : Nat) (hl : l < 32) :
    Runs.val (laneRuns m (begun s g xs) src) l = srcLane s g src l := by
  subst hm
  have hb := begun_get h xs
  have hsreg : ∀ t r, (begun s m.g xs).sreg t r = s.sreg t r := fun _ _ => rfl
  unfold laneRuns srcLane
  rw [hb, h]
  cases src with
  | none => simp [Runs.zero, Runs.val_cons, hl]
  | v r =>
    simp only [runsOf, Group.freshen_reg, Group.reg_spilled hr]
  | latch n => simp only [Group.freshen_latch_runs]
  | zero => simp [Runs.val_const, hl, Who.uni, lo32]
  | ones => simp [Runs.val_const, hl, Who.uni, lo32]
  | k r => simp [Runs.val_const, hl, Who.uni, hb, Group.freshen_k]
  | s r => simp [Runs.val_const, hl, Who.uni, Who.team, hb, Group.freshen_team, hsreg]
  | lit w =>
    have hw : BitVec.setWidth 32 (BitVec.signExtend 64 w) = w := lo_sext w
    simp [Runs.val_const, hl, Who.uni, lo32, hw]
  | num n => simp [Runs.val_const, hl, Who.uni, lo32]

/-- The high word of a source in a lane under W. -/
theorem laneRunsHi_val {s : State} {g : Nat} {grp : Group} (h : Tbl.get? s.groups g = some grp) {cells : Nat}
    (hr : roomy grp cells = true) (xs : List Args) (m : Mem) (hm : m.g = g) (src : Src) (l : Nat) (hl : l < 32) :
    join64 (Runs.val (laneRunsHi m (begun s g xs) src) l) (Runs.val (laneRuns m (begun s g xs) src) l) = srcLane64 s g src l := by
  have hlo := laneRuns_val h hr xs m hm src l hl
  subst hm
  have hb := begun_get h xs
  have hsreg : ∀ t r, (begun s m.g xs).sreg t r = s.sreg t r := fun _ _ => rfl
  rw [hlo]
  unfold laneRunsHi srcLane srcLane64
  rw [hb, h]
  cases src with
  | none => simp [Runs.zero, Runs.val_cons, hl, join64]
  | v r => simp only [runsOf, Group.freshen_reg, Group.reg_spilled hr]
  | latch n =>
    simp only [Group.freshen_latch_runs]
    have hm := Runs.val_map ((Option.map (fun x => x.runs) grp.latches[n.toNat]?).getD Runs.zero)
      (fun v => if v.getLsbD 31 then BitVec.allOnes 32 else 0) (by decide) l
    rw [hm]
    exact join_sign _
  | zero =>
    simp [Runs.val_const, hl, Who.uni]
  | ones =>
    have := join_hi_lo (BitVec.allOnes 64)
    have hw : lo32 (BitVec.allOnes 64) = BitVec.allOnes 32 := by decide
    rw [hw] at this
    simp only [Runs.val_const _ _ hl, Who.uni]
    exact this
  | k r => simp [Runs.val_const, hl, Who.uni, hb, Group.freshen_k, join_hi_lo]
  | s r => simp [Runs.val_const, hl, Who.uni, Who.team, hb, Group.freshen_team, hsreg, join_hi_lo]
  | lit w =>
    have := join_hi_lo (w.signExtend 64)
    rw [lo_sext] at this
    simpa [Runs.val_const, hl, Who.uni] using this
  | num n =>
    have := join_hi_lo (n.zeroExtend 64)
    have hw : lo32 (n.zeroExtend 64 : W64) = n.zeroExtend 32 := by simp [lo32]
    rw [hw] at this
    simpa [Runs.val_const, hl, Who.uni] using this

end Sys2Proof.Machine
end

