-- ==== Sys2Proof/Laws/Memory.lean ====
section
/-! SUPPORT. Laws of memory: every operation keeps the canonical form; a read after a write gives the value written, and a
write leaves every other byte alone. -/

namespace Sys2Proof.Machine

theorem Memory.wfFrom_mono {m : Memory} {a b : Nat} (h : a ≤ b) (w : Memory.wfFrom b m = true) : Memory.wfFrom a m = true := by
  cases m with
  | nil => rfl
  | cons c t =>
    simp only [Memory.wfFrom, Bool.and_eq_true, decide_eq_true_eq] at w ⊢
    exact ⟨⟨by omega, w.1.2⟩, w.2⟩

theorem Memory.wfFrom_write {m : Memory} {a : Nat} (k : Nat) (v : Byte) (h : a ≤ k) (w : Memory.wfFrom a m = true) :
    Memory.wfFrom a (Memory.write m k v) = true := by
  induction m generalizing a with
  | nil =>
    by_cases hv : v = Memory.blank <;> simp [Memory.write, Memory.wfFrom, hv, h]
  | cons c t ih =>
    obtain ⟨j, b⟩ := c
    simp only [Memory.wfFrom, Bool.and_eq_true, decide_eq_true_eq] at w
    obtain ⟨⟨w1, w2⟩, w3⟩ := w
    simp only [Memory.write]
    split
    · next hk =>
      split
      · simp [Memory.wfFrom, w1, w2, w3]
      · next hv => simpa [Memory.wfFrom, h, hv, w2, w3] using hk
    · next hk =>
      split
      · next hj =>
        subst hj
        split
        · exact Memory.wfFrom_mono (by omega) w3
        · next hv => simp [Memory.wfFrom, h, hv, w3]
      · next hj => simpa [Memory.wfFrom, w1, w2] using ih (by omega) w3

theorem Memory.wf_write {m : Memory} (k : Nat) (v : Byte) (w : m.wf = true) : (Memory.write m k v).wf = true :=
  Memory.wfFrom_write k v (Nat.zero_le k) w

theorem Memory.wf_writeN {m : Memory} (k : Nat) (bs : List Byte) (w : m.wf = true) : (Memory.writeN m k bs).wf = true := by
  induction bs generalizing m k with
  | nil => exact w
  | cons b bs ih => exact ih (k + 1) (Memory.wf_write k b w)

theorem Memory.wf_writeLE {m : Memory} (k n v : Nat) (w : m.wf = true) : (Memory.writeLE m k n v).wf = true :=
  Memory.wf_writeN k _ w

theorem Memory.wfFrom_filter {m : Memory} {a : Nat} (p : Host.Cell → Bool) (w : Memory.wfFrom a m = true) :
    Memory.wfFrom a (m.filter p) = true := by
  induction m generalizing a with
  | nil => rfl
  | cons c t ih =>
    obtain ⟨j, b⟩ := c
    simp only [Memory.wfFrom, Bool.and_eq_true, decide_eq_true_eq] at w
    obtain ⟨⟨w1, w2⟩, w3⟩ := w
    by_cases hp : p (j, b) = true
    · simp [List.filter, hp, Memory.wfFrom, w1, w2, ih w3]
    · simp only [List.filter, hp]
      exact ih (Memory.wfFrom_mono (by omega) w3)

theorem Memory.wf_filter {m : Memory} (p : Host.Cell → Bool) (w : m.wf = true) : Memory.wf (m.filter p) = true :=
  Memory.wfFrom_filter p w

theorem Memory.wf_clear {m : Memory} (k n : Nat) (w : m.wf = true) : (Memory.clear m k n).wf = true :=
  Memory.wfFrom_filter _ w

theorem Memory.wf_nil : Memory.wf [] = true := rfl

theorem Memory.read_below {m : Memory} {a k : Nat} (h : k < a) (w : Memory.wfFrom a m = true) :
    Memory.read m k = Memory.blank := by
  induction m generalizing a with
  | nil => rfl
  | cons c t ih =>
    obtain ⟨j, b⟩ := c
    simp only [Memory.wfFrom, Bool.and_eq_true, decide_eq_true_eq] at w
    have hj : j ≠ k := by omega
    simpa [Memory.read, hj] using ih (by omega) w.2

theorem Memory.read_write_other (m : Memory) {k j : Nat} (v : Byte) (h : j ≠ k) :
    Memory.read (Memory.write m k v) j = Memory.read m j := by
  induction m with
  | nil => by_cases hv : v = Memory.blank <;> simp [Memory.write, Memory.read, hv, Ne.symm h]
  | cons c t ih =>
    obtain ⟨i, b⟩ := c
    simp only [Memory.write]
    split
    · split <;> simp [Memory.read, Ne.symm h]
    · split
      · next hi => subst hi; split <;> simp [Memory.read, Ne.symm h]
      · simp [Memory.read, ih]

theorem Memory.read_writeFrom_same {m : Memory} {a k : Nat} (v : Byte) (w : Memory.wfFrom a m = true) :
    Memory.read (Memory.write m k v) k = v := by
  induction m generalizing a with
  | nil => by_cases hv : v = Memory.blank <;> simp [Memory.write, Memory.read, hv]
  | cons c t ih =>
    obtain ⟨i, b⟩ := c
    simp only [Memory.wfFrom, Bool.and_eq_true, decide_eq_true_eq] at w
    obtain ⟨⟨w1, w2⟩, w3⟩ := w
    simp only [Memory.write]
    split
    · next hk =>
      split
      · next hv =>
        have hi : i ≠ k := by omega
        simpa [Memory.read, hi, hv] using Memory.read_below (by omega) w3
      · simp [Memory.read]
    · next hk =>
      split
      · next hi =>
        subst hi
        split
        · next hv => simpa [hv] using Memory.read_below (by omega) w3
        · simp [Memory.read]
      · next hi => simpa [Memory.read, hi] using ih w3

theorem Memory.read_write_same {m : Memory} (k : Nat) (v : Byte) (w : m.wf = true) :
    Memory.read (Memory.write m k v) k = v := Memory.read_writeFrom_same v w

theorem Memory.read_writeN_other (m : Memory) {k j : Nat} (bs : List Byte) (h : j < k ∨ k + bs.length ≤ j) :
    Memory.read (Memory.writeN m k bs) j = Memory.read m j := by
  induction bs generalizing m k with
  | nil => rfl
  | cons b bs ih =>
    simp only [List.length_cons] at h
    simp only [Memory.writeN]
    rw [ih _ (by omega), Memory.read_write_other m b (by omega)]

theorem Memory.readN_length (m : Memory) (k n : Nat) : (Memory.readN m k n).length = n := by
  induction n generalizing k with
  | zero => rfl
  | succ n ih => simp [Memory.readN, ih]

theorem Memory.readN_writeN_same {m : Memory} (k : Nat) (bs : List Byte) (w : m.wf = true) :
    Memory.readN (Memory.writeN m k bs) k bs.length = bs := by
  induction bs generalizing m k with
  | nil => rfl
  | cons b bs ih =>
    have hb : Memory.read (Memory.writeN (Memory.write m k b) (k + 1) bs) k = b := by
      rw [Memory.read_writeN_other _ bs (by omega), Memory.read_write_same k b w]
    simp only [Memory.writeN, List.length_cons, Memory.readN, hb]
    rw [ih (k + 1) (Memory.wf_write k b w)]

theorem Memory.read_clear_other (m : Memory) {k n j : Nat} (h : j < k ∨ k + n ≤ j) :
    Memory.read (Memory.clear m k n) j = Memory.read m j := by
  induction m with
  | nil => rfl
  | cons c t ih =>
    obtain ⟨i, b⟩ := c
    by_cases hp : i < k ∨ k + n ≤ i
    · have : Memory.clear ((i, b) :: t) k n = (i, b) :: Memory.clear t k n := by
        have hd : (decide (i < k) || decide (k + n ≤ i)) = true := by simpa using hp
        simp [Memory.clear, List.filter, hd]
      rw [this]
      simp [Memory.read, ih]
    · have hd : (decide (i < k) || decide (k + n ≤ i)) = false := by simpa using hp
      have : Memory.clear ((i, b) :: t) k n = Memory.clear t k n := by
        simp [Memory.clear, List.filter, hd]
      have hi : i ≠ j := by omega
      rw [this, ih]
      simp [Memory.read, hi]

theorem toBytes_length (v n : Nat) : (toBytes v n).length = n := by
  induction n generalizing v with
  | zero => rfl
  | succ n ih => simp [toBytes, ih]

theorem ofBytes_toBytes (v n : Nat) : ofBytes (toBytes v n) = v % 256 ^ n := by
  induction n generalizing v with
  | zero => simp [toBytes, ofBytes, Nat.mod_one]
  | succ n ih =>
    simp only [toBytes, ofBytes, ih, BitVec.toNat_ofNat, Nat.reducePow]
    rw [Nat.pow_succ', Nat.mod_mul]

end Sys2Proof.Machine
end

