-- ==== Sys2Proof/Laws/Result.lean ====
section
/-! SUPPORT. What a lane instruction comes to: where nothing holds it and the cells suffice, its lane result is written and
nothing else of the device changes. -/

namespace Sys2Proof.Machine

theorem updGroup_updGroup (s : State) (g : Nat) (f h : Group → Group) :
    (s.updGroup g f).updGroup g h = s.updGroup g fun q => h (f q) := by
  simp only [State.updGroup, Tbl.upd_upd]

theorem freshen_spilled {q : Group} {cells : Nat} (h : roomy q cells = true) (xs : List Args) (x : Mask) (j : Nat) :
    ((q.freshen xs x).reg j).spilled = none := by
  rw [Group.freshen_reg, Group.reg_spilled h]

/-- A write at the begin of an issue, where its cells fit. -/
theorem writeRegs_begun {s : State} {g : Nat} {grp : Group} (h : Tbl.get? s.groups g = some grp) {cells : Nat}
    (hr : roomy grp cells = true) (xs : List Args) {m : Mem} (hm : m.g = g) (reads keep : List Nat) (news : List (Nat × Runs))
    (hn : (news.map fun p => Runs.cells p.2).sum ≤ cells) :
    writeRegs m reads keep news (begun s g xs) = .done ((begun s g xs).updGroup g (putRegs s.now reads news)) := by
  subst hm
  rw [writeRegs_fits (begun_get h xs) (freshen_spilled hr xs _)]
  · rfl
  · rw [freshen_inUse, freshen_quota]
    have := roomy_room hr
    omega

theorem readRegs_begun {s : State} {g : Nat} {grp : Group} (h : Tbl.get? s.groups g = some grp) {cells : Nat}
    (hr : roomy grp cells = true) (xs : List Args) {m : Mem} (hm : m.g = g) (reads : List Nat) :
    readRegs m reads (begun s g xs) = .done ((begun s g xs).updGroup g (putRegs s.now reads [])) :=
  writeRegs_begun h hr xs hm reads [] [] (by simp)

theorem form_length_le (o : LaneOp) (old : Runs) (proj : W64 → W32) : (o.form old proj).length ≤ 32 := by
  unfold LaneOp.form
  dsimp only
  split
  · exact le_trans (mergeRuns_length_le _) (Runs.length_splice_le proj)
  · exact Runs.length_splice_le proj

/-- The pieces of a lane operation end only where its value may change. -/
def LaneOp.Sound (o : LaneOp) : Prop :=
  ∀ l, o.wset.getLsbD l = true → o.wset.getLsbD (l - 1) = true → l ≠ 0 → o.cut l = false → o.op l = o.op (l - 1)

theorem form_val {o : LaneOp} (ho : o.Sound) {old : Runs} (w : Runs.wf old = true) (proj : W64 → W32) (l : Nat) (hl : l < 32) :
    Runs.val (o.form old proj) l = if o.wset.getLsbD l then proj (o.op l) else Runs.val old l := by
  unfold LaneOp.form
  dsimp only
  split
  · rw [mergeRuns_val]
    · exact Runs.val_splice proj w ho l hl
    · have := Runs.wf_splice (A := o.wset) (old := old) (cut := o.cut) (merge := o.merge) (op := o.op) proj
      simp only [Runs.wf, Bool.and_eq_true] at this
      exact this.2
  · exact Runs.val_splice proj w ho l hl

theorem form_wf (o : LaneOp) (old : Runs) (proj : W64 → W32) : Runs.wf (o.form old proj) = true := by
  unfold LaneOp.form
  dsimp only
  split
  · exact Runs.wf_merge (Runs.wf_splice proj)
  · exact Runs.wf_splice proj

/-- The run lists a lane result gives its registers, at the begin of an issue. -/
theorem news_begun {s : State} {g : Nat} {grp : Group} {cells : Nat} (hr : roomy grp cells = true) (xs : List Args) {m : Mem}
    (o : LaneOp) (d : Nat) :
    o.news m (grp.freshen xs s.cur.lanes) d (begun s g xs) =
      if o.wide then [(d, o.form (grp.reg d).runs pieceLo), (d + 1, o.form (grp.reg (d + 1)).runs pieceHi)]
      else [(d, o.form (grp.reg d).runs pieceLo)] := by
  unfold LaneOp.news
  simp only [runsOf, Group.freshen_reg, Group.reg_spilled hr]

/-- The change a lane result makes in its group. -/
def laneChange (now : Nat) (x : Args) (o : LaneOp) (grp : Group) (q : Group) : Group :=
  let d := x.dst.toNat
  if x.dsel then
    let v := o.kVal (grp.k (d - 32))
    let q := putRegs now o.reads [] q
    (if x.nwb then q else q.setK (d - 32) v).pushLatch (Runs.const (lo32 v))
  else
    let lo := o.form (grp.reg d).runs pieceLo
    let news := if o.wide then [(d, lo), (d + 1, o.form (grp.reg (d + 1)).runs pieceHi)] else [(d, lo)]
    let q := if x.nwb then putRegs now (if o.keeps then o.reads ++ news.map (·.1) else o.reads) [] q else putRegs now o.reads news q
    q.pushLatch lo

theorem laneDo_begun {s : State} {g : Nat} {grp : Group} (h : Tbl.get? s.groups g = some grp) (hr : roomy grp 64 = true)
    (xs : List Args) {m : Mem} (hm : m.g = g) (x : Args) (o : LaneOp) :
    laneDo m x o (begun s g xs) = .done ((begun s g xs).updGroup g (laneChange s.now x o grp)) := by
  have hb := begun_get h xs
  unfold laneDo
  rw [hm, hb]
  dsimp only
  by_cases hd : x.dsel = true
  · simp only [hd, if_true, readRegs_begun h hr xs hm, Group.freshen_k]
    rw [updGroup_updGroup]
    refine congrArg GEff.done (congrArg _ (funext fun q => ?_))
    simp only [laneChange, hd, if_true]
  · have hd' : x.dsel = false := by simpa using hd
    have hsum : ((o.news m (grp.freshen xs s.cur.lanes) x.dst.toNat (begun s g xs)).map fun p => Runs.cells p.2).sum ≤ 64 := by
      rw [news_begun hr]
      have h1 := Runs.cells_le (form_length_le o (grp.reg x.dst.toNat).runs pieceLo)
      have h2 := Runs.cells_le (form_length_le o (grp.reg (x.dst.toNat + 1)).runs pieceHi)
      split <;> simp <;> omega
    have hhead : ((o.news m (grp.freshen xs s.cur.lanes) x.dst.toNat (begun s g xs)).head?.map (·.2)).getD Runs.zero =
        o.form (grp.reg x.dst.toNat).runs pieceLo := by
      rw [news_begun hr]
      split <;> rfl
    simp only [hd', Bool.false_eq_true, if_false]
    by_cases hw : x.nwb = true
    · simp only [hw, if_true, readRegs_begun h hr xs hm, hhead]
      rw [updGroup_updGroup]
      refine congrArg GEff.done (congrArg _ (funext fun q => ?_))
      simp only [laneChange, hd', hw, if_true, Bool.false_eq_true, if_false, news_begun hr]
    · have hw' : x.nwb = false := by simpa using hw
      simp only [hw', Bool.false_eq_true, if_false, writeRegs_begun h hr xs hm _ _ _ hsum, hhead]
      rw [updGroup_updGroup]
      refine congrArg GEff.done (congrArg _ (funext fun q => ?_))
      simp only [laneChange, hd', hw', Bool.false_eq_true, if_false, news_begun hr]

theorem laneChange_local (now : Nat) (x : Args) (o : LaneOp) (grp : Group) : Local (laneChange now x o grp) := by
  intro q
  unfold laneChange
  dsimp only
  split
  · split <;> exact putRegs_local now o.reads [] q
  · split
    · exact putRegs_local _ _ _ q
    · exact putRegs_local _ _ _ q

theorem setK_k (q : Group) (r : Nat) (v : W64) (i : Nat) : (q.setK r v).k i = if i = r then v else q.k i := by
  by_cases h : i = r
  · subst h; simp [Group.k, Group.setK]
  · simp [Group.k, Group.setK, h]

theorem putRegs_k (now : Nat) (reads : List Nat) (news : List (Nat × Runs)) (q : Group) (r : Nat) :
    (putRegs now reads news q).k r = q.k r := by
  have : (putRegs now reads news q).ks = q.ks := by
    have fold : ∀ (l : List (Nat × Runs)) (q : Group),
        (l.foldl (fun q p => q.putReg p.1 { q.reg p.1 with runs := p.2, spilled := none, stamp := now }) q).ks = q.ks := by
      intro l
      induction l with
      | nil => intro q; rfl
      | cons p ps ih => intro q; exact ih _
    have tch : ∀ (l : List Nat) (q : Group), (q.touch now l).ks = q.ks := by
      intro l
      unfold Group.touch
      induction l with
      | nil => intro q; rfl
      | cons p ps ih => intro q; exact ih _
    unfold putRegs
    simp only [Group.notePeak]
    rw [fold, tch]
  simp [Group.k, this]

theorem putRegs_preds (now : Nat) (reads : List Nat) (news : List (Nat × Runs)) (q : Group) :
    (putRegs now reads news q).preds = q.preds := by
  have fold : ∀ (l : List (Nat × Runs)) (q : Group),
      (l.foldl (fun q p => q.putReg p.1 { q.reg p.1 with runs := p.2, spilled := none, stamp := now }) q).preds = q.preds := by
    intro l
    induction l with
    | nil => intro q; rfl
    | cons p ps ih => intro q; exact ih _
  have tch : ∀ (l : List Nat) (q : Group), (q.touch now l).preds = q.preds := by
    intro l
    unfold Group.touch
    induction l with
    | nil => intro q; rfl
    | cons p ps ih => intro q; exact ih _
  unfold putRegs
  simp only [Group.notePeak]
  rw [fold, tch]

theorem predMask_eq {a b : Group} (h : a.preds = b.preds) (p : Nat) : a.predMask p = b.predMask p := by
  simp [Group.predMask, h]

/-- What a lane result leaves (R17 to R22), of a group that may act and has room. -/
theorem laneResult_spec {s : State} {g : Nat} {grp : Group} (hact : Tbl.get? s.groups g = some grp) (hr : roomy grp 64 = true)
    (hl : grp.lanes.length = 32) (xs : List Args) (x : Args) {o : LaneOp} (ho : o.Sound) :
    let t := finished s g ((begun s g xs).updGroup g (laneChange s.now x o grp))
    laneWritten s t g x o.wset o.wide o.op ∧ onlyChanged s t g (laneDests x o.wide) (laneKDests x) [] ∧ wentOn s t g := by
  intro t
  have hget := finished_get hact xs (laneChange s.now x o grp)
  have hreg : ∀ j, (grp.freshen xs s.cur.lanes).reg j = grp.reg j := Group.freshen_reg grp xs s.cur.lanes
  have hval : ∀ d proj l, l < 32 → Runs.val (o.form (grp.reg d).runs proj) l =
      if o.wset.getLsbD l then proj (o.op l) else s.vlane g d l := by
    intro d proj l hl'
    rw [form_val ho (Group.reg_wf hr d) proj l hl']
    simp [State.vlane, hact]
  have hframe : sameOutside s t ∧ sameOthers s t g ∧ sameGroup s t g (laneDests x o.wide) (laneKDests x) [] ∧ wentOn s t g := by
    apply finished_frame hact hl xs (laneChange_local s.now x o grp)
    · intro j hj q
      unfold laneChange
      dsimp only
      unfold laneDests dstRegs at hj
      by_cases hd : x.dsel = true
      · simp only [hd, if_true]
        split
        · exact putRegs_other _ _ _ q j (by simp)
        · exact putRegs_other _ _ _ q j (by simp)
      · have hd' : x.dsel = false := by simpa using hd
        simp only [hd', Bool.false_eq_true, if_false] at hj ⊢
        by_cases hw : x.nwb = true
        · simp only [hw, if_true]
          exact putRegs_other _ _ _ q j (by simp)
        · have hw' : x.nwb = false := by simpa using hw
          simp only [hw', Bool.false_eq_true, if_false] at hj ⊢
          refine putRegs_other _ _ _ q j ?_
          split at hj <;> simp_all
    · intro r hr' q
      unfold laneChange
      dsimp only
      unfold laneKDests dselK at hr'
      by_cases hd : x.dsel = true
      · simp only [hd, if_true] at hr' ⊢
        by_cases hw : x.nwb = true
        · simp only [hw, if_true]
          exact putRegs_k _ _ _ q r
        · have hw' : x.nwb = false := by simpa using hw
          simp only [hw', Bool.false_eq_true, if_false, List.mem_singleton] at hr' ⊢
          show ((putRegs s.now o.reads [] q).setK _ _).k r = _
          rw [setK_k, if_neg hr', putRegs_k]
      · have hd' : x.dsel = false := by simpa using hd
        simp only [hd', Bool.false_eq_true, if_false]
        split <;> exact putRegs_k _ _ _ q r
    · intro p _ q
      apply predMask_eq
      unfold laneChange
      dsimp only
      split
      · split <;> exact putRegs_preds _ _ _ q
      · split <;> exact putRegs_preds _ _ _ q
  refine ⟨⟨?_, ?_, ?_⟩, ⟨hframe.1, hframe.2.1, hframe.2.2.1⟩, hframe.2.2.2⟩
  · intro hd
    unfold State.kreg
    rw [hget]
    show (laneChange s.now x o grp (grp.freshen xs s.cur.lanes)).k _ = _
    unfold laneChange
    simp only [hd, if_true]
    by_cases hw : x.nwb = true
    · simp only [hw, if_true]
      show (putRegs s.now o.reads [] _).k _ = _
      rw [putRegs_k, Group.freshen_k, hact]
      rfl
    · have hw' : x.nwb = false := by simpa using hw
      simp only [hw', Bool.false_eq_true, if_false]
      show ((putRegs s.now o.reads [] _).setK _ _).k _ = _
      rw [setK_k, if_pos rfl, hact]
      rfl
  · intro hd hw l hl'
    have hq : ∀ j, t.vlane g j l = Runs.val (((laneChange s.now x o grp (grp.freshen xs s.cur.lanes)).reg j).runs) l := by
      intro j
      unfold State.vlane
      rw [hget]
      rfl
    rw [hq, hq]
    unfold laneChange
    simp only [hd, hw, Bool.false_eq_true, if_false]
    by_cases hwide : o.wide = true
    · simp only [hwide, if_true]
      have h2 := putRegs_two s.now o.reads x.dst.toNat (x.dst.toNat + 1) (by omega)
        (o.form (grp.reg x.dst.toNat).runs pieceLo) (o.form (grp.reg (x.dst.toNat + 1)).runs pieceHi)
        (grp.freshen xs s.cur.lanes)
      constructor
      · show Runs.val ((putRegs _ _ _ _).reg _).runs l = _
        rw [h2.1]
        exact hval _ _ l hl'
      · intro _
        show Runs.val ((putRegs _ _ _ _).reg _).runs l = _
        rw [h2.2]
        exact hval _ _ l hl'
    · have hwide' : o.wide = false := by simpa using hwide
      simp only [hwide', Bool.false_eq_true, if_false]
      constructor
      · show Runs.val ((putRegs _ _ _ _).reg _).runs l = _
        rw [putRegs_one]
        exact hval _ _ l hl'
      · intro hf
        exact absurd hf (by simp)
  · by_cases hd : x.dsel = true
    · refine ⟨{ valid := true, runs := Runs.const (lo32 (o.kVal (grp.k (x.dst.toNat - 32)))), pend := none }, ?_, rfl, ?_⟩
      · unfold State.latch0
        rw [hget]
        show ((laneChange s.now x o grp (grp.freshen xs s.cur.lanes)).latches)[0]? = _
        unfold laneChange
        simp only [hd, if_true]
        split <;> rfl
      · intro l hl'
        simp only [hd, if_true]
        rw [Runs.val_const _ _ hl']
        unfold State.kreg LaneOp.kVal
        rw [hact]
        rfl
    · have hd' : x.dsel = false := by simpa using hd
      refine ⟨{ valid := true, runs := o.form (grp.reg x.dst.toNat).runs pieceLo, pend := none }, ?_, rfl, ?_⟩
      · unfold State.latch0
        rw [hget]
        show ((laneChange s.now x o grp (grp.freshen xs s.cur.lanes)).latches)[0]? = _
        unfold laneChange
        simp only [hd', Bool.false_eq_true, if_false]
        rfl
      · intro l hl'
        simp only [hd', Bool.false_eq_true, if_false]
        exact hval _ _ l hl'

/-- An instruction whose whole effect is a lane result. -/
theorem issueOp_spec {s : State} {g : Nat} {grp : Group} {x : Args} (h : mayAct s g grp [x] = true) (hr : roomy grp 64 = true)
    {wide : Bool} {f : Mem → State → LaneOp} (ho : (f (issueMem s g grp x) (begun s g [x])).Sound) :
    ∃ t, issueOp x wide f s = .next t ∧
      laneWritten s t g x (f (issueMem s g grp x) (begun s g [x])).wset (f (issueMem s g grp x) (begun s g [x])).wide
        (f (issueMem s g grp x) (begun s g [x])).op ∧
      onlyChanged s t g (laneDests x (f (issueMem s g grp x) (begun s g [x])).wide) (laneKDests x) [] ∧ wentOn s t g := by
  obtain ⟨-, hg, -⟩ := mayAct_here h
  refine ⟨_, issueGroup_done h (laneDo_begun hg hr [x] rfl x _), ?_⟩
  exact laneResult_spec hg hr (mayAct_lanes h).1 [x] x ho

end Sys2Proof.Machine
end

