-- ==== Sys2Proof/Laws/Operand.lean ====
section
/-! SUPPORT. Operands at the begin of an issue: what they hold in a lane, and that the elementwise operations cut their pieces
wherever a value may change. -/

namespace Sys2Proof.Machine

theorem Runs.wf_const (v : W32) : Runs.wf (Runs.const v) = true := by simp [Runs.wf, Runs.const, Runs.total]

theorem Runs.total_map (rs : Runs) (f : W32 → W32) : Runs.total (rs.map fun q => { q with val := f q.val }) = Runs.total rs := by
  induction rs with
  | nil => rfl
  | cons r t ih => simp [Runs.total, ih]

theorem Runs.wf_map {rs : Runs} (h : Runs.wf rs = true) (f : W32 → W32) :
    Runs.wf (rs.map fun q => { q with val := f q.val }) = true := by
  simp only [Runs.wf, Bool.and_eq_true, beq_iff_eq] at h ⊢
  refine ⟨by rw [Runs.total_map]; exact h.1, ?_⟩
  have := h.2
  simp only [List.all_map, Function.comp_def]
  exact this

theorem laneRuns_wf {s : State} {g : Nat} {grp : Group} (h : Tbl.get? s.groups g = some grp) {cells : Nat}
    (hr : roomy grp cells = true) (xs : List Args) (m : Mem) (hm : m.g = g) (src : Src) :
    Runs.wf (laneRuns m (begun s g xs) src) = true := by
  subst hm
  unfold laneRuns
  rw [begun_get h xs]
  cases src with
  | none => exact Runs.wf_zero
  | v r =>
    simp only [runsOf, Group.freshen_reg, Group.reg_spilled hr]
    exact Group.reg_wf hr _
  | latch n =>
    simp only [Group.freshen_latch_runs]
    exact Group.latch_wf hr _
  | _ => exact Runs.wf_const _

theorem laneRunsHi_wf {s : State} {g : Nat} {grp : Group} (h : Tbl.get? s.groups g = some grp) {cells : Nat}
    (hr : roomy grp cells = true) (xs : List Args) (m : Mem) (hm : m.g = g) (src : Src) :
    Runs.wf (laneRunsHi m (begun s g xs) src) = true := by
  subst hm
  unfold laneRunsHi
  rw [begun_get h xs]
  cases src with
  | none => exact Runs.wf_zero
  | v r =>
    simp only [runsOf, Group.freshen_reg, Group.reg_spilled hr]
    exact Group.reg_wf hr _
  | latch n =>
    simp only [Group.freshen_latch_runs]
    exact Runs.wf_map (Group.latch_wf hr _) fun v => if v.getLsbD 31 then BitVec.allOnes 32 else 0
  | _ => exact Runs.wf_const _

theorem Runs.val_pred {rs : Runs} (w : Runs.wf rs = true) {l : Nat} (h0 : l ≠ 0) (hl : l < 32)
    (hs : Runs.starts rs l = false) : Runs.val rs l = Runs.val rs (l - 1) := by
  simp only [Runs.wf, Bool.and_eq_true, beq_iff_eq] at w
  obtain ⟨k, rfl⟩ : ∃ k, l = k + 1 := ⟨l - 1, by omega⟩
  exact Runs.val_of_not_starts w.2 (by omega) hs

section
variable {s : State} {g : Nat} {grp : Group} (h : Tbl.get? s.groups g = some grp) {cells : Nat}
  (hr : roomy grp cells = true) (xs : List Args) (m : Mem) (hm : m.g = g)
include h hr hm

/-- A 32-bit operand in a lane. -/
theorem operand_at32 (wide : Bool) (src : Src) (l : Nat) (hl : l < 32) :
    (operand m (begun s g xs) wide src).at32 l = srcLane s g src l :=
  laneRuns_val h hr xs m hm src l hl

/-- A narrow operand in a lane. -/
theorem operand_at_narrow (src : Src) (l : Nat) (hl : l < 32) :
    (operand m (begun s g xs) false src).at l = (srcLane s g src l).zeroExtend 64 := by
  unfold Operand.at operand
  simp only [Bool.false_eq_true, if_false]
  rw [laneRuns_val h hr xs m hm src l hl]

/-- A wide operand in a lane. -/
theorem operand_at_wide (src : Src) (l : Nat) (hl : l < 32) :
    (operand m (begun s g xs) true src).at l = srcLane64 s g src l := by
  unfold Operand.at operand
  simp only [if_true]
  exact laneRunsHi_val h hr xs m hm src l hl

/-- Where no run of an operand begins, it holds what the lane before holds. -/
theorem operand_uncut (wide : Bool) (src : Src) {l : Nat} (h0 : l ≠ 0) (hl : l < 32)
    (hc : (operand m (begun s g xs) wide src).cuts l = false) :
    (operand m (begun s g xs) wide src).at l = (operand m (begun s g xs) wide src).at (l - 1) ∧
      (operand m (begun s g xs) wide src).at32 l = (operand m (begun s g xs) wide src).at32 (l - 1) := by
  unfold Operand.cuts at hc
  simp only [Bool.or_eq_false_iff, Bool.and_eq_false_iff] at hc
  have hlo := Runs.val_pred (laneRuns_wf h hr xs m hm src) h0 hl hc.1
  constructor
  · unfold Operand.at
    cases wide with
    | false =>
      simp only [operand, Bool.false_eq_true, if_false]
      rw [hlo]
    | true =>
      simp only [operand, if_true] at hc ⊢
      have hhi := Runs.val_pred (laneRunsHi_wf h hr xs m hm src) h0 hl (by simpa using hc.2)
      rw [hlo, hhi]
  · exact hlo

theorem op1_sound (x : Args) (wide : Bool) (f : W64 → W64) : (op1 x wide f m (begun s g xs)).Sound := by
  intro l hA _ h0 hc
  have hl : l < 32 := by
    by_contra hge
    rw [BitVec.getLsbD_of_ge _ _ (by omega)] at hA
    exact absurd hA (by simp)
  show f _ = f _
  rw [(operand_uncut h hr xs m hm wide x.a h0 hl hc).1]

theorem op2_sound (x : Args) (wide : Bool) (f : W64 → W64 → W64) : (op2 x wide f m (begun s g xs)).Sound := by
  intro l hA _ h0 hc
  have hl : l < 32 := by
    by_contra hge
    rw [BitVec.getLsbD_of_ge _ _ (by omega)] at hA
    exact absurd hA (by simp)
  have hc' : ((operand m (begun s g xs) wide x.a).cuts l || (operand m (begun s g xs) wide x.b).cuts l) = false := hc
  simp only [Bool.or_eq_false_iff] at hc'
  show f _ _ = f _ _
  rw [(operand_uncut h hr xs m hm wide x.a h0 hl hc'.1).1, (operand_uncut h hr xs m hm wide x.b h0 hl hc'.2).1]

theorem op3_sound (x : Args) (merge : Bool) (f : W32 → W32 → W32 → W32) : (op3 x merge f m (begun s g xs)).Sound := by
  intro l hA _ h0 hc
  have hl : l < 32 := by
    by_contra hge
    rw [BitVec.getLsbD_of_ge _ _ (by omega)] at hA
    exact absurd hA (by simp)
  have hc' : ((operand m (begun s g xs) false x.a).cuts l || (operand m (begun s g xs) false x.b).cuts l ||
      (operand m (begun s g xs) false x.c).cuts l) = false := hc
  simp only [Bool.or_eq_false_iff] at hc'
  show (f _ _ _).zeroExtend 64 = (f _ _ _).zeroExtend 64
  rw [(operand_uncut h hr xs m hm false x.a h0 hl hc'.1.1).2, (operand_uncut h hr xs m hm false x.b h0 hl hc'.1.2).2,
    (operand_uncut h hr xs m hm false x.c h0 hl hc'.2).2]

end

end Sys2Proof.Machine
end

