-- ==== Sys2Proof/Laws/PerInstr.lean ====
section
/-! SUPPORT. For every constructor of `Instr`: its encoding, where it is well formed, is one to three units. -/

namespace Sys2Proof.Laws.Encoded

/-- A well-formed instruction has a word of one to three units (R14). -/
def Statement (i : Instr) : Prop :=
  ∀ kd sup, i.wf kd sup = true → 1 ≤ (encode i).length ∧ (encode i).length ≤ 3

theorem holds (i : Instr) : Statement i := by
  intro kd sup h
  unfold Instr.wf at h
  unfold encode
  cases he : encOf i with
  | event => simp [he] at h
  | compact cop x =>
    rw [he] at h
    cases hr : findCRow cop with
    | none => simp [hr] at h
    | some r => simp [hr]
  | full op x =>
    rw [he] at h
    simp only at h ⊢
    cases hr : findRow op x.mod x.dst with
    | none => simp [hr] at h
    | some r =>
      simp only
      split <;> simp

theorem nop (x : Args) : Statement (.nop x) := holds _
theorem nopC32 (x : Args) : Statement (.nopC32 x) := holds _
theorem br (x : Args) : Statement (.br x) := holds _
theorem brx (x : Args) : Statement (.brx x) := holds _
theorem jmp (x : Args) : Statement (.jmp x) := holds _
theorem call (x : Args) : Statement (.call x) := holds _
theorem ret (x : Args) : Statement (.ret x) := holds _
theorem exit (x : Args) : Statement (.exit x) := holds _
theorem join (x : Args) : Statement (.join x) := holds _
theorem fuse (x : Args) : Statement (.fuse x) := holds _
theorem yield (x : Args) : Statement (.yield x) := holds _
theorem sleep (x : Args) : Statement (.sleep x) := holds _
theorem loopStrict (x : Args) : Statement (.loopStrict x) := holds _
theorem lend (x : Args) : Statement (.lend x) := holds _
theorem dqpop (x : Args) : Statement (.dqpop x) := holds _
theorem rsort (x : Args) : Statement (.rsort x) := holds _
theorem pair (x : Args) : Statement (.pair x) := holds _
theorem pjoin (x : Args) : Statement (.pjoin x) := holds _
theorem unpair (x : Args) : Statement (.unpair x) := holds _
theorem rdpcv (x : Args) : Statement (.rdpcv x) := holds _
theorem rdid (x : Args) : Statement (.rdid x) := holds _
theorem kstat (x : Args) : Statement (.kstat x) := holds _
theorem sadd (x : Args) : Statement (.sadd x) := holds _
theorem ssub (x : Args) : Statement (.ssub x) := holds _
theorem smul (x : Args) : Statement (.smul x) := holds _
theorem smulh (x : Args) : Statement (.smulh x) := holds _
theorem sdiv (x : Args) : Statement (.sdiv x) := holds _
theorem srem (x : Args) : Statement (.srem x) := holds _
theorem sand (x : Args) : Statement (.sand x) := holds _
theorem sor (x : Args) : Statement (.sor x) := holds _
theorem sxor (x : Args) : Statement (.sxor x) := holds _
theorem sshl (x : Args) : Statement (.sshl x) := holds _
theorem sshr (x : Args) : Statement (.sshr x) := holds _
theorem ssra (x : Args) : Statement (.ssra x) := holds _
theorem smin (x : Args) : Statement (.smin x) := holds _
theorem smax (x : Args) : Statement (.smax x) := holds _
theorem scmp (x : Args) : Statement (.scmp x) := holds _
theorem ssel (x : Args) : Statement (.ssel x) := holds _
theorem smov (x : Args) : Statement (.smov x) := holds _
theorem sli (x : Args) : Statement (.sli x) := holds _
theorem sld (x : Args) : Statement (.sld x) := holds _
theorem sst (x : Args) : Statement (.sst x) := holds _
theorem sbr (x : Args) : Statement (.sbr x) := holds _
theorem sjmp (x : Args) : Statement (.sjmp x) := holds _
theorem scall (x : Args) : Statement (.scall x) := holds _
theorem sret (x : Args) : Statement (.sret x) := holds _
theorem dqpush (x : Args) : Statement (.dqpush x) := holds _
theorem glaunch (x : Args) : Statement (.glaunch x) := holds _
theorem gwait (x : Args) : Statement (.gwait x) := holds _
theorem tbar : Statement (.tbar) := holds _
theorem hld (x : Args) : Statement (.hld x) := holds _
theorem sclk (x : Args) : Statement (.sclk x) := holds _
theorem sgrid (x : Args) : Statement (.sgrid x) := holds _
theorem wend : Statement (.wend) := holds _
theorem iadd (x : Args) : Statement (.iadd x) := holds _
theorem iaddC32 (x : Args) : Statement (.iaddC32 x) := holds _
theorem isub (x : Args) : Statement (.isub x) := holds _
theorem isubC32 (x : Args) : Statement (.isubC32 x) := holds _
theorem imul (x : Args) : Statement (.imul x) := holds _
theorem imulC32 (x : Args) : Statement (.imulC32 x) := holds _
theorem imulh (x : Args) : Statement (.imulh x) := holds _
theorem imulhC32 (x : Args) : Statement (.imulhC32 x) := holds _
theorem imad (x : Args) : Statement (.imad x) := holds _
theorem imadC (x : Args) : Statement (.imadC x) := holds _
theorem iabs (x : Args) : Statement (.iabs x) := holds _
theorem iabsC32 (x : Args) : Statement (.iabsC32 x) := holds _
theorem imin (x : Args) : Statement (.imin x) := holds _
theorem iminC32 (x : Args) : Statement (.iminC32 x) := holds _
theorem imax (x : Args) : Statement (.imax x) := holds _
theorem imaxC32 (x : Args) : Statement (.imaxC32 x) := holds _
theorem and (x : Args) : Statement (.and x) := holds _
theorem andC32 (x : Args) : Statement (.andC32 x) := holds _
theorem or (x : Args) : Statement (.or x) := holds _
theorem orC32 (x : Args) : Statement (.orC32 x) := holds _
theorem xor (x : Args) : Statement (.xor x) := holds _
theorem xorC32 (x : Args) : Statement (.xorC32 x) := holds _
theorem not (x : Args) : Statement (.not x) := holds _
theorem notC32 (x : Args) : Statement (.notC32 x) := holds _
theorem shl (x : Args) : Statement (.shl x) := holds _
theorem shlC32 (x : Args) : Statement (.shlC32 x) := holds _
theorem shr (x : Args) : Statement (.shr x) := holds _
theorem shrC32 (x : Args) : Statement (.shrC32 x) := holds _
theorem sra (x : Args) : Statement (.sra x) := holds _
theorem sraC32 (x : Args) : Statement (.sraC32 x) := holds _
theorem rol (x : Args) : Statement (.rol x) := holds _
theorem rolC32 (x : Args) : Statement (.rolC32 x) := holds _
theorem popc (x : Args) : Statement (.popc x) := holds _
theorem popcC32 (x : Args) : Statement (.popcC32 x) := holds _
theorem clz (x : Args) : Statement (.clz x) := holds _
theorem clzC32 (x : Args) : Statement (.clzC32 x) := holds _
theorem icmp (x : Args) : Statement (.icmp x) := holds _
theorem sel (x : Args) : Statement (.sel x) := holds _
theorem fadd (x : Args) : Statement (.fadd x) := holds _
theorem faddC32 (x : Args) : Statement (.faddC32 x) := holds _
theorem fsub (x : Args) : Statement (.fsub x) := holds _
theorem fsubC32 (x : Args) : Statement (.fsubC32 x) := holds _
theorem fmul (x : Args) : Statement (.fmul x) := holds _
theorem fmulC32 (x : Args) : Statement (.fmulC32 x) := holds _
theorem ffma (x : Args) : Statement (.ffma x) := holds _
theorem ffmaC (x : Args) : Statement (.ffmaC x) := holds _
theorem fmin (x : Args) : Statement (.fmin x) := holds _
theorem fminC32 (x : Args) : Statement (.fminC32 x) := holds _
theorem fmax (x : Args) : Statement (.fmax x) := holds _
theorem fmaxC32 (x : Args) : Statement (.fmaxC32 x) := holds _
theorem fabs (x : Args) : Statement (.fabs x) := holds _
theorem fabsC32 (x : Args) : Statement (.fabsC32 x) := holds _
theorem fneg (x : Args) : Statement (.fneg x) := holds _
theorem fnegC32 (x : Args) : Statement (.fnegC32 x) := holds _
theorem frcp (x : Args) : Statement (.frcp x) := holds _
theorem frcpC32 (x : Args) : Statement (.frcpC32 x) := holds _
theorem frsq (x : Args) : Statement (.frsq x) := holds _
theorem frsqC32 (x : Args) : Statement (.frsqC32 x) := holds _
theorem fsqrt (x : Args) : Statement (.fsqrt x) := holds _
theorem fsqrtC32 (x : Args) : Statement (.fsqrtC32 x) := holds _
theorem fexp2 (x : Args) : Statement (.fexp2 x) := holds _
theorem fexp2C32 (x : Args) : Statement (.fexp2C32 x) := holds _
theorem flog2 (x : Args) : Statement (.flog2 x) := holds _
theorem flog2C32 (x : Args) : Statement (.flog2C32 x) := holds _
theorem fcmp (x : Args) : Statement (.fcmp x) := holds _
theorem fclass (x : Args) : Statement (.fclass x) := holds _
theorem mov (x : Args) : Statement (.mov x) := holds _
theorem movC32 (x : Args) : Statement (.movC32 x) := holds _
theorem vbc (x : Args) : Statement (.vbc x) := holds _
theorem vli (x : Args) : Statement (.vli x) := holds _
theorem rcoal (x : Args) : Statement (.rcoal x) := holds _
theorem rcoalC32 (x : Args) : Statement (.rcoalC32 x) := holds _
theorem rstat (x : Args) : Statement (.rstat x) := holds _
theorem shfl (x : Args) : Statement (.shfl x) := holds _
theorem shflx (x : Args) : Statement (.shflx x) := holds _
theorem vote (x : Args) : Statement (.vote x) := holds _
theorem pand (x : Args) : Statement (.pand x) := holds _
theorem por (x : Args) : Statement (.por x) := holds _
theorem pxor (x : Args) : Statement (.pxor x) := holds _
theorem pnot (x : Args) : Statement (.pnot x) := holds _
theorem pmov (x : Args) : Statement (.pmov x) := holds _
theorem pcnt (x : Args) : Statement (.pcnt x) := holds _
theorem pfirst (x : Args) : Statement (.pfirst x) := holds _
theorem redF (x : Args) : Statement (.redF x) := holds _
theorem redI (x : Args) : Statement (.redI x) := holds _
theorem scanF (x : Args) : Statement (.scanF x) := holds _
theorem scanI (x : Args) : Statement (.scanI x) := holds _
theorem vcomp (x : Args) : Statement (.vcomp x) := holds _
theorem vexp (x : Args) : Statement (.vexp x) := holds _
theorem lid (x : Args) : Statement (.lid x) := holds _
theorem cvtFf (x : Args) : Statement (.cvtFf x) := holds _
theorem cvtFi (x : Args) : Statement (.cvtFi x) := holds _
theorem cvtFiC32 (x : Args) : Statement (.cvtFiC32 x) := holds _
theorem cvtIf (x : Args) : Statement (.cvtIf x) := holds _
theorem cvtIfC32 (x : Args) : Statement (.cvtIfC32 x) := holds _
theorem fround (x : Args) : Statement (.fround x) := holds _
theorem rint (x : Args) : Statement (.rint x) := holds _
theorem qscale (x : Args) : Statement (.qscale x) := holds _
theorem pack4 (x : Args) : Statement (.pack4 x) := holds _
theorem unpack4 (x : Args) : Statement (.unpack4 x) := holds _
theorem dmask (x : Args) : Statement (.dmask x) := holds _
theorem rngx (x : Args) : Statement (.rngx x) := holds _
theorem rngxSeed (x : Args) : Statement (.rngxSeed x) := holds _
theorem rngxSt (x : Args) : Statement (.rngxSt x) := holds _
theorem pk16 (x : Args) : Statement (.pk16 x) := holds _
theorem pk8 (x : Args) : Statement (.pk8 x) := holds _
theorem xt16 (x : Args) : Statement (.xt16 x) := holds _
theorem xt8 (x : Args) : Statement (.xt8 x) := holds _
theorem ld (x : Args) : Statement (.ld x) := holds _
theorem st (x : Args) : Statement (.st x) := holds _
theorem ldk (x : Args) : Statement (.ldk x) := holds _
theorem stk (x : Args) : Statement (.stk x) := holds _
theorem ldW (x : Args) : Statement (.ldW x) := holds _
theorem stW (x : Args) : Statement (.stW x) := holds _
theorem spush (x : Args) : Statement (.spush x) := holds _
theorem spop (x : Args) : Statement (.spop x) := holds _
theorem atomAdd (x : Args) : Statement (.atomAdd x) := holds _
theorem atomMin (x : Args) : Statement (.atomMin x) := holds _
theorem atomMax (x : Args) : Statement (.atomMax x) := holds _
theorem atomAnd (x : Args) : Statement (.atomAnd x) := holds _
theorem atomOr (x : Args) : Statement (.atomOr x) := holds _
theorem atomXor (x : Args) : Statement (.atomXor x) := holds _
theorem atomExch (x : Args) : Statement (.atomExch x) := holds _
theorem atomcas (x : Args) : Statement (.atomcas x) := holds _
theorem atomFAdd (x : Args) : Statement (.atomFAdd x) := holds _
theorem atomFMin (x : Args) : Statement (.atomFMin x) := holds _
theorem atomFMax (x : Args) : Statement (.atomFMax x) := holds _
theorem amaxF32 (x : Args) : Statement (.amaxF32 x) := holds _
theorem amaxr (x : Args) : Statement (.amaxr x) := holds _
theorem ldAcq (x : Args) : Statement (.ldAcq x) := holds _
theorem stRel (x : Args) : Statement (.stRel x) := holds _
theorem acq (x : Args) : Statement (.acq x) := holds _
theorem rel (x : Args) : Statement (.rel x) := holds _
theorem fence (x : Args) : Statement (.fence x) := holds _
theorem bind (x : Args) : Statement (.bind x) := holds _
theorem unbind (x : Args) : Statement (.unbind x) := holds _
theorem sigwait (x : Args) : Statement (.sigwait x) := holds _
theorem sigset (x : Args) : Statement (.sigset x) := holds _
theorem mwl (x : Args) : Statement (.mwl x) := holds _
theorem mwswap (x : Args) : Statement (.mwswap x) := holds _
theorem mma (x : Args) : Statement (.mma x) := holds _
theorem mmaG (x : Args) : Statement (.mmaG x) := holds _
theorem mmaV (x : Args) : Statement (.mmaV x) := holds _
theorem mdrain (x : Args) : Statement (.mdrain x) := holds _
theorem gdrain (x : Args) : Statement (.gdrain x) := holds _
theorem mzero (x : Args) : Statement (.mzero x) := holds _
theorem mctxAcq (x : Args) : Statement (.mctxAcq x) := holds _
theorem mctxTry (x : Args) : Statement (.mctxTry x) := holds _
theorem mctxRel (x : Args) : Statement (.mctxRel x) := holds _
theorem mfmt (x : Args) : Statement (.mfmt x) := holds _
theorem tld (x : Args) : Statement (.tld x) := holds _
theorem tst (x : Args) : Statement (.tst x) := holds _
theorem tmov (x : Args) : Statement (.tmov x) := holds _
theorem hst (x : Args) : Statement (.hst x) := holds _
theorem hinfo (x : Args) : Statement (.hinfo x) := holds _
theorem cld (x : Args) : Statement (.cld x) := holds _
theorem cldi (x : Args) : Statement (.cldi x) := holds _
theorem spl (x : Args) : Statement (.spl x) := holds _
theorem splX (x : Args) : Statement (.splX x) := holds _
theorem splres (x : Args) : Statement (.splres x) := holds _
theorem cfind (x : Args) : Statement (.cfind x) := holds _
theorem cins (x : Args) : Statement (.cins x) := holds _
theorem lrun (x : Args) : Statement (.lrun x) := holds _
theorem lstop (x : Args) : Statement (.lstop x) := holds _
theorem lstat (x : Args) : Statement (.lstat x) := holds _
theorem qpop (x : Args) : Statement (.qpop x) := holds _
theorem qpeek (x : Args) : Statement (.qpeek x) := holds _
theorem qpush (x : Args) : Statement (.qpush x) := holds _
theorem bcp (x : Args) : Statement (.bcp x) := holds _
theorem bcpMc (x : Args) : Statement (.bcpMc x) := holds _
theorem bcpV (x : Args) : Statement (.bcpV x) := holds _
theorem wsig (x : Args) : Statement (.wsig x) := holds _
theorem abinit (x : Args) : Statement (.abinit x) := holds _
theorem abwait (x : Args) : Statement (.abwait x) := holds _
theorem abarr (x : Args) : Statement (.abarr x) := holds _
theorem tokwait (x : Args) : Statement (.tokwait x) := holds _
theorem bcancel (x : Args) : Statement (.bcancel x) := holds _
theorem bpf (x : Args) : Statement (.bpf x) := holds _
theorem trap (x : Args) : Statement (.trap x) := holds _
theorem brk (x : Args) : Statement (.brk x) := holds _
theorem eret (x : Args) : Statement (.eret x) := holds _
theorem mfsr (x : Args) : Statement (.mfsr x) := holds _
theorem mtsr (x : Args) : Statement (.mtsr x) := holds _
theorem preack (x : Args) : Statement (.preack x) := holds _
theorem errw (x : Args) : Statement (.errw x) := holds _
theorem sgat (x : Args) : Statement (.sgat x) := holds _
theorem ssct (x : Args) : Statement (.ssct x) := holds _
theorem sdct (x : Args) : Statement (.sdct x) := holds _
theorem svoxIns (x : Args) : Statement (.svoxIns x) := holds _
theorem svoxEmit (x : Args) : Statement (.svoxEmit x) := holds _
theorem soct (x : Args) : Statement (.soct x) := holds _
theorem sxfm (x : Args) : Statement (.sxfm x) := holds _
theorem sput (x : Args) : Statement (.sput x) := holds _
theorem sloop (x : Args) : Statement (.sloop x) := holds _
theorem send (x : Args) : Statement (.send x) := holds _
theorem csave (x : Args) : Statement (.csave x) := holds _
theorem crest (x : Args) : Statement (.crest x) := holds _
theorem haltFreeze (x : Args) : Statement (.haltFreeze x) := holds _
theorem haltResume (x : Args) : Statement (.haltResume x) := holds _
theorem haltKill (x : Args) : Statement (.haltKill x) := holds _
theorem bufw (x : Args) : Statement (.bufw x) := holds _
theorem mapw (x : Args) : Statement (.mapw x) := holds _
theorem tinv (x : Args) : Statement (.tinv x) := holds _
theorem pmig (x : Args) : Statement (.pmig x) := holds _
theorem loadResultLand (grp id : Nat) : Statement (.loadResultLand grp id) := holds _
theorem spillPageFill (grp page : Nat) : Statement (.spillPageFill grp page) := holds _
theorem atomicResultLand (grp id : Nat) : Statement (.atomicResultLand grp id) := holds _
theorem matrixPassStart (core mctx rows : Nat) : Statement (.matrixPassStart core mctx rows) := holds _
theorem mwlComplete (core mctx : Nat) : Statement (.mwlComplete core mctx) := holds _
theorem contextFree (core mctx : Nat) : Statement (.contextFree core mctx) := holds _
theorem tileMoveComplete (core op : Nat) : Statement (.tileMoveComplete core op) := holds _
theorem coordResultLand (grp id : Nat) : Statement (.coordResultLand grp id) := holds _
theorem splresComplete (core op : Nat) : Statement (.splresComplete core op) := holds _
theorem streamElement (core slot : Nat) : Statement (.streamElement core slot) := holds _
theorem copyStart (core copy : Nat) : Statement (.copyStart core copy) := holds _
theorem copyBlock (core copy block : Nat) : Statement (.copyBlock core copy block) := holds _
theorem copyComplete (core copy : Nat) : Statement (.copyComplete core copy) := holds _
theorem wsigSignal (core copy : Nat) : Statement (.wsigSignal core copy) := holds _
theorem swap (core sub : Nat) : Statement (.swap core sub) := holds _
theorem agedSwap (core sub : Nat) : Statement (.agedSwap core sub) := holds _
theorem progressYield (grp cand : Nat) : Statement (.progressYield grp cand) := holds _
theorem latchProtectionEnd (core sub : Nat) : Statement (.latchProtectionEnd core sub) := holds _
theorem joinTimeout (grp rec : Nat) : Statement (.joinTimeout grp rec) := holds _
theorem pairtimeout (grp : Nat) : Statement (.pairtimeout grp) := holds _
theorem sleepExpire (grp : Nat) : Statement (.sleepExpire grp) := holds _
theorem groupSlotFree (grp : Nat) : Statement (.groupSlotFree grp) := holds _
theorem teamEnd (team : Nat) : Statement (.teamEnd team) := holds _
theorem gridRetire (grid : Nat) : Statement (.gridRetire grid) := holds _
theorem launchRecordTake (ctx : Nat) : Statement (.launchRecordTake ctx) := holds _
theorem gridStart (grid : Nat) : Statement (.gridStart grid) := holds _
theorem dispatcherRangeDraw (grid die : Nat) : Statement (.dispatcherRangeDraw grid die) := holds _
theorem teamPlace (grid die quad cluster : Nat) : Statement (.teamPlace grid die quad cluster) := holds _
theorem coopGridPlace (grid : Nat) : Statement (.coopGridPlace grid) := holds _
theorem memoryPortAccess (r : PortReq) : Statement (.memoryPortAccess r) := holds _
theorem hostMemRead (h n : Nat) : Statement (.hostMemRead h n) := holds _
theorem hostMemWrite (h : Nat) (data : List Byte) : Statement (.hostMemWrite h data) := holds _
theorem snoop (line : Nat) : Statement (.snoop line) := holds _
theorem registerWrite (r : HostReg) (v : W64) : Statement (.registerWrite r v) := holds _
theorem flitReceive (port : Nat) (flit : List Byte) : Statement (.flitReceive port flit) := holds _
theorem linkdown (port : Nat) : Statement (.linkdown port) := holds _
theorem laneFailure (port : Nat) : Statement (.laneFailure port) := holds _
theorem remoteRead (p : Packet) : Statement (.remoteRead p) := holds _
theorem readData (p : Packet) : Statement (.readData p) := holds _
theorem remoteWrite (p : Packet) : Statement (.remoteWrite p) := holds _
theorem writeDone (p : Packet) : Statement (.writeDone p) := holds _
theorem remoteAtomic (p : Packet) : Statement (.remoteAtomic p) := holds _
theorem atomicResult (p : Packet) : Statement (.atomicResult p) := holds _
theorem signal (p : Packet) : Statement (.signal p) := holds _
theorem errorPacket (p : Packet) : Statement (.errorPacket p) := holds _
theorem remoteTimeout (txid : Nat) : Statement (.remoteTimeout txid) := holds _
theorem dielost (die : Nat) : Statement (.dielost die) := holds _
theorem resetdie (die : Nat) : Statement (.resetdie die) := holds _
theorem poweron : Statement (.poweron) := holds _
theorem stageS0 (lanes : Nat) : Statement (.stageS0 lanes) := holds _
theorem stageS1 (failed : List Nat) : Statement (.stageS1 failed) := holds _
theorem stageS2 (r : CoreTest) : Statement (.stageS2 r) := holds _
theorem stageS3 (f : FwSetup) : Statement (.stageS3 f) := holds _
theorem hostreset : Statement (.hostreset) := holds _
theorem flr : Statement (.flr) := holds _
theorem watchdog : Statement (.watchdog) := holds _
theorem sensorSample (die sensor : Nat) (reading : BitVec 16) : Statement (.sensorSample die sensor reading) := holds _
theorem clockStep (die : Nat) : Statement (.clockStep die) := holds _
theorem alarmSource (src : AlarmSrc) : Statement (.alarmSource src) := holds _
theorem firmwareRemeasure : Statement (.firmwareRemeasure) := holds _
theorem getstat : Statement (.getstat) := holds _
theorem getlog (start count : Nat) : Statement (.getlog start count) := holds _
theorem getbootlog : Statement (.getbootlog) := holds _
theorem fwupdate (off : Nat) (data : List Byte) (final commit : Bool) : Statement (.fwupdate off data final commit) := holds _
theorem reset : Statement (.reset) := holds _
theorem ctxcreate (ctx nslot dframe stripe cgroup : Nat) : Statement (.ctxcreate ctx nslot dframe stripe cgroup) := holds _
theorem ctxdestroy (ctx : Nat) : Statement (.ctxdestroy ctx) := holds _
theorem attest (nonce : BitVec 256) : Statement (.attest nonce) := holds _
theorem setthresh (die sensor : Nat) (warn throttle : BitVec 16) : Statement (.setthresh die sensor warn throttle) := holds _
theorem setalarm (v : W64) : Statement (.setalarm v) := holds _
theorem retire (stack chan : Nat) : Statement (.retire stack chan) := holds _
theorem resumeall : Statement (.resumeall) := holds _
theorem powerLoss : Statement (.powerLoss) := holds _
theorem debuggerResume (grp : Nat) : Statement (.debuggerResume grp) := holds _
theorem retrainComplete (port lanes : Nat) : Statement (.retrainComplete port lanes) := holds _
theorem dieReturnTimeout (die : Nat) : Statement (.dieReturnTimeout die) := holds _

end Sys2Proof.Laws.Encoded
end

