-- ==== Sys2Proof/Tests/Slice0.lean ====
section
/-! SUPPORT. Tests, with expected results written out from the spec, and for the statements, states and operands that meet their
hypotheses. -/

namespace Sys2Proof.Tests

set_option Elab.async false

open Sys2Proof hiding wBit
open Sys2Proof.Machine Sys2Proof.Claims

/-! ### Words of the spec -/

/-- Units that decode, in supervisor mode, to an instruction. -/
abbrev Reads (kd : Kind) (us : List W32) (d : Decoded) : Prop := decode kd true (unitBytes us) = .ok (.one d, [])

/-- Units that are no instruction. -/
abbrev Rejected (kd : Kind) (sup : Bool) (us : List W32) (e : Reject) : Prop := decode kd sup (unitBytes us) = .error e

theorem test_word_red_f_add : Reads .group [0x02803629, 0]
    (.instr (.redF { Args.bare with dst := 3, a := .v 10 })) := by decide +kernel
theorem test_word_scan_i_add_x : Reads .group [0x01005635, 0x00040000]
    (.instr (.scanI { Args.bare with dst := 5, a := .v 4, mod := 0x100 })) := by decide +kernel
theorem test_word_shfl_xor : Reads .group [0x01806601, 0x00218021]
    (.instr (.shfl { Args.bare with dst := 6, a := .v 6, b := .k 1, mod := 0x60 })) := by decide +kernel
theorem test_word_cvt_ff : Reads .group [0x00803701, 0x00060000]
    (.instr (.cvtFf { Args.bare with dst := 3, a := .v 2, mod := 0x180 })) := by decide +kernel
theorem test_word_pack4 : Reads .group [0x02814719, 0x00200024]
    (.instr (.pack4 { Args.bare with dst := 20, a := .v 10, b := .k 4 })) := by decide +kernel
theorem test_word_dmask : Reads .group [0x01802721, 0x0060A42A]
    (.instr (.dmask { Args.bare with dst := 2, a := .v 6, b := .k 10, c := .k 9 })) := by decide +kernel
theorem test_word_cvt_fi_rz : Reads .group [0x400905C0]
    (.instr (.cvtFiC32 { Args.bare with dst := 5, a := .v 9, mod := 4 })) := by decide +kernel
theorem test_word_ld_sh : Reads .group [0x00C0C803, 0, 0x40]
    (.instr (.ld { Args.bare with dst := 12, a := .v 3, b := .lit 64 })) := by decide +kernel
theorem test_word_st_sp_b16 : Reads .group [0x00807805, 0x00248025]
    (.instr (.st { Args.bare with dst := 7, a := .v 2, b := .k 5, mod := 0x120 })) := by decide +kernel
theorem test_word_atom_add_sp : Reads .group [0x08406901, 0x00168005]
    (.instr (.atomAdd { Args.bare with dst := 6, a := .k 1, b := .v 5, mod := 0x1A0 })) := by decide +kernel
theorem test_word_rel : Reads .group [0x00003945, 0]
    (.instr (.rel { Args.bare with dst := 3 })) := by decide +kernel
theorem test_word_fence_sys : Reads .group [0x00000949, 0x00038000]
    (.instr (.fence { Args.bare with mod := 0xE0 })) := by decide +kernel
theorem test_word_mwl : Reads .group [0x00800A01, 0x00004000]
    (.instr (.mwl { Args.bare with a := .num 2, b := .num 0, mod := 0x10 })) := by decide +kernel
theorem test_word_mma_r : Reads .group [0x10001A09, 0x00004000]
    (.instr (.mma { Args.bare with dst := 1, a := .v 64, b := .num 0, mod := 0x10 })) := by decide +kernel
theorem test_word_gdrain : Reads .group [0x00002A19, 0x00409804]
    (.instr (.gdrain { Args.bare with dst := 2, a := .v 0, b := .num 4, c := .k 6 })) := by decide +kernel
theorem test_word_hst_mm : Reads .group [0x0A005B81, 0x00308006]
    (.instr (.hst { Args.bare with dst := 5, a := .k 8, b := .zero, mod := 0x20 })) := by decide +kernel
theorem test_word_hinfo : Reads .group [0x01403B85, 0x0003C000]
    (.instr (.hinfo { Args.bare with dst := 3, a := .num 5, mod := 0xF0 })) := by decide +kernel
theorem test_word_cld_lin_g : Reads .group [0x00C0AB01, 0x0004D002]
    (.instr (.cld { Args.bare with dst := 10, a := .num 3, b := .v 2, mod := 0x134 })) := by decide +kernel
theorem test_word_spl_x_lin : Reads .group [0x01414B0D, 0x00001002]
    (.instr (.splX { Args.bare with dst := 20, a := .num 5, b := .v 2, mod := 4 })) := by decide +kernel
theorem test_word_splres_clr : Reads .group [0x01406B11, 0x00204029]
    (.instr (.splres { Args.bare with dst := 6, a := .num 5, b := .k 9, mod := 0x10 })) := by decide +kernel
theorem test_word_st_sh_b64 : Reads .group [0x01800807, 0x04004000, 0x40]
    (.instr (.st { Args.bare with pred := 1, dst := 0, a := .v 6, b := .lit 64, mod := 0x10 })) := by decide +kernel
theorem test_word_lrun : Reads .group [0x0A002C01, 0x0030C02A]
    (.instr (.lrun { Args.bare with dst := 2, a := .k 8, b := .k 10, mod := 0x30 })) := by decide +kernel
theorem test_word_qpop : Reads .group [0x00828C0D, 3]
    (.instr (.qpop { Args.bare with dst := 40, a := .num 2, b := .num 3 })) := by decide +kernel
theorem test_word_svox_ins : Reads .lantern [0x01000C8D, 5]
    (.late .svoxIns { Args.bare with a := .num 4, b := .num 5, c := .num 0 }) := by decide +kernel
theorem test_word_svox_emit : Reads .lantern [0x01005C8D, 0x800]
    (.late .svoxEmit { Args.bare with dst := 5, a := .num 4, c := .num 2 }) := by decide +kernel
theorem test_word_sloop : Reads .lantern [0x00C00C9F, 0, 1]
    (.late .sloop { Args.bare with a := .num 3, b := .lit 1 }) := by decide +kernel
theorem test_word_bcp_mc : Reads .group [0x0A002D07, 0x00100000, 1]
    (.instr (.bcpMc { Args.bare with dst := 2, a := .k 8, b := .lit 1 })) := by decide +kernel
theorem test_word_wsig : Reads .group [0x0A003D0D, 0x0070B02A]
    (.instr (.wsig { Args.bare with dst := 3, a := .k 8, b := .k 10, c := .k 12 })) := by decide +kernel
theorem test_word_abinit : Reads .group [0x09804D13, 0x00100000, 0x2000]
    (.instr (.abinit { Args.bare with dst := 4, a := .k 6, b := .lit 0x2000 })) := by decide +kernel
theorem test_word_tokwait_try : Reads .group [0x00805D1D, 0x00004000]
    (.instr (.tokwait { Args.bare with dst := 5, a := .num 2, mod := 0x10 })) := by decide +kernel
theorem test_word_tokwait_wick : Reads .wick [0x0681BD1D, 0]
    (.instr (.tokwait { Args.bare with dst := 27, a := .num 26 })) := by decide +kernel
theorem test_word_abwait_wick : Reads .wick [0x06400D15, 0x18]
    (.instr (.abwait { Args.bare with a := .v 25, b := .v 24 })) := by decide +kernel
theorem test_word_pair : Reads .group [0x09C0003F, 0x00100000, 0x100]
    (.instr (.pair { Args.bare with a := .k 7, b := .lit 0x100 })) := by decide +kernel
theorem test_word_mwswap : Reads .group [0x00000A05, 0x08000000]
    (.instr (.mwswap { Args.bare with pred := 2 })) := by decide +kernel
theorem test_word_pjoin : Reads .group [0x09C00041, 0x00100000]
    (.instr (.pjoin { Args.bare with a := .k 7 })) := by decide +kernel
theorem test_word_mma_g : Reads .group [0x10008A0D, 0]
    (.instr (.mmaG { Args.bare with dst := 8, a := .v 64, b := .num 0 })) := by decide +kernel
theorem test_word_gdrain_v : Reads .group [0x9600AA19, 0x00409804]
    (.instr (.gdrain { Args.bare with dst := 10, a := .v 600, b := .num 4, c := .k 6 })) := by decide +kernel
theorem test_word_trap : Reads .group [0x00000E03, 0, 7]
    (.instr (.trap { Args.bare with b := .lit 7 })) := by decide +kernel
theorem test_word_eret_skip : Reads .group [0x00000E05, 0x00004000]
    (.instr (.eret { Args.bare with mod := 0x10 })) := by decide +kernel
theorem test_word_mfsr : Reads .group [0x00C03E0D, 0]
    (.instr (.mfsr { Args.bare with dst := 3, a := .num 3 })) := by decide +kernel
theorem test_word_mtsr : Reads .group [0x00001E11, 0x00200025]
    (.instr (.mtsr { Args.bare with dst := 1, b := .k 5 })) := by decide +kernel
theorem test_word_tinv_wick : Reads .wick [0x01000E39, 0x00010000]
    (.late .tinv { Args.bare with a := .v 4, mod := 0x40 }) := by decide +kernel
theorem test_word_atom_min_sp : Reads .group [0x02009905, 0x00068007]
    (.instr (.atomMin { Args.bare with dst := 9, a := .v 8, b := .v 7, mod := 0x1A0 })) := by decide +kernel
theorem test_word_sigwait_ge_mm : Reads .group [0x10410955, 0x003A802F]
    (.instr (.sigwait { Args.bare with dst := 16, a := .s 1, b := .k 15, mod := 0x2A0 })) := by decide +kernel
theorem test_word_rstat_grp : Reads .group [0x00038451, 0x80004000]
    (.instr (.rstat { Args.bare with dst := 56, dsel := true, a := .v 0, mod := 0x10 })) := by decide +kernel
theorem test_word_spush : Reads .group [0x00400819, 0]
    (.instr (.spush { Args.bare with a := .v 1 })) := by decide +kernel
theorem test_word_ld_acq : Reads .group [0x02809935, 0x00008000]
    (.instr (.ldAcq { Args.bare with dst := 9, a := .v 10, mod := 0x20 })) := by decide +kernel
theorem test_word_st_rel : Reads .group [0x03C0E939, 0x00008000]
    (.instr (.stRel { Args.bare with dst := 14, a := .v 15, mod := 0x20 })) := by decide +kernel
theorem test_word_br : Reads .group [0x0000000B, 0x0C000000, 0xFFFFFFFC]
    (.instr (.br { Args.bare with pred := 3, b := .lit 0xFFFFFFFC })) := by decide +kernel
theorem test_word_ffma : Reads .group [0x0080A40D, 0x0C609001]
    (.instr (.ffma { Args.bare with pred := 3, dst := 10, a := .v 2, b := .latch 1, c := .k 4 })) := by decide +kernel
theorem test_word_vli : Reads .group [0x0000744B, 0, 0x3FC00000]
    (.instr (.vli { Args.bare with dst := 7, b := .lit 0x3FC00000 })) := by decide +kernel
theorem test_word_sbr : Reads .wick [0x00C00153, 0, 0xFFFFFFFA]
    (.instr (.sbr { Args.bare with a := .v 3, b := .lit 0xFFFFFFFA })) := by decide +kernel
theorem test_word_fmul_c : Reads .group [0x00C05409, 0x04200406]
    (.instr (.fmul { Args.bare with pred := 1, dst := 5, a := .v 3, b := .zero, mod := 1 })) := by decide +kernel
theorem test_word_iadd_w : Reads .group [0x0300A201, 0x00204023]
    (.instr (.iadd { Args.bare with dst := 10, a := .v 12, b := .k 3, mod := 0x10 })) := by decide +kernel


/-! ### What is no instruction (R36) -/

theorem test_reject_short : decode .group true [1, 2, 3] = .error .short := by decide +kernel
theorem test_reject_copcode : Rejected .group true [0x00000000] .copcode := by decide +kernel
theorem test_reject_compact_source : Rejected .group true [0x00FF0020] .compactSource := by decide +kernel
theorem test_reject_compact_mode : Rejected .group true [0x40000020] .compactMode := by decide +kernel
theorem test_reject_pair_length : Rejected .group true [0x00080422, 0x00090589] .pairLength := by decide +kernel
theorem test_reject_unassigned : Rejected .group true [0x00000001, 0] .unassigned := by decide +kernel
theorem test_reject_kind : Rejected .group true [0x00000101, 0] .kind := by decide +kernel
theorem test_reject_supervisor : Rejected .wick false [0x01000E39, 0x00010000] .supervisor := by decide +kernel
theorem test_reject_operand : Rejected .group true [0x02000201, 0x00100000] .operand := by decide +kernel
theorem test_reject_mod : Rejected .group true [0x00000201, 0x00080000] .mod := by decide +kernel
theorem test_reject_dsel : Rejected .group true [0x00020805, 0x80000000] .dsel := by decide +kernel
theorem test_reject_nwb : Rejected .group true [0x00000805, 0x00800000] .nwb := by decide +kernel
theorem test_reject_keep : Rejected .group true [0x00000201, 0x02200023] .keep := by decide +kernel
theorem test_reject_literal : Rejected .group true [0x00000203, 1, 0] .literal := by decide +kernel
theorem test_reject_predicate : Rejected .wick true [0x00000101, 0x04000000] .predicate := by decide +kernel
theorem test_reject_entry : Rejected .group true [0x00001201, 0x00004000] .entry := by decide +kernel

/-- The check that a full instruction fails. -/
def failed (kd : Kind) (sup : Bool) (i : Instr) : Option Reject :=
  match encOf i with
  | .full op x => (findRow op x.mod x.dst).bind fun r => r.check kd sup x
  | _ => none

theorem test_wf_good : (Instr.iadd { Args.bare with dst := 3, a := .v 4, b := .lit 100 }).wf .group false = true := by decide +kernel
theorem test_wf_kind : failed .wick true (.iadd Args.bare) = some .kind := by decide +kernel
theorem test_wf_supervisor : failed .group false (.bufw { Args.bare with a := .k 0, b := .k 4 }) = some .supervisor := by decide +kernel
theorem test_wf_operand : failed .group true (.iadd { Args.bare with a := .v 1, b := .none }) = some .operand := by decide +kernel
theorem test_wf_mod : failed .group true (.iadd { Args.bare with a := .v 1, b := .v 2, mod := 0x200 }) = some .mod := by decide +kernel
theorem test_wf_dsel : failed .group true (.st { Args.bare with dsel := true, dst := 32, a := .v 1, b := .v 2 }) = some .dsel := by decide +kernel
theorem test_wf_dst : failed .group true (.iadd { Args.bare with dsel := true, dst := 31, a := .v 1, b := .v 2 }) = some .operand := by decide +kernel
theorem test_wf_nwb : failed .group true (.st { Args.bare with nwb := true, a := .v 1, b := .v 2 }) = some .nwb := by decide +kernel
theorem test_wf_keep : failed .group true (.iadd { Args.bare with keep := 3, a := .v 1, b := .v 2 }) = some .keep := by decide +kernel
theorem test_wf_predicate : failed .wick true (.sadd { Args.bare with pred := 1, a := .v 1, b := .v 2 }) = some .predicate := by decide +kernel
theorem test_wf_entry : failed .group true (.iadd { Args.bare with dst := 1, a := .v 2, b := .v 4, mod := 0x10 }) = some .entry := by decide +kernel
theorem test_wf_event : (Instr.swap 0 0).wf .group true = false := by decide +kernel
theorem test_wf_compact : (Instr.iaddC32 { Args.bare with dst := 4, a := .v 5, b := .v 6 }).wf .group true = false := by decide +kernel

/-! ### The encoder -/

theorem test_encode_iadd : encode (.iadd { Args.bare with dst := 10, a := .v 12, b := .k 3, mod := 0x10 }) = [0x0300A201, 0x00204023] := by
  decide +kernel
theorem test_encode_trap : encode (.trap { Args.bare with b := .lit 7 }) = [0x00000E03, 0, 7] := by decide +kernel
theorem test_encode_compact : encode (.cvtFiC32 { Args.bare with dst := 5, a := .v 9, mod := 4 }) = [0x400905C0] := by decide +kernel

/-! ### States for the statements about groups -/

/-- A device on which one group, of one team of context 0, stands at the first PC of its code. -/
noncomputable def base : State := State.reset.withFetchWord 32 0

/-- The group in a slot. -/
noncomputable def grpOf (s : State) (g : Nat) : Group := (Tbl.get? s.groups g).getD (newGroup 0 0 Header.bare)

/-- A team. -/
noncomputable def teamIn (s : State) (t : Nat) : Team := (Tbl.get? s.teams t).getD (newTeam 1 0 (probeGrid 0 []))

/-- Group 0 issues an F64 with some lanes, and its latches are valid. -/
noncomputable def issuing (lanes : Mask) : State :=
  let s : State := { base with cur := { base.cur with by_ := .group 0, lanes := lanes, pc := 32, len := 2 } }
  s.updGroup 0 fun q =>
    { q with quota := 4096, lastX := lanes, latches := q.latches.map fun l => { l with valid := true } }

/-- The same with every lane. -/
noncomputable def one : State := issuing (BitVec.allOnes 32)

/-- A group that issues, with something of it changed. -/
noncomputable def oneWith (f : Group → Group) : State := one.updGroup 0 f

/-- `mayAct` and `roomy` of group 0 for an instruction. -/
abbrev Acts (s : State) (x : Args) : Prop := mayAct s 0 (grpOf s 0) [x] = true ∧ roomy (grpOf s 0) 1024 = true

theorem wit_IntegerLanes : ∃ i x wide f s g grp, intLane i = some (x, wide, f) ∧ mayAct s g grp [x] = true ∧ roomy grp 64 = true :=
  ⟨.iadd { Args.bare with dst := 32, dsel := true, a := .latch 5, b := .lit 7 }, _, _, _, one, 0, grpOf one 0, rfl, by decide +kernel, by decide +kernel⟩

theorem wit_FloatLanes : ∃ i x wide f s g grp, floatLane i = some (x, wide, f) ∧ mayAct s g grp [x] = true ∧ roomy grp 64 = true :=
  ⟨.ffma { Args.bare with dst := 1023, a := .v 1023, b := .k 31, c := .zero }, _, _, _, one, 0, grpOf one 0, rfl, by decide +kernel, by decide +kernel⟩

theorem wit_ConvertedLanes : ∃ i x wide f s g grp, convertLane i = some (x, wide, f) ∧ mayAct s g grp [x] = true ∧ roomy grp 64 = true :=
  ⟨.cvtFiC32 { Args.bare with dst := 255, a := .v 247, mod := 4 }, _, _, _, one, 0, grpOf one 0, rfl, by decide +kernel, by decide +kernel⟩

theorem wit_MovedLanes : ∃ i s g grp x w wide val, moveLane s g grp i = some (x, w, wide, val) ∧ mayAct s g grp [x] = true ∧ roomy grp 64 = true ∧
    ∀ y, i = .pack4 y → grp.subs.length ≤ 1 :=
  ⟨.pack4 { Args.bare with dst := 3, a := .v 4, b := .k 2 }, one, 0, grpOf one 0, _, _, _, _, rfl, by decide +kernel, by decide +kernel,
    fun _ _ => by decide +kernel⟩

theorem wit_Scans : ∃ s g grp x, mayAct s g grp [x] = true ∧ roomy grp 64 = true :=
  ⟨one, 0, grpOf one 0, { Args.bare with dst := 3, a := .v 4, mod := 0x100 }, by decide +kernel, by decide +kernel⟩

theorem wit_PredicateWrites : ∃ i s g grp x bit, predBit s g i = some (x, bit) ∧ mayAct s g grp [x] = true ∧ roomy grp 64 = true :=
  ⟨.icmp { Args.bare with dst := 0, a := .v 1, b := .v 2 }, one, 0, grpOf one 0, _, _, rfl, by decide +kernel, by decide +kernel⟩

theorem wit_CountsToK : ∃ i s g grp x v, countWord s g grp i = some (x, v) ∧ mayAct s g grp [x] = true ∧ roomy grp 64 = true :=
  ⟨.pfirst { Args.bare with dst := 31, a := .num 15 }, one, 0, grpOf one 0, _, _, rfl, by decide +kernel, by decide +kernel⟩

theorem wit_Nops : ∃ s g grp x, mayAct s g grp [x] = true := ⟨one, 0, grpOf one 0, Args.bare, by decide +kernel⟩

theorem wit_ControlTransfers : ∃ i s g grp x dest, branchTo s g i = some (x, dest) ∧ mayAct s g grp [x] = true ∧ roomy grp 64 = true ∧
    ∀ l, l < 32 → (actives s grp x).getLsbD l = true → (dest l).toNat % 4 = 0 :=
  ⟨.call { Args.bare with dst := 4, b := .lit 0xFFFFFFFC }, one, 0, grpOf one 0, _, _, rfl, by decide +kernel⟩

theorem wit_StrictLoops : ∃ s g grp x, mayAct s g grp [x] = true :=
  ⟨issuing 1, 0, grpOf (issuing 1) 0, { Args.bare with b := .lit 0xFFFFFFFF }, by decide +kernel⟩

theorem wit_FirstJoin_all : ∃ s g grp x, mayAct s g grp [x] = true ∧ plainGroup grp = true ∧ actives s grp x = grp.live ∧
    actives s grp x ≠ 0 ∧ actives s grp x &&& ~~~grp.live = 0 :=
  ⟨one, 0, grpOf one 0, { Args.bare with a := .k 0, b := .lit 4 }, by decide +kernel⟩

theorem wit_FirstJoin_some : ∃ s g grp x, mayAct s g grp [x] = true ∧ plainGroup grp = true ∧ actives s grp x ≠ grp.live ∧
    actives s grp x ≠ 0 ∧ actives s grp x &&& ~~~grp.live = 0 :=
  ⟨issuing 1, 0, grpOf (issuing 1) 0, { Args.bare with a := .k 0, b := .lit 4 }, by decide +kernel⟩

theorem wit_Exits : ∃ s g grp x, mayAct s g grp [x] = true ∧ plainGroup grp = true ∧ grp.live &&& ~~~actives s grp x = 0 :=
  ⟨one, 0, grpOf one 0, Args.bare, by decide +kernel⟩

theorem wit_Yields : ∃ s g grp x, mayAct s g grp [x] = true ∧ plainGroup grp = true ∧ grp.live ≠ 0 :=
  ⟨one, 0, grpOf one 0, Args.bare, by decide +kernel⟩

theorem wit_Sleeps : ∃ s g grp x, mayAct s g grp [x] = true ∧ (uni64 s g true x.b).toNat = 2 ^ 20 :=
  ⟨one, 0, grpOf one 0, { Args.bare with b := .lit 0x100000 }, by decide +kernel⟩

theorem wit_Fuses : ∃ s g grp x, mayAct s g grp [x] = true ∧ grp.live ≠ 0 ∧ grp.subs.foldl (fun a c => a ||| c.lanes) 0 = BitVec.allOnes 32 :=
  ⟨one, 0, grpOf one 0, Args.bare, by decide +kernel⟩

theorem wit_QueuePops_entry : ∃ s g grp tm x, mayAct s g grp [x] = true ∧ Tbl.get? s.teams grp.team = some tm ∧ actives s grp x ≠ 0 ∧
    tm.dq[grp.dqPtr - tm.dqBase]? = some 5 :=
  let s := one.updTeam 0 fun tm => { tm with dq := [5] }
  ⟨s, 0, grpOf s 0, teamIn s 0, { Args.bare with dst := 31 }, by decide +kernel⟩

theorem wit_QueuePops_end : ∃ s g grp tm x, mayAct s g grp [x] = true ∧ Tbl.get? s.teams grp.team = some tm ∧ actives s grp x ≠ 0 ∧
    tm.dq[grp.dqPtr - tm.dqBase]? = none ∧ tm.dqClosed = true :=
  let s := one.updTeam 0 fun tm => { tm with dqClosed := true }
  ⟨s, 0, grpOf s 0, teamIn s 0, { Args.bare with dst := 31 }, by decide +kernel⟩

theorem wit_SortedThreads : ∃ s g grp x r, mayAct s g grp [x] = true ∧ roomy grp 1024 = true ∧ wholeIssue s grp x = true ∧
    grp.live = BitVec.allOnes 32 ∧ aloneInTeam s g grp = true ∧ grp.wait = none ∧ x.a = .v r ∧ (uni64 s g true x.b).toNat ≠ 0 ∧
    (uni64 s g true x.b).toNat ≤ 32 :=
  ⟨one, 0, grpOf one 0, { Args.bare with a := .v 1023, b := .lit 32 }, 1023, by decide +kernel⟩

/-- Two sibling groups of a team, the second of which waits in a `pair` of the group indices c and u. -/
noncomputable def siblingsOf (c u : Nat) : State :=
  let s := oneWith fun q => { q with idx := c }
  let s := s.updGrid 1 fun g => { g with header := { g.header with groups := 32 } }
  let w : Wait := { kind := .pair (c + 256 * u), pc := 32, next := 40, start := 0, bound := 0 }
  { s with groups := Tbl.set s.groups 16 { grpOf s 0 with idx := u, wait := some w } }

theorem wit_PairBinding_alone : ∃ s g grp x, mayAct s g grp [x] = true ∧ wholeIssue s grp x = true ∧ grp.wait = none ∧ grp.pair = none :=
  ⟨one, 0, grpOf one 0, { Args.bare with a := .k 7 }, by decide +kernel⟩

/-- What the binding clause asks. -/
abbrev Binds (s : State) (g : Nat) (grp : Group) (p : Nat) (q : Group) (x : Args) (c u : Nat) (w : Wait) (kt : W32) : Prop :=
  mayAct s g grp [x] = true ∧ wholeIssue s grp x = true ∧ grp.wait = none ∧
    uni64 s g true x.b = BitVec.ofNat 64 (c + 256 * u) ∧ c < 32 ∧ u < 32 ∧ c ≠ u ∧
    siblings c u = true ∧ c < ((s.headerOf grp.team).map (·.groups)).getD 0 ∧ u < ((s.headerOf grp.team).map (·.groups)).getD 0 ∧
    grp.idx = c ∧ s.groupAt grp.team u = some p ∧ p ≠ g ∧ Tbl.get? s.groups p = some q ∧ q.idx = u ∧ grp.pair = none ∧ q.pair = none ∧
    q.wait = some w ∧ w.kind = .pair (c + 256 * u) ∧ s.now ≤ w.start + w.bound ∧ uniVal s g x.a = kt ∧
    grp.trap = none ∧ q.trap = none ∧ s.nextPc = w.next ∧
    (∀ l, l < 32 → q.live.getLsbD l = true → (q.lane l).st = .run ∧ (q.lane l).tag = 0) ∧ q.live ≠ 0 ∧ q.subs.length = 1 ∧
    (∀ l, l < 32 → grp.live.getLsbD l = true → (grp.lane l).st = .run ∧ (grp.lane l).tag = 0)

theorem wit_PairBinding_bound : ∃ s g grp p q x c u w kt, Binds s g grp p q x c u w kt :=
  let s := siblingsOf 30 31
  ⟨s, 0, grpOf s 0, 16, grpOf s 16, { Args.bare with a := .k 7, b := .lit 0x1F1E }, 30, 31,
    { kind := .pair (30 + 256 * 31), pc := 32, next := 40, start := 0, bound := 0 }, 0, by decide +kernel⟩

theorem wit_StatusReads : ∃ s g grp x, mayAct s g grp [x] = true ∧ actives s grp x ≠ 0 ∧ modBits x 4 1 = 0 ∧ modBits x 5 1 = 1 :=
  ⟨issuing 0x80000000, 0, grpOf (issuing 0x80000000) 0, { Args.bare with dst := 31, mod := 0x20 }, by decide +kernel⟩

/-! ### States for the Wick and for memory -/

/-- The Wick context 0 of a device on which nothing else issues. -/
noncomputable def wickOn (s : State) : State := { s with cur := { s.cur with by_ := .wick 0, pc := 32, len := 2 } }

/-- The Wick context 0 issues. -/
noncomputable def wicked : State := wickOn base

/-- A grid. -/
noncomputable def gridIn (s : State) (n : Nat) : Grid := (Tbl.get? s.grids n).getD (probeGrid 0 [])

/-- What an access at a port gives, where it is performed. -/
def okWith {α : Type} (r : PRes α) (p : α → State → Bool) : Bool :=
  match r with
  | .ok a s => p a s
  | _ => false

theorem okWith_elim {α : Type} {r : PRes α} {p : α → State → Bool} (h : okWith r p = true) : ∃ a s, r = .ok a s ∧ p a s = true := by
  cases r with
  | ok a s => exact ⟨a, s, rfl, h⟩
  | wait s => exact absurd h (by simp [okWith])
  | fail f s => exact absurd h (by simp [okWith])

/-- An entry of a buffer table, in clear: owner, length, rights, HOME and the base or page-map pointer. -/
def bufOf (owner len rights home place : Nat) : BitVec 256 :=
  BitVec.ofNat 256 (len + owner * 2 ^ 48 + 2 ^ 55 + (rights + home * 2 ^ 6) * 2 ^ 64 + place * 2 ^ 128)

/-- A context that owns buffer 1, of 1 MiB of host memory. -/
noncomputable def withBuf (s : State) (ctx : Nat) : State := s.updCtx ctx fun c => { c with bufs := Tbl.set c.bufs 1 (bufOf ctx 0x100000 7 2 0) }

theorem wit_WickScalars : ∃ i s t tm g x v, scalarOf s t tm g i = some (x, v) ∧ wickActs s t tm = true ∧ Tbl.get? s.grids tm.grid = some g :=
  ⟨.sdiv { Args.bare with dst := 63, a := .v 1, b := .v 2 }, wicked, 0, teamIn wicked 0, gridIn wicked 1, _, _, rfl, by decide +kernel, by decide +kernel⟩

theorem wit_WickTargets : ∃ i s t tm d target, wickBranch s t i = some (d, target) ∧ wickActs s t tm = true ∧ target.toNat % 4 = 0 ∧ s.nextPc < 2 ^ 32 :=
  ⟨.scall { Args.bare with dst := 63, b := .lit 0xFFFFFFF8 }, wicked, 0, teamIn wicked 0, _, _, rfl, by decide +kernel⟩

theorem wit_WickMemory_load : ∃ s t tm x, wickActs s t tm = true ∧
    wickMem s t (modBits x 4 1) (wickBytes x) (wickBytes x) false (wickVal s t false x.a + wickVal s t (uBit x) x.b) = true :=
  ⟨wicked, 0, teamIn wicked 0, { Args.bare with dst := 1, a := .v 0, b := .lit 0x03FFFFF8, mod := 0x10 }, by decide +kernel⟩

theorem wit_WickMemory_store : ∃ s t tm x, wickActs s t tm = true ∧
    wickMem s t (modBits x 4 1) (wickBytes x) (wickBytes x) true (wickVal s t false x.a + wickVal s t false x.b) = true :=
  ⟨wicked, 0, teamIn wicked 0, { Args.bare with dst := 1, a := .v 0, b := .lit 0x03FFFFFF, mod := 0x70 }, by decide +kernel⟩

theorem wit_QueuePushes : ∃ s t tm, wickActs s t tm = true ∧ tm.dq.length < 32 ∧
    (∀ p, p ∈ s.groupsOf t → p.2.live ≠ 0 → tm.dqBase ≤ p.2.dqPtr) ∧ (∃ p, p ∈ s.groupsOf t ∧ p.2.live ≠ 0 ∧ p.2.dqPtr = tm.dqBase) :=
  let s := wicked.updTeam 0 fun tm => { tm with dq := List.replicate 31 7 }
  ⟨s, 0, teamIn s 0, by decide +kernel, by decide +kernel, by decide +kernel, (0, grpOf s 0), by decide +kernel⟩

theorem wit_Barrier_goes : ∃ s t tm, wickActs s t tm = true ∧ ∀ p, p ∈ s.groupsOf t → waitsInDqpop s tm p.2 = true ∧ s.asksPath p.1 = false :=
  let s := wickOn (State.reset.withFetchWord 64 0x35)
  ⟨s, 0, teamIn s 0, by decide +kernel, by decide +kernel⟩

theorem wit_Barrier_waits : ∃ s t tm, wickActs s t tm = true ∧ ∃ p, p ∈ s.groupsOf t ∧ (waitsInDqpop s tm p.2 = false ∨ s.asksPath p.1 = true) :=
  ⟨wicked, 0, teamIn wicked 0, by decide +kernel, (0, grpOf wicked 0), by decide +kernel, by decide +kernel⟩

/-- The Wick of a team, with a launch record of one team in the scratchpad and its kernel's header in host memory. -/
noncomputable def launching : State :=
  let s := wicked.updCtx 0 fun c => { c with bufs := Tbl.set c.bufs 1 (bufOf 0 64 7 2 0) }
  let m := Memory.writeLE s.mem ((Space.scratch 0).key 0) 16 (2 ^ 48 + (1 + 2 ^ 32 + 2 ^ 48) * 2 ^ 64)
  { s with mem := Memory.writeLE m (Space.host.key 0) 16 (32 + 32 * 2 ^ 32 + 2 ^ 64) }

/-- What the record of `launching` says. -/
noncomputable def launchRecord : LaunchRec := readRecord (Memory.readN launching.mem ((areaOf launching (.wick 0)).key 1 0) 192) 0

theorem wit_ChildLaunches : ∃ s t tm parent x hs h s' code v, wickActs s t tm = true ∧ Tbl.get? s.grids tm.grid = some parent ∧ parent.depth < 10 ∧
    tm.children.length < 256 ∧
    let addr := wickVal s t false x.a
    let bs := Memory.readN s.mem ((areaOf s (.wick t)).key (modBits x 4 1) (lo32 addr).toNat) 192
    let r := readRecord bs 0
    wickMem s t (modBits x 4 1) 192 64 false addr = true ∧ recordOk bs r = true ∧ r.serial = false ∧
      portRead (1, t) 0 parent.ctx r.kernel 32 .read true s = .ok hs s' ∧ headerFor r hs = some h ∧ neverFits s' parent.ctx h r.total = false ∧
      captureCode s' (1, t) parent.ctx r.kernel = .ok code v ∧ v.teams = s.teams ∧ v.grids = s.grids ∧ s.grids.length < 2 ^ 25 - 1 := by
  obtain ⟨hs, s', h1, h2⟩ := okWith_elim (r := portRead (1, 0) 0 0 launchRecord.kernel 32 .read true launching)
    (p := fun hs s' => ((headerFor launchRecord hs).map fun h => neverFits s' 0 h launchRecord.total) == some false &&
      okWith (captureCode s' (1, 0) 0 launchRecord.kernel) fun _ v => v.teams == launching.teams && v.grids == launching.grids) (by decide +kernel)
  simp only [Bool.and_eq_true, beq_iff_eq, Option.map_eq_some_iff] at h2
  obtain ⟨⟨h, h3, h4⟩, h5⟩ := h2
  obtain ⟨code, v, h6, h7⟩ := okWith_elim h5
  simp only [Bool.and_eq_true, beq_iff_eq] at h7
  have ⟨a1, a2, a3, a4, a5, a6, a7, a8⟩ : wickActs launching 0 (teamIn launching 0) = true ∧
      Tbl.get? launching.grids (teamIn launching 0).grid = some (gridIn launching 1) ∧ (gridIn launching 1).depth < 10 ∧
      (teamIn launching 0).children.length < 256 ∧ wickMem launching 0 1 192 64 false (wickVal launching 0 false (.v 0)) = true ∧
      recordOk (Memory.readN launching.mem ((areaOf launching (.wick 0)).key 1 0) 192) launchRecord = true ∧ launchRecord.serial = false ∧ launching.grids.length < 2 ^ 25 - 1 := by
    decide +kernel
  exact ⟨launching, 0, teamIn launching 0, gridIn launching 1, { Args.bare with a := .v 0, mod := 0x10 }, hs, h, s', code, v, a1, a2, a3, a4, a5, a6,
    a7, h1, h3, h4, h6, h7.1, h7.2, a8⟩

/-- The Wick of a team with a child 2, in a state. -/
noncomputable def parentOf (st : GridSt) : State :=
  let s := wicked.updTeam 0 fun tm => { tm with children := [2], sregs := [(1, 2)] }
  { s with grids := Tbl.set s.grids 2 { gridIn s 1 with st := st, parent := some (0, 1) } }

theorem wit_ChildWaits_retired : ∃ s t tm, ∃ x : Args, ∃ g, wickActs s t tm = true ∧ wickVal s t false x.a ≠ 0 ∧
    tm.children.filter (· == (wickVal s t false x.a).toNat) = [(wickVal s t false x.a).toNat] ∧
    Tbl.get? s.grids (wickVal s t false x.a).toNat = some g ∧ g.st = .retired :=
  ⟨parentOf .retired, 0, teamIn (parentOf .retired) 0, { Args.bare with a := .v 1 }, gridIn (parentOf .retired) 2, by decide +kernel⟩

theorem wit_ChildWaits_none : ∃ s t tm, ∃ x : Args, wickActs s t tm = true ∧ wickVal s t false x.a ≠ 0 ∧ (wickVal s t false x.a).toNat ∉ tm.children :=
  ⟨wicked, 0, teamIn wicked 0, { Args.bare with a := .lit 1 }, by decide +kernel⟩

theorem wit_ChildWaits_runs : ∃ s t tm, ∃ x : Args, ∃ g, wickActs s t tm = true ∧ wickVal s t false x.a ≠ 0 ∧ (wickVal s t false x.a).toNat ∈ tm.children ∧
    Tbl.get? s.grids (wickVal s t false x.a).toNat = some g ∧ g.st ≠ .retired ∧ modBits x 4 1 = 1 :=
  ⟨parentOf .running, 0, teamIn (parentOf .running) 0, { Args.bare with a := .v 1, mod := 0x10 }, gridIn (parentOf .running) 2, by decide +kernel⟩

theorem wit_LaneLoads : ∃ i s g grp x n uns, loadOf i = some (x, n, uns) ∧ mayAct s g grp [x] = true ∧ roomy grp 64 = true ∧
    chipOk s (groupArea s g grp x) (spaceBits x) n false ((lanesOf (actives s grp x)).map (laneAddr s g x)) = true :=
  ⟨.ld { Args.bare with dst := 4, a := .v 0, b := .lit 0x03FFFFFC, mod := 0x100 }, one, 0, grpOf one 0, _, _, _, rfl, by decide +kernel⟩

theorem wit_WordLoads_one : ∃ s g grp x, mayAct s g grp [x] = true ∧ roomy grp 512 = true ∧ actives s grp x ≠ 0 ∧
    chipOk s (groupArea s g grp x) (spaceBits x) (accessBytes x) false [laneAddr s g x ((lowest (actives s grp x)).getD 0)] = true :=
  ⟨one, 0, grpOf one 0, { Args.bare with dst := 31, a := .v 0, b := .lit 0x03FFFFF8, mod := 0x110 }, by decide +kernel⟩

theorem wit_WordLoads_many : ∃ s g grp x, mayAct s g grp [x] = true ∧ roomy grp 512 = true ∧ actives s grp x ≠ 0 ∧
    chipOk s (groupArea s g grp x) (spaceBits x) 4 false
      ((lanesOf (actives s grp x)).flatMap fun l => (List.range (wideCount x)).map fun i => (laneAddr s g x l + 4 * i) % 2 ^ 32) = true :=
  ⟨one, 0, grpOf one 0, { Args.bare with dst := 1008, a := .v 0, b := .lit 0x03FFFFC0, mod := 0x1F0 }, by decide +kernel⟩

theorem wit_LaneStores_lanes : ∃ s g grp x i n, mayAct s g grp [x] = true ∧ roomy grp 0 = true ∧ storeOf i = some (x, n) ∧
    (i = .stRel x → actives s grp x ≠ 0 → (Who.group (issueMem s g grp x)).owesPath s = false) ∧
    chipOk s (groupArea s g grp x) (spaceBits x) n true ((lanesOf (actives s grp x)).map (laneAddr s g x)) = true :=
  ⟨one, 0, grpOf one 0, _, .stRel { Args.bare with dst := 4, a := .v 0, b := .lit 0x03FFFFFC, mod := 0x100 }, _, by decide +kernel, by decide +kernel, rfl,
    fun _ _ => by decide +kernel, by decide +kernel⟩

theorem wit_LaneStores_words : ∃ s g grp x, mayAct s g grp [x] = true ∧ roomy grp 0 = true ∧
    chipOk s (groupArea s g grp x) (spaceBits x) 4 true
      ((lanesOf (actives s grp x)).flatMap fun l => (List.range (wideCount x)).map fun i => (laneAddr s g x l + 4 * i) % 2 ^ 32) = true :=
  ⟨one, 0, grpOf one 0, { Args.bare with dst := 0, a := .v 0, b := .lit 0x03FFFFFC, mod := 0x100 }, by decide +kernel⟩

theorem wit_LaneStores_k : ∃ s g grp x, mayAct s g grp [x] = true ∧ roomy grp 0 = true ∧
    chipOk s (groupArea s g grp x) (spaceBits x) (accessBytes x) true ((lowest (actives s grp x)).toList.map (laneAddr s g x)) = true :=
  ⟨one, 0, grpOf one 0, { Args.bare with dst := 31, a := .v 0, b := .lit 0x03FFFFF8, mod := 0x110 }, by decide +kernel⟩

theorem wit_ChipAtomics : ∃ i s g grp x f, atomicOf i = some (x, f) ∧ mayAct s g grp [x] = true ∧ roomy grp 64 = true ∧ spaceBits x < 2 ∧
    (2 ≤ modBits x 2 2 → (Who.group (issueMem s g grp x)).owesPath s = false) ∧
    chipOk s (groupArea s g grp x) (spaceBits x) (atomBytes x) true ((lanesOf (actives s grp x)).map fun l => (srcLane s g x.a l).toNat) = true :=
  ⟨.atomcas { Args.bare with dst := 4, a := .k 1, b := .v 5, mod := 0x100 }, one, 0, grpOf one 0, _, _, rfl, by decide +kernel⟩

/-- A group with one active lane, whose context owns buffer 1, in k1 a pointer into it. -/
noncomputable def atBuffer : State := withBuf ((issuing 0x80000000).updGroup 0 fun q => { q with ks := [(1, BitVec.ofNat 64 (2 ^ 48 + 0xFFFFC))] }) 0

/-- The atomic of the witness below. -/
def casArgs : Args := { Args.bare with dst := 4, a := .k 1, b := .v 5, mod := 0x208 }

theorem wit_PortAtomics : ∃ i code s g grp x l old s', (i, code) ∈ [(Instr.atomAdd x, 0), (.atomMin x, 1), (.atomMax x, 2), (.atomAnd x, 3),
      (.atomOr x, 4), (.atomXor x, 5), (.atomExch x, 6), (.atomcas x, 7), (.atomFAdd x, 8), (.atomFMin x, 9), (.atomFMax x, 10), (.amaxF32 x, 11)] ∧
    mayAct s g grp [x] = true ∧ roomy grp 64 = true ∧ spaceBits x = 2 ∧ l < 32 ∧ actives s grp x = 1#32 <<< l ∧
    (2 ≤ modBits x 2 2 → (Who.group (issueMem s g grp x)).owesPath s = false) ∧
    let n := atomBytes x
    let ctx := s.ctxOfTeam grp.team
    let ptr := (srcLane64 s g x.a l).toNat
    ptr % n = 0 ∧ lockHitMM s (coreOfGroup g) ctx ptr n = none ∧
      portAtomic (0, g) l ctx ptr n code (uBit x) (atomVals s g x l).1 (if code = 7 then (atomVals s g x l).2 else 0) true (begun s g [x]) = .ok old s' ∧
      s'.groups = (begun s g [x]).groups ∧ s'.teams = s.teams ∧
      ∀ c, s'.core c = { s.core c with tcache := (s'.core c).tcache } := by
  let x := casArgs
  let s := atBuffer
  obtain ⟨old, s', h1, h2⟩ := okWith_elim (r := portAtomic (0, 0) 31 (s.ctxOfTeam (grpOf s 0).team) (srcLane64 s 0 x.a 31).toNat (atomBytes x) 7 (uBit x)
      (atomVals s 0 x 31).1 (atomVals s 0 x 31).2 true (begun s 0 [x]))
    (p := fun _ s' => s'.groups == (begun s 0 [x]).groups && s'.teams == s.teams && s'.cores == s.cores) (by decide +kernel)
  simp only [Bool.and_eq_true, beq_iff_eq] at h2
  exact ⟨.atomcas x, 7, s, 0, grpOf s 0, x, 31, old, s', by simp, by decide +kernel, by decide +kernel, by decide +kernel, by decide, by decide +kernel,
    by decide +kernel, by decide +kernel, by decide +kernel, h1, h2.1.1, h2.1.2, fun c => by simp only [State.core, h2.2]⟩

/-- A group with a spill stack of two pages, both resident, and v1023 of 32 runs, spilled or not. -/
noncomputable def spilling (spilled : Bool) : State :=
  let s := oneWith fun q => { q with
    regs := [(1023, { runs := if spilled then Runs.zero else (List.range 32).map fun i => { val := BitVec.ofNat 32 i, cnt := 1, splice := false }
                      spilled := if spilled then some { off := 0, n := 32, spl := 0 } else none, stamp := 0, pend := none })] }
  (s.updGrid 1 fun g => { g with header := { g.header with spill := 8192 } }).updCore 0 fun k => { k with spillPages := [(0, 0), (0, 1)] }

theorem wit_SpillMoves_push : ∃ s g grp x r, mayAct s g grp [x] = true ∧ x.a = .v r ∧ actives s grp x ≠ 0 ∧
    (grp.regs.all fun p => Runs.wf p.2.runs) = true ∧ (∀ p, p ∈ grp.regs → p.2.spilled = none) ∧ 2 ≤ (grp.reg r.toNat).runs.length ∧
    imageSize (grp.reg r.toNat).runs.length ≤ spillBase s g ∧
    pagesResident s g (spillBase s g) (imageSize (grp.reg r.toNat).runs.length) = true :=
  ⟨spilling false, 0, grpOf (spilling false) 0, { Args.bare with a := .v 1023 }, 1023, by decide +kernel⟩

theorem wit_SpillMoves_pop : ∃ s g grp x r h, mayAct s g grp [x] = true ∧ x.a = .v r ∧ actives s grp x ≠ 0 ∧
    (grp.regs.all fun p => Runs.wf p.2.runs) = true ∧ (∀ p, p ∈ grp.regs → p.1 ≠ r.toNat → p.2.spilled = none) ∧
    (grp.reg r.toNat).spilled = some h ∧ pagesResident s g (spillBase s g + h.off) (imageSize h.n) = true ∧ grp.inUse + h.n ≤ grp.quota :=
  ⟨spilling true, 0, grpOf (spilling true) 0, { Args.bare with a := .v 1023 }, 1023, { off := 0, n := 32, spl := 0 }, by decide +kernel⟩

/-- The group of a state as the party that issues an instruction. -/
noncomputable def member (s : State) (x : Args) : Who := .group (issueMem s 0 (grpOf s 0) x)

theorem wit_ChipSignals_amaxr : ∃ s w x, partyActs s w x = true ∧ spaceBits x < 2 ∧
    chipOk s (areaOf s w) (spaceBits x) 4 true [(chipWord s w (spaceBits x) x.a).1] = true ∧ (∀ t, w ≠ .wick t) ∧
    (2 ≤ modBits x 2 2 → w.owesPath s = false) :=
  ⟨one, member one { Args.bare with dst := 4, a := .lit 0x03FFFFFC, mod := 0x108 }, { Args.bare with dst := 4, a := .lit 0x03FFFFFC, mod := 0x108 },
    by decide +kernel, by decide +kernel, by decide +kernel, fun _ => Who.noConfusion, by decide +kernel⟩

theorem wit_ChipSignals_waits : ∃ s w x, partyActs s w x = true ∧ spaceBits x < 2 ∧
    chipOk s (areaOf s w) (spaceBits x) 8 false [(chipWord s w (spaceBits x) x.a).1] = true ∧
    chipOk s (areaOf s w) (spaceBits x) 8 true [(chipWord s w (spaceBits x) x.a).1] = true ∧ w.owesPath s = false ∧
    (intCond (modBits x 5 3) true (BitVec.ofNat 64 (Memory.readLE s.mem (chipWord s w (spaceBits x) x.a).2 8)) (onceVal s w x.b) = true ∨ modBits x 4 1 = 1) :=
  ⟨wicked, .wick 0, { Args.bare with dst := 63, a := .lit 0x03FFFFF8, b := .zero, mod := 0x100 }, by decide +kernel⟩

/-- Operands of `bind` of index 15: 64 bytes of the scratchpad at 128, guarded by the object at 8. -/
def bindArgs : Args := { Args.bare with dst := BitVec.ofNat 10 (15 + 16 + 64), a := .lit 128, b := .lit 64, c := .lit 8 }

theorem wit_RegionsAndFences_bind : ∃ s w x, partyActs s w x = true ∧
    let d := x.dst.toNat
    let place (space : Nat) (src : Src) : Nat := if space = 2 then (partyVal s w false src).toNat else (lo32 (partyVal s w false src)).toNat
    let r : Region := { space := d / 16 % 4, base := place (d / 16 % 4) x.a, len := (onceVal s w x.b).toNat % 2 ^ 48
                        ospace := d / 64 % 4, obj := place (d / 64 % 4) x.c }
    r.base % 64 = 0 ∧ r.len % 64 = 0 ∧ r.obj % 8 = 0 ∧ r.len ≠ 0 ∧ (r.space = 2 ∨ (areaOf s w).ok r.space r.base r.len = true) ∧
      (r.ospace = 2 ∨ (areaOf s w).ok r.ospace r.obj 8 = true) ∧ (Tbl.get? s.teams (w.team s)).isSome = true :=
  ⟨wicked, .wick 0, bindArgs, by decide +kernel⟩

theorem wit_RegionsAndFences_object : ∃ s w x q, partyActs s w x = true ∧ Tbl.get? (regionsOf s w) (x.dst.toNat % 16) = some q ∧ q.ospace < 2 ∧
    chipOk s (areaOf s w) q.ospace 8 false [q.obj] = true ∧ chipOk s (areaOf s w) q.ospace 8 true [q.obj] = true ∧ w.owesPath s = false ∧
    (onceVal s w x.b).toNat ≤ Memory.readLE s.mem ((areaOf s w).key q.ospace q.obj) 8 :=
  let s := wicked.updTeam 0 fun tm => { tm with regions := [(15, { space := 1, base := 128, len := 64, ospace := 1, obj := 8 })] }
  ⟨s, .wick 0, { Args.bare with dst := 15, b := .zero }, _, by decide +kernel, rfl, by decide +kernel⟩

theorem wit_LandingEvents : ∀ demand, ∃ s : State, ∃ g grp id p, Tbl.get? s.groups g = some grp ∧ Tbl.get? grp.pending id = some p ∧ p.demand = demand ∧
    matrixOwes s g id = false ∧ pathOwes s g id = false ∧ (s.core (coreOfGroup g)).path = [] := by
  intro demand
  let s := oneWith fun q => { q with
    pending := [(5, { regs := [4], lanes := 1, merge := false, wide := false, kreg := none, demand := demand, long := true })] }
  exact ⟨s, 0, grpOf s 0, 5, _, rfl, rfl, rfl, by cases demand <;> decide +kernel⟩

theorem wit_LandingEvents_page : ∃ s : State, ∃ g grp page, Tbl.get? s.groups g = some grp ∧
    (g, page) ∈ (s.core (coreOfGroup g)).spillWait ∧ (g, page) ∉ (s.core (coreOfGroup g)).spillPages ∧
    ∃ p, p ∈ (s.core (coreOfGroup g)).spillPages.drop 127 :=
  let s := (spilling false).updCore 0 fun k =>
    { k with spillPages := (List.range 128).map fun n => (0, n), spillWait := [(0, 200)] }
  ⟨s, 0, grpOf s 0, 200, by decide +kernel, by decide +kernel, by decide +kernel, (0, 127), by decide +kernel⟩

theorem wit_LandingEvents_unasked : ∃ s : State, ∃ g grp page, Tbl.get? s.groups g = some grp ∧
    ((g, page) ∉ (s.core (coreOfGroup g)).spillWait ∨ (g, page) ∈ (s.core (coreOfGroup g)).spillPages) :=
  ⟨spilling false, 0, grpOf (spilling false) 0, 1, by decide +kernel, by decide +kernel⟩

/-! ### States for the matrix array, handles and special registers -/

/-- Group 0 of a team that holds matrix context 1 of its core, with something of the context changed. -/
noncomputable def matrix (f : MatCtx → MatCtx) : State :=
  (one.updTeam 0 fun tm => { tm with mctx := some 1 }).updCore 0 fun k => { k with mats := [.fresh, f { MatCtx.fresh with owner := some 0 }] }

/-- Plain operands of block 0. -/
def plainArgs : Args := { Args.bare with dst := 0, a := .num 0, b := .num 2, c := .num 3 }

theorem wit_MatrixContexts_held : ∃ s w x tm i, partyActs s w x = true ∧ Tbl.get? s.teams (w.team s) = some tm ∧ tm.mctx = some i :=
  ⟨matrix id, member (matrix id) plainArgs, plainArgs, teamIn (matrix id) 0, 1, by decide +kernel⟩

theorem wit_MatrixContexts_free : ∃ s w x tm i, partyActs s w x = true ∧ Tbl.get? s.teams (w.team s) = some tm ∧ tm.mctx = none ∧
    (s.core w.core).mctxWait = [] ∧ i < 2 ∧ i < (s.core w.core).mats.length ∧ ((s.core w.core).mat i).owner = none ∧
    ((s.core w.core).mat i).clearing = false ∧ (i = 1 → ((s.core w.core).mat 0).owner ≠ none ∨ ((s.core w.core).mat 0).clearing = true) :=
  let s := one.updCore 0 fun k => { k with mats := [{ MatCtx.fresh with owner := some 3 }, .fresh] }
  ⟨s, member s plainArgs, plainArgs, teamIn s 0, 1, by decide +kernel⟩

theorem wit_MatrixContexts_none : ∃ s w x tm, partyActs s w x = true ∧ Tbl.get? s.teams (w.team s) = some tm ∧ tm.mctx = none ∧
    ∀ i, i < 2 → ((s.core w.core).mat i).owner ≠ none :=
  let s := one.updCore 0 fun k => { k with mats := [{ MatCtx.fresh with owner := some 3 }, { MatCtx.fresh with owner := some 4 }] }
  ⟨s, member s plainArgs, plainArgs, teamIn s 0, by decide +kernel⟩

theorem wit_MatrixContexts_release : ∃ s w x i mc, partyActs s w x = true ∧ holds s w i mc = true ∧ mc.queue = [] ∧ mc.load = none :=
  ⟨matrix id, member (matrix id) plainArgs, plainArgs, 1, matOf (matrix id) 0 1, by decide +kernel⟩

theorem wit_MatrixContexts_format : ∃ s w, ∃ x : Args, ∃ m i, partyActs s w x = true ∧ w = .group m ∧ heldMat s (w.team s) = some i ∧
    (onceVal s w x.b).toNat % 8 < 4 ∧ (onceVal s w x.b).toNat / 16 % 8 < 5 :=
  let x : Args := { plainArgs with b := .lit 0x43 }
  let s := matrix id
  ⟨s, member s x, x, issueMem s 0 (grpOf s 0) x, 1, by decide +kernel, rfl, by decide +kernel⟩

theorem wit_PlaneLoads_whole : ∃ s w, ∃ x : Args, ∃ i mc, partyActs s w x = true ∧ holds s w i mc = true ∧ mc.load = none ∧ mc.queue = [] ∧
    modBits x 8 2 = 0 ∧ numOf x.a % 2 = 0 :=
  ⟨matrix id, member (matrix id) plainArgs, plainArgs, 1, matOf (matrix id) 0 1, by decide +kernel⟩

theorem wit_PlaneLoads_half : ∃ s w, ∃ x : Args, ∃ i mc, partyActs s w x = true ∧ holds s w i mc = true ∧ mc.load = none ∧
    (modBits x 8 2 = 1 ∨ modBits x 8 2 = 2) :=
  let x : Args := { plainArgs with mod := 0x200 }
  ⟨matrix id, member (matrix id) x, x, 1, matOf (matrix id) 0 1, by decide +kernel⟩

theorem wit_PlaneLoads_end : ∃ s w, ∃ x : Args, ∃ i mc p, partyActs s w x = true ∧ holds s w i mc = true ∧ mc.load = some p :=
  let s := matrix fun m => { m with load := some { Plane.fresh with fmt := 2 } }
  ⟨s, member s plainArgs, plainArgs, 1, matOf s 0 1, _, by decide +kernel, by decide +kernel, rfl⟩

theorem wit_MatrixRows : ∃ s g grp, ∃ x : Args, ∃ i mc, mayAct s g grp [x] = true ∧ roomy grp 4096 = true ∧ actives s grp x ≠ 0 ∧
    holds s (.group (issueMem s g grp x)) i mc = true ∧ x.mod.getLsbD 5 = false ∧ modBits x 7 2 = 0 ∧ grp.reuse = none ∧
    (pairP (grp.mfmt.toNat % 8) mc.active.fmt).isSome = true ∧ numOf x.a + rowRegs (grp.mfmt.toNat % 8) (planeK mc.active.fmt) ≤ 1024 ∧
    ∃ b, grp.pair = some b ∧ b.joined = false ∧ b.cond = true :=
  let s := (matrix id).updGroup 0 fun q => { q with pair := some { partner := 1, cond := true, joined := false } }
  let x : Args := { plainArgs with dst := 7, a := .v 992 }
  by refine ⟨s, 0, grpOf s 0, x, 1, matOf s 0 1, ?_, ?_, ?_, ?_, ?_, ?_, ?_, ?_, ?_, _, rfl, rfl, rfl⟩ <;> decide +kernel

theorem wit_MatrixRows_lanes : ∃ s g grp, ∃ x : Args, ∃ i mc, mayAct s g grp [x] = true ∧ roomy grp 4096 = true ∧ actives s grp x ≠ 0 ∧
    holds s (.group (issueMem s g grp x)) i mc = true ∧ x.mod.getLsbD 5 = false ∧ modBits x 7 2 = 0 ∧ grp.reuse = none ∧
    (pairP (grp.mfmt.toNat % 8) mc.active.fmt).isSome = true ∧ numOf x.a + rowRegs (grp.mfmt.toNat % 8) (planeK mc.active.fmt) ≤ 1024 ∧
    (∀ q, q ∈ mc.queue → q.arrive ≤ s.now) ∧ ∀ l, l < 32 → (actives s grp x).getLsbD l = true → x.dst.toNat + 4 * l + 3 ≤ 1023 :=
  let x : Args := { plainArgs with dst := 896, a := .v 0 }
  ⟨matrix id, 0, grpOf (matrix id) 0, x, 1, matOf (matrix id) 0 1, by decide +kernel⟩

/-- A row of zeros, for a row of a block or for registers. -/
def zeroRow (deliver : Option (Nat × Nat × Nat × Nat)) : MatRow :=
  { acc := 3, row := 63, elems := [], afmt := 0, half := 0, tile := false, pair := false, deliver := deliver, issuer := 0, arrive := 0 }

theorem wit_MatrixPasses_block : ∃ s c i mc r rest, matOf s c i = mc ∧ i < (s.core c).mats.length ∧ mc.queue = r :: rest ∧ mc.clearing = false ∧ r.arrive < s.now ∧ otherPass s c i = false ∧
    r.deliver = none ∧ (mc.accRow r.acc r.row).length = 128 :=
  let s := { matrix (fun m => { m with queue := [zeroRow none] }) with now := 1 }
  ⟨s, 0, 1, _, zeroRow none, [], rfl, by decide +kernel, rfl, rfl, by decide +kernel, by decide +kernel, rfl, by decide +kernel⟩

theorem wit_MatrixPasses_lanes : ∃ s c i mc r rest g id vd ofmt grp p, matOf s c i = mc ∧ i < (s.core c).mats.length ∧ mc.queue = r :: rest ∧
    mc.clearing = false ∧ r.arrive < s.now ∧ otherPass s c i = false ∧ r.deliver = some (g, id, vd, ofmt) ∧ Tbl.get? s.groups g = some grp ∧ Tbl.get? grp.pending id = some p ∧
    p.merge = false ∧ p.regs = (List.range 4).map (vd + ·) ∧ (∀ q, q ∈ rest → (q.deliver.map fun d => (d.1, d.2.1)) ≠ some (g, id)) :=
  let s := { matrix (fun m => { m with queue := [zeroRow (some (0, 7, 1020, 4))] }) with now := 1 }.updGroup 0 fun q => { q with
    pending := [(7, { regs := [1020, 1021, 1022, 1023], lanes := BitVec.allOnes 32, merge := false, wide := false, kreg := none, demand := false, long := true })] }
  ⟨s, 0, 1, _, zeroRow (some (0, 7, 1020, 4)), [], 0, 7, 1020, 4, grpOf s 0, _, rfl, by decide +kernel, rfl, rfl, by decide +kernel, by decide +kernel, rfl, rfl, rfl, rfl, rfl, by simp⟩

theorem wit_Drains_lanes : ∃ s g grp, ∃ x : Args, ∃ i mc, mayAct s g grp [x] = true ∧ roomy grp 4096 = true ∧ actives s grp x ≠ 0 ∧
    holds s (.group (issueMem s g grp x)) i mc = true ∧ mc.queue = [] ∧ x.mod.getLsbD 6 = false ∧
    (∀ l, l < 32 → (actives s grp x).getLsbD l = true → x.dst.toNat + 4 * l + 3 ≤ 1023) ∧
    ∀ j, j < 32 → (mc.accRow (numOf x.a) (32 * modBits x 4 1 + j)).length = 128 :=
  let x : Args := { plainArgs with dst := 896, a := .num 3, mod := 0x30 }
  ⟨matrix id, 0, grpOf (matrix id) 0, x, 1, matOf (matrix id) 0 1, by decide +kernel⟩

theorem wit_Drains_tiles : ∃ s g grp, ∃ x : Args, ∃ i mc, mayAct s g grp [x] = true ∧ roomy grp 4096 = true ∧ actives s grp x ≠ 0 ∧
    holds s (.group (issueMem s g grp x)) i mc = true ∧ mc.queue = [] ∧ x.mod.getLsbD 6 = true ∧
    (grp.mfmt.toNat / 16 % 8 = 0 → x.dst.toNat % 2 = 0) ∧ ∀ j, j < 32 → (mc.accRow (numOf x.a) (32 * modBits x 4 1 + j)).length = 128 :=
  let x : Args := { plainArgs with dst := 14, a := .num 3, mod := 0x40 }
  ⟨matrix id, 0, grpOf (matrix id) 0, x, 1, matOf (matrix id) 0 1, by decide +kernel⟩

/-- A JOINED pair whose team holds matrix context 1. -/
noncomputable def joined : State :=
  let s := (matrix id).updGroup 0 fun q => { q with idx := 0, pair := some { partner := 1, cond := true, joined := true } }
  { s with groups := Tbl.set s.groups 16 { grpOf s 0 with idx := 1, pair := some { partner := 0, cond := false, joined := true } } }

theorem wit_GuidedDrain : ∃ s : State, ∃ g p grp q, ∃ x : Args, ∃ i mc, s.cur.by_ = .group g ∧ Tbl.get? s.groups g = some grp ∧ Tbl.get? s.groups p = some q ∧ p ≠ g ∧
    coreOfGroup p = coreOfGroup g ∧ grp.pair = some { partner := q.idx, cond := true, joined := true } ∧
    q.pair = some { partner := grp.idx, cond := false, joined := true } ∧ q.team = grp.team ∧
    s.groupAt grp.team q.idx = some p ∧ s.groupAt grp.team grp.idx = some g ∧
    grp.lanes.length = 32 ∧ q.lanes.length = 32 ∧ grp.parked = none ∧ q.parked = none ∧ grp.debug = false ∧ q.debug = false ∧
    nothingUnderWay s grp = true ∧ nothingUnderWay s q = true ∧ grp.wait = none ∧ q.wait = none ∧ grp.trap = none ∧ q.trap = none ∧
    x.pred = 0 ∧ x.pneg = false ∧ s.cur.lanes = grp.live ∧ grp.live ≠ 0 ∧ q.live ≠ 0 ∧ q.issuable = q.live ∧ grp.subs.length = 1 ∧ q.subs.length = 1 ∧
    x.dst.toNat / 8 % 2 = 0 ∧ (∀ n, x.a ≠ .latch n ∧ x.b ≠ .latch n ∧ x.c ≠ .latch n) ∧
    holds s (.group (issueMem s g grp x)) i mc = true ∧ mc.queue = [] ∧ (∀ b j, (mc.accRow b j).length = 128) :=
  let x : Args := { Args.bare with dst := 6, a := .v 0, b := .num 4, c := .k 6 }
  by
    refine ⟨joined, 0, 16, grpOf joined 0, grpOf joined 16, x, 1, matOf joined 0 1, ?_⟩
    and_intros <;> first
      | decide +kernel
      | exact fun _ => ⟨Src.noConfusion, Src.noConfusion, Src.noConfusion⟩
      | exact fun _ _ => List.length_replicate ..

/-- What the statement of `tmov` asks, in a kind of move. -/
abbrev TileMoving (s : State) (g : Nat) (grp : Group) (x : Args) (i : Nat) (mc : MatCtx) (kind : Nat) : Prop :=
  mayAct s g grp [x] = true ∧ roomy grp 1024 = true ∧ actives s grp x ≠ 0 ∧ holds s (.group (issueMem s g grp x)) i mc = true ∧
    modBits x 4 2 = kind ∧ (mc.tile x.dst.toNat).length = 8192

/-- Operands of `tmov` of a kind, in the upper half. -/
def tmovArgs (kind : Nat) : Args := { plainArgs with dst := 15, mod := BitVec.ofNat 10 (16 * kind + 64) }

theorem wit_TileMoves_tile : ∃ s g grp x i mc, TileMoving s g grp x i mc 0 :=
  ⟨matrix id, 0, grpOf (matrix id) 0, tmovArgs 0, 1, matOf (matrix id) 0 1, by decide +kernel⟩
theorem wit_TileMoves_in : ∃ s g grp x i mc, TileMoving s g grp x i mc 1 :=
  ⟨matrix id, 0, grpOf (matrix id) 0, tmovArgs 1, 1, matOf (matrix id) 0 1, by decide +kernel⟩
theorem wit_TileMoves_out : ∃ s g grp x i mc, TileMoving s g grp x i mc 2 :=
  ⟨matrix id, 0, grpOf (matrix id) 0, tmovArgs 2, 1, matOf (matrix id) 0 1, by decide +kernel⟩

/-- The image of a handle: type, format, channels, dimensions, fixed-point with exponent, edge rule, hash size and probes, base, sizes. -/
def handleImg (typ fmt ch dim fixed fixE edge logt probe place : Nat) (sizes : List Nat) : BitVec 512 :=
  BitVec.ofNat 512 (place + typ * 2 ^ 64 + fmt * 2 ^ 67 + (ch - 1) * 2 ^ 70 + (dim - 1) * 2 ^ 72 + 2 ^ 74 + fixed * 2 ^ 76 + fixE * 2 ^ 78 +
    ((List.range dim).map fun d => edge * 2 ^ (88 + 3 * d)).sum + logt * 2 ^ 100 + probe * 2 ^ 105 +
    (sizes.zipIdx.map fun p => p.1 * 2 ^ (128 + 24 * p.2)).sum + ((List.range dim).map fun d => 0x3F800000 * 2 ^ (352 + 32 * d)).sum)

/-- A state whose team has handles of arrays in the scratchpad: h5 DENSE FP32, h6 HASH, h7 FP32 and h8 fixed-point in one
dimension, h9 BF16 of a matrix. -/
noncomputable def handled (s : State) : State :=
  ((((s.setHandle 0 5 (handleImg 0 0 1 2 0 0 0 0 0 0 [6, 7])).setHandle 0 6 (handleImg 2 0 1 2 0 0 0 4 3 2048 [6, 7])).setHandle 0 7
    (handleImg 0 0 1 1 0 0 0 0 0 4096 [9])).setHandle 0 8 (handleImg 0 0 1 1 1 3 0 0 0 8192 [9])).setHandle 0 9
    (handleImg 0 1 1 2 0 0 0 0 0 16384 [64, 64])

theorem wit_HandleRegisters_store : ∃ s w, ∃ x : Args, ∃ tm, partyActs s w x = true ∧ engineQuiet s w = true ∧ Tbl.get? s.teams (w.team s) = some tm ∧
    onceOk s w x (modBits x 4 2) 64 64 = true :=
  let x : Args := { Args.bare with dst := 31, a := .v 0, b := .lit 0x03FFFFC0, mod := 0x10 }
  ⟨one, member one x, x, teamIn one 0, by decide +kernel⟩

theorem wit_HandleRegisters_load : ∃ s w, ∃ x : Args, ∃ tm v, partyActs s w x = true ∧ engineQuiet s w = true ∧ Tbl.get? s.teams (w.team s) = some tm ∧
    w = .wick v ∧ onceOk s w x (modBits x 4 2) 64 64 = true ∧
    ({ num := x.dst.toNat, img := BitVec.ofNat 512 (ofBytes (Memory.readN s.mem ((areaOf s w).key (modBits x 4 2) (onceAt s w x)) 64)) } : Handle).typ ≠ 3 :=
  let x : Args := { Args.bare with dst := 31, a := .v 0, b := .lit 0x03FFFFC0, mod := 0x10 }
  ⟨wicked, .wick 0, x, teamIn wicked 0, 0, by decide +kernel⟩

theorem wit_ChipTiles : ∃ s w, ∃ x : Args, ∃ i mc, partyActs s w x = true ∧ engineQuiet s w = true ∧ holds s w i mc = true ∧
    onceOk s w x (modBits x 8 2) 8192 64 = true ∧ (mc.tile x.dst.toNat).length = 8192 :=
  let x : Args := { Args.bare with dst := 15, a := .v 0, b := .lit 0x03FFE000, mod := 0x100 }
  ⟨matrix id, member (matrix id) x, x, 1, matOf (matrix id) 0 1, by decide +kernel⟩

theorem wit_CoordinateLoads : ∃ s g grp, ∃ x : Args, mayAct s g grp [x] = true ∧ roomy grp 1024 = true ∧ actives s grp x ≠ 0 ∧
    let w : Who := .group (issueMem s g grp x)
    let h := takeHandle s grp.team (numOf x.a)
    engineQuiet s w = true ∧ chipArray s w h = true ∧ (h.typ = 0 ∨ h.typ = 3) ∧ numOf x.b + h.dim ≤ 1024 ∧ x.dst.toNat + h.ch ≤ 1024 ∧
      (∀ l, l < 32 → (actives s grp x).getLsbD l = true → ((planAt s g h x (modBits x 2 2) false false l).map (·.invalid)) = some false) ∧
      ∀ l, l < 32 → (actives s grp x).getLsbD l = true → ∀ d, d < h.dim →
        0 ≤ (s.vlane g (numOf x.b + d) l).toInt ∧ (s.vlane g (numOf x.b + d) l).toInt < h.size d :=
  let s := handled (issuing 0x80000000)
  let x : Args := { Args.bare with dst := 1023, a := .num 5, b := .num 1022 }
  ⟨s, 0, grpOf s 0, x, by decide +kernel⟩

theorem wit_HashSearches : ∃ s g grp, ∃ x : Args, ∃ l, mayAct s g grp [x] = true ∧ roomy grp 64 = true ∧ l < 32 ∧ actives s grp x = 1#32 <<< l ∧ modBits x 5 1 = 0 ∧
    let w : Who := .group (issueMem s g grp x)
    let h := takeHandle s grp.team (numOf x.a)
    engineQuiet s w = true ∧ chipArray s w h = true ∧ h.typ = 2 ∧ numOf x.b + h.dim ≤ 1024 ∧
      (∀ d, d < h.dim → 0 ≤ (s.vlane g (numOf x.b + d) l).toInt ∧ (s.vlane g (numOf x.b + d) l).toInt < h.size d) ∧
      ofBytes (arrayBytes s w h (8 * h.hash ((coordsAt s g (numOf x.b) h.dim l).map (·.toNat))) 8) = 0 :=
  let s := handled (issuing 0x80000000)
  let x : Args := { Args.bare with dst := 1023, a := .num 6, b := .num 1022 }
  ⟨s, 0, grpOf s 0, x, 31, by decide +kernel⟩

theorem wit_HashSearches_found : ∃ s g grp, ∃ x : Args, ∃ l, mayAct s g grp [x] = true ∧ roomy grp 64 = true ∧ l < 32 ∧ actives s grp x = 1#32 <<< l ∧ modBits x 5 1 = 0 ∧
    let w : Who := .group (issueMem s g grp x)
    let h := takeHandle s grp.team (numOf x.a)
    engineQuiet s w = true ∧ chipArray s w h = true ∧ h.typ = 2 ∧ numOf x.b + h.dim ≤ 1024 ∧
      (∀ d, d < h.dim → 0 ≤ (s.vlane g (numOf x.b + d) l).toInt ∧ (s.vlane g (numOf x.b + d) l).toInt < h.size d) ∧
      ofBytes (arrayBytes s w h (8 * h.hash ((coordsAt s g (numOf x.b) h.dim l).map (·.toNat))) 8) =
        Handle.key ((coordsAt s g (numOf x.b) h.dim l).map (·.toNat)) :=
  let s := handled (issuing 1)
  let h := takeHandle s 0 6
  let s := { s with mem := Memory.writeLE s.mem ((Space.scratch 0).key (2048 + 8 * h.hash [0, 0])) 8 (Handle.key [0, 0]) }
  let x : Args := { Args.bare with dst := 1023, a := .num 6, b := .num 1022 }
  ⟨s, 0, grpOf s 0, x, 0, by decide +kernel⟩

/-- What the statement of splats asks, but for the plan. -/
abbrev Splatting (s : State) (g : Nat) (grp : Group) (x : Args) (l : Nat) : Prop :=
  mayAct s g grp [x] = true ∧ roomy grp 0 = true ∧ l < 32 ∧ actives s grp x = 1#32 <<< l ∧
    let w : Who := .group (issueMem s g grp x)
    let h := takeHandle s grp.team (numOf x.a)
    engineQuiet s w = true ∧ chipArray s w h = true ∧ (h.typ = 0 ∨ h.typ = 3) ∧ h.ch = 1 ∧ numOf x.b + h.dim ≤ 1024 ∧
      ((planAt s g h x (modBits x 2 2) false false l).map fun p => p.fetches.map fun f => f.is.isSome) = some [true]

theorem wit_Splats_float : ∃ s g grp, ∃ x : Args, ∃ l, Splatting s g grp x l ∧ (takeHandle s grp.team (numOf x.a)).fixed = false ∧
    (takeHandle s grp.team (numOf x.a)).fmt = 0 :=
  let s := handled (issuing 0x80000000)
  let x : Args := { Args.bare with dst := 0, a := .num 7, b := .num 1023 }
  ⟨s, 0, grpOf s 0, x, 31, by decide +kernel⟩

theorem wit_Splats_fixed : ∃ s g grp, ∃ x : Args, ∃ l, Splatting s g grp x l ∧ (takeHandle s grp.team (numOf x.a)).fixed = true ∧
    (fixedPart (takeHandle s grp.team (numOf x.a)) 0x3F800000 (s.vlane g x.dst.toNat l)).2 = false :=
  let s := handled (issuing 0x80000000)
  let x : Args := { Args.bare with dst := 0, a := .num 8, b := .num 1023 }
  ⟨s, 0, grpOf s 0, x, 31, by decide +kernel⟩

theorem wit_Resolves : ∃ s w, ∃ x : Args, ∃ tm, partyActs s w x = true ∧ engineQuiet s w = true ∧ Tbl.get? s.teams (w.team s) = some tm ∧
    let hs := takeHandle s (w.team s) (numOf x.a)
    let hd := takeHandle s (w.team s) x.dst.toNat
    chipArray s w hs = true ∧ chipArray s w hd = true ∧ hs.typ = 0 ∧ hd.typ = 0 ∧ hs.fixed = true ∧ hd.fixed = false ∧ hd.ch = hs.ch ∧
      hd.count = hs.count ∧ areasOverlap hs (8 * (hs.count * hs.ch)) hd (hs.count * hs.ch * hd.elem) = false :=
  let s := handled one
  let x : Args := { Args.bare with dst := 7, a := .num 8, b := .k 31 }
  ⟨s, member s x, x, teamIn s 0, by decide +kernel⟩

theorem wit_HandleTiles_flat : ∃ s w, ∃ x : Args, ∃ i mc, partyActs s w x = true ∧ engineQuiet s w = true ∧ holds s w i mc = true ∧ modBits x 8 2 = 2 ∧
    let h := takeHandle s (w.team s) (numOf x.a)
    let b := wholeVal s w x.b
    chipArray s w h = true ∧ h.typ = 0 ∧ h.dim = 2 ∧ h.ch = 1 ∧ h.fixed = false ∧ (lo32 b).toNat + 128 / h.elem ≤ h.size 0 ∧
      (hi32 b).toNat + 64 ≤ h.size 1 ∧ (mc.tile x.dst.toNat).length = 8192 :=
  let s := handled (matrix id)
  let x : Args := { Args.bare with dst := 15, a := .num 9, b := .k 4, mod := 0x200 }
  ⟨s, member s x, x, 1, matOf s 0 1, by decide +kernel⟩

theorem wit_HandleTiles_deep : ∃ s w, ∃ x : Args, ∃ i mc, partyActs s w x = true ∧ engineQuiet s w = true ∧ holds s w i mc = true ∧ modBits x 8 2 = 2 ∧
    let h := takeHandle s (w.team s) (numOf x.a)
    let b := wholeVal s w x.b
    chipArray s w h = true ∧ h.typ = 0 ∧ 2 < h.dim ∧ h.ch = 1 ∧ h.fixed = false ∧ (lo32 b).toNat + 128 / h.elem ≤ h.size 0 ∧
      (hi32 b).toNat + 64 ≤ h.size 1 ∧ (mc.tile x.dst.toNat).length = 8192 :=
  let s := (handled (matrix id)).setHandle 0 10 (handleImg 0 1 1 3 0 0 0 0 0 16384 [64, 64, 2])
  let x : Args := { Args.bare with dst := 15, a := .num 10, b := .k 4, mod := 0x200 }
  ⟨s, member s x, x, 1, matOf s 0 1, by decide +kernel⟩

theorem wit_Generators : ∀ b : Bool, ∃ s g grp x, mayAct s g grp [x] = true ∧ roomy grp 64 = true ∧ (actives s grp x = 0 ↔ b = true) := by
  intro b
  exact ⟨one, 0, grpOf one 0, { Args.bare with pneg := b, dst := 31, b := .k 31 }, by cases b <;> decide +kernel, by decide +kernel,
    by cases b <;> decide +kernel⟩

theorem wit_SpecialRegisters_read : ∃ s g grp tm, ∃ x : Args, ∃ v, mayAct s g grp [x] = true ∧ actives s grp x ≠ 0 ∧ Tbl.get? s.teams grp.team = some tm ∧
    x.a = .num 32 ∧ specialOf s g grp tm (s.ctxOfTeam grp.team) 32 = some v :=
  let s := one.updGrid 1 fun g => { g with ctx := 64 }
  ⟨s, 0, grpOf s 0, teamIn s 0, { Args.bare with dst := 31, a := .num 32 }, 0, by decide +kernel⟩

theorem wit_SpecialRegisters_vector : ∃ s g grp, ∃ x : Args, mayAct s g grp [x] = true ∧ actives s grp x ≠ 0 ∧ x.dst = 1 ∧
    (uni64 s g false x.b).toNat % 4 = 0 ∧ 32 ≤ (uni64 s g false x.b).toNat ∧ (uni64 s g false x.b).toNat < 2 ^ 32 :=
  let s := oneWith fun q => { q with ks := [(5, 0xFFFFFFFC)] }
  ⟨s, 0, grpOf s 0, { Args.bare with dst := 1, b := .k 5 }, by decide +kernel⟩

/-- A trap of every lane in which some have returned. -/
def frame (erets : Mask) : TrapFrame :=
  { x := BitVec.allOnes 32, erets := erets, skips := 0, tags := List.replicate 32 (3, true), subs := [{ lanes := BitVec.allOnes 32, back := 0, hprio := 0, lastX := 0 }] }

theorem wit_SpecialRegisters_epc : ∃ s g grp, ∃ x : Args, mayAct s g grp [x] = true ∧ actives s grp x ≠ 0 ∧ x.dst = 2 ∧ grp.trap.isSome = true :=
  let s := oneWith fun q => { q with trap := some (frame 0) }
  ⟨s, 0, grpOf s 0, { Args.bare with dst := 2, b := .k 5 }, by decide +kernel⟩

theorem wit_SpecialRegisters_record : ∃ s w, ∃ x : Args, partyActs s w x = true ∧ ((s.core w.core).errwLast.all fun c => decide (c + 1024 ≤ s.now)) = true ∧
    (s.errLog.all fun r => decide ((r.getD 1 0).toNat + 1000000 ≤ s.ts)) = true ∧ s.errLog.length < 65536 :=
  let s := ({ wicked with now := 2048 }).updCore 0 fun k => { k with errwLast := some 1024 }
  ⟨s, .wick 0, Args.bare, by decide +kernel⟩

theorem wit_TrapEntry_handler : ∃ i s g grp x code num detail addr after, groupFault s g grp i = some (x, code, num, detail, addr, after) ∧
    mayAct s g grp [x] = true ∧ grp.pair = none ∧ 1 ≤ s.cur.len ∧ s.cur.len ≤ 3 ∧ s.cur.lanes &&& grp.live ≠ 0 ∧
    s.asksPath g = false ∧ grp.tvec ≠ 0 ∧ grp.trap = none :=
  let s := oneWith fun q => { q with tvec := 4096 }
  ⟨.trap { Args.bare with b := .lit 255 }, s, 0, grpOf s 0, { Args.bare with b := .lit 255 }, 0x010A, 255, 0, 0, true, by decide +kernel⟩

theorem wit_TrapEntry_ends : ∃ i, ∃ s : State, ∃ g grp x code num detail addr after tm, groupFault s g grp i = some (x, code, num, detail, addr, after) ∧
    mayAct s g grp [x] = true ∧ grp.pair = none ∧ 1 ≤ s.cur.len ∧ s.cur.len ≤ 3 ∧ s.cur.lanes &&& grp.live ≠ 0 ∧
    s.asksPath g = false ∧ (grp.tvec = 0 ∨ grp.trap.isSome = true) ∧ Tbl.get? s.teams grp.team = some tm ∧ gridRuns s tm.grid = true ∧ s.nextSeq < 2 ^ 32 ∧
    s.cur.pc < 2 ^ 32 ∧ grp.idx < 32 :=
  ⟨.eret Args.bare, one, 0, grpOf one 0, Args.bare, 0x0106, 0, 0x1A, 0, false, teamIn one 0, by decide +kernel⟩

theorem wit_TrapReturn : ∀ b : Bool, ∃ s g grp x f, mayAct s g grp [x] = true ∧ grp.trap = some f ∧
    ((grp.live &&& f.x &&& ~~~(f.erets ||| actives s grp x) = 0) ↔ b = true) := by
  intro b
  let s := (issuing 1).updGroup 0 fun q => { q with trap := some (frame (if b then ~~~1 else 0)) }
  exact ⟨s, 0, grpOf s 0, Args.bare, frame (if b then ~~~1 else 0), by cases b <;> decide +kernel, by cases b <;> decide +kernel,
    by cases b <;> decide +kernel⟩

theorem wit_WickFaults : ∀ b : Bool, ∃ s t tm, ∃ x : Args, wickActs s t tm = true ∧ gridRuns s tm.grid = true ∧ s.nextSeq < 2 ^ 32 ∧ s.cur.pc < 2 ^ 32 ∧
    wickBusy s t = false ∧ (if b then (wickVal s t false x.a).toNat % 4 ≠ 0 else (wickVal s t false x.a).toNat % 4 = 0 ∧ 2 ^ 32 ≤ (wickVal s t false x.a).toNat) := by
  intro b
  let s := wicked.updTeam 0 fun tm => { tm with sregs := [(1, if b then 1 else 0x100000000)] }
  refine ⟨s, 0, teamIn s 0, { Args.bare with a := .v 1 }, ?_⟩
  cases b <;> decide +kernel

theorem wit_WickFaults_busy : ∃ s t tm, ∃ x : Args, wickActs s t tm = true ∧ gridRuns s tm.grid = true ∧ s.nextSeq < 2 ^ 32 ∧ s.cur.pc < 2 ^ 32 ∧
    (wickVal s t false x.a).toNat % 4 ≠ 0 ∧ wickBusy s t = true ∧ ∃ k : Core, (k.copies.isEmpty && k.demands.isEmpty && k.streams.isEmpty) = true :=
  let s := (wicked.updTeam 0 fun tm => { tm with sregs := [(1, 2)] }).updCore 0 fun k =>
    { k with streams := Tbl.mapVal k.streams fun _ q => { q with issuer := (1, 0) } }
  ⟨s, 0, teamIn s 0, { Args.bare with a := .v 1 }, by decide +kernel, by decide +kernel, by decide +kernel, by decide +kernel, by decide +kernel,
    by decide +kernel, .fresh, by decide +kernel⟩

/-! ### States for firmware and for copies -/

/-- The next state of an outcome. -/
noncomputable def nextOf (o : Host.Outcome State Fault Refusal) : State :=
  match o with
  | .next t => t
  | _ => base

/-- The Wick of a firmware team, with plain buffers 0 and 3 of the firmware and a tenant context 5 with the paged buffer 2, the map of
which lies in firmware buffer 3, every die up; some s registers. -/
noncomputable def firmware (sregs : Tbl W64) : State :=
  let s := wicked.updGrid 1 fun g => { g with ctx := 64 }
  let s := s.updCtx 64 fun x => { x with st := .running, created := true, bufs := [(0, bufOf 64 0x400000 15 0 0), (3, bufOf 64 0x400000 15 0 0)] }
  let s := s.updCtx 5 fun x => { x with st := .frozen, created := true, bufs := [(2, bufOf 5 0x40000000 15 0 (3 * 2 ^ 48 + 1024))] }
  { s.updTeam 0 fun tm => { tm with sregs := sregs } with dies := (List.range 8).map fun d => (d, { Die.fresh with up := true }) }

/-- A page name, or with p 0 a buffer name. -/
def nameOf (c b p : Nat) : W64 := BitVec.ofNat 64 (c * 2 ^ 58 + b * 2 ^ 42 + p)

/-- Operands in s1 and from s4 on. -/
def firmArgs : Args := { Args.bare with dst := 20, a := .v 1, b := .v 4 }

theorem wit_TableWrites_entry : ∃ s w x, firmActs s w x = true ∧ codeWhole s = true ∧
    let n := (partyVal s w false x.a).toNat
    let e : BitVec 256 := partyVal s w false (regAfter 3 x.b) ++ partyVal s w false (regAfter 2 x.b) ++ partyVal s w false (regAfter 1 x.b) ++
      partyVal s w false x.b
    goodName n 0 = true ∧ bufBusy s (namedBuf n).1 (namedBuf n).2 = false ∧
      seals (namedBuf n).1 (bufEntry s (namedBuf n).1 (namedBuf n).2) (BufEntry.of e) = false :=
  ⟨firmware [(1, nameOf 63 65535 0), (4, 11)], .wick 0, firmArgs, by decide +kernel⟩

theorem wit_TableWrites_page : ∃ s w x, firmActs s w x = true ∧ codeWhole s = true ∧
    let n := (partyVal s w false x.a).toNat
    goodName n 31 = true ∧ hasMap (namedBuf n).1 (bufEntry s (namedBuf n).1 (namedBuf n).2) = true ∧
      (pmapEntry s (bufEntry s (namedBuf n).1 (namedBuf n).2) (n % 2 ^ 31)).isSome = true ∧
      ((pmapKey s (bufEntry s (namedBuf n).1 (namedBuf n).2) (n % 2 ^ 31)).map (goodWord s)) = some true :=
  ⟨firmware [(1, nameOf 5 2 8191), (4, 0xFFFF)], .wick 0, firmArgs, by decide +kernel⟩

theorem wit_Invalidations_none : ∃ s w x, firmActs s w x = true ∧ modBits x 4 2 < 3 ∧
    scopeName (modBits x 4 2) (partyVal s w false x.a).toNat = true ∧ modBits x 6 2 = 0 :=
  ⟨firmware [(1, nameOf 5 0 0)], .wick 0, { firmArgs with mod := 0x20 }, by decide +kernel⟩

theorem wit_Invalidations_replay : ∃ s w x, firmActs s w x = true ∧ modBits x 4 2 < 3 ∧
    scopeName (modBits x 4 2) (partyVal s w false x.a).toNat = true ∧ modBits x 6 2 = 1 :=
  ⟨firmware [(1, nameOf 5 2 0x7FFFFFFF)], .wick 0, { firmArgs with mod := 0x40 }, by decide +kernel⟩

theorem wit_PageMigrations_bad : ∃ s v tm x, firmActs s (.wick v) x = true ∧ Tbl.get? s.teams v = some tm ∧
    goodName (wickVal s v false x.a).toNat 31 = true ∧
    hasMap (namedBuf (wickVal s v false x.a).toNat).1
      (bufEntry s (namedBuf (wickVal s v false x.a).toNat).1 (namedBuf (wickVal s v false x.a).toNat).2) = false ∧ s.errLog.length < 65536 :=
  let s := firmware [(1, nameOf 5 3 9)]
  ⟨s, 0, teamIn s 0, firmArgs, by decide +kernel⟩

/-- A firmware Wick that halts or saves context 5, which is in a state. -/
noncomputable def halting (st : CtxSt) : State := (firmware [(1, 5), (4, 4096)]).updCtx 5 fun x => { x with st := st }

theorem wit_Halts_freeze : ∃ s w x, firmActs s w x = true ∧
    let c := (partyVal s w false x.a).toNat
    c ≤ 63 ∧ (s.ctx c).ops = [] ∧ (s.ctx c).st = .running ∧ (s.ctx c).request = false ∧ quiet s c = true ∧ copiesLeft s c = false ∧
      s.grids.length < 2 ^ 25 - 1 :=
  ⟨halting .running, .wick 0, firmArgs, by decide +kernel⟩

theorem wit_Halts_resume : ∃ s w x, firmActs s w x = true ∧
    let c := (partyVal s w false x.a).toNat
    c ≤ 63 ∧ (s.ctx c).ops = [] ∧ (s.ctx c).st = .frozen ∧ (s.ctx c).alarmFrozen = false ∧ copiesLeft s c = false ∧ s.grids.length < 2 ^ 25 - 1 :=
  ⟨halting .frozen, .wick 0, firmArgs, by decide +kernel⟩

theorem wit_Halts_alarm : ∃ s w x, firmActs s w x = true ∧
    let c := (partyVal s w false x.a).toNat
    c ≤ 63 ∧ (s.ctx c).ops = [] ∧ (s.ctx c).st = .frozen ∧ (s.ctx c).alarmFrozen = true :=
  let s := (halting .frozen).updCtx 5 fun x => { x with alarmFrozen := true }
  ⟨s, .wick 0, firmArgs, by decide +kernel⟩

theorem wit_Halts_saved : ∃ s w x, firmActs s w x = true ∧
    let c := (partyVal s w false x.a).toNat
    c ≤ 63 ∧ (s.ctx c).ops = [] ∧ (s.ctx c).st = .saved :=
  ⟨halting .saved, .wick 0, firmArgs, by decide +kernel⟩

theorem wit_ContextImages_save : ∃ s v tm x u, firmActs s (.wick v) x = true ∧ Tbl.get? s.teams v = some tm ∧
    let c := (wickVal s v false x.a).toNat
    let ptr := (wickVal s v false x.b).toNat
    let bs := imageBytes c (overrunOf (s.ctx c)) (s.ctx c).quietTs (makeImage (opBegun s v c) c).records
    let e := bufEntry s 64 (ptr / 2 ^ 48)
    ptr % 64 = 0 ∧ c ≤ 63 ∧ (s.ctx c).ops = [] ∧ (s.ctx c).st = .frozen ∧
      (e.valid = false ∨ e.malformed true = true ∨ ptr % 2 ^ 48 + bs.length ≤ e.length) ∧
      writeBytes (1, v) 64 ptr (bs.length / 256 + 1) 0 bs (opBegun s v c) = .ok () u ∧ u.teams = s.teams ∧ u.grids = s.grids ∧ u.groups = s.groups := by
  let s := halting .frozen
  obtain ⟨⟨⟩, u, h1, h2⟩ := okWith_elim (r := writeBytes (1, 0) 64 4096
      ((imageBytes 5 (overrunOf (s.ctx 5)) (s.ctx 5).quietTs (makeImage (opBegun s 0 5) 5).records).length / 256 + 1) 0
      (imageBytes 5 (overrunOf (s.ctx 5)) (s.ctx 5).quietTs (makeImage (opBegun s 0 5) 5).records) (opBegun s 0 5))
    (p := fun _ u => u.teams == s.teams && u.grids == s.grids && u.groups == s.groups) (by decide +kernel)
  simp only [Bool.and_eq_true, beq_iff_eq] at h2
  refine ⟨s, 0, teamIn s 0, firmArgs, u, ?_⟩
  and_intros <;> first
    | decide +kernel
    | exact h1
    | exact h2.1.1
    | exact h2.1.2
    | exact h2.2

theorem wit_ContextImages_badctx : ∃ s v tm x, firmActs s (.wick v) x = true ∧ Tbl.get? s.teams v = some tm ∧
    (wickVal s v false x.b).toNat % 64 = 0 ∧ (wickVal s v false x.a).toNat ≤ 63 ∧ (s.ctx (wickVal s v false x.a).toNat).ops = [] ∧
    ((s.ctx (wickVal s v false x.a).toNat).st = .saved ∨ (s.ctx (wickVal s v false x.a).toNat).st = .ended) :=
  ⟨halting .ended, 0, teamIn (halting .ended) 0, firmArgs, by decide +kernel⟩

/-- A firmware Wick that restores the context it has saved at 4096. -/
noncomputable def restoring : State :=
  let s := { nextOf (exec (.csave firmArgs) (halting .frozen)) with cur := (halting .frozen).cur }
  s.updTeam 0 fun tm => { tm with sregs := [(1, 4096)] }

/-- Word i of an image's header. -/
def headWord (hb : List Byte) (i : Nat) : Nat := ofBytes ((hb.drop (8 * i)).take 8)

/-- What the restoring clause asks once the header has been read. -/
abbrev HeadOk (ptr : Nat) (hb : List Byte) (u : State) : Prop :=
  let c := headWord hb 0 / 2 ^ 16 % 2 ^ 16
  headWord hb 0 % 2 ^ 16 = 1 ∧ 80 ≤ headWord hb 1 ∧ headWord hb 1 % 16 = 0 ∧
    ptr % 2 ^ 48 + headWord hb 1 ≤ (bufEntry u 64 (ptr / 2 ^ 48)).length ∧ c ≤ 63 ∧ (u.ctx c).ops = [] ∧ (u.ctx c).st = .saved

/-- What it asks of the records. -/
abbrev RecordsOk (v : Nat) (im : Image) (rs : List (Nat × Nat × Nat × List Byte)) (u2 : State) (mv : Moved) (z : State) : Prop :=
  recordsOk im rs = true ∧ gridsTaken im u2 = false ∧
    restoreAll_ im rs (u2.now - im.time) (clustersOf im) { s := u2, teams := [], groups := [] } = some mv ∧
    finishRestore (1, v) im mv = .ok () z ∧ (Tbl.get? z.teams v).isSome = true

theorem wit_ContextImages_restore : ∃ s v tm x hb u bs u2 rs im mv z, firmActs s (.wick v) x = true ∧ Tbl.get? s.teams v = some tm ∧
    let ptr := (wickVal s v false x.a).toNat
    let c := headWord hb 0 / 2 ^ 16 % 2 ^ 16
    ptr % 64 = 0 ∧ portRead (1, v) (2 ^ 40) 64 ptr 64 .read true s = .ok hb u ∧ HeadOk ptr hb u ∧
      readBytes (1, v) 64 ptr (headWord hb 1) (headWord hb 1 / 256 + 1) 0 (opBegun u v c) = .ok bs u2 ∧
      parseRecords (headWord hb 1 / 16) (bs.drop 64) = some rs ∧
      u2.images.reverse.find? (fun i => i.ctx == c && skeleton i.records == skeleton rs) = some im ∧ RecordsOk v im rs u2 mv z := by
  have h : okWith (portRead (1, 0) (2 ^ 40) 64 4096 64 .read true restoring) (fun hb u =>
      decide (HeadOk 4096 hb u) && okWith (readBytes (1, 0) 64 4096 (headWord hb 1) (headWord hb 1 / 256 + 1) 0
          (opBegun u 0 (headWord hb 0 / 2 ^ 16 % 2 ^ 16))) fun bs u2 =>
        match parseRecords (headWord hb 1 / 16) (bs.drop 64) with
        | none => false
        | some rs =>
          match u2.images.reverse.find? (fun i => i.ctx == headWord hb 0 / 2 ^ 16 % 2 ^ 16 && skeleton i.records == skeleton rs) with
          | none => false
          | some im =>
            recordsOk im rs && !gridsTaken im u2 &&
              match restoreAll_ im rs (u2.now - im.time) (clustersOf im) { s := u2, teams := [], groups := [] } with
              | none => false
              | some mv => okWith (finishRestore (1, 0) im mv) fun _ z => (Tbl.get? z.teams 0).isSome) = true := by decide +kernel
  obtain ⟨hb, u, h1, h2⟩ := okWith_elim h
  simp only [Bool.and_eq_true, decide_eq_true_eq] at h2
  obtain ⟨h3, h4⟩ := h2
  obtain ⟨bs, u2, h5, h6⟩ := okWith_elim h4
  split at h6
  · exact absurd h6 (by simp)
  · next rs hr =>
    split at h6
    · exact absurd h6 (by simp)
    · next im hi =>
      simp only [Bool.and_eq_true, Bool.not_eq_true'] at h6
      obtain ⟨⟨h7, h8⟩, h9⟩ := h6
      split at h9
      · exact absurd h9 (by simp)
      · next mv hm =>
        obtain ⟨⟨⟩, z, hz, h10⟩ := okWith_elim h9
        have hp : (wickVal restoring 0 false firmArgs.a).toNat = 4096 := by decide +kernel
        refine ⟨restoring, 0, teamIn restoring 0, firmArgs, hb, u, bs, u2, rs, im, mv, z, by decide +kernel, by decide +kernel, ?_⟩
        rw [hp]
        exact ⟨rfl, h1, h3, h5, hr, hi, h7, h8, hm, hz, h10⟩

/-- The same Wick about to move the page 9 of buffer 2 from one place in the host's memory to another. -/
noncomputable def migrating : State :=
  let s := firmware [(1, nameOf 5 2 9), (4, 3 + 7 * 2 ^ 16)]
  { s with mem := Memory.writeLE s.mem (((pmapKey s (bufEntry s 5 2) 9)).getD 0) 8 (3 + 5 * 2 ^ 16) }

/-- Granules that move within the host's memory leave all other memory, and all else, as it is. -/
theorem moves_host (e : BufEntry) (src dst : W64) (hs : pmTier src = true) (hd : pmTier dst = true) (is : List Nat) (s : State) :
    ∃ m, moveGranules e src dst is s = .ok () { s with mem := m } ∧ ∀ k, k < 5 * 2 ^ 68 → Memory.read m k = Memory.read s.mem k := by
  induction is generalizing s with
  | nil => exact ⟨s.mem, rfl, fun _ _ => rfl⟩
  | cons i is ih =>
    have hk : ∀ a, keyChannel (Space.host.key a) = none := by
      intro a
      have : 5 * 2 ^ 68 ≤ Space.host.key a := Nat.le_add_right ..
      unfold keyChannel
      rw [if_neg (by simp; omega)]
    have hg : ∀ a j, granuleOf ((Space.host.key a / 32 + j) * 32) = none := by
      intro a j
      have : 5 * 2 ^ 68 ≤ (Space.host.key a / 32 + j) * 32 := by simp only [Space.key]; omega
      unfold granuleOf keyChannel
      rw [if_neg (by simp; omega)]
    have hn : ∀ a, granules (Space.host.key a) 32 = [] := by
      intro a
      simp only [granules]
      simp [hg]
    have hr : ∀ a, atHome (Space.host.key a) s (eccRead (Space.host.key a) 32 false s) = .ok (Memory.readN s.mem (Space.host.key a) 32) s := by
      intro a
      simp only [atHome, keyDie, hk, eccRead, hn, channelFailed]
      rfl
    have hw : ∀ a bs, bs.length = 32 → atHome (Space.host.key a) s (eccWrite (Space.host.key a) bs s) =
        .ok () { s with mem := Memory.writeN s.mem (Space.host.key a) bs } := by
      intro a bs hb
      simp only [atHome, keyDie, hk, eccWrite, hb, hn, channelFailed, noteDirty]
      simp
    obtain ⟨m, h1, h2⟩ := (fun bs => ih { s with mem := Memory.writeN s.mem (Space.host.key (pmFrame dst * 2 ^ 17 + 32 * i)) bs })
      (Memory.readN s.mem (Space.host.key (pmFrame src * 2 ^ 17 + 32 * i)) 32)
    refine ⟨m, ?_, fun k hlt => ?_⟩
    · simp only [moveGranules, frameKey, hs, hd, if_true, hr, PRes.bind]
      rw [hw _ _ (Memory.readN_length ..)]
      exact h1
    · have h3 : 5 * 2 ^ 68 ≤ Space.host.key (pmFrame dst * 2 ^ 17 + 32 * i) := Nat.le_add_right ..
      refine (h2 k hlt).trans ?_
      dsimp only
      apply Memory.read_writeN_other
      exact Or.inl (Nat.lt_of_lt_of_le hlt h3)

theorem pmapKey_mem (s : State) (m : Memory) (e : BufEntry) (p : Nat) : pmapKey { s with mem := m } e p = pmapKey s e p := rfl

theorem pmapEntry_mem (s : State) (m : Memory) (e : BufEntry) (p : Nat) {k : Nat} (hk : pmapKey s e p = some k)
    (hr : Memory.readLE m k 8 = Memory.readLE s.mem k 8) : pmapEntry { s with mem := m } e p = pmapEntry s e p := by
  have h : fwKey s (e.pmap / 2 ^ 48) (e.pmap % 2 ^ 48 + 8 * p) = some k := hk
  have h' : fwKey { s with mem := m } (e.pmap / 2 ^ 48) (e.pmap % 2 ^ 48 + 8 * p) = some k := h
  unfold pmapEntry
  simp only [h, h', Option.map_some, hr]
  rfl

theorem wit_PageMigrations_moves : ∃ s v tm x old k s1 s2 u, firmActs s (.wick v) x = true ∧ Tbl.get? s.teams v = some tm ∧
    let n := (wickVal s v false x.a).toNat
    let e := bufEntry s (namedBuf n).1 (namedBuf n).2
    let p := n % 2 ^ 31
    goodName n 31 = true ∧ hasMap (namedBuf n).1 e = true ∧ readMapEntry s e p = .ok old s1 ∧ readMapping s1 e p = .ok old s2 ∧ mapsPage old = true ∧
      mapsPage (wickVal s v false x.b) = true ∧ moveGranules e old (wickVal s v false x.b) (List.range 4096) s2 = .ok () u ∧
      u.teams = s.teams ∧ pmapEntry u e p = some old ∧ pmapKey u e p = some k ∧ goodWord u k = true := by
  have hv : wickVal migrating 0 false firmArgs.b = 3 + 7 * 2 ^ 16 := by decide +kernel
  have hn : (wickVal migrating 0 false firmArgs.a).toNat = (nameOf 5 2 9).toNat := by decide +kernel
  have hb : (namedBuf (nameOf 5 2 9).toNat) = (5, 2) := by decide +kernel
  have hq : (nameOf 5 2 9).toNat % 2 ^ 31 = 9 := by decide +kernel
  obtain ⟨old, s1, r1, h⟩ := okWith_elim (r := readMapEntry migrating (bufEntry migrating 5 2) 9) (p := fun old s1 =>
    old == 3 + 5 * 2 ^ 16 && okWith (readMapping s1 (bufEntry migrating 5 2) 9) fun old s2 =>
      old == 3 + 5 * 2 ^ 16 && s2.teams == migrating.teams && pmapEntry s2 (bufEntry migrating 5 2) 9 == some (3 + 5 * 2 ^ 16) &&
        ((pmapKey s2 (bufEntry migrating 5 2) 9).any fun k => decide (k + 8 < 5 * 2 ^ 68) && goodWord s2 k)) (by decide +kernel)
  simp only [Bool.and_eq_true, beq_iff_eq] at h
  obtain ⟨rfl, h⟩ := h
  obtain ⟨old, s2, r2, h⟩ := okWith_elim h
  simp only [Bool.and_eq_true, beq_iff_eq] at h
  obtain ⟨⟨⟨rfl, ht⟩, he⟩, h⟩ := h
  obtain ⟨m, h1, h2⟩ := moves_host (bufEntry migrating 5 2) (3 + 5 * 2 ^ 16) (3 + 7 * 2 ^ 16) (by decide) (by decide) (List.range 4096) s2
  obtain ⟨k, hk, hlt, hg⟩ : ∃ k, pmapKey s2 (bufEntry migrating 5 2) 9 = some k ∧ k + 8 < 5 * 2 ^ 68 ∧ goodWord s2 k = true := by
    cases hk : pmapKey s2 (bufEntry migrating 5 2) 9 with
    | none => simp [hk] at h
    | some k => exact ⟨k, rfl, by simpa [hk] using h⟩
  refine ⟨migrating, 0, teamIn migrating 0, firmArgs, 3 + 5 * 2 ^ 16, k, s1, s2, { s2 with mem := m }, by decide +kernel, by decide +kernel, ?_⟩
  rw [hv, hn]
  simp only [hb, hq]
  have ⟨a1, a2, a5, a6⟩ : goodName (nameOf 5 2 9).toNat 31 = true ∧ hasMap 5 (bufEntry migrating 5 2) = true ∧
      mapsPage (3 + 5 * 2 ^ 16) = true ∧ mapsPage (3 + 7 * 2 ^ 16) = true := by
    decide +kernel
  refine ⟨a1, a2, r1, r2, a5, a6, h1, ht, ?_, (pmapKey_mem ..).trans hk, hg⟩
  rw [← he]
  have hr : Memory.readLE m k 8 = Memory.readLE s2.mem k 8 := by
    simp only [Memory.readLE, Memory.readN]
    rw [h2 k (by omega), h2 (k + 1) (by omega), h2 (k + 1 + 1) (by omega), h2 (k + 1 + 1 + 1) (by omega), h2 (k + 1 + 1 + 1 + 1) (by omega),
      h2 (k + 1 + 1 + 1 + 1 + 1) (by omega), h2 (k + 1 + 1 + 1 + 1 + 1 + 1) (by omega), h2 (k + 1 + 1 + 1 + 1 + 1 + 1 + 1) (by omega)]
  exact pmapEntry_mem _ _ _ _ hk hr

/-! ### States for copies -/

/-- A copy descriptor (R356): XLEN 100, YCOUNT and ZCOUNT 3 and 2; the last word is given. -/
def descOf (xlen last : Nat) : List Byte :=
  toBytes 1024 8 ++ toBytes 4096 8 ++ toBytes (xlen + 2 * 2 ^ 32 + 2 ^ 48) 8 ++ ([128, 1000, 100, 500].flatMap fun n => toBytes n 8) ++ toBytes last 8

/-- A Wick whose team has 16 KiB of shared memory, with a descriptor at 512 and a barrier at 768, and some s registers. -/
noncomputable def copying (db bar : List Byte) : State :=
  let s := wicked.updTeam 0 fun tm => { tm with shared := 16384, sregs := [(1, 512), (2, 1), (3, 64), (5, 77)] }
  { s with mem := Memory.writeN (Memory.writeN s.mem ((Space.shared 0).key 512) db) ((Space.shared 0).key 768) bar }

/-- Operands of a copy: the descriptor in s1, a count of 1 in s2, the token in s20. -/
def copyArgs : Args := { Args.bare with dst := 20, a := .s 1, b := .s 2 }

/-- What the statement on a copy's issue asks. -/
abbrev Issues (i : Instr) (s : State) (w : Who) (x : Args) (kind : Nat) (count : W64) (sig : Option (W64 × W64)) (e : Nat) : Prop :=
  copyOf s w i = some (x, kind, count, sig) ∧ partyActs s w x = true ∧
    let addr := aAddr s w x
    let bs := sharedBytes s w addr 64
    let d := Desc.of bs
    let t := w.team s
    let slot := if kind = 3 then none else openSlot (s.core w.core) t d.id
    let old := slot.bind fun e => copyAt s w.core e
    (Tbl.get? s.teams t).isSome = true ∧ addr % 64 = 0 ∧ (areaOf s w).ok 0 addr 64 = true ∧ ((areaOf s w).lockHit s 0 addr 64 false) = none ∧
    descBad kind bs d ((old.map Copy.total).getD 0) = false ∧ 1 ≤ count.toNat ∧ count.toNat ≤ 33 ∧
    (old.map (sliceBad kind count.toNat d)).getD false = false ∧ (kind = 1 → d.mask ≠ 0 ∧ d.mask < 2 ^ (rankOf s t).2) ∧
    sliceAddr w d s = none ∧ (sig.bind fun g => signalCause w d g.1 s) = none ∧
    (slot = some e ∨ (slot = none ∧ freeCopy (s.core w.core) = some e)) ∧ (∀ o, copyAt s w.core e = some o → o.st = .collecting)

theorem wit_CopyIssues_first : ∃ i s w x kind count sig e, Issues i s w x kind count sig e :=
  ⟨.wsig { copyArgs with b := .s 3, c := .s 5 }, copying (descOf 100 0) [], .wick 0, _, _, _, _, 0, rfl, by decide +kernel⟩

/-- The Wick again, after it has issued a copy of some slices, the first of which the core holds. -/
noncomputable def issued (count : W64) (db bar : List Byte) : State :=
  let s := (copying db bar).updTeam 0 fun tm => { tm with sregs := [(1, 512), (2, count), (3, 64), (5, 77)] }
  let t := nextOf (exec (.bcp copyArgs) s)
  { t with cur := s.cur }

/-- The same, its token no longer awaited. -/
noncomputable def handedOn (count : W64) : State := (issued count (descOf 100 0) []).updTeam 0 fun tm => { tm with stok := [] }

theorem wit_CopyIssues_more : ∃ i s w x kind count sig e, Issues i s w x kind count sig e ∧ (copyAt s w.core e).isSome = true :=
  ⟨.bcp { copyArgs with dst := 21 }, handedOn 33, .wick 0, _, _, _, _, 0, ⟨rfl, by decide +kernel⟩, by decide +kernel⟩

theorem wit_CopyIssues_multicast : ∃ i s w x kind count sig e, Issues i s w x kind count sig e ∧ kind = 1 :=
  let s := copying (descOf 100 (768 * 2 ^ 32 + 2 ^ 12 + 3 * 256 + 16)) []
  ⟨.bcpMc copyArgs, s, .wick 0, _, _, _, _, 0, ⟨rfl, by decide +kernel⟩, rfl⟩

/-- Bytes of a barrier that is armed, with ARRIVED, EXPECT and PENDING. -/
def armedBar (arrived expect pending : Nat) : List Byte := barBytes arrived expect 5 true 65535 pending

/-- The last word of a descriptor with BAREN, its barrier at 768. -/
def counted : Nat := 768 * 2 ^ 32 + 16

/-- What the statement on a copy's start asks. -/
abbrev Starts (s : State) (core e : Nat) (c : Copy) (d : Desc) : Prop :=
  copyAt s core e = some c ∧ c.st = .held ∧ c.status = 0 ∧ c.refuse = 0 ∧ c.receivers = [] ∧ c.kind ≠ 1 ∧ s.mem.wf = true ∧
    startHeld (s.core core) e c = false ∧ behindHeld (s.core core) c = false ∧ c.slices.head? = some d

/-- A copy of a core, with its first slice. -/
theorem copy_elim {s : State} {core e : Nat} {p : Copy → Desc → Bool}
    (h : ((copyAt s core e).bind fun c => c.slices.head?.map fun d => p c d) = some true) :
    ∃ c d, copyAt s core e = some c ∧ c.slices.head? = some d ∧ p c d = true := by
  obtain ⟨c, h1, h2⟩ := Option.bind_eq_some_iff.mp h
  obtain ⟨d, h3, h4⟩ := Option.map_eq_some_iff.mp h2
  exact ⟨c, d, h1, h3, h4⟩

theorem wit_CopyStarts_plain : ∃ s core e c d, Starts s core e c d ∧ d.baren = false := by
  let s := issued 1 (descOf 100 0) []
  obtain ⟨c, d, h1, h2, h3⟩ := copy_elim (s := s) (core := 0) (e := 0) (p := fun c d => decide (c.st = .held ∧ c.status = 0 ∧ c.refuse = 0 ∧
    c.receivers = [] ∧ c.kind ≠ 1 ∧ startHeld (s.core 0) 0 c = false ∧ behindHeld (s.core 0) c = false ∧ d.baren = false)) (by decide +kernel)
  obtain ⟨a1, a2, a3, a4, a5, a6, a6', a7⟩ := of_decide_eq_true h3
  exact ⟨s, 0, 0, c, d, ⟨h1, a1, a2, a3, a4, a5, by decide +kernel, a6, a6', h2⟩, a7⟩

theorem wit_CopyStarts_reserves : ∃ s core e c d, Starts s core e c d ∧ d.baren = true ∧ barRoom (barWords s c.team d.bar) c.total = true := by
  let s := issued 1 (descOf 100 counted) (armedBar 3 610 7)
  obtain ⟨c, d, h1, h2, h3⟩ := copy_elim (s := s) (core := 0) (e := 0) (p := fun c d => decide (c.st = .held ∧ c.status = 0 ∧ c.refuse = 0 ∧
    c.receivers = [] ∧ c.kind ≠ 1 ∧ startHeld (s.core 0) 0 c = false ∧ behindHeld (s.core 0) c = false ∧ d.baren = true ∧ barRoom (barWords s c.team d.bar) c.total = true))
    (by decide +kernel)
  obtain ⟨a1, a2, a3, a4, a5, a6, a6', a7, a8⟩ := of_decide_eq_true h3
  exact ⟨s, 0, 0, c, d, ⟨h1, a1, a2, a3, a4, a5, by decide +kernel, a6, a6', h2⟩, a7, a8⟩

theorem wit_CopyStarts_refused : ∃ s core e c d, Starts s core e c d ∧ d.baren = true ∧ barRoom (barWords s c.team d.bar) c.total = false ∧
    s.errLog.length < 65536 := by
  let s := issued 1 (descOf 100 counted) (armedBar 3 609 7)
  obtain ⟨c, d, h1, h2, h3⟩ := copy_elim (s := s) (core := 0) (e := 0) (p := fun c d => decide (c.st = .held ∧ c.status = 0 ∧ c.refuse = 0 ∧
    c.receivers = [] ∧ c.kind ≠ 1 ∧ startHeld (s.core 0) 0 c = false ∧ behindHeld (s.core 0) c = false ∧ d.baren = true ∧ barRoom (barWords s c.team d.bar) c.total = false))
    (by decide +kernel)
  obtain ⟨a1, a2, a3, a4, a5, a6, a6', a7, a8⟩ := of_decide_eq_true h3
  exact ⟨s, 0, 0, c, d, ⟨h1, a1, a2, a3, a4, a5, by decide +kernel, a6, a6', h2⟩, a7, a8, by decide +kernel⟩

/-- A copy after its start. -/
noncomputable def started (db bar : List Byte) : State := nextOf (exec (.copyStart 0 0) (issued 1 db bar))

theorem wit_CopyBlocks : ∃ s core e i c d b, copyAt s core e = some c ∧ chipBlock s core c d i b = true ∧ nextCopy s core = some e ∧ copyCalm s (copyParty core e) = true ∧
    let bs := Memory.readN s.mem (copyKey c core d.sspace b.src) b.n
    let dst := (copyKey c core d.dspace b.dst, bs)
    let mid (off : Nat) : Nat := ofBytes ((List.range 8).map fun j => storedByte s.mem [dst] ((Space.shared c.team).key (off + j)))
    let ws := (mid d.bar, mid (d.bar + 8))
    d.baren = true ∧ barRoom ws 0 = true ∧ b.n ≤ ws.2 % 2 ^ 32 := by
  let s := started (descOf 100 counted) (armedBar 3 610 7)
  obtain ⟨c, d, h1, -, h3⟩ := copy_elim (s := s) (core := 0) (e := 0) (p := fun c d => (blockOf c.slices 5).any fun b => chipBlock s 0 c d 5 b &&
    (let bs := Memory.readN s.mem (copyKey c 0 d.sspace b.src) b.n
     let dst := (copyKey c 0 d.dspace b.dst, bs)
     let mid (off : Nat) : Nat := ofBytes ((List.range 8).map fun j => storedByte s.mem [dst] ((Space.shared c.team).key (off + j)))
     d.baren && barRoom (mid d.bar, mid (d.bar + 8)) 0 && decide (b.n ≤ mid (d.bar + 8) % 2 ^ 32))) (by decide +kernel)
  cases hb : blockOf c.slices 5 with
  | none => exact absurd h3 (by rw [hb]; simp)
  | some b =>
    rw [hb] at h3
    simp only [Option.any_some, Bool.and_eq_true, decide_eq_true_eq] at h3
    exact ⟨s, 0, 0, 5, c, d, b, h1, h3.1, by decide +kernel, by decide +kernel, h3.2.1.1, h3.2.1.2, h3.2.2⟩

/-- A copy, or with a signal a `wsig`, that has moved its one block. -/
noncomputable def moved (signal : Bool) (last : Nat) : State :=
  let db := toBytes 1024 8 ++ toBytes 4096 8 ++ toBytes 100 8 ++ toBytes 0 32 ++ toBytes last 8
  let s := copying db []
  let t := nextOf (exec (if signal then .wsig { copyArgs with b := .s 3, c := .s 5 } else .bcp copyArgs) s)
  nextOf (exec (.copyBlock 0 0 0) (nextOf (exec (.copyStart 0 0) { t with cur := s.cur })))

/-- What the statement on a copy's end asks. -/
abbrev Ended (s : State) (core e : Nat) (c : Copy) (d : Desc) : Prop :=
  copyAt s core e = some c ∧ c.st = .running ∧ c.flying = [] ∧ c.slices = [d] ∧ copyCalm s (copyParty core e) = true ∧
    (c.status ≠ 0 ∨ c.receivers = [] ∨ c.moved.length = c.blocks)

theorem wit_CopyEnds_signals : ∃ s core e c d space addr v, Ended s core e c d ∧ c.signal = some (space, addr, v, false) ∧ c.status = 0 ∧
    c.refuse = 0 ∧ space < 2 ∧ homeUp s space (lo32 addr).toNat = true := by
  let s := moved true 32
  obtain ⟨c, d, h1, -, h3⟩ := copy_elim (s := s) (core := 0) (e := 0) (p := fun c d => decide (c.st = .running ∧ c.flying = [] ∧ c.slices = [d] ∧
    c.moved.length = c.blocks ∧ c.signal = some (0, 64, 77, false) ∧ c.status = 0 ∧ c.refuse = 0)) (by decide +kernel)
  obtain ⟨a1, a2, a3, a4, a5, a6, a7⟩ := of_decide_eq_true h3
  exact ⟨s, 0, 0, c, d, 0, 64, 77, ⟨h1, a1, a2, a3, by decide +kernel, .inr (.inr a4)⟩, a5, a6, a7, by decide, by decide +kernel⟩

theorem wit_CopyEnds_completes : ∃ s core e c d p n, Ended s core e c d ∧ c.issuers = [(p, n)] ∧ hasParty s p = true ∧ d.baren = false ∧
    c.owesSignal = false := by
  let s := moved false 0
  obtain ⟨c, d, h1, -, h3⟩ := copy_elim (s := s) (core := 0) (e := 0) (p := fun c d => decide (c.st = .running ∧ c.flying = [] ∧ c.slices = [d] ∧
    c.moved.length = c.blocks ∧ c.issuers = [((1, 0), 20)] ∧ d.baren = false ∧ c.owesSignal = false)) (by decide +kernel)
  obtain ⟨a1, a2, a3, a4, a5, a6, a7⟩ := of_decide_eq_true h3
  exact ⟨s, 0, 0, c, d, (1, 0), 20, ⟨h1, a1, a2, a3, by decide +kernel, .inr (.inr a4)⟩, a5, by decide +kernel, a6, a7⟩

/-- Operands of a barrier at 768. -/
def barArgs (n : W32) : Args := { Args.bare with dst := 20, a := .lit 768, b := .lit n }

theorem wit_ArrivalBarriers_arms : ∃ s w x, partyActs s w x = true ∧ barOk s w x = true ∧
    (barWords s (w.team s) (aAddr s w x)).2 / 2 ^ 48 % 2 = 0 ∧ (partyVal s w false x.b).toNat ≠ 0 ∧ (partyVal s w false x.b).toNat < 2 ^ 32 :=
  ⟨copying [] (barBytes 4 400 3 false 2 9), .wick 0, barArgs 0x7FFFFFFF, by decide +kernel⟩

theorem wit_ArrivalBarriers_counts : ∃ s w x, partyActs s w x = true ∧ barOk s w x = true ∧
    barRoom (barWords s (w.team s) (aAddr s w x)) (partyVal s w false x.b).toNat = true ∧ w.owesPath s = false :=
  ⟨copying [] (armedBar 4 400 9), .wick 0, barArgs 387, by decide +kernel⟩

theorem wit_ArrivalBarriers_goes : ∃ s w x, partyActs s w x = true ∧ barOk s w x = true ∧
    (partyVal s w false x.b).toNat % 2 ^ 16 ≠ (barWords s (w.team s) (aAddr s w x)).2 / 2 ^ 32 % 2 ^ 16 :=
  ⟨copying [] (armedBar 4 400 9), .wick 0, barArgs 65534, by decide +kernel⟩

theorem wit_TokensOfCopies_done : ∃ s w x, partyActs s w x = true := ⟨wicked, .wick 0, { Args.bare with dst := 20, a := .num 63 }, by decide +kernel⟩

/-- The token in s20. -/
def tokArgs : Args := { Args.bare with dst := 63, a := .num 20, mod := 0x10 }

theorem wit_TokensOfCopies_pending : ∃ s w x n, x.a = Src.num n ∧ partyReady s w x [x.dst.toNat] = true ∧ modBits x 4 1 = 1 ∧ x.dst.toNat ≠ n.toNat ∧
    tokenPending s w.party n.toNat = true :=
  ⟨issued 1 (descOf 100 0) [], .wick 0, tokArgs, 20, rfl, by decide +kernel⟩

theorem wit_TokensOfCopies_nothing : ∃ s w x n, x.a = Src.num n ∧ partyReady s w x [] = true ∧ copyOfToken (s.core w.core) w.party n.toNat = none :=
  ⟨wicked, .wick 0, tokArgs, 20, rfl, by decide +kernel⟩

/-- What both cancelling clauses ask. -/
abbrev Cancels (s : State) (w : Who) (x : Args) (n : BitVec 10) (e : Nat) (c : Copy) : Prop :=
  x.a = .num n ∧ partyReady s w x [] = true ∧ copyOfToken (s.core w.core) w.party n.toNat = some e ∧ copyAt s w.core e = some c

theorem wit_TokensOfCopies_collecting : ∃ s w x n e c d, Cancels s w x n e c ∧ signalSent w.core e c s = false ∧ c.st = .collecting ∧ c.issuers = [(w.party, n.toNat)] ∧
    c.slices.head? = some d ∧ d.baren = false ∧ c.seq = 0 ∧ c.bytes = 0 ∧ c.refuse = 0 := by
  let s := issued 2 (descOf 100 0) []
  obtain ⟨c, d, h1, h2, h3⟩ := copy_elim (s := s) (core := 0) (e := 0) (p := fun c d => decide (signalSent 0 0 c s = false ∧ c.st = .collecting ∧ c.issuers = [((1, 0), 20)] ∧
    d.baren = false ∧ c.seq = 0 ∧ c.bytes = 0 ∧ c.refuse = 0)) (by decide +kernel)
  obtain ⟨a0, a1, a2, a3, a4, a5, a6⟩ := of_decide_eq_true h3
  exact ⟨s, .wick 0, tokArgs, 20, 0, c, d, ⟨rfl, by decide +kernel, by decide +kernel, h1⟩, a0, a1, a2, h2, a3, a4, a5, a6⟩

theorem wit_TokensOfCopies_running : ∃ s w x n e c, Cancels s w x n e c ∧ signalSent w.core e c s = false ∧ c.st ≠ .collecting ∧ c.status = 0 := by
  let s : State := { started (descOf 100 0) [] with cur := wicked.cur }
  obtain ⟨c, d, h1, h2, h3⟩ := copy_elim (s := s) (core := 0) (e := 0) (p := fun c _ => decide (signalSent 0 0 c s = false ∧ c.st = .running ∧ c.status = 0)) (by decide +kernel)
  obtain ⟨a0, a1, a2⟩ := of_decide_eq_true h3
  exact ⟨s, .wick 0, tokArgs, 20, 0, c, ⟨rfl, by decide +kernel, by decide +kernel, h1⟩, a0, by rw [a1]; decide, a2⟩

theorem wit_TokensOfCopies_sent : ∃ s w x n e c, Cancels s w x n e c ∧ signalSent w.core e c s = true := by
  let s : State := { nextOf (exec (.wsigSignal 0 0) (moved true 32)) with cur := wicked.cur }
  obtain ⟨c, d, h1, h2, h3⟩ := copy_elim (s := s) (core := 0) (e := 0) (p := fun c _ => signalSent 0 0 c s) (by decide +kernel)
  exact ⟨s, .wick 0, tokArgs, 20, 0, c, ⟨rfl, by decide +kernel, by decide +kernel, h1⟩, h3⟩

/-! ### States for streams and queues -/

/-- A stream of team 0 with some x registers, at the last unit of the innermost of two loops. -/
def riding (xs : Tbl W64) : Stream :=
  { team := 0, ctx := 0, id := 9, st := .running, code := List.replicate 8 0 ++ [0xCA1, 0], pc := 4, xs := xs, loops := [(2, 6, 1), (1, 6, 5)], walks := []
    drops := 0, qmask := 255, locks := [], seq := 0, stopReq := false }

/-- An entry of a LANES whose lanes are all v. -/
def entryOf (lanes : Nat) (v : W32) : QEntry := { runs := [{ val := v, cnt := 32, splice := false }], lanes := lanes }

/-- A core on which the stream in slot 3 executes; queue q has q entries but queue 6, which has 64. -/
noncomputable def streamed (s : State) (st : Stream) : State :=
  let s := s.updCore 0 fun k => { k with
    streams := [(3, st)]
    queues := (List.range 8).map fun q => { st := .opened, team := 0, stream := 3, entries := List.replicate (if q = 6 then 64 else q) (entryOf 20 0x3F800000) } }
  { s with cur := { Cur.idle with by_ := .stream 0 3, pc := 80, len := 2 } }

/-- Operands of lantern code. -/
def streamArgs (dst : BitVec 10) : Args := { Args.bare with dst := dst, a := .num 0, b := .num 2, c := .num 4 }

theorem wit_StreamControl_put : ∃ s core slot st x, streamActs s core slot st = true ∧ (entriesOf s core (qField x 0 3)).length < 64 :=
  ⟨streamed base (riding []), 0, 3, riding [], streamArgs 7, by decide +kernel⟩

theorem wit_StreamControl_transform : ∃ s core slot st, ∃ x : Args, ∃ n rest m f, streamActs s core slot st = true ∧ entriesOf s core (qField x 3 3) = n :: rest ∧
    (if qField x 0 3 = qField x 3 3 then rest else entriesOf s core (qField x 0 3)).length < 64 ∧
    transformed (qField x 6 2) (streamVal st x.b).toNat n = some (m, f) :=
  ⟨streamed base (riding []), 0, 3, riding [], { streamArgs (6 + 6 * 8 + 64) with b := .lit 0x40000000 }, entryOf 20 0x3F800000,
    List.replicate 63 (entryOf 20 0x3F800000), 20, _, by decide +kernel, by decide +kernel, by decide +kernel, rfl⟩

theorem wit_StreamControl_ends : ∃ s core slot st, ∃ x : Args, ∃ n rest, streamActs s core slot st = true ∧ entriesOf s core (qField x 3 3) = n :: rest ∧
    (if qField x 0 3 = qField x 3 3 then rest else entriesOf s core (qField x 0 3)).length < 64 ∧
    transformed (qField x 6 2) (streamVal st x.b).toNat n = none :=
  ⟨streamed base (riding []), 0, 3, riding [], { streamArgs (7 + 1 * 8) with b := .lit 0x100 }, entryOf 20 0x3F800000, [], by decide +kernel, by decide +kernel,
    by decide +kernel, rfl⟩

/-- A stream with a list of 20 indices at 0 and elements at 4096 in the scratchpad. -/
def listing : Stream := riding [(0, 0), (1, 20), (2, 4096)]

theorem wit_StreamLists_none : ∃ s core slot st, ∃ x : Args, streamActs s core slot st = true ∧ (listOp st x).count = 0 :=
  ⟨streamed base (riding []), 0, 3, riding [], streamArgs 0, by decide +kernel⟩

theorem wit_StreamLists_some : ∃ s core slot st, ∃ x : Args, streamActs s core slot st = true ∧ (listOp st x).count ≠ 0 ∧
    (listOp st x).ok s (areaOf s (.wick st.team)) = true ∧ (entriesOf s core (qField x 0 3)).length + (listOp st x).ch ≤ 64 ∧
    (listOp st x).ch ≤ (entriesOf s core (qField x 0 3)).length :=
  ⟨streamed base listing, 0, 3, listing, streamArgs (4 + 3 * 8 + 5 * 32 + 256), by decide +kernel⟩

/-- A DCT tile: NNZ 4, two rows, and from some value on its values. -/
def dctTile : List Byte :=
  toBytes 4 2 ++ toBytes 2 2 ++ ((List.range 32).map fun i => BitVec.ofNat 8 (3 * i % 32)) ++
    ((List.range 33).flatMap fun i => toBytes (if i ≤ 2 then 2 * i else 0) 2) ++ ((List.range 4).map fun i => BitVec.ofNat 8 (5 * i)) ++ [0, 0] ++
    (List.range 4).flatMap fun i => toBytes (100 + i) 4

/-- A DCT array of one tile (R341, R299): its header, its lists and the tile at 128. -/
def dctArray : List Byte :=
  toBytes (2 ^ 32 + 1) 8 ++ toBytes 64 8 ++ toBytes 68 8 ++ toBytes 80 8 ++ toBytes 96 8 ++ List.replicate 24 0 ++ toBytes 0 4 ++ toBytes 0 4 ++
    toBytes 1 4 ++ List.replicate 4 0 ++ toBytes 0 4 ++ List.replicate 12 0 ++ toBytes 128 8 ++ List.replicate 24 0 ++ dctTile

/-- The image of a handle of a type that has no scale of its coordinates. -/
def unscaled (h : BitVec 512) : BitVec 512 := (h.truncate 352).zeroExtend 512

/-- A stream whose team has in h4 the DCT array, at 1024, with the next row of its walk. -/
noncomputable def walking (t i : Nat) : State :=
  let s := base.setHandle 0 4 (unscaled (handleImg 5 0 1 2 0 0 0 0 0 1024 [32, 32]))
  streamed { s with mem := Memory.writeN s.mem ((Space.scratch 0).key 1024) dctArray } { riding [] with walks := [(4, (t, i))] }

/-- Its stream. -/
def walker (t i : Nat) : Stream := { riding [] with walks := [(4, (t, i))] }

/-- What the `sdct` clause asks. -/
abbrev Walks (s s1 : State) (core slot : Nat) (st : Stream) (x : Args) (hd : DctHead) (t i : Nat) : Prop :=
  streamActs s core slot st = true ∧
    let w : Who := .wick st.team
    let e := st.eng core slot s
    let h := takeHandle s st.team (numOf x.a)
    h.ok (areaOf s w) = true ∧ h.typ = 5 ∧ Tbl.get st.walks h.num (0, 0) = (t, i) ∧
      (entriesOf s core (qField x 0 3)).length + (if qField x 3 1 = 1 then 33 else 2) ≤ 64 ∧ h.dctHead e s = .ok (.ok hd) s1 ∧ countedOn s s1

/-- The state that a read leaves. -/
def leftBy {α : Type} (r : PRes α) (s : State) : State :=
  match r with
  | .ok _ u => u
  | _ => s

/-- A header or a tile has been read, which has moved on nothing but the counters of accesses. -/
def readBy {α : Type} (s : State) (p : α → Bool) (a : Except Cause α) (u : State) : Bool :=
  match a with
  | .ok d => decide (u = { s with versions := u.versions }) && p d
  | .error _ => false

/-- A header or a tile that is read, with what that leaves. -/
theorem walk_elim {α : Type} {r : PRes (Except Cause α)} {s v : State} {p : α → Bool}
    (h : okWith r (readBy s p) = true) : ∃ d, r = .ok (.ok d) (leftBy r v) ∧ countedOn s (leftBy r v) ∧ p d = true := by
  obtain ⟨a, u, h1, h2⟩ := okWith_elim h
  subst h1
  cases a with
  | error _ => exact absurd h2 (by simp [readBy])
  | ok d =>
    simp only [readBy, Bool.and_eq_true, decide_eq_true_eq] at h2
    exact ⟨d, rfl, h2.1, h2.2⟩

/-- Operands of `sdct` of h4, of rows or of tiles, into queue 1. -/
def dctArgs (tiles : Bool) : Args := { streamArgs (if tiles then 9 else 1) with a := .num 4 }

theorem wit_StreamWalks_over : ∃ s s1 core slot st x hd t i, Walks s s1 core slot st x hd t i ∧ hd.nt ≤ t := by
  let s := walking 1 0
  obtain ⟨hd, h1, h2, h3⟩ := walk_elim (r := (takeHandle s 0 4).dctHead ((walker 1 0).eng 0 3 s) s) (s := s) (v := s)
    (p := fun hd => decide (hd.nt ≤ 1)) (by decide +kernel)
  exact ⟨s, _, 0, 3, walker 1 0, dctArgs false, hd, 1, 0, ⟨by decide +kernel, by decide +kernel, by decide +kernel, by decide +kernel, by decide +kernel, h1, h2⟩,
    of_decide_eq_true h3⟩

/-- A tile of the walk. -/
abbrev WalksIn (s s1 s2 : State) (core slot : Nat) (st : Stream) (x : Args) (hd : DctHead) (t i : Nat) (d : DctTile) : Prop :=
  Walks s s1 core slot st x hd t i ∧ t < hd.nt ∧ (takeHandle s st.team (numOf x.a)).dctTile (st.eng core slot s) hd t s1 = .ok (.ok d) s2 ∧ countedOn s s2 ∧
    d.bad = false

/-- The header of the one tile there is. -/
def oneTile : DctHead := { nt := 1, ntr := 1, trow := 64, tptr := 68, tcol := 80, tstor := 96 }

/-- What reading a walk's header leaves. -/
noncomputable def headRead (i : Nat) : State :=
  leftBy ((takeHandle (walking 0 i) 0 4).dctHead ((walker 0 i).eng 0 3 (walking 0 i)) (walking 0 i)) (walking 0 i)

theorem walks_tile (i : Nat) (p : DctTile → Bool) (rows : Bool)
    (h : (streamActs (walking 0 i) 0 3 (walker 0 i) && (takeHandle (walking 0 i) 0 4).ok (areaOf (walking 0 i) (.wick 0)) &&
      decide ((takeHandle (walking 0 i) 0 4).typ = 5 ∧ Tbl.get (walker 0 i).walks (takeHandle (walking 0 i) 0 4).num (0, 0) = (0, i) ∧
        (entriesOf (walking 0 i) 0 (qField (dctArgs rows) 0 3)).length + (if qField (dctArgs rows) 3 1 = 1 then 33 else 2) ≤ 64)) = true)
    (h1 : okWith ((takeHandle (walking 0 i) 0 4).dctHead ((walker 0 i).eng 0 3 (walking 0 i)) (walking 0 i)) (readBy (walking 0 i) fun hd => decide (hd = oneTile)) = true)
    (h2 : okWith ((takeHandle (walking 0 i) 0 4).dctTile ((walker 0 i).eng 0 3 (walking 0 i)) oneTile 0 (headRead i))
      (readBy (walking 0 i) fun d => !d.bad && p d) = true) :
    ∃ s1 s2 d, WalksIn (walking 0 i) s1 s2 0 3 (walker 0 i) (dctArgs rows) oneTile 0 i d ∧ p d = true := by
  simp only [Bool.and_eq_true, decide_eq_true_eq] at h
  obtain ⟨hd, h3, h4, h5⟩ := walk_elim (v := walking 0 i) h1
  obtain rfl := of_decide_eq_true h5
  obtain ⟨d, h6, h7, h8⟩ := walk_elim (v := walking 0 i) h2
  simp only [Bool.and_eq_true, Bool.not_eq_true'] at h8
  exact ⟨headRead i, _, d, ⟨⟨h.1.1, h.1.2, h.2.1, h.2.2.1, h.2.2.2, h3, h4⟩, by decide, h6, h7, h8.1⟩, h8.2⟩

theorem wit_StreamWalks_row : ∃ s s1 s2 core slot st x hd t i d r, WalksIn s s1 s2 core slot st x hd t i d ∧ qField x 3 1 = 0 ∧ d.rows[i]? = some r := by
  obtain ⟨s1, s2, d, h1, h2⟩ := walks_tile 1 (fun d => d.rows[1]? == some 3) false (by decide +kernel) (by decide +kernel) (by decide +kernel)
  exact ⟨_, s1, s2, 0, 3, _, _, _, 0, 1, d, 3, h1, by decide, by simpa using h2⟩

theorem wit_StreamWalks_tile : ∃ s s1 s2 core slot st x hd t i d, WalksIn s s1 s2 core slot st x hd t i d ∧ qField x 3 1 = 1 ∧ i = 0 := by
  obtain ⟨s1, s2, d, h1, -⟩ := walks_tile 0 (fun _ => true) true (by decide +kernel) (by decide +kernel) (by decide +kernel)
  exact ⟨_, s1, s2, 0, 3, _, _, _, 0, 0, d, h1, by decide, rfl⟩

/-- What the `svox.emit` clauses ask, but for the slots in use. -/
abbrev Emits (s : State) (core slot : Nat) (st : Stream) (x : Args) : Prop :=
  streamActs s core slot st = true ∧
    let w : Who := .wick st.team
    let h := takeHandle s st.team (numOf x.a)
    chipArray s w h = true ∧ h.typ = 2 ∧ h.ch = 1 ∧ h.fmt = 0 ∧ h.fixed = false ∧ (entriesOf s core (qField x 1 3)).length < 64

theorem wit_StreamWalks_none : ∃ s core slot st, ∃ x : Args, Emits s core slot st x ∧
    (usedSlots s (.wick st.team) (takeHandle s st.team (numOf x.a)) (st.x (numOf x.c)).toNat).take 32 = [] :=
  ⟨streamed (handled base) (riding []), 0, 3, riding [], { streamArgs 2 with a := .num 6 }, by decide +kernel⟩

theorem wit_StreamWalks_some : ∃ s core slot st, ∃ x : Args, Emits s core slot st x ∧
    (usedSlots s (.wick st.team) (takeHandle s st.team (numOf x.a)) (st.x (numOf x.c)).toNat).take 32 ≠ [] :=
  let s := streamed (handled base) (riding [(4, 15)])
  ⟨{ s with mem := Memory.writeLE s.mem ((Space.scratch 0).key (2048 + 120)) 8 5 }, 0, 3, riding [(4, 15)], { streamArgs 2 with a := .num 6 }, by decide +kernel⟩

/-- A stream whose team has in h6 a voxel table or an octant tree and in h7 a list of points, of which the second is next; the tree's first
node is the root. -/
noncomputable def inserting (oct : Bool) (point : List Nat) (edge : Nat) : State :=
  let h6 := if oct then BitVec.ofNat 512 ((handleImg 4 0 1 3 0 0 edge 0 0 2048 [8, 8, 8]).toNat + 3 * 2 ^ 112 + 8 * 2 ^ (128 + 72) + 8 * 2 ^ 320)
    else handleImg 2 0 1 2 0 0 edge 4 3 2048 [6, 7]
  let s := (base.setHandle 0 6 h6).setHandle 0 7 (unscaled (handleImg 6 0 point.length 1 0 0 0 0 0 1024 [3]))
  let m := Memory.writeN s.mem ((Space.scratch 0).key (1024 + 4 * point.length)) (point.flatMap fun n => toBytes n 4)
  streamed { s with mem := if oct then Memory.writeN m ((Space.scratch 0).key 2048) (toBytes 1 8 ++ toBytes 1 8) else m } (riding [(4, 1), (5, 1)])

/-- Operands of an instruction that takes a point of h7 into h6. -/
def pointArgs : Args := { streamArgs 1 with a := .num 6, b := .num 7 }

/-- What the clauses on points ask. -/
abbrev Points (s : State) (core slot : Nat) (st : Stream) (x : Args) (pl : Plan) : Prop :=
  streamActs s core slot st = true ∧
    let w : Who := .wick st.team
    let h := takeHandle s st.team (numOf x.a)
    let p := takeHandle s st.team (numOf x.b)
    let c := numOf x.c
    pointArrays s w h p = true ∧ st.x (c + 1) = 1 ∧ (st.x c).toNat < p.size 0 ∧ pointPlan s w h p (st.x c).toNat = some pl

/-- A plan of a point. -/
theorem plan_elim {o : Option Plan} {p : Plan → Bool} (h : (o.map p) = some true) : ∃ pl, o = some pl ∧ p pl = true := by
  cases o with
  | none => exact absurd h (by simp)
  | some pl => exact ⟨pl, rfl, by simpa using h⟩

theorem wit_StreamWalks_voxel : ∃ s core slot st x pl f is, Points s core slot st x pl ∧ pl.fetches = [f] ∧ f.is = some is ∧
    let w : Who := .wick st.team
    let h := takeHandle s st.team (numOf x.a)
    h.typ = 2 ∧ h.ch = 1 ∧ h.fmt = 0 ∧ h.fixed = false ∧ ofBytes (arrayBytes s w h (8 * h.hash is) 8) = 0 := by
  let s := inserting false [0x3F800000, 0x40000000] 0
  let h := takeHandle s 0 6
  obtain ⟨pl, h1, h2⟩ := plan_elim (o := pointPlan s (.wick 0) h (takeHandle s 0 7) 1) (p := fun pl => pl.fetches.length == 1 && pl.fetches.all fun f =>
    f.is.any fun is => ofBytes (arrayBytes s (.wick 0) h (8 * h.hash is) 8) == 0) (by decide +kernel)
  simp only [Bool.and_eq_true, beq_iff_eq, List.length_eq_one_iff] at h2
  obtain ⟨⟨f, h3⟩, h4⟩ := h2
  rw [h3] at h4
  simp only [List.all_cons, List.all_nil, Bool.and_true, Option.any_eq_true, beq_iff_eq] at h4
  obtain ⟨is, h5, h6⟩ := h4
  exact ⟨s, 0, 3, riding [(4, 1), (5, 1)], pointArgs, pl, f, is, ⟨by decide +kernel, by decide +kernel, by decide +kernel, by decide +kernel, h1⟩, h3, h5,
    by decide +kernel, by decide +kernel, by decide +kernel, by decide +kernel, h6⟩

theorem wit_StreamWalks_tree : ∃ s core slot st x pl f is n u, Points s core slot st x pl ∧ pl.fetches = [f] ∧ f.is = some is ∧
    let h := takeHandle s st.team (numOf x.a)
    h.typ = 4 ∧ (entriesOf s core (qField x 0 3)).length < 64 ∧
      h.insertOct (st.eng core slot s) (tapTag 0 0) is h.depth 0 false s = .ok (.new n) u ∧ countedOn { s with mem := u.mem } u := by
  let s := inserting true [0x3F800000, 0x40000000, 0] 0
  let st := riding [(4, 1), (5, 1)]
  let h := takeHandle s 0 6
  let w : Who := .wick 0
  obtain ⟨pl, h1, h2⟩ := plan_elim (o := pointPlan s w h (takeHandle s 0 7) 1) (p := fun pl => pl.fetches.length == 1 && pl.fetches.all fun f =>
    f.is.any fun is => okWith (h.insertOct (st.eng 0 3 s) (tapTag 0 0) is h.depth 0 false s) fun r u => match r with
      | .new _ => decide (u = { s with mem := u.mem, versions := u.versions })
      | _ => false) (by decide +kernel)
  simp only [Bool.and_eq_true, beq_iff_eq, List.length_eq_one_iff] at h2
  obtain ⟨⟨f, h3⟩, h4⟩ := h2
  rw [h3] at h4
  simp only [List.all_cons, List.all_nil, Bool.and_true, Option.any_eq_true] at h4
  obtain ⟨is, h5, h6⟩ := h4
  obtain ⟨r, u, h7, h8⟩ := okWith_elim h6
  split at h8
  · next n =>
    exact ⟨s, 0, 3, st, pointArgs, pl, f, is, n, u, ⟨by decide +kernel, by decide +kernel, by decide +kernel, by decide +kernel, h1⟩, h3, h5,
      by decide +kernel, by decide +kernel, h7, (of_decide_eq_true h8 : u = { s with mem := u.mem, versions := u.versions })⟩
  · exact absurd h8 (by simp)

theorem wit_StreamWalks_outside : ∀ oct, ∃ s core slot st x pl, Points s core slot st x pl ∧ (∀ f, f ∈ pl.fetches → f.is = none) ∧
    (takeHandle s st.team (numOf x.a)).typ = (if oct = true then 4 else 2) := by
  intro oct
  let s := inserting oct (if oct then [0x42000000, 0x40000000, 0] else [0x42000000, 0x40000000]) 1
  have h0 : ((pointPlan s (.wick 0) (takeHandle s 0 6) (takeHandle s 0 7) 1).map fun pl => pl.fetches.all fun f => f.is.isNone) = some true ∧
      streamActs s 0 3 (riding [(4, 1), (5, 1)]) = true ∧ pointArrays s (.wick 0) (takeHandle s 0 6) (takeHandle s 0 7) = true ∧ 1 < (takeHandle s 0 7).size 0 ∧
      (takeHandle s 0 6).typ = (if oct = true then 4 else 2) := by
    cases oct <;> decide +kernel
  obtain ⟨h1, h2, h3, h4, h5⟩ := h0
  obtain ⟨pl, h6, h7⟩ := plan_elim h1
  refine ⟨s, 0, 3, riding [(4, 1), (5, 1)], pointArgs, pl, ⟨h2, h3, by decide +kernel, h4, h6⟩, fun f hf => ?_, h5⟩
  simpa using List.all_eq_true.mp h7 f hf

/-- The core with its stream, between instructions. -/
noncomputable def between (pc : Nat) (how : StreamSt) : State :=
  { streamed base { riding [] with pc := pc, st := how } with cur := base.cur }

theorem wit_StreamStates_runs : ∃ s core slot st o x n, streamAt s core slot = some st ∧ nextStream s core = some slot ∧
    (s.die (dieOfCore core)).up = true ∧ st.stopReq = false ∧ teamOver s st.team = false ∧
    st.pc < st.code.length ∧ lanternAt st.code st.pc = some (o, x, n) := by
  have h : (lanternAt (List.replicate 8 (0 : W32) ++ [0xCA1, 0]) 8).isSome = true := by decide +kernel
  obtain ⟨⟨o, x, n⟩, h⟩ := Option.isSome_iff_exists.mp h
  exact ⟨between 8 .running, 0, 3, { riding [] with pc := 8, st := .running }, o, x, n, by decide +kernel, by decide +kernel, by decide +kernel, rfl,
    by decide +kernel, by decide, h⟩

theorem wit_StreamStates_past : ∃ s core slot st, streamAt s core slot = some st ∧ nextStream s core = some slot ∧
    (s.die (dieOfCore core)).up = true ∧ st.stopReq = false ∧ teamOver s st.team = false ∧
    st.code.length ≤ st.pc ∧ (s.core core).queues.length = 8 :=
  ⟨between 10 .running, 0, 3, { riding [] with pc := 10, st := .running }, by decide +kernel⟩

/-- The Wick, which names the stream or, with s2, another. -/
noncomputable def naming (how : StreamSt) : State :=
  ({ between 4 how with cur := wicked.cur }).updTeam 0 fun tm => { tm with sregs := [(1, 9), (2, 8)] }

theorem wit_StreamStates_stops : ∃ s w x slot st, partyActs s w x = true ∧ (s.core w.core).queues.length = 8 ∧
    streamOf s w.core (w.team s) (partyVal s w false x.a) = some slot ∧ streamAt s w.core slot = some st ∧ st.st = .running ∧
    busyParty s (streamParty w.core slot) = false ∧ modBits x 4 1 = 0 :=
  ⟨naming .running, .wick 0, { Args.bare with dst := 63, a := .s 1 }, 3, { riding [] with st := .running }, by decide +kernel⟩

theorem wit_StreamStates_over : ∃ s w x slot st, partyActs s w x = true ∧ (s.core w.core).queues.length = 8 ∧
    streamOf s w.core (w.team s) (partyVal s w false x.a) = some slot ∧ streamAt s w.core slot = some st ∧ st.st ≠ .running :=
  ⟨naming .overflow, .wick 0, { Args.bare with dst := 63, a := .s 1, mod := 0x10 }, 3, { riding [] with st := .overflow }, by decide +kernel⟩

theorem wit_StreamStates_none : ∃ s w x, partyActs s w x = true ∧ (s.core w.core).queues.length = 8 ∧
    streamOf s w.core (w.team s) (partyVal s w false x.a) = none :=
  ⟨naming .running, .wick 0, { Args.bare with dst := 63, a := .s 2 }, by decide +kernel⟩

/-- A lantern program of QMASK, some lock descriptors and code, in clear (R328, R329). -/
def program (qmask : Nat) (locks : List Nat) (code : List W32) : List Byte :=
  toBytes (qmask + locks.length * 2 ^ 8 + code.length * 2 ^ 32) 8 ++ (locks.flatMap fun l => toBytes l 8) ++
    List.replicate (56 - 8 * locks.length) 0 ++ code.flatMap fun u => toBytes u.toNat 4

/-- A state of team 0 whose context owns buffer 1, with a program at its start, some streams and the queue 2 of a state. -/
noncomputable def launchingStream (s : State) (locks : List Nat) (code : List W32) (n : Nat) (q : QueueSt) : State :=
  let s := s.updCtx 0 fun c => { c with bufs := [(1, bufOf 0 0x100000 15 2 0)] }
  let s := s.updTeam 0 fun tm => { tm with sregs := [(1, 2 ^ 48), (2, 7)] }
  let s := s.updCore 0 fun k => { k with
    streams := (List.range n).map fun i => (i, riding [])
    queues := (List.range 8).map fun i => { st := if i = 2 then q else .free, team := 0, stream := 0, entries := [] } }
  { s with mem := Memory.writeN s.mem (Space.host.key 0) (program 4 locks code) }

/-- Operands of `lrun` with two parameters. -/
def lrunArgs : Args := { Args.bare with dst := 20, a := .s 1, b := .s 1, mod := 0x10 }

/-- A program that is read, or none, with the state as it was. -/
theorem stream_elim {r : PRes (Option (StreamHead × List W32))} {s : State} {p : Option (StreamHead × List W32) → Bool}
    (h : okWith r (fun a u => decide (u = s) && p a) = true) : ∃ a, r = .ok a s ∧ p a = true := by
  obtain ⟨a, u, h1, h2⟩ := okWith_elim h
  simp only [Bool.and_eq_true, decide_eq_true_eq] at h2
  exact ⟨a, by rw [h1, h2.1], h2.2⟩

/-- What the statement on `lrun` asks. -/
abbrev Runs_ (s s' : State) (w : Who) (x : Args) (r : Option (StreamHead × List W32)) : Prop :=
  partyActs s w x = true ∧ w.owesPath s = false ∧
    readStream w.party (s.ctxOfTeam (w.team s)) (partyVal s w false x.a).toNat (issueBegun s w x) = .ok r s' ∧
    s'.groups = (issueBegun s w x).groups ∧ s'.teams = s.teams ∧ (∀ c, s'.core c = { s.core c with tcache := (s'.core c).tcache }) ∧
    (s.core w.core).queues.length = 8

/-- Where a program is read without a change of state, the rest of what the statement asks is plain. -/
theorem runs_of {s : State} {w : Who} {x : Args} {p : Option (StreamHead × List W32) → Bool}
    (h : (partyActs s w x && !w.owesPath s && decide ((s.core w.core).queues.length = 8)) = true) (hg : (issueBegun s w x).teams = s.teams)
    (hc : (issueBegun s w x).cores = s.cores)
    (hr : okWith (readStream w.party (s.ctxOfTeam (w.team s)) (partyVal s w false x.a).toNat (issueBegun s w x))
      (fun a u => decide (u = issueBegun s w x) && p a) = true) : ∃ a, Runs_ s (issueBegun s w x) w x a ∧ p a = true := by
  simp only [Bool.and_eq_true, Bool.not_eq_true', decide_eq_true_eq] at h
  obtain ⟨a, h1, h2⟩ := stream_elim hr
  exact ⟨a, ⟨h.1.1, h.1.2, h1, rfl, hg, fun c => by simp only [State.core, hc], h.2⟩, h2⟩

theorem wit_StreamStarts_bad : ∃ s s' w x, Runs_ s s' w x none := by
  obtain ⟨a, h1, h2⟩ := runs_of (s := launchingStream wicked [] [0xFFFFFFFF] 0 .free) (w := .wick 0) (x := lrunArgs) (p := (·.isNone))
    (by decide +kernel) rfl rfl (by decide +kernel)
  obtain rfl : a = none := by simpa using h2
  exact ⟨_, _, _, _, h1⟩

theorem any_elim {a : Option (StreamHead × List W32)} {p : StreamHead × List W32 → Bool} (h : a.any p = true) :
    ∃ hd code, a = some (hd, code) ∧ p (hd, code) = true := by
  obtain _ | ⟨hd, code⟩ := a
  · exact absurd h (by simp)
  · exact ⟨hd, code, rfl, h⟩

theorem wit_StreamStarts_full : ∃ s s' w x h code, Runs_ s s' w x (some (h, code)) ∧ 8 ≤ (s.core w.core).streams.length := by
  obtain ⟨a, h1, h2⟩ := runs_of (s := launchingStream wicked [] [0xCA1, 0] 8 .free) (w := .wick 0) (x := lrunArgs) (p := fun a => a.any fun _ => true)
    (by decide +kernel) rfl rfl (by decide +kernel)
  obtain ⟨h, code, rfl, -⟩ := any_elim h2
  exact ⟨_, _, _, _, h, code, h1, by decide +kernel⟩

/-- Whether a queue stands in the way of a program. -/
def queuesBlock (s : State) (w : Who) (h : StreamHead) : Bool :=
  (List.range 8).any fun q => (h.qmask / 2 ^ q % 2 == 1) && queueBusy (w.team s) ((s.core w.core).queue q)

theorem wit_StreamStarts_blocked : ∃ s s' w x h code, Runs_ s s' w x (some (h, code)) ∧ (s.core w.core).streams.length < 8 ∧ queuesBlock s w h = true := by
  obtain ⟨a, h1, h2⟩ := runs_of (s := launchingStream wicked [] [0xCA1, 0] 7 .opened) (w := .wick 0) (x := lrunArgs)
    (p := fun a => a.any fun q => queuesBlock (launchingStream wicked [] [0xCA1, 0] 7 .opened) (.wick 0) q.1) (by decide +kernel) rfl rfl (by decide +kernel)
  obtain ⟨h, code, rfl, h4⟩ := any_elim h2
  exact ⟨_, _, _, _, h, code, h1, by decide +kernel, h4⟩

/-- What the clause on a start asks, with some locks. -/
abbrev StreamBegins (s s' : State) (w : Who) (x : Args) (n : Nat) : Prop :=
  ∃ h code slot, Runs_ s s' w x (some (h, code)) ∧
    let k := s.core w.core
    k.streams.length < 8 ∧ queuesBlock s w h = false ∧
      (List.range 8).find? (fun n => (Tbl.get? k.streams n).isNone && !busyParty s' (streamParty w.core n)) = some slot ∧
      let locks := (h.locks.map (lockOf s w x)).filter fun l => l.2.2.1 ≠ 0
      k.entryWait = [] ∧ locks.length ≤ (freeEntries k).length ∧ locks.length = n

theorem wit_StreamStarts_wick : ∃ s s' w x, StreamBegins s s' w x 1 := by
  obtain ⟨a, h1, h2⟩ := runs_of (s := launchingStream wicked [0x11, 0x121] [0xCA1, 0] 7 .closed) (w := .wick 0) (x := lrunArgs)
    (p := fun a => a.any fun (q : StreamHead × List W32) => !queuesBlock (launchingStream wicked [0x11, 0x121] [0xCA1, 0] 7 .closed) (.wick 0) q.1 && decide (q.1.locks = [(0, 1, 1, false), (1, 1, 2, false)]))
    (by decide +kernel) rfl rfl (by decide +kernel)
  obtain ⟨h, code, rfl, h4⟩ := any_elim h2
  simp only [Bool.and_eq_true, Bool.not_eq_true', decide_eq_true_eq] at h4
  refine ⟨_, _, _, _, h, code, 7, h1, by decide +kernel, h4.1, by decide +kernel, by decide +kernel, ?_, ?_⟩ <;> rw [h4.2] <;> decide +kernel

/-- A group as a party. -/
noncomputable def groupWho (s : State) (x : Args) : Who := .group (issueMem s 0 (grpOf s 0) x)

theorem wit_StreamStarts_group : ∃ s s' w x, w = groupWho s x ∧ StreamBegins s s' w x 0 := by
  obtain ⟨a, h1, h2⟩ := runs_of (s := launchingStream one [] [0xCA1, 0] 7 .closed) (w := groupWho (launchingStream one [] [0xCA1, 0] 7 .closed) lrunArgs) (x := lrunArgs)
    (p := fun a => a.any fun (q : StreamHead × List W32) => !queuesBlock (launchingStream one [] [0xCA1, 0] 7 .closed) (groupWho (launchingStream one [] [0xCA1, 0] 7 .closed) lrunArgs) q.1 && decide (q.1.locks = []))
    (by decide +kernel) rfl rfl (by decide +kernel)
  obtain ⟨h, code, rfl, h4⟩ := any_elim h2
  simp only [Bool.and_eq_true, Bool.not_eq_true', decide_eq_true_eq] at h4
  refine ⟨_, _, _, _, rfl, h, code, 7, h1, by decide +kernel, h4.1, by decide +kernel, by decide +kernel, ?_, ?_⟩ <;> rw [h4.2] <;> decide +kernel

/-- Group 0 and the queues of its core; queue 2 has some entries. -/
noncomputable def queued (st : QueueSt) (n : Nat) : State :=
  one.updCore 0 fun k => { k with
    queues := (List.range 8).map fun q => { st := if q = 2 then st else .free, team := 0, stream := 0, entries := if q = 2 then List.replicate n (entryOf 20 7) else [] } }

/-- What the statement on queues asks. -/
abbrev Queues (s : State) (g : Nat) (grp : Group) (x : Args) : Prop :=
  mayAct s g grp [x] = true ∧ roomy grp 128 = true ∧ actives s grp x ≠ 0 ∧
    let core := coreOfGroup g
    let q := numOf x.a
    let u := (s.core core).queue q
    q < 8 ∧ (s.core core).queues.length = 8 ∧ ownQueue grp u = true ∧ (u.entries.all fun e => Runs.wf e.runs) = true

/-- Operands of a queue instruction. -/
def queueArgs (dst mod : BitVec 10) : Args := { Args.bare with dst := dst, a := .num 2, b := .num 15, c := .lit 32, mod := mod }

theorem wit_QueueMoves_takes : ∃ s g grp x n, Queues s g grp x ∧ n = modBits x 4 2 + 1 ∧ x.dst.toNat + n ≤ 1024 ∧
    n ≤ ((s.core (coreOfGroup g)).queue (numOf x.a)).entries.length :=
  ⟨queued .opened 4, 0, grpOf (queued .opened 4) 0, queueArgs 1020 0x30, 4, by decide +kernel⟩

theorem wit_QueueMoves_closed : ∃ s g grp x, Queues s g grp x ∧ ((s.core (coreOfGroup g)).queue (numOf x.a)).entries = [] ∧
    ((s.core (coreOfGroup g)).queue (numOf x.a)).st = .closed :=
  ⟨queued .closed 0, 0, grpOf (queued .closed 0) 0, queueArgs 3 0, by decide +kernel⟩

theorem wit_QueueMoves_puts : ∃ s g grp x, Queues s g grp x ∧ ((s.core (coreOfGroup g)).queue (numOf x.a)).st = .opened ∧
    ((s.core (coreOfGroup g)).queue (numOf x.a)).entries.length < 64 :=
  ⟨queued .opened 63, 0, grpOf (queued .opened 63) 0, { queueArgs 3 0 with b := .k 3 }, by decide +kernel⟩

/-! ### States for the scheduler -/

/-- A sub-core with na active groups and np pending ones, the oldest pending one first entered at a cycle; of the active ones the odd ones
sleep. The cycle is 5000. -/
noncomputable def crowded (na np entered : Nat) : State :=
  let asleep (q : Group) : Group := { q with lanes := q.lanes.map fun (a : Lane) => { a with st := .asleep, wake := 1000000 } }
  let s : State := { base with
    now := 5000
    groups := (List.range (na + np)).map fun i => (i, { (if i < na ∧ i % 2 = 1 then asleep (grpOf base 0) else grpOf base 0) with idx := i }) }
  s.updCore 0 fun k => { k with
    subs := k.subs.set 0 { active := (List.range na).map fun i => (i, 200 - 7 * i), pending := (List.range np).map fun i => (na + i, entered + i), last := some 0
                           bubble := 5000 } }

/-- The sets of its first sub-core. -/
def crowd (na np entered : Nat) : SubCore :=
  { active := (List.range na).map fun i => (i, 200 - 7 * i), pending := (List.range np).map fun i => (na + i, entered + i), last := some 0, bubble := 5000 }

/-- What a swap of an unaged group asks. -/
abbrev Swaps (s : State) (c b : Nat) (q : SubCore) (i : Nat) : Prop :=
  setsOf s c b = some q ∧ q.bubble ≤ s.now ∧ (∀ j, j ∈ q.pending → (decide (Tbl.get q.pending j.1 0 + 2048 < s.now) && groupReady s (c * 64 + b * 16 + j.1)) = false) ∧
    oldestIn q.pending (fun i => groupReady s (c * 64 + b * 16 + i)) i

theorem wit_SubcoreSwaps_free : ∃ s c b q i, Swaps s c b q i ∧ lonely s c b i = true ∧ q.active.length < 8 :=
  ⟨crowded 3 2 4000, 0, 0, crowd 3 2 4000, 3, ⟨by decide +kernel, by decide +kernel, by decide +kernel,
    [], 4000, [(4, 4001)], rfl, by decide +kernel, by decide, by decide +kernel⟩, by decide +kernel, by decide⟩

theorem wit_SubcoreSwaps_full : ∃ s c b q i o, Swaps s c b q i ∧ lonely s c b i = true ∧ 8 ≤ q.active.length ∧
    oldestIn q.active (fun o => groupWaits s (c * 64 + b * 16 + o)) o ∧ lonely s c b o = true :=
  ⟨crowded 8 2 4000, 0, 0, crowd 8 2 4000, 8, 7, ⟨by decide +kernel, by decide +kernel, by decide +kernel,
    [], 4000, [(9, 4001)], rfl, by decide +kernel, by decide, by decide +kernel⟩, by decide +kernel, by decide,
    ⟨(List.range 7).map fun i => (i, 200 - 7 * i), 151, [], rfl, by decide +kernel, by decide +kernel, by decide⟩, by decide +kernel⟩

theorem wit_SubcoreSwaps_pair : ∃ s c b q i grp b' i' q', Swaps s c b q i ∧ Tbl.get? s.groups (c * 64 + b * 16 + i) = some grp ∧
    joinedPartner s grp = some (c * 64 + b' * 16 + i') ∧ b' < 4 ∧ i' < 16 ∧ b' ≠ b ∧
    setsOf s c b' = some q' ∧ q'.bubble ≤ s.now ∧ (Tbl.get? q'.pending i').isSome = true ∧ q.active.length < 8 ∧ q'.active.length < 8 := by
  let s0 := crowded 7 1 4000
  let s1 := s0.updGroup 7 fun q => { q with pair := some { partner := 30, cond := true, joined := true } }
  let s2 : State := { s1 with groups := Tbl.set s1.groups 16 { grpOf base 0 with idx := 30, pair := some { partner := 7, cond := false, joined := true } } }
  let s := s2.updCore 0 fun k => { k with subs := k.subs.set 1 { active := [], pending := [(0, 4000)], last := none, bubble := 0 } }
  exact ⟨s, 0, 0, crowd 7 1 4000, 7, grpOf s 7, 1, 0, { active := [], pending := [(0, 4000)], last := none, bubble := 0 },
    ⟨by decide +kernel, by decide +kernel, by decide +kernel, [], 4000, [], rfl, by decide +kernel, by decide, by decide⟩,
    by decide +kernel⟩

/-- What a swap of an aged group asks. -/
abbrev AgedSwaps (s : State) (c b : Nat) (q : SubCore) (i : Nat) : Prop :=
  setsOf s c b = some q ∧ q.bubble ≤ s.now ∧
    oldestIn q.pending (fun i => decide (Tbl.get q.pending i 0 + 2048 < s.now) && groupReady s (c * 64 + b * 16 + i)) i ∧ lonely s c b i = true

theorem wit_SubcoreSwaps_agedFree : ∃ s c b q i, AgedSwaps s c b q i ∧ q.active.length < 8 :=
  ⟨crowded 7 2 2951, 0, 0, crowd 7 2 2951, 7, ⟨by decide +kernel, by decide +kernel,
    ⟨[], 2951, [(8, 2952)], rfl, by decide +kernel, by decide, by decide +kernel⟩, by decide +kernel⟩, by decide⟩

theorem wit_SubcoreSwaps_agedFull : ∃ s c b q i o, AgedSwaps s c b q i ∧ 8 ≤ q.active.length ∧
    oldestIn q.active (fun o => !keptBy24 s (c * 64 + b * 16 + o)) o ∧ lonely s c b o = true :=
  ⟨crowded 8 2 2951, 0, 0, crowd 8 2 2951, 8, 7, ⟨by decide +kernel, by decide +kernel,
    ⟨[], 2951, [(9, 2952)], rfl, by decide +kernel, by decide, by decide +kernel⟩, by decide +kernel⟩, by decide,
    ⟨(List.range 7).map fun i => (i, 200 - 7 * i), 151, [], rfl, by decide +kernel, by decide +kernel, by decide⟩, by decide +kernel⟩

theorem wit_GroupTimers_yield : ∃ (s : State) (g : Nat) (grp : Group) (c : Nat) (k : SubG), Tbl.get? s.groups g = some grp ∧ grp.subs[c]? = some k ∧ 32 ≤ k.back ∧
    grp.issueSet k ≠ 0 :=
  let s := oneWith fun q => { q with subs := [{ lanes := BitVec.allOnes 32, back := 32, hprio := 0, lastX := 0 }] }
  ⟨s, 0, grpOf s 0, 0, { lanes := BitVec.allOnes 32, back := 32, hprio := 0, lastX := 0 }, by decide +kernel⟩

theorem wit_GroupTimers_latches : ∃ (s : State) (c b i : Nat) (q : SubCore) (grp : Group), setsOf s c b = some q ∧ q.last = some i ∧
    Tbl.get? s.groups (c * 64 + b * 16 + i) = some grp ∧ 64 < grp.protect :=
  let s := (crowded 1 0 0).updGroup 0 fun q => { q with protect := 65 }
  ⟨s, 0, 0, 0, crowd 1 0 0, grpOf s 0, by decide +kernel⟩

/-- A record that eight of the lanes of a group have reached. -/
def halfJoined : JoinRec := { j := 64, target := 0x100, awaited := 0xFFFF, parked := 0xFF, start := 10, kt := 4989, late := false }

theorem wit_GroupTimers_join : ∃ (s : State) (g : Nat) (grp : Group) (r : JoinRec), Tbl.get? s.groups g = some grp ∧ ctxRuns s (s.ctxOfTeam grp.team) = true ∧ grp.trap = none ∧
    grp.joins = [r] ∧ r.late = false ∧ r.start + r.kt < s.now ∧ r.awaited &&& ~~~r.parked ≠ 0 ∧ r.parked &&& ~~~grp.live = 0 :=
  let s := (crowded 1 0 0).updGroup 0 fun q => { q with joins := [halfJoined] }
  ⟨s, 0, grpOf s 0, halfJoined, by decide +kernel⟩

theorem wit_GroupTimers_sleep : ∃ (s : State) (g : Nat) (grp : Group), Tbl.get? s.groups g = some grp ∧ ctxRuns s (s.ctxOfTeam grp.team) = true ∧ (grp.lane 31).st = .asleep ∧
    (grp.lane 31).wake ≤ s.now :=
  let s := (crowded 1 0 0).updGroup 0 fun q => { q with lanes := q.lanes.map fun (a : Lane) => { a with st := .asleep, wake := 5000 } }
  ⟨s, 0, grpOf s 0, by decide +kernel⟩

/-- A group that has waited in `pjoin` for as long as it may, with or without a partner. -/
noncomputable def overdue (b : Bool) : State := (crowded 1 0 0).updGroup 0 fun q => { q with
  pair := if b then some { partner := 1, cond := true, joined := false } else none
  wait := some { kind := .pjoin, pc := 32, start := 5, bound := 4994, next := 40 }
  tvec := 256 }

theorem wit_GroupTimers_pair : ∀ b : Bool, ∃ (s : State) (g : Nat) (grp : Group) (w : Wait) (cur : Cur) (k : Bool) (n : List Nat), Tbl.get? s.groups g = some grp ∧
    ctxRuns s (s.ctxOfTeam grp.team) = true ∧ grp.wait = some w ∧ (w.kind = .pjoin ∨ w.kind = .gdrain ∨ ∃ c, w.kind = .pair c) ∧ w.start + w.bound < s.now ∧
    fetchAt s g grp grp.lastSub = some (cur, k, n) ∧ cur.pc = w.pc ∧ grp.parked = none ∧ cur.lanes &&& grp.live ≠ 0 ∧ 1 ≤ cur.len ∧ cur.len ≤ 3 ∧
    grp.trap = none ∧ grp.tvec ≠ 0 ∧ grp.pair.isSome = b := by
  intro b
  let s := overdue b
  have h : ((fetchAt s 0 (grpOf s 0) (grpOf s 0).lastSub).map fun r => decide (r.1.pc = 32 ∧ r.1.lanes &&& (grpOf s 0).live ≠ 0 ∧ 1 ≤ r.1.len ∧ r.1.len ≤ 3)) = some true := by
    cases b <;> decide +kernel
  obtain ⟨⟨cur, k, n⟩, h1, h2⟩ := Option.map_eq_some_iff.mp h
  obtain ⟨a1, a2, a3, a4⟩ := of_decide_eq_true h2
  exact ⟨s, 0, grpOf s 0, { kind := .pjoin, pc := 32, start := 5, bound := 4994, next := 40 }, cur, k, n, by cases b <;> decide +kernel,
    by cases b <;> decide +kernel, by cases b <;> decide +kernel, .inl rfl, by cases b <;> decide +kernel, h1, a1, by cases b <;> decide +kernel,
    a2, a3, a4, by cases b <;> decide +kernel⟩

theorem wit_GroupTimers_freed : ∃ (s : State) (g : Nat) (grp : Group), Tbl.get? s.groups g = some grp ∧ slotFreeable s g grp = true :=
  let s := (crowded 1 0 0).updGroup 0 fun q => { q with lanes := List.replicate 32 Lane.gone }
  ⟨s, 0, grpOf s 0, by decide +kernel⟩

/-! ### States for grids and for the host -/

theorem wit_TeamEnds_ended : ∃ s k tm, Tbl.get? s.teams k = some tm ∧ tm.stop = none ∧ teamQuiet s k = true ∧ tm.killed = false ∧ tm.wst = .ended ∧
    (s.groupsOf k).all (fun p => p.2.live == 0 && p.2.pending.all fun q => !q.2.demand) = true :=
  let s := (base.updTeam 0 fun tm => { tm with wst := .ended, children := [3] }).updGroup 0 fun q => { q with lanes := List.replicate 32 Lane.gone }
  ⟨s, 0, teamIn s 0, by decide +kernel⟩

theorem wit_TeamEnds_killed : ∃ s k tm, Tbl.get? s.teams k = some tm ∧ tm.stop = none ∧ teamQuiet s k = true ∧ tm.killed = true :=
  let s := base.updTeam 0 fun tm => { tm with killed := true }
  ⟨s, 0, teamIn s 0, by decide +kernel⟩

/-- A grid of 12 teams of five groups, of which 8 are granted or placed; something of it changed. -/
noncomputable def twelve (f : Grid → Grid) : Grid :=
  let g := gridIn base 1
  f { g with
    st := .running, counter := 8, grants := [(0, 2, 6)], placed := [], ended := 2
    launch := { g.launch with gx := 12, gy := 1, gz := 1, serial := true, done := 0 }
    header := { wentry := 32, gentry := 64, shared := 512, quota := 160, trap := false, split := false, coop := false, cluster := 1, groups := 5, spill := 0 } }

/-- A device on which no team runs, with one grid, 7, of a context; the timestamp is 900 s. -/
noncomputable def gridded (f : Grid → Grid) : State :=
  let s : State := { base with stage := .s3, now := 700, ts := 900000000, grids := [(7, twelve f)], groups := [], teams := [] }
  s.updCtx (gridIn base 1).ctx fun x => { x with queue := [7] }

theorem wit_GridSteps_starts : ∃ s n g, Tbl.get? s.grids n = some g ∧ g.st = .waiting ∧ (s.ctx g.ctx).queue.head? = some n ∧ placing s g.ctx = true ∧
    (g.launch.serial = true → earlierRetired s g.ctx n = true) ∧ neverFits s g.ctx g.header g.launch.total = false :=
  ⟨gridded fun g => { g with st := .waiting }, 7, twelve fun g => { g with st := .waiting }, by decide +kernel⟩

/-- A grid that no core has cells for. -/
def tooLarge (g : Grid) : Grid := { g with st := .waiting, header := { g.header with quota := 65536, groups := 32 } }

theorem wit_GridSteps_nores : ∃ s n g, Tbl.get? s.grids n = some g ∧ g.st = .waiting ∧ (s.ctx g.ctx).queue.head? = some n ∧ placing s g.ctx = true ∧
    (g.launch.serial = true → earlierRetired s g.ctx n = true) ∧ neverFits s g.ctx g.header g.launch.total = true ∧ g.launch.done = 0 ∧
    s.errLog.length < 65536 ∧ (s.errLog.all fun r => decide ((r.getD 1 0).toNat + 1000000 ≤ s.ts)) = true :=
  ⟨gridded tooLarge, 7, twelve tooLarge, by decide +kernel⟩

theorem wit_GridSteps_draws : ∃ s n g die, Tbl.get? s.grids n = some g ∧ g.st = .running ∧ placing s g.ctx = true ∧ g.header.coop = false ∧
    (s.die die).up = true ∧ g.counter < g.launch.total ∧ dieHasRoom s g die = true :=
  ⟨gridded id, 7, twelve id, 0, by decide +kernel⟩

/-- A grid all of whose teams have ended. -/
def finished (done : Nat) (g : Grid) : Grid := { g with ended := 12, grants := [], launch := { g.launch with done := done } }

theorem wit_GridSteps_retires : ∃ s n g, Tbl.get? s.grids n = some g ∧ canRetire s n g = true ∧ (s.ctx g.ctx).st ≠ .frozen ∧ (s.ctx g.ctx).st ≠ .saved ∧
    g.launch.done = 0 :=
  ⟨gridded (finished 0), 7, twelve (finished 0), by decide +kernel⟩

theorem wit_GridSteps_done : ∃ s n g u, Tbl.get? s.grids n = some g ∧ canRetire s n g = true ∧ (s.ctx g.ctx).st ≠ .frozen ∧ (s.ctx g.ctx).st ≠ .saved ∧
    g.launch.done ≠ 0 ∧ g.launch.done % 8 = 0 ∧ standsBack s (doneParty g.ctx n) = false ∧
    portWrite (doneParty g.ctx n) 1 g.ctx g.launch.done (toBytes (g.seq % 2 ^ 32 * 2 ^ 32 + g.status) 8) .write true
      (s.replayed (doneParty g.ctx n)) = .ok () u ∧ u.grids = s.grids := by
  let s := withBuf (gridded (finished (2 ^ 48 + 0xFFFF8))) 0
  let g := twelve (finished (2 ^ 48 + 0xFFFF8))
  obtain ⟨⟨⟩, u, h1, h2⟩ := okWith_elim (r := portWrite (doneParty g.ctx 7) 1 g.ctx g.launch.done (toBytes (g.seq % 2 ^ 32 * 2 ^ 32 + g.status) 8)
      .write true (s.replayed (doneParty g.ctx 7))) (p := fun _ u => decide (u.grids = s.grids)) (by decide +kernel)
  refine ⟨s, 7, g, u, ?_⟩
  and_intros <;> first
    | decide +kernel
    | exact h1
    | exact of_decide_eq_true h2

theorem wit_TeamPlacement_one : ∃ s n g die quad lin c rest i, Tbl.get? s.grids n = some g ∧ g.st = .running ∧ placing s g.ctx = true ∧ g.header.cluster = 1 ∧
    (g.grants.any fun p => p.1 == die && decide (p.2.1 ≤ lin) && decide (lin < p.2.1 + p.2.2)) = true ∧ (s.die die).up = true ∧ quad < 9 ∧
    framesFree s g.ctx 1 g.header = true ∧ quadCores s g.header die quad = c :: rest ∧ freeWick s c = some i ∧ (s.core c).subs.length = 4 :=
  ⟨gridded id, 7, twelve id, 0, 8, 7, 32, [33, 34, 35], 0, by decide +kernel⟩

/-- A cooperative grid of clusters of two teams of some groups. -/
def together (groups : Nat) (g : Grid) : Grid :=
  { g with counter := 0, grants := [], ended := 0, launch := { g.launch with gx := 2 }, header := { g.header with coop := true, cluster := 2, groups := groups } }

theorem wit_TeamPlacement_coop : ∃ s n g, Tbl.get? s.grids n = some g ∧ g.st = .running ∧ placing s g.ctx = true ∧ g.header.coop = true ∧ g.counter = 0 ∧
    g.header.cluster ≠ 0 ∧ g.launch.total % g.header.cluster = 0 ∧ placeAll n g.header.cluster (List.range (g.launch.total / g.header.cluster)) s ≠ none :=
  ⟨gridded (together 5), 7, twelve (together 5), by decide +kernel⟩

theorem wit_TeamPlacement_none : ∃ s n g, Tbl.get? s.grids n = some g ∧ g.st = .running ∧ placing s g.ctx = true ∧ g.header.coop = true ∧ g.counter = 0 ∧
    g.header.cluster ≠ 0 ∧ g.launch.total % g.header.cluster = 0 ∧ placeAll n g.header.cluster (List.range (g.launch.total / g.header.cluster)) s = none :=
  ⟨gridded (together 65), 7, twelve (together 65), by decide +kernel⟩

/-- A device whose context 0 has a launch buffer of four slots, in the second frame of its memory, with one record at its head. -/
noncomputable def submitted (rec : List Byte) : State :=
  let s := (gridded id).updCtx 0 fun x => { x with
    bufs := Tbl.set x.bufs 1 (bufOf 0 64 7 2 0), created := true, st := .ended, dframe := 1, stripe := 0, cgroup := 0, nslot := 4, consumed := 5, queue := [] }
  let key (o : Nat) : Nat := (deviceKey s 0 0 (2 ^ 17 + o)).getD 0
  let m := Memory.writeLE s.mem (key 0) 8 6
  let m := (List.range 3).foldl (fun m i => Memory.writeN m (key (64 + 192 + 64 * i)) ((rec.drop (64 * i)).take 64)) m
  { s with mem := Memory.writeLE m (Space.host.key 0) 16 (32 + 32 * 2 ^ 32 + 2 ^ 64)
           dies := (List.range 8).map fun d => (d, { Die.fresh with up := true }) }

/-- The record of `launching`, or a bad one. -/
def recordBytes (bad : Bool) : List Byte :=
  toBytes (2 ^ 48) 8 ++ toBytes (if bad then 0 else 1 + 2 ^ 32 + 2 ^ 48) 8 ++ List.replicate 176 0

/-- What a record's being taken asks. -/
abbrev Takes (s : State) (c : Nat) (hdr bs : List Byte) (key : Nat) : Prop :=
  takesRecords s c = true ∧ s.mem.wf = true ∧ (s.ctx c).taking = none ∧ readDevice (s.replayed (4, c)) (s.ctx c) 0 1 = .ok hdr (s.replayed (4, c)) ∧ wordAt hdr 0 ≠ (s.ctx c).consumed ∧ (s.ctx c).consumed + 1 < 2 ^ 64 ∧
    s.grids.length < 2 ^ 25 - 2 ∧ readDevice (s.replayed (4, c)) (s.ctx c) (64 + 192 * ((s.ctx c).consumed % (s.ctx c).nslot)) 3 = .ok bs (s.replayed (4, c)) ∧
    deviceKey s (s.ctx c).cgroup (s.ctx c).stripe ((s.ctx c).dframe * 2 ^ 17) = some key ∧ ((keyDie key).all fun d => (s.die d).up) = true ∧
    cleanAt s (key + 8) 8 = true

/-- Bytes that are read, with the state as it was. -/
theorem bytes_elim {r : PRes (List Byte)} {s : State} {p : List Byte → Bool} (h : okWith r (fun a u => decide (u = s) && p a) = true) :
    ∃ a, r = .ok a s ∧ p a = true := by
  obtain ⟨a, u, h1, h2⟩ := okWith_elim h
  simp only [Bool.and_eq_true, decide_eq_true_eq] at h2
  exact ⟨a, by rw [h1, h2.1], h2.2⟩

theorem takes_submitted (bad : Bool) : ∃ hdr key, Takes (submitted (recordBytes bad)) 0 hdr (recordBytes bad) key := by
  let s := submitted (recordBytes bad)
  have h : okWith (readDevice (s.replayed (4, 0)) (s.ctx 0) 0 1) (fun a u => decide (u = s.replayed (4, 0)) && decide (wordAt a 0 ≠ (s.ctx 0).consumed)) = true := by
    cases bad <;> decide +kernel
  obtain ⟨hdr, h1, h2⟩ := bytes_elim h
  have h : okWith (readDevice (s.replayed (4, 0)) (s.ctx 0) (64 + 192 * ((s.ctx 0).consumed % (s.ctx 0).nslot)) 3) (fun a u => decide (u = s.replayed (4, 0)) && decide (a = recordBytes bad)) = true := by
    cases bad <;> decide +kernel
  obtain ⟨bs, h3, h4⟩ := bytes_elim h
  have h4 := of_decide_eq_true h4
  subst h4
  have h : ((deviceKey s (s.ctx 0).cgroup (s.ctx 0).stripe ((s.ctx 0).dframe * 2 ^ 17)).any fun k => ((keyDie k).all fun d => (s.die d).up) && cleanAt s (k + 8) 8) = true := by
    cases bad <;> decide +kernel
  simp only [Option.any_eq_true, Bool.and_eq_true] at h
  obtain ⟨key, h5, h6, h7⟩ := h
  exact ⟨hdr, key, by cases bad <;> decide +kernel, by cases bad <;> decide +kernel, by cases bad <;> rfl, h1, of_decide_eq_true h2, by cases bad <;> decide +kernel,
    by cases bad <;> decide +kernel, h3, h5, h6, h7⟩

/-- A kernel that can be read, as a check. -/
def kernelReads (z : State) (c : Nat) (r : LaunchRec) : Bool :=
  okWith (portRead (4, c) 0 c r.kernel 32 .read true z) fun hs v => (headerFor r hs).isSome &&
    okWith (captureCode v (4, c) c r.kernel) fun _ w => decide (w.mem = z.mem ∧ w.grids = z.grids ∧ w.ctxs = z.ctxs ∧ w.groups = z.groups)

theorem kernelReads_iff {z : State} {c : Nat} {r : LaunchRec} (h : kernelReads z c r = true) : ∃ k code, kernelRead z c r k code := by
  obtain ⟨hs, v, h1, h2⟩ := okWith_elim h
  simp only [Bool.and_eq_true] at h2
  obtain ⟨k, h3⟩ := Option.isSome_iff_exists.mp h2.1
  obtain ⟨code, w, h4, h5⟩ := okWith_elim h2.2
  exact ⟨k, code, hs, v, w, h1, h3, h4, of_decide_eq_true h5⟩

theorem wit_RecordsTaken_good : ∃ s c hdr bs key u h code, Takes s c hdr bs key ∧ recordOk bs (readRecord bs (s.ctx c).consumed) = true ∧
    consume (s.replayed (4, c)) c ((s.ctx c).consumed + 1) = .ok () u ∧
    kernelRead (u.updCtx c fun x => { x with taking := some (readRecord bs (s.ctx c).consumed) }) c (readRecord bs (s.ctx c).consumed) h code := by
  let s := submitted (recordBytes false)
  obtain ⟨hdr, key, h1⟩ := takes_submitted false
  obtain ⟨⟨⟩, u, h2, h3⟩ := okWith_elim (r := consume (s.replayed (4, 0)) 0 ((s.ctx 0).consumed + 1))
    (p := fun _ u => kernelReads (u.updCtx 0 fun x => { x with taking := some (readRecord (recordBytes false) (s.ctx 0).consumed) }) 0
      (readRecord (recordBytes false) (s.ctx 0).consumed)) (by decide +kernel)
  obtain ⟨h, code, h4⟩ := kernelReads_iff h3
  exact ⟨s, 0, hdr, recordBytes false, key, u, h, code, h1, by decide +kernel, h2, h4⟩

theorem wit_RecordsTaken_later : ∃ s c r h code, takesRecords s c = true ∧ s.mem.wf = true ∧ s.grids.length < 2 ^ 25 - 2 ∧ (s.ctx c).taking = some r ∧
    kernelRead (s.replayed (4, c)) c r h code := by
  let r := readRecord (recordBytes false) 5
  let s := (submitted (recordBytes false)).updCtx 0 fun x => { x with taking := some r }
  obtain ⟨h, code, h1⟩ := kernelReads_iff (z := s.replayed (4, 0)) (c := 0) (r := r) (by decide +kernel)
  exact ⟨s, 0, r, h, code, by decide +kernel, by decide +kernel, by decide +kernel, by decide +kernel, h1⟩

theorem wit_RecordsTaken_bad : ∃ s c hdr bs key, Takes s c hdr bs key ∧ recordOk bs (readRecord bs (s.ctx c).consumed) = false ∧
    (readRecord bs (s.ctx c).consumed).done = 0 ∧ s.errLog.length < 65536 ∧ (s.errLog.all fun e => decide ((e.getD 1 0).toNat + 1000000 ≤ s.ts)) = true := by
  obtain ⟨hdr, key, h1⟩ := takes_submitted true
  exact ⟨submitted (recordBytes true), 0, hdr, recordBytes true, key, h1, by decide +kernel⟩

/-- A device with a decoder of 1 GiB of the host's window, enabled or not. -/
noncomputable def windowed (on : Bool) : State :=
  { gridded id with hdms := [{ base := 0x40000000, size := 0x40000000, target := if on then 1 else 0 }] }

/-- The decoder of `windowed`. -/
def window (on : Bool) : Hdm := { base := 0x40000000, size := 0x40000000, target := if on then 1 else 0 }

theorem wit_HostAccesses_read : ∃ s a n h, s.stage = .s3 ∧ hdmOf s a n = some h ∧ 0 < n ∧ ∀ i, i < n → (windowKey s h (hdmAddr h a + i)).isSome = true :=
  ⟨windowed true, 0x4000001F, 34, window true, by decide +kernel, by decide +kernel, by decide, by decide +kernel⟩

theorem wit_HostAccesses_write : ∃ (s : State) (a : Nat) (bs : List Byte) (h : Hdm), s.stage = .s3 ∧ s.mem.wf = true ∧ hdmOf s a bs.length = some h ∧
    bs ≠ [] ∧ ∀ i, i < bs.length → (windowKey s h (hdmAddr h a + i)).isSome = true :=
  ⟨windowed true, 0x400000FF, [5, 6], window true, by decide +kernel, by decide +kernel, by decide +kernel, by decide, by decide +kernel⟩

theorem wit_HostAccesses_disabled : ∃ (s : State) (a : Nat) (bs : List Byte) (h : Hdm), s.stage = .s3 ∧ hdmOf s a bs.length = some h ∧ bs ≠ [] ∧
    (∀ i, i < bs.length → hdmKey s h (hdmAddr h a + i) = none) ∧ s.errLog.length < 65536 :=
  ⟨windowed false, 0x4000001F, [5, 6], window false, by decide +kernel, by decide +kernel, by decide, fun _ _ => rfl, by decide +kernel⟩

theorem wit_HostAccesses_elsewhere : ∃ (s : State) (a : Nat) (bs : List Byte), s.stage = .s3 ∧ hdmOf s a bs.length = none :=
  ⟨windowed true, 0x7FFFFFFF, [5, 6], by decide +kernel⟩

theorem wit_HostAccesses_noDecoder : ∃ (s : State) (n : Nat), s.stage ≠ .off ∧ s.hdms[n]? = none := ⟨windowed true, 1, by decide +kernel⟩

theorem wit_HostAccesses_decoder : ∃ (s : State) (n : Nat) (d : Hdm), s.stage ≠ .off ∧ s.hdms[n]? = some d :=
  ⟨windowed true, 0, { base := 0x40000000, size := 0x40000000, target := 1 }, by decide +kernel⟩

theorem wit_HostAccesses_port : ∃ (s : State) (c : Nat) (ptr : W64) (n : Nat) (bs : List Byte) (u : State) (bs' : List Byte) (u' : State), s.stage = .s3 ∧ c ≤ 64 ∧
    portRead (7, 0) 0 c ptr.toNat n .read false s = .ok bs u ∧
    portWrite (7, 0) 0 c ptr.toNat bs' .write false s = .ok () u' := by
  let s := withBuf (gridded id) 63
  obtain ⟨bs, u, h1, -⟩ := okWith_elim (r := portRead (7, 0) 0 63 (0x10000000FFFC0 : W64).toNat 64 .read false s) (p := fun _ _ => true) (by decide +kernel)
  obtain ⟨⟨⟩, u', h2, -⟩ := okWith_elim (r := portWrite (7, 0) 0 63 (0x10000000FFFC0 : W64).toNat [1, 2] .write false s) (p := fun _ _ => true) (by decide +kernel)
  exact ⟨s, 63, 0x10000000FFFC0, 64, bs, u, [1, 2], u', by decide +kernel, by decide, h1, h2⟩

/-! ### States for links, dies and start-up -/

/-- A port with two flits that are not acknowledged. -/
def port : VPort :=
  { VPort.fresh with up := true, lanes := 8, txSeq := 4095, rxSeq := 0, since := 5
                     unacked := [{ seq := 4093, bytes := [1, 2], replays := 2 }, { seq := 4094, bytes := [3], replays := 0 }]
                     packets := [(4094, [4])], waiting := [[5]] }

/-- A device past its start-up with two ports, and in its firmware's context buffer 1 of 1 MiB of host memory. -/
noncomputable def linked (v : VPort) : State :=
  let s := (gridded id).updCtx 63 fun c => { c with st := .running, created := true, bufs := [(1, bufOf 63 0x100000 15 2 0)] }
  { s with ports := [(2, v), (5, { port with unacked := [{ seq := 7, bytes := [9], replays := 0 }] })], devId := 0, nextSeq := 17 }

/-- A request to the last 24 bytes of the buffer. -/
def request (op aop len : Nat) (bs : List Byte) : Packet :=
  { ctx := 63, buf := 1, offset := 0xFFFE8, aop := aop, dest := 0, src := 3, op := op, txid := 44
    guard := if bs = [] then BitVec.ofNat 80 (0x5A * 2 ^ 72) else guardTag 0x5A 0xFFFE8 bs, reserved := false, len := len
    payload := if bs = [] then [] else compress bs }

/-- Data that a packet carries. -/
theorem data_elim {r : Except Nat (List Byte)} {bs : List Byte} (h : (match r with | .ok a => a == bs | .error _ => false) = true) : r = .ok bs := by
  cases r with
  | ok a => exact congrArg _ (by simpa using h)
  | error _ => exact absurd h (by simp)

/-- A packet that fails its checks. -/
theorem error_elim {r : Except Nat (List Byte)} (h : (match r with | .ok _ => false | .error _ => true) = true) : ∃ d, r = .error d := by
  cases r with
  | ok _ => exact absurd h (by simp)
  | error d => exact ⟨d, rfl⟩

/-- What every clause asks of the state after the access. -/
abbrev Calm (s : State) (p : Packet) (u : State) : Prop :=
  u.outbox = s.outbox ∧ u.ports = s.ports ∧ u.devId = s.devId ∧ u.inbox = (intoInbox p s).inbox

theorem wit_RemoteRequests_read : ∃ s p bs u, asks s p 1 = true ∧ p.payload = [] ∧ p.guard.toNat % 2 ^ 72 = 0 ∧ p.len ≤ 256 ∧ p.aop ≠ 1 ∧
    portRead (askedBy p) 0 p.ctx (ptrOf p) p.len (if p.aop = 2 then .exec else .read) true (intoInbox p s) = .ok bs u ∧ Calm s p u := by
  let s := linked port
  let p := request 1 0 24 []
  obtain ⟨bs, u, h1, h2⟩ := okWith_elim (r := portRead (askedBy p) 0 p.ctx (ptrOf p) p.len (if p.aop = 2 then .exec else .read) true (intoInbox p s)) (p := fun _ u => decide (Calm s p u)) (by decide +kernel)
  exact ⟨s, p, bs, u, by decide +kernel, by decide +kernel, by decide +kernel, by decide +kernel, by decide +kernel, h1, of_decide_eq_true h2⟩

theorem wit_RemoteRequests_write : ∃ s p bs u, asks s p 3 = true ∧ packetData p p.len p.offset none = .ok bs ∧
    portWrite (askedBy p) 0 p.ctx (ptrOf p) bs .write true (intoInbox p s) = .ok () u ∧ Calm s p u := by
  let s := linked port
  let p := request 3 0 24 (List.replicate 24 7)
  obtain ⟨⟨⟩, u, h1, h2⟩ := okWith_elim (r := portWrite (askedBy p) 0 p.ctx (ptrOf p) (List.replicate 24 7) .write true (intoInbox p s))
    (p := fun _ u => decide (Calm s p u)) (by decide +kernel)
  exact ⟨s, p, _, u, by decide +kernel, data_elim (by decide +kernel), h1, of_decide_eq_true h2⟩

theorem wit_RemoteRequests_atomic : ∃ s p bs u old, asks s p 5 = true ∧
    let code := p.aop % 64
    let m := atomOperandBytes code p.len
    packetData p (m + if code = 7 then p.len else 0) p.offset none = .ok bs ∧
      portAtomic (askedBy p) 0 p.ctx (ptrOf p) p.len code (decide (p.aop / 64 % 2 = 1)) (ofBytes (bs.take m)) (ofBytes (bs.drop m)) true (intoInbox p s) = .ok old u ∧
      Calm s p u := by
  let s := linked port
  let p := request 5 0 8 (toBytes 77 8)
  obtain ⟨old, u, h1, h2⟩ := okWith_elim (r := portAtomic (askedBy p) 0 p.ctx (ptrOf p) p.len (p.aop % 64) (decide (p.aop / 64 % 2 = 1))
      (ofBytes ((toBytes 77 8).take (atomOperandBytes (p.aop % 64) p.len))) (ofBytes ((toBytes 77 8).drop (atomOperandBytes (p.aop % 64) p.len))) true (intoInbox p s))
    (p := fun _ u => decide (Calm s p u)) (by decide +kernel)
  exact ⟨s, p, toBytes 77 8, u, old, by decide +kernel, data_elim (by decide +kernel), h1, of_decide_eq_true h2⟩

theorem wit_RemoteRequests_signal : ∃ s p bs u, asks s p 7 = true ∧ packetData p 8 p.offset none = .ok bs ∧ p.aop % 2 = 0 ∧
    portWrite (askedBy p) 0 p.ctx (ptrOf p) bs .write true (intoInbox p s) = .ok () u ∧ Calm s p u := by
  let s := linked port
  let p := request 7 0 8 (toBytes 99 8)
  obtain ⟨⟨⟩, u, h1, h2⟩ := okWith_elim (r := portWrite (askedBy p) 0 p.ctx (ptrOf p) (toBytes 99 8) .write true (intoInbox p s))
    (p := fun _ u => decide (Calm s p u)) (by decide +kernel)
  exact ⟨s, p, toBytes 99 8, u, by decide +kernel, data_elim (by decide +kernel), by decide, h1, of_decide_eq_true h2⟩

theorem wit_RemoteRequests_adds : ∃ s p bs u old, asks s p 7 = true ∧ packetData p 8 p.offset none = .ok bs ∧ p.aop % 2 = 1 ∧
    portAtomic (askedBy p) 0 p.ctx (ptrOf p) 8 0 false (ofBytes bs) 0 true (intoInbox p s) = .ok old u ∧ Calm s p u := by
  let s := linked port
  let p := request 7 1 8 (toBytes 99 8)
  obtain ⟨old, u, h1, h2⟩ := okWith_elim (r := portAtomic (askedBy p) 0 p.ctx (ptrOf p) 8 0 false (ofBytes (toBytes 99 8)) 0 true (intoInbox p s))
    (p := fun _ u => decide (Calm s p u)) (by decide +kernel)
  exact ⟨s, p, toBytes 99 8, u, old, by decide +kernel, data_elim (by decide +kernel), by decide, h1, of_decide_eq_true h2⟩

/-- A write whose guard tag is wrong by a bit. -/
def broken : Packet := let p := request 3 0 24 (List.replicate 24 7); { p with guard := p.guard ^^^ 1 }

theorem wit_RemoteRequests_broken : ∃ s p d, asks s p 3 = true ∧ packetData p p.len p.offset none = .error d ∧ s.errLog.length < 65536 := by
  obtain ⟨d, h⟩ := error_elim (r := packetData broken 24 0xFFFE8 none) (by decide +kernel)
  exact ⟨linked port, broken, d, by decide +kernel, h, by decide +kernel⟩

theorem wit_RemoteRequests_later : ∃ s p, s.stage = .s3 ∧ p.dest = s.devId ∧ p.op = 3 ∧ firstOfSource p (intoInbox p s) = false :=
  ⟨{ linked port with inbox := [request 1 0 24 []] }, request 3 0 24 (List.replicate 24 7), by decide +kernel⟩

/-- A device with one transaction under way. -/
noncomputable def awaiting_ (t : Txn) : State := { linked port with txns := [(44, t)] }

/-- A transaction of 24 bytes. -/
def txnOf (op : Nat) : Txn := { op := op, dev := 3, party := (3, 5), tag := 9, ptr := 0xFFFE8, n := 24, sent := 0, version := 0x5A }

theorem wit_RemoteAnswers_data : ∃ s p t bs, answers s p t = true ∧ p.op = 2 ∧ t.op = 1 ∧ packetData p t.n (t.ptr.toNat % 2 ^ 48) (some t.version) = .ok bs :=
  ⟨awaiting_ (txnOf 1), request 2 0 24 (List.replicate 24 7), txnOf 1, List.replicate 24 7, by decide +kernel, rfl, rfl, data_elim (by decide +kernel)⟩

theorem wit_RemoteAnswers_result : ∃ s p t bs, answers s p t = true ∧ p.op = 6 ∧ t.op = 5 ∧ packetData p t.n (t.ptr.toNat % 2 ^ 48) (some t.version) = .ok bs :=
  ⟨awaiting_ (txnOf 5), request 6 0 24 (List.replicate 24 7), txnOf 5, List.replicate 24 7, by decide +kernel, rfl, rfl, data_elim (by decide +kernel)⟩

theorem wit_RemoteAnswers_broken : ∃ s p t d, answers s p t = true ∧ p.op = 2 ∧ t.op = 1 ∧
    packetData p t.n (t.ptr.toNat % 2 ^ 48) (some t.version) = .error d := by
  let p := { broken with op := 2 }
  obtain ⟨d, h⟩ := error_elim (r := packetData p 24 0xFFFE8 (some 0x5A)) (by decide +kernel)
  exact ⟨awaiting_ (txnOf 1), p, txnOf 1, d, by decide +kernel, rfl, rfl, h⟩

theorem wit_RemoteAnswers_done : ∃ s p t, answers s p t = true ∧ p.op = 4 ∧ (t.op = 3 ∨ t.op = 7) :=
  ⟨awaiting_ (txnOf 7), request 4 0 0 [], txnOf 7, by decide +kernel⟩

theorem wit_RemoteAnswers_error : ∃ s p t, answers s p t = true ∧ p.op = 8 ∧ p.aop ≠ 2 ∧ t.op ∈ [1, 3, 5, 7] :=
  ⟨awaiting_ (txnOf 7), request 8 1 0 [], txnOf 7, by decide +kernel⟩

theorem wit_RemoteAnswers_timeout : ∃ (s : State) (id : Nat) (t : Txn), Tbl.get? s.txns id = some t ∧ t.party.1 ≠ 9 ∧ t.sent + 10000000 ≤ s.ts :=
  ⟨awaiting_ { txnOf 1 with sent := 890000000 }, 44, { txnOf 1 with sent := 890000000 }, by decide +kernel⟩

theorem wit_LinkPorts_broken : ∃ (s : State) (q : Nat) (v : VPort) (f : List Byte), Tbl.get? s.ports q = some v ∧ v.up = true ∧ f.length = 256 ∧ flitSound f = false :=
  ⟨linked port, 2, port, (flitOf 0 4093 false 3 [5]).set 239 1, by decide +kernel⟩

theorem wit_LinkPorts_dropped : ∃ (s : State) (q : Nat) (v : VPort) (f : List Byte), Tbl.get? s.ports q = some v ∧ v.up = true ∧ f.length = 256 ∧ flitSound f = true ∧
    trailer f 116 12 ≠ v.rxSeq :=
  ⟨linked port, 2, port, flitOf 4095 4093 false 3 [5], by decide +kernel⟩

/-- What the clauses on a sound flit in order ask. -/
abbrev InOrder (s : State) (q : Nat) (v : VPort) (f : List Byte) : Prop :=
  Tbl.get? s.ports q = some v ∧ v.up = true ∧ f.length = 256 ∧ flitSound f = true ∧ trailer f 116 12 = v.rxSeq ∧ v.part = []

theorem wit_LinkPorts_taken : ∃ (s : State) (q : Nat) (v : VPort) (f : List Byte), InOrder s q v f ∧ ofBytes (f.take 32) / 2 ^ 102 % 2 ^ 6 = 0 ∧
    trailer f 103 1 = 0 :=
  ⟨linked port, 2, port, flitOf 0 4094 false 3 [], by decide +kernel⟩

theorem wit_LinkPorts_replays : ∃ (s : State) (q : Nat) (v : VPort) (f : List Byte), InOrder s q v f ∧ ofBytes (f.take 32) / 2 ^ 102 % 2 ^ 6 = 0 ∧
    trailer f 103 1 = 1 ∧ (tookFlit v f []).unacked ≠ [] ∧ quietLog s = true :=
  ⟨linked port, 2, port, flitOf 0 4093 true 127 [], by decide +kernel⟩

theorem wit_LinkPorts_packet : ∃ (s : State) (q : Nat) (v : VPort) (f bs : List Byte), InOrder s q v f ∧ onePacket bs = true ∧
    f.take 240 = bs ++ List.replicate (240 - bs.length) 0 ∧ trailer f 103 1 = 0 ∧ q < 36 :=
  ⟨linked port, 2, port, flitOf 0 4094 false 3 (packetBytes (request 3 0 24 (List.replicate 24 7))), packetBytes (request 3 0 24 (List.replicate 24 7)),
    by decide +kernel⟩

/-- A port one of whose flits has been replayed 8 times. -/
def failing : VPort := { port with unacked := [{ seq := 4094, bytes := [3], replays := 8 }] }

theorem wit_LinkPorts_down : ∃ (s : State) (q : Nat) (v : VPort) (r : Nat) (w : VPort) (rest : List Nat), Tbl.get? s.ports q = some v ∧ v.up = true ∧
    (v.unacked.any fun f => decide (8 ≤ f.replays)) = true ∧ s.errLog.length < 65536 ∧ q < 36 ∧ (livePorts s).filter (· != q) = r :: rest ∧
    Tbl.get? s.ports r = some w :=
  ⟨linked failing, 2, failing, 5, { port with unacked := [{ seq := 7, bytes := [9], replays := 0 }] }, [], by decide +kernel⟩

theorem wit_LinkPorts_alone : ∃ (s : State) (q : Nat) (v : VPort), Tbl.get? s.ports q = some v ∧ v.up = true ∧
    (v.unacked.any fun f => decide (8 ≤ f.replays)) = true ∧ s.errLog.length < 65536 ∧ (livePorts s).filter (· != q) = [] :=
  ⟨{ linked failing with ports := [(2, failing)] }, 2, failing, by decide +kernel⟩

theorem wit_LinkPorts_sends : ∃ (s : State) (q : Nat) (v : VPort), Tbl.get? s.ports q = some v ∧ v.up = true ∧ v.cut = 0 ∧ v.unacked.length < 512 ∧
    v.waiting.length ≤ 1 ∧ (v.waiting.flatten).length ≤ 240 ∧ v.waiting ≠ [] :=
  ⟨linked port, 2, port, by decide +kernel⟩

theorem wit_LinkPorts_lane : ∃ (s : State) (q : Nat) (v : VPort), Tbl.get? s.ports q = some v ∧ v.up = true ∧ v.lanes = 8 ∧ quietLog s = true :=
  ⟨linked port, 2, port, by decide +kernel⟩

theorem wit_LinkPorts_retrains : ∃ (s : State) (q : Nat) (v : VPort), Tbl.get? s.ports q = some v ∧ v.up = false :=
  ⟨linked { port with up := false }, 2, { port with up := false }, by decide +kernel⟩

/-- A grid with a team placed on die 7 and others granted to it. -/
def onSeven (idem : Bool) (g : Grid) : Grid :=
  { g with grants := [(7, 2, 3)], placed := [(5, 7)], parent := none, launch := { g.launch with idem := idem } }

/-- The device, its die 7 up, and every link of that die down for some time. -/
noncomputable def losing (idem : Bool) : State :=
  { (gridded (onSeven idem)).updDie 7 fun x => { x with up := true, gone := false, resetting := false } with
    ports := (List.range 7).map fun p => (64 + 8 * 7 + p, { VPort.fresh with up := false, downAt := 899000000 }) }

theorem wit_DieLosses_ends : ∃ (s : State) (d n : Nat) (g : Grid), d < 8 ∧ s.stage = .s3 ∧ (s.die d).up = true ∧ linksLost s d = true ∧ (s.die d).gone = false ∧ (s.die d).resetting = false ∧
    Tbl.get? s.grids n = some g ∧ g.st = .running ∧ ((g.grants.any fun p => p.1 == d) || g.placed.any fun p => p.2 == d) = true ∧ g.launch.idem = false :=
  ⟨losing false, 7, 7, twelve (onSeven false), by decide +kernel⟩

theorem wit_DieLosses_moves : ∃ (s : State) (d n : Nat) (g : Grid) (lin : Nat), d < 8 ∧ s.stage = .s3 ∧ (s.die d).up = true ∧ linksLost s d = true ∧ (s.die d).gone = false ∧ (s.die d).resetting = false ∧
    Tbl.get? s.grids n = some g ∧ g.st = .running ∧ ((g.grants.any fun p => p.1 == d) || g.placed.any fun p => p.2 == d) = true ∧ g.launch.idem = true ∧
    g.header.coop = false ∧ g.parent = none ∧ (lin, d) ∈ g.placed ∧ (s.die 0).up = true :=
  ⟨losing true, 7, 7, twelve (onSeven true), 5, by decide +kernel⟩

theorem wit_DieLosses_alone : ∃ (s : State) (d : Nat), d < 8 ∧ s.stage = .s3 ∧ (s.die d).up = true ∧ linksLost s d = true ∧ s.grids = [] ∧ s.errLog.length < 65536 :=
  ⟨{ losing true with grids := [] }, 7, by decide +kernel⟩

theorem wit_DieLosses_stays : ∃ (s : State) (d : Nat), d < 8 ∧ (s.die d).resetting = true ∧ (s.die d).resetAt + 100000000 ≤ s.ts :=
  ⟨(gridded id).updDie 7 fun x => { x with resetting := true, resetAt := 800000000 }, 7, by decide +kernel⟩

/-- The device with power off, or in a stage of its start-up. -/
noncomputable def staged (st : Stage) : State := { State.reset with stage := st, ts := 5 }

theorem wit_DeviceResets_off : ∃ s : State, s.stage = .off := ⟨staged .off, rfl⟩
theorem wit_DeviceResets_early : ∃ s : State, s.stage ≠ .off ∧ s.stage ≠ .s3 := ⟨staged .failed, by decide⟩
theorem wit_DeviceResets_usable : ∃ s : State, s.stage ≠ .off ∧ s.stage = .s3 := ⟨gridded id, by decide +kernel⟩

theorem wit_DeviceResets_command : ∃ s : State, s.stage ≠ .off ∧ s.mailBusy = none := ⟨staged .s1, by decide⟩
theorem wit_DeviceResets_zeroes : ∃ s : State, s.stage = .s3 ∧ s.bootLog.length < 512 := ⟨gridded id, by decide +kernel⟩

/-- A firmware image of VERSION 3 whose body is 1, 2, 3, with its key and its signature of R460, worked out from the curve and the hash that
R13 names. -/
def signedImage : List Byte := toBytes 0x302010000000000000000000000000000000000000000000000000000000000000000000000000000000000000000000000000000000000000000000000000000000000000000000000001150023b292aa624c7bd5bf2e4d555b7b57ca5f7fbb122760d52f6ff50e4ec38fe71fcd9492f85e0e324e00262bc9dfa41123d091521c415edbf348b9158ddc80e5c7f6c9aad8f8a793617e703d1c1cd54911b1a874fc663d75928273175352434583f22252fa0aa7d2fc8e90296244cb7ae925562b2ff015fcca06ac6efb962fb319e323649eed861de9de39f0fab383246079b82475ddb1a1960ee536d8b9e00000000000000030000000000000003564f4c4846570002 259

/-- The SM3 digest of its key. -/
def firmwareKey : BitVec 256 := 0x846f178dd69ff381da9dcca2b7ce97cfe7bd4d98927b0d3333514f1d5fc55ce4

/-- A device in S0 with that image, a key digest in its fuses, and a minimum version. -/
noncomputable def storing (key : BitVec 256) (least : Nat) : State := { staged .s0 with fwStore := signedImage, keyHash := key, minVersion := least }

theorem test_image_refused : imageError (storing (firmwareKey ^^^ 1) 3) signedImage = 1 ∧
    imageError (storing firmwareKey 3) (signedImage.set 57 0) = 1 := by decide +kernel

theorem wit_StartupStages_starts : ∃ (s : State) (n : Nat), s.bootLog.length < 400 ∧ s.stage = .s0 ∧ n ∈ [16, 8, 4] ∧ (s.tripped = true → s.hot = []) ∧
    imageError { s with cxlLanes := n } s.fwStore = 0 :=
  ⟨storing firmwareKey 0, 8, by decide +kernel⟩

theorem wit_StartupStages_image : ∃ (s : State) (n : Nat), s.bootLog.length < 400 ∧ s.stage = .s0 ∧ n ∈ [16, 8, 4] ∧
    (s.tripped = true → s.hot = []) ∧ s.fwStore.length < 256 ∧ s.bootErr = 0 :=
  ⟨staged .s0, 4, by decide +kernel⟩

/-- A device in S0 after a thermal trip, which some sensors hold. -/
noncomputable def tripped (hot : List Nat) : State := { staged .s0 with lastRst := 5, tripped := true, hot := hot }

theorem wit_StartupStages_cooled : ∃ (s : State) (n : Nat), s.bootLog.length < 400 ∧ s.stage = .s0 ∧ n ∈ [16, 8, 4] ∧ s.tripped = true ∧
    (s.tripped = true → s.hot = []) :=
  ⟨tripped [], 8, by decide +kernel⟩

theorem wit_StartupStages_hot : ∃ (s : State) (n : Nat), s.bootLog.length < 400 ∧ s.stage = .s0 ∧ n ∈ [16, 8, 4] ∧ (s.tripped = true ∧ s.hot ≠ []) :=
  ⟨tripped [551], 16, by decide +kernel⟩

theorem wit_StartupStages_early : ∃ s : State, s.bootLog.length < 400 ∧ s.stage ≠ .s1 ∧ s.stage ≠ .s2 := ⟨staged .s0, by decide⟩
theorem wit_StartupStages_again : ∃ s : State, s.bootLog.length < 400 ∧ s.stage = .s2 ∧ ∀ d, d < 8 → (s.die d).up = true :=
  ⟨{ staged .s2 with dies := (List.range 8).map fun d => (d, { Die.fresh with up := true }) }, by decide, rfl, by decide +kernel⟩

theorem wit_StartupStages_other : ∃ (s : State) (r : CoreTest) (d : Nat), s.bootLog.length < 400 ∧ r.die = some d ∧ (s.die d).resetting = false :=
  ⟨staged .s2, { die := some 3, badCores := [], offRows := [], badRows := [], linkDown := [], ports := [], devId := 0 }, 3, by decide +kernel⟩

theorem wit_StartupStages_zeroes : ∃ (s : State) (bad : List Nat), s.bootLog.length < 400 ∧ s.stage = .s1 ∧ ∀ c, c ∈ bad → c ∈ s.startRetired ∨ 24 * 32 ≤ c :=
  ⟨{ staged .s1 with startRetired := [3, 767] }, [3, 767, 768], by decide +kernel⟩

theorem wit_StartupStages_channel : ∃ (s : State) (bad : List Nat) (c : Nat), s.bootLog.length < 400 ∧ s.stage = .s1 ∧ c ∈ bad ∧ c ∉ s.startRetired ∧ c < 24 * 32 :=
  ⟨{ staged .s1 with retired := [3, 766, 767], startRetired := [3, 766] }, [3, 767], 767, by decide +kernel⟩

/-- A test of all cores in which two rows of core 7 fail; port 2 trains at 4 lanes, port 3 does not. -/
def coreTest : CoreTest := { die := none, badCores := [2, 41], offRows := [(3, [1, 2, 3, 4, 5])], badRows := [(7, [0, 5])], linkDown := [], ports := [(2, 4), (3, 0)], devId := 767 }

/-- What the clauses on stage S2 ask. -/
abbrev Numbers (s : State) (r : CoreTest) (ds : List Nat) : Prop :=
  s.bootLog.length < 400 ∧ s.stage = .s2 ∧ r.die = none ∧ r.devId < 768 ∧ ((List.range 8).any fun d => !(s.die d).up) = true ∧
    ds = (List.range 8).filter fun d => !(s.die d).up

theorem wit_StartupStages_cores : ∃ s r ds, Numbers s r ds ∧ coreFault r ds = none ∧ (∀ d, d ∈ ds → d ∉ r.linkDown) ∧ ds = List.range 8 :=
  ⟨staged .s2, coreTest, List.range 8, by decide +kernel⟩

theorem wit_StartupStages_some : ∃ s r ds, Numbers s r ds ∧ coreFault r ds = none ∧ (∀ d, d ∈ ds → d ∉ r.linkDown) ∧ ds ≠ List.range 8 :=
  ⟨{ staged .s2 with dies := [(0, { Die.fresh with up := true })] }, coreTest, [1, 2, 3, 4, 5, 6, 7], by decide +kernel⟩

theorem wit_StartupStages_rows : ∃ s r ds a, Numbers s r ds ∧ coreFault r ds = some a :=
  ⟨staged .s2, { coreTest with badRows := [(287, [0, 1, 2, 3, 67])] }, List.range 8, 7 * 256 + 7, by decide +kernel⟩

theorem wit_StartupStages_link : ∃ s r ds, Numbers s r ds ∧ coreFault r ds = none ∧ ∃ d, d ∈ ds ∧ d ∈ r.linkDown :=
  ⟨staged .s2, { coreTest with linkDown := [7] }, List.range 8, by decide +kernel, by decide +kernel, 7, by decide⟩

theorem wit_StartupStages_die : ∃ (s : State) (r : CoreTest) (d : Nat), s.bootLog.length < 400 ∧ r.die = some d ∧ (s.die d).resetting = true ∧ coreFault r [d] = none ∧ d ∉ r.linkDown :=
  ⟨(gridded id).updDie 7 fun x => { x with resetting := true }, { coreTest with die := some 7 }, 7, by decide +kernel⟩

theorem wit_StartupStages_dieFails : ∃ (s : State) (r : CoreTest) (d a : Nat), s.bootLog.length < 400 ∧ r.die = some d ∧ (s.die d).resetting = true ∧ coreFault r [d] = some a :=
  ⟨(gridded id).updDie 7 fun x => { x with resetting := true }, { coreTest with die := some 7, badRows := [(287, [0, 1, 2, 3, 67])] }, 7, 7 * 256 + 7, by decide +kernel⟩

/-- A device whose dies are up in stage S2, reset for a cause. -/
noncomputable def numbered (cause : Nat) : State :=
  { staged .s2 with lastRst := cause, dies := (List.range 8).map fun d => (d, { Die.fresh with up := true }) }

theorem wit_StartupStages_usable : ∀ cause, cause = 1 ∨ cause = 4 → ∃ (s : State) (f : FwSetup), s.bootLog.length < 400 ∧ s.stage = .s2 ∧ (∀ d, d < 8 → (s.die d).up = true) ∧ quietLog s = true ∧
    s.lastRst = cause ∧ (deviceKey s f.cgroup f.stripe (f.dframe * 2 ^ 17)).all (fun k => decide (k % 32 = 0)) = true := by
  intro cause h
  refine ⟨numbered cause, { bufs := [], nslot := 4096, dframe := 1, stripe := 0, cgroup := 0 }, ?_⟩
  rcases h with h | h <;> subst h <;> decide +kernel

/-- A device past its start-up whose firmware runs, with a sensor in a state; its points are 85, 95 and 105 °C, or 750, 725 and 700 mV, or
as many thousandths of 4. -/
noncomputable def sensing (n st : Nat) : State :=
  let q : Sensor := { reading := 7, state := st, warn := if n < 48 then 1360 else 3000, throttle := if n < 48 then 1520 else 2900
                      trip := if n < 48 then 1680 else 2800, aged := none }
  { (gridded id).updDie 7 fun x => { x with sensors := [(n, q)], steps := 1 } with fwValid := true }

theorem wit_Sensors_warns : ∃ (s : State) (d n : Nat) (r : BitVec 16), s.stage ≠ .off ∧ d < 8 ∧ n < 64 ∧ s.fwValid = true ∧ (sensorOf s d n).state = 0 ∧
    sensorState n (sensorOf s d n) r = 1 ∧ s.errLog.length < 65536 :=
  ⟨sensing 47 0, 7, 47, 1361, by decide +kernel⟩

theorem wit_Sensors_throttles : ∃ (s : State) (d n : Nat) (r : BitVec 16), s.stage ≠ .off ∧ d < 8 ∧ n < 64 ∧ s.fwValid = true ∧ (sensorOf s d n).state = 1 ∧
    sensorState n (sensorOf s d n) r = 2 ∧ s.errLog.length < 65536 :=
  ⟨sensing 63 1, 7, 63, 2899, by decide +kernel⟩

theorem wit_Sensors_recovers : ∃ (s : State) (d n : Nat) (r : BitVec 16), s.stage ≠ .off ∧ d < 8 ∧ n < 72 ∧ (sensorOf s d n).state = 1 ∧
    sensorState n (sensorOf s d n) r = 0 :=
  ⟨sensing 71 1, 7, 71, 3030, by decide +kernel⟩

theorem wit_Sensors_trips : ∃ (s : State) (d n : Nat) (r : BitVec 16), s.stage ≠ .off ∧ d < 8 ∧ n < 48 ∧ (sensorOf s d n).state = 2 ∧
    sensorState n (sensorOf s d n) r = 3 ∧ s.errLog.length < 65536 :=
  ⟨sensing 0 2, 7, 0, 1680, by decide +kernel⟩

theorem wit_Sensors_holds : ∃ (s : State) (d n : Nat) (r : BitVec 16), s.stage ≠ .off ∧ d < 8 ∧ n < 72 ∧ s.stage = .s0 ∧ s.tripped = true ∧
    sensorState n (sensorOf s d n) r = 0 ∧ 72 * d + n ∈ s.hot :=
  ⟨{ sensing 47 2 with stage := .s0, tripped := true, hot := [551, 3] }, 7, 47, 100, by decide +kernel⟩

theorem wit_Sensors_clock : ∃ (s : State) (d : Nat), s.stage ≠ .off ∧ d < 8 ∧ s.fwValid = true ∧ s.errLog.length < 65536 := ⟨sensing 47 2, 7, by decide +kernel⟩

/-- A device whose alarm registers hold values. -/
noncomputable def alarmed (cfg lvl : Nat) : State := { gridded id with alarmCfg := cfg, alarmLvl := lvl }

theorem wit_Alarms_levels : ∀ level, level ∈ [1, 2, 3] → ∃ (s : State) (src : AlarmSrc) (i : Nat), s.stage ≠ .off ∧ s.errLog.length < 65535 ∧
    (src, i) ∈ [(AlarmSrc.mesh, 0), (.glitch, 1), (.monitor, 2), (.attest, 3)] ∧ max 1 (s.alarmCfg / 4 ^ i % 4) = level := by
  intro level h
  refine ⟨alarmed (64 * level + 3) 0, .attest, 3, ?_⟩
  simp only [List.mem_cons, List.not_mem_nil, or_false] at h
  rcases h with h | h | h <;> subst h <;> decide +kernel

theorem wit_Alarms_matches : ∃ s : State, s.stage ≠ .off ∧ s.errLog.length < 65535 ∧ s.fwValid = true ∧
    (s.attLog.head?.map (·.digest)) = some (sm3 (imageBody s.fwRunning)) :=
  ⟨{ alarmed 0xAF 0 with fwValid := true, attLog := [{ ctx := 127, buf := 0, digest := sm3 (imageBody base.fwRunning) }] }, by decide +kernel,
    by decide +kernel, rfl, rfl⟩

theorem wit_Alarms_differs : ∃ s : State, s.stage ≠ .off ∧ s.errLog.length < 65535 ∧ s.fwValid = true ∧
    (s.attLog.head?.map (·.digest)) ≠ some (sm3 (imageBody s.fwRunning)) ∧ s.alarmCfg / 64 % 4 = 1 :=
  ⟨{ alarmed 0x43 0 with fwValid := true, attLog := [] }, by decide +kernel, by decide +kernel, rfl, by simp, by decide +kernel⟩

theorem wit_Alarms_safe : ∃ (s : State) (d n : Nat) (w h : BitVec 16), s.stage = .s3 ∧ s.mailBusy = none ∧ s.errLog.length < 65535 ∧ d < 8 ∧ n < 72 ∧
    harmful n w (sensorOf s d n).trip true = false ∧ harmful n h (sensorOf s d n).trip true = false :=
  ⟨sensing 47 0, 7, 47, 1679, 1600, by decide +kernel⟩

theorem wit_Alarms_unsafe : ∃ (s : State) (d n : Nat) (w : BitVec 16), s.stage = .s3 ∧ s.mailBusy = none ∧ s.errLog.length < 65535 ∧ d < 8 ∧ n < 72 ∧
    harmful n w (sensorOf s d n).trip true = true :=
  ⟨sensing 47 0, 7, 47, 1680, by decide +kernel⟩

theorem wit_Alarms_resumes : ∀ lvl, lvl = 1 ∨ lvl = 2 → ∃ s : State, s.stage = .s3 ∧ s.errLog.length < 65535 ∧ s.alarmLvl = lvl ∧ s.mailBusy = none ∧
    (∀ c, c < 64 → (s.ctx c).ops = []) ∧ (lvl = 2 → (s.ctx 63).alarmFrozen = true) := by
  intro lvl h
  refine ⟨(alarmed 0xAF lvl).updCtx 63 fun x => { x with st := .frozen, alarmFrozen := true }, ?_⟩
  rcases h with h | h <;> subst h <;> decide +kernel

theorem wit_Alarms_waits : ∃ s : State, s.stage = .s3 ∧ s.errLog.length < 65535 ∧ s.mailBusy = none ∧ 2 ≤ s.alarmLvl ∧ (∃ c, c < 64 ∧ (s.ctx c).ops ≠ []) :=
  ⟨(alarmed 0xAF 2).updCtx 63 fun x => { x with ops := [(1, 2)] }, by decide +kernel, by decide +kernel, rfl, by decide +kernel, 63, by decide, by decide +kernel⟩

theorem wit_Alarms_unsupported : ∃ s : State, s.stage ≠ .off ∧ s.mailBusy = none ∧ s.errLog.length < 65535 ∧ (s.stage == .s3) = false := ⟨staged .s1, by decide +kernel⟩

theorem wit_MailboxCommands_update : ∃ (s : State) (off : Nat) (bs : List Byte), s.stage ≠ .off ∧ s.mailBusy = none ∧ (s.stage = .s0 ∨ s.stage = .failed ∨ s.stage = .s3) ∧ bs.length ≤ 4096 ∧
    off + bs.length ≤ 256 + 2 ^ 24 :=
  ⟨staged .failed, 255 + 2 ^ 24, [7], by decide +kernel⟩

theorem wit_MailboxCommands_retires : ∃ (s : State) (k c : Nat), s.mailBusy = none ∧ (s.stage = .s0 ∨ s.stage = .failed ∨ s.stage = .s3) ∧ k < 24 ∧ c < 32 ∧ s.retired.length < 32 :=
  ⟨{ staged .s0 with retired := List.range 31 }, 23, 31, by decide +kernel⟩

theorem wit_MailboxCommands_full : ∃ (s : State) (k c : Nat), s.mailBusy = none ∧ (s.stage = .s0 ∨ s.stage = .failed ∨ s.stage = .s3) ∧ k < 24 ∧ c < 32 ∧ 32 ≤ s.retired.length :=
  ⟨{ staged .s0 with retired := List.range 32 }, 23, 31, by decide +kernel⟩

/-- A key that there is. -/
theorem key_elim {o : Option Nat} {p : Nat → Bool} (h : o.any p = true) : ∃ k, o = some k ∧ p k = true := by
  cases o with
  | none => exact absurd h (by simp)
  | some k => exact ⟨k, rfl, h⟩

theorem wit_MailboxCommands_creates : ∃ s c n f st g key, s.stage = .s3 ∧ s.mailBusy = none ∧ s.mem.wf = true ∧ c < 64 ∧ n ∈ [1, 2, 4, 8, 16, 32, 64, 128, 256, 512, 1024, 2048, 4096] ∧ f < 2 ^ 36 ∧
    st ≤ 2 ∧ g ≤ 32 ∧ (s.ctx c).created = false ∧ deviceKey s g st (f * 2 ^ 17) = some key ∧ ((keyDie key).all fun d => (s.die d).up) = true ∧ cleanAt s key 64 = true := by
  let s : State := { gridded id with dies := (List.range 8).map fun d => (d, { Die.fresh with up := true }) }
  obtain ⟨key, h1, h2⟩ := key_elim
    (show (deviceKey s 0 0 (1 * 2 ^ 17)).any (fun key => ((keyDie key).all fun d => (s.die d).up) && cleanAt s key 64) = true by decide +kernel)
  simp only [Bool.and_eq_true] at h2
  exact ⟨s, 63, 4096, 1, 0, 0, key, by decide +kernel, rfl, by decide +kernel, by decide, by decide, by decide, by decide, by decide, by decide +kernel, h1, h2.1, h2.2⟩

theorem wit_MailboxCommands_destroys : ∃ (s : State) (c : Nat), s.stage = .s3 ∧ s.mailBusy = none ∧ c < 64 ∧ (s.ctx c).ops = [] ∧ s.grids.length < 2 ^ 25 - 1 ∧
    ∀ p, p ∈ s.cores → ∀ q, q ∈ p.2.copies → q.2.ctx ≠ c :=
  ⟨gridded id, 63, by decide +kernel⟩

theorem wit_MailboxCommands_copies : ∃ (s : State) (c k e : Nat) (m : Copy), s.stage = .s3 ∧ s.mailBusy = none ∧ c < 64 ∧ (s.ctx c).ops = [] ∧
    s.grids.length < 2 ^ 25 - 1 ∧ Tbl.get? (s.core k).copies e = some m ∧ m.ctx = c ∧ m.st ≠ .collecting := by
  let s := issued 1 (descOf 100 0) []
  obtain ⟨m, d, h1, -, h3⟩ := copy_elim (s := s) (core := 0) (e := 0) (p := fun m _ => decide (m.ctx = 0 ∧ m.st ≠ .collecting)) (by decide +kernel)
  exact ⟨s, 0, 0, 0, m, by decide +kernel, rfl, by decide, by decide +kernel, by decide +kernel, h1, of_decide_eq_true h3⟩

theorem wit_MailboxCommands_busy : ∃ (s : State) (i : Instr), s.stage ≠ .off ∧ s.mailBusy ≠ none ∧ i ∈ [Instr.getstat, .getbootlog, .reset, .resumeall] :=
  ⟨{ gridded id with mailBusy := some 63 }, .reset, by decide +kernel, by decide, by simp⟩

/-- A record of a number. -/
def recordOf (seq : Nat) : ErrRec := BitVec.ofNat 64 (0x0604 * 2 ^ 48 + seq) :: List.replicate 7 0

theorem test_log_order : (match exec (.getlog 0 64) { gridded id with errLog := [recordOf 0xFFFFFFFF, recordOf 1, recordOf 2], stage := .s3 } with
    | .next t => (t.mailReply.data.take 8, (t.mailReply.data.drop 8).take 8, (t.mailReply.data.drop 16).take 8, (t.mailReply.data.drop 32).take 4)
    | _ => ([], [], [], [])) = (toBytes 3 8, toBytes 1 8, toBytes 0xFFFFFFFF 8, toBytes 1 4) := by decide +kernel

theorem wit_MailboxCommands_resumes : ∃ (s : State) (g : Nat) (grp : Group), Tbl.get? s.groups g = some grp ∧ grp.debug = true :=
  let s := oneWith fun q => { q with debug := true }
  ⟨s, 0, grpOf s 0, by decide +kernel⟩

/-! ### States for the machine as a whole -/

/-- A step goes on. -/
theorem next_elim {o : Host.Outcome State Fault Refusal} {p : State → Bool} (h : (match o with | .next t => p t | _ => false) = true) :
    ∃ t, o = .next t ∧ p t = true := by
  cases o with
  | next t => exact ⟨t, rfl, h⟩
  | fault _ => exact absurd h (by simp)
  | refused _ => exact absurd h (by simp)

/-- A group about to execute `iadd.sat v10, v12, k3` as the device's next step. -/
noncomputable def adding : State := State.reset.withFetchWord 64 0x002040230300A201

/-- A Wick about to execute `sadd s0, s0, s0`. -/
noncomputable def addingInWick : State := State.reset.withFetchWord 64 0x101

theorem wit_MemoryForm : ∃ s t, s.memOk = true ∧ step s = .next t := by
  obtain ⟨t, h, -⟩ := next_elim (o := step adding) (p := fun _ => true) (by decide +kernel)
  exact ⟨adding, t, by decide +kernel, h⟩

/-- The turn of both. -/
def turnOf (a : Act) : Turn := { cycles := 1, ticks := 1, act := a }

theorem wit_StepRuns_group : ∃ s turn rest c b cur d i t, s.schedule = turn :: rest ∧ turn.act = .sub c b ∧ groupFetches (atTurn s turn rest) c b cur (.one d) ∧
    d.stands i = true ∧ exec i { issuingState (atTurn s turn rest) c b with cur := cur } = .next t ∧ t.cur.stalled = false := by
  let x : Args := { Args.bare with dst := 10, a := .v 12, b := .k 3, mod := 0x10 }
  let u := atTurn adding (turnOf (.sub 0 0)) []
  have h : ((fetchAt (countYields u 0 0) 0 (grpOf (countYields u 0 0) 0) 0).map fun r => decide (r.2 = (true, []) ∧ r.1.pc = 32) &&
      match exec (.iadd x) { issuingState u 0 0 with cur := r.1 } with | .next t => !t.cur.stalled | _ => false) = some true := by decide +kernel
  obtain ⟨⟨cur, k⟩, h1, h2⟩ := Option.map_eq_some_iff.mp h
  simp only [Bool.and_eq_true, decide_eq_true_eq] at h2
  obtain ⟨⟨h2, h3⟩, h4⟩ := h2
  subst h2
  obtain ⟨t, h5, h6⟩ := next_elim h4
  refine ⟨adding, turnOf (.sub 0 0), [], 0, 0, cur, .instr (.iadd x), .iadd x, t, by decide +kernel, rfl, ?_, by decide +kernel, h5, by simpa using h6⟩
  refine ⟨0, 0, [], grpOf (countYields u 0 0) 0, teamIn u 0, gridIn u 1, [0, 0, 0, 0], ?_⟩
  rw [h3]
  and_intros <;> first | exact h1 | decide +kernel

theorem wit_StepRuns_wick : ∃ s turn rest c k cur d i t, s.schedule = turn :: rest ∧ turn.act = .wick c ∧ wickFetches (atTurn s turn rest) c k cur d ∧
    d.stands i = true ∧ exec i { (atTurn s turn rest).replayed (1, k) with cur := cur } = .next t ∧ t.cur.stalled = false := by
  let x : Args := { Args.bare with dst := 0, a := .v 0, b := .v 0 }
  let u := atTurn addingInWick (turnOf (.wick 0)) []
  have h : ((wickFetch u 0 (teamIn u 0)).map fun r => decide (r.2 = (true, []) ∧ r.1.pc = 32) &&
      match exec (.sadd x) { u.replayed (1, 0) with cur := r.1 } with | .next t => !t.cur.stalled | _ => false) = some true := by decide +kernel
  obtain ⟨⟨cur, k⟩, h1, h2⟩ := Option.map_eq_some_iff.mp h
  simp only [Bool.and_eq_true, decide_eq_true_eq] at h2
  obtain ⟨⟨h2, h3⟩, h4⟩ := h2
  subst h2
  obtain ⟨t, h5, h6⟩ := next_elim h4
  refine ⟨addingInWick, turnOf (.wick 0), [], 0, 0, cur, .instr (.sadd x), .sadd x, t, by decide +kernel, rfl, ?_, by decide +kernel, h5, by simpa using h6⟩
  refine ⟨(wickOrder u 0).drop 1, teamIn u 0, gridIn u 1, [0, 0, 0, 0], by decide +kernel, by decide +kernel, by decide +kernel, h1, by decide +kernel, ?_, ?_⟩
  · rw [h3]
  · rw [h3]; decide +kernel

theorem wit_StepRuns_event : ∃ (s : State) (turn : Turn) (rest : List Turn) (i : Instr), s.schedule = turn :: rest ∧ turn.act = .event i ∧ encOf i = .event :=
  ⟨{ base with schedule := [turnOf (.event (.swap 0 0))] }, turnOf (.event (.swap 0 0)), [], .swap 0 0, rfl, rfl, rfl⟩

theorem wit_RoundTrip : ∃ kd sup i, Instr.wf kd sup i = true :=
  ⟨.group, false, .iadd { Args.bare with dst := 3, a := .v 4, b := .lit 100 }, by decide +kernel⟩

/-- Group 0, of a tenant's context, with a handler or without one. -/
noncomputable def tenant (tvec : W64) : State :=
  { (oneWith fun q => { q with tvec := tvec }).updGrid 1 fun g => { g with ctx := 63 } with nextSeq := 17 }

/-- What the clauses on groups ask. -/
abbrev Barred (s : State) (g : Nat) (grp : Group) (x : Args) : Prop :=
  mayAct s g grp [x] = true ∧ grp.pair = none ∧ 1 ≤ s.cur.len ∧ s.cur.len ≤ 3 ∧ s.cur.lanes &&& grp.live ≠ 0 ∧ userMode s grp.team = true ∧ s.asksPath g = false ∧ grp.trap = none

theorem wit_SupervisorOnly_enters : ∃ i s g grp x, i ∈ supervisorOnly x ∧ Barred s g grp x ∧ grp.tvec ≠ 0 :=
  ⟨.pmig { firmArgs with a := .k 1, b := .k 4 }, tenant 256, 0, grpOf (tenant 256) 0, { firmArgs with a := .k 1, b := .k 4 }, by simp [supervisorOnly], by decide +kernel, by decide +kernel⟩

theorem wit_SupervisorOnly_ends : ∃ i s g grp x tm, i ∈ supervisorOnly x ∧ Barred s g grp x ∧ grp.tvec = 0 ∧ Tbl.get? s.teams grp.team = some tm ∧
    gridRuns s tm.grid = true ∧ s.nextSeq < 2 ^ 32 ∧ s.cur.pc < 2 ^ 32 ∧ grp.idx < 32 :=
  ⟨.csave { firmArgs with a := .k 1, b := .k 4 }, tenant 0, 0, grpOf (tenant 0) 0, { firmArgs with a := .k 1, b := .k 4 }, teamIn (tenant 0) 0, by simp [supervisorOnly], by decide +kernel⟩

theorem wit_SupervisorOnly_wick : ∃ i x s t tm, i ∈ supervisorOnly x ∧ wickActs s t tm = true ∧ gridRuns s tm.grid = true ∧ s.nextSeq < 2 ^ 32 ∧ s.cur.pc < 2 ^ 32 ∧
    userMode s t = true ∧ wickBusy s t = false :=
  ⟨.tinv firmArgs, firmArgs, wicked, 0, teamIn wicked 0, by simp [supervisorOnly], by decide +kernel⟩

/-! ### Steps and values that the spec works out -/

/-- A register of some values and counts. -/
def cells (l : List (W32 × Nat)) : Sys2Proof.Machine.Reg := { runs := l.map fun p => { val := p.1, cnt := p.2, splice := false }, spilled := none, stamp := 0, pend := none }

/-- Group 0 with v10 and k4, after an instruction. -/
noncomputable def after (i : Instr) (v10 : List (W32 × Nat)) (k4 : W64) : State :=
  nextOf (exec i (oneWith fun q => { q with regs := [(10, cells v10)], ks := [(4, k4)] }))

/-- Chapter 6: an exact sum of 2^24 and 31 ones. -/
theorem test_step_redF : (after (.redF { Args.bare with dst := 3, a := .v 10 }) [(0x4B800000, 1), (0x3F800000, 31)] 0).kreg 0 3 = 0x4B800010 := by decide +kernel

/-- R186: the block of the worked example. -/
theorem test_step_pack4 : let s := after (.pack4 { Args.bare with dst := 20, a := .v 10, b := .k 4 }) [(0x40A00000, 1), (0xC0200000, 1), (0x3F19999A, 1), (0x3FA00000, 1), (0, 28)] 0x60
    (List.range 6).map (s.vlane 0 20) = [0x21C6, 0, 0, 0, 0x60, 0] ∧ ((grpOf s 0).reg 20).runs.length = 6 := by decide +kernel

/-- R190: the first draw of a generator at 1, and G after it. -/
theorem test_step_rngx : (after (.rngx { Args.bare with dst := 5 }) [] 0).vlane 0 5 0 = 0x40822041 := by decide +kernel

/-- R188: x = 5 and seed 3, dropped for P = 32768 and kept for P = 58982. -/
theorem test_step_dmask : ((after (.dmask { Args.bare with dst := 2, a := .v 10, b := .lit 32768, c := .k 4 }) [(5, 32)] 3).pmask 0 2 = 0) ∧
    ((after (.dmask { Args.bare with dst := 2, a := .v 10, b := .lit 58982, c := .k 4 }) [(5, 32)] 3).pmask 0 2 = BitVec.allOnes 32) := by decide +kernel

/-- Chapter 7: 300.0, 460.0 and 1000.0 in E4M3 and E5M2. -/
theorem test_convert : [0x43960000, 0x43E60000, 0x447A0000].map (fun w => (convertFmt Fmt.f32 Fmt.e4m3 .rn w, convertFmt Fmt.f32 Fmt.e5m2 .rn w)) =
    [(0x79, 0x5D), (0x7E, 0x5F), (0x7E, 0x64)] := by decide +kernel

/-- Chapter 7: exact results. -/
theorem test_exact : fExp2 .rn 0x40400000 = 0x41000000 ∧ fLog2 .rn 0x3F800000 = 0 ∧ fLog2 .rn 0x3E800000 = 0xC0000000 ∧ fSqrt .rn 0x40800000 = 0x40000000 := by
  decide +kernel

/-- R134: a sum wraps, and a literal is read whole. -/
theorem test_step_iadd : (after (.iadd { Args.bare with dst := 11, a := .v 10, b := .lit 0xFFFFFFFF }) [(0, 32)] 0).vlane 0 11 31 = 0xFFFFFFFF := by decide +kernel

/-- R347: a count of 0 skips the body. -/
theorem test_step_sloop : (streamAt (nextOf (exec (.sloop { streamArgs 0 with a := .num 3, b := .lit 1 }) (streamed base { riding [] with loops := [], pc := 8 }))) 0 3).map (·.loops) =
    some [] := by decide +kernel

/-- CRC-32C of the digits 1 to 9 (R372). -/
theorem test_crc : crc32c [0x31, 0x32, 0x33, 0x34, 0x35, 0x36, 0x37, 0x38, 0x39] = 0xE3069283 := by decide +kernel

/-! ### States for two instructions or groups at once, and for parked parties -/

/-- The halves of the P64 that R27 writes out: `iadd v4, v4, v8` and `fmul v5, v5, v9`. -/
def halfX : Args := { Args.bare with dst := 4, a := .v 4, b := .v 8 }

/-- Its second half. -/
def halfY : Args := { Args.bare with dst := 5, a := .v 5, b := .v 9 }

theorem wit_CompactPairs : ∃ a b x y f h s g grp, halfLane a = some (x, some f) ∧ halfLane b = some (y, some h) ∧ mayAct s g grp [x, y] = true ∧
    roomy grp 64 = true ∧ pairBankOf x y true true = none ∧ ∀ z, z = x ∨ z = y → z.dsel = false ∧ z.nwb = false ∧ wBit z = false :=
  ⟨.iaddC32 halfX, .fmulC32 halfY, halfX, halfY, _, _, one, 0, grpOf one 0, rfl, rfl, by decide +kernel, by decide +kernel, by decide +kernel,
    fun z h => by rcases h with rfl | rfl <;> decide +kernel⟩

theorem wit_CompactPairs_nop : ∃ a b x y h s g grp, halfLane a = some (x, none) ∧ halfLane b = some (y, some h) ∧ mayAct s g grp [x, y] = true ∧
    roomy grp 64 = true ∧ pairBankOf x y false true = none ∧ ∀ z, z = x ∨ z = y → z.dsel = false ∧ z.nwb = false ∧ wBit z = false :=
  ⟨.nopC32 Args.bare, .fmulC32 halfY, Args.bare, halfY, _, one, 0, grpOf one 0, rfl, rfl, by decide +kernel, by decide +kernel, by decide +kernel,
    fun z h => by rcases h with rfl | rfl <;> decide +kernel⟩

theorem wit_CompactPairs_bank : ∃ a b x y f h, ∃ s : State, ∃ g grp bank, halfLane a = some (x, some f) ∧ halfLane b = some (y, some h) ∧
    pairBankOf x y true true = some bank ∧ mayAct s g grp [] = true ∧ grp.pair = none ∧ 1 ≤ s.cur.len ∧ s.cur.len ≤ 3 ∧
    s.cur.lanes &&& grp.live ≠ 0 ∧ s.asksPath g = false ∧ grp.tvec ≠ 0 ∧ grp.trap = none :=
  let s := oneWith fun q => { q with tvec := 256 }
  ⟨.iaddC32 halfX, .fmulC32 { halfY with dst := 8 }, halfX, { halfY with dst := 8 }, _, _, s, 0, grpOf s 0, 0, rfl, rfl, by decide +kernel⟩

theorem wit_JoinedIssue : ∃ i x wide f, ∃ s : State, ∃ g p grp q, floatLane i = some (x, wide, f) ∧ s.cur.by_ = .group g ∧ s.mem.wf = true ∧ p ≠ g ∧
    coreOfGroup p = coreOfGroup g ∧ subOfGroup p ≠ subOfGroup g ∧ joinedPartner s grp = some p ∧ joinedPartner s q = some g ∧
    grp.minKey grp.live = q.minKey q.live ∧ memberReady s g grp s.cur.lanes [x] = true ∧ memberReady s p q q.live [x] = true ∧ roomy grp 64 = true ∧
    roomy q 64 = true :=
  let x : Args := { Args.bare with dst := 1023, a := .v 1023, b := .k 31, c := .zero }
  ⟨.ffma x, x, _, _, joined, 0, 16, grpOf joined 0, grpOf joined 16, rfl, by decide +kernel⟩

/-- Group 0 with one active lane that points into a paged buffer of its context, the map of which, in the firmware's buffer 3, maps
nothing; with some faults on its die. -/
noncomputable def faulting (fs : List FaultEntry) : State :=
  let s := (oneWith fun q => { q with lastX := 0x80000000, ks := [(1, BitVec.ofNat 64 (2 ^ 48 + 0xFFFFC))] }).updCtx 0 fun c =>
    { c with bufs := [(1, bufOf 0 0x40000000 15 0 (3 * 2 ^ 48 + 1024))] }
  let s := s.updCtx 64 fun c => { c with bufs := [(3, bufOf 64 0x400000 15 0 0)] }
  { s with dies := (List.range 8).map fun d => (d, { Die.fresh with up := true, faults := if d = 0 then fs else [] })
           cur := { s.cur with lanes := 0x80000000 } }

/-- An entry of the fault buffer for a page. -/
def faultAt (page i : Nat) : FaultEntry :=
  { page := BitVec.ofNat 64 page, kind := 1, first := 0, time := 5, seq := 9, index := i, parked := [(1, 511)] }

/-- A page-map entry in a good word is read as it stands. -/
theorem readMapEntry_good {s : State} {e : BufEntry} {p k : Nat} (h1 : (pmapEntry s e p).isSome = true) (h2 : pmapKey s e p = some k)
    (h3 : goodWord s k = true) (h4 : s.badCE = []) : readMapEntry s e p = .ok (BitVec.ofNat 64 (ofBytes (Memory.readN s.mem k 8))) s := by
  obtain ⟨w, h1⟩ := Option.isSome_iff_exists.mp h1
  simp only [goodWord, Bool.and_eq_true, Bool.not_eq_true', List.all_eq_true, Option.all_eq_true] at h3
  obtain ⟨⟨h5, h6⟩, h7⟩ := h3
  have h8 : (granules k 8).find? (fun g => s.poison.contains g || s.badUE.contains g) = none := by
    rw [List.find?_eq_none]
    intro g hg
    simpa using h7 g hg
  have h9 : ∀ gs : List Nat, gs.foldl correct s = s := by
    intro gs
    induction gs with
    | nil => rfl
    | cons g gs ih => simp only [List.foldl_cons, correct, h4]; exact ih
  simp only [readMapEntry, h1, h2, Option.bind_some, atHome, eccRead, h6, h8, h9, PRes.bind]
  split
  · rfl
  · next d hd => simp [h5 d hd]

/-- The page-map entries of a state that `unmapped` asks about, as a test. -/
noncomputable def mapsNothing (s : State) (e : BufEntry) (page : Nat) : Bool :=
  s.badCE.isEmpty && [page / 16 * 16, page / 512 * 512, page].all fun q => (pmapEntry s e q).isSome &&
    (pmapKey s e q).any fun k => goodWord s k && !pmPresent (BitVec.ofNat 64 (ofBytes (Memory.readN s.mem k 8)))

theorem unmapped_of {s : State} {e : BufEntry} {page : Nat} (h : mapsNothing s e page = true) : unmapped s e page := by
  simp only [mapsNothing, Bool.and_eq_true, List.isEmpty_iff, List.all_eq_true, Option.any_eq_true, Bool.not_eq_true'] at h
  intro q hq
  obtain ⟨a1, k, a2, a3, a4⟩ := h.2 q (by simpa using hq)
  exact ⟨_, readMapEntry_good a1 a2 a3 h.1, a4⟩

/-- What every clause on parking asks. -/
abbrev Parks (i : Instr) (x : Args) (s : State) (g : Nat) (grp : Group) (l : Nat) (e : BufEntry) : Prop :=
  i ∈ [Instr.atomAdd x, .atomMin x, .atomMax x, .atomAnd x, .atomOr x, .atomXor x, .atomExch x, .atomcas x, .atomFAdd x, .atomFMin x, .atomFMax x,
      .amaxF32 x] ∧
    mayAct s g grp [x] = true ∧ roomy grp 64 = true ∧ spaceBits x = 2 ∧ l < 32 ∧ actives s grp x = 1#32 <<< l ∧
    (2 ≤ modBits x 2 2 → (Who.group (issueMem s g grp x)).owesPath s = false) ∧
    let n := atomBytes x
    let ctx := s.ctxOfTeam grp.team
    let ptr := (srcLane64 s g x.a l).toNat
    ptr % n = 0 ∧ lockHitMM s (coreOfGroup g) ctx ptr n = none ∧ checkEntry s ctx ptr n .atomic true = .ok e ∧ e.home = 0 ∧ ctx ≠ 64 ∧
      cachedWord s (0, g) (pageName ctx ptr) = none ∧ unmapped (begun s g [x]) e (ptr % 2 ^ 48 / 2 ^ 17)

/-- The page of the witnesses' access. -/
def faultPage : Nat := pageName 0 (2 ^ 48 + 0xFFFFC)

/-- The buffer's entry. -/
noncomputable def faultBuf : BufEntry := BufEntry.of (bufOf 0 0x40000000 15 0 (3 * 2 ^ 48 + 1024))

theorem checked_elim {r : Except Nat BufEntry} {e : BufEntry} (h : (match r with | .ok a => decide (a = e) | .error _ => false) = true) :
    r = .ok e := by
  cases r with
  | ok a => rw [of_decide_eq_true h]
  | error _ => exact absurd h (by simp)

theorem wit_Parking_new : ∃ i x s g grp l e, Parks i x s g grp l e ∧
    (∀ f, f ∈ (s.die (dieOfCore (coreOfGroup g))).faults → f.page.toNat ≠ pageName (s.ctxOfTeam grp.team) (srcLane64 s g x.a l).toNat) ∧
    (s.die (dieOfCore (coreOfGroup g))).faults.length < 4096 ∧ s.errLog.length < 65536 :=
  let s := faulting [faultAt 7 4095]
  ⟨.atomcas casArgs, casArgs, s, 0, grpOf s 0, 31, faultBuf, ⟨by simp, by decide +kernel, by decide +kernel, by decide +kernel, by decide,
    by decide +kernel, by decide +kernel, by decide +kernel, by decide +kernel, checked_elim (by decide +kernel), by decide +kernel, by decide +kernel, by decide +kernel,
    unmapped_of (by decide +kernel)⟩, by decide +kernel⟩

theorem wit_Parking_again : ∃ i x s g grp l e, Parks i x s g grp l e ∧
    ∃ f, f ∈ (s.die (dieOfCore (coreOfGroup g))).faults ∧ f.page.toNat = pageName (s.ctxOfTeam grp.team) (srcLane64 s g x.a l).toNat :=
  let s := faulting [faultAt 7 0, faultAt faultPage 1]
  ⟨.atomcas casArgs, casArgs, s, 0, grpOf s 0, 31, faultBuf, ⟨by simp, by decide +kernel, by decide +kernel, by decide +kernel, by decide,
    by decide +kernel, by decide +kernel, by decide +kernel, by decide +kernel, checked_elim (by decide +kernel), by decide +kernel, by decide +kernel, by decide +kernel,
    unmapped_of (by decide +kernel)⟩, faultAt faultPage 1, by decide +kernel⟩

theorem wit_Parking_full : ∃ i x s g grp l e, Parks i x s g grp l e ∧
    (∀ f, f ∈ (s.die (dieOfCore (coreOfGroup g))).faults → f.page.toNat ≠ pageName (s.ctxOfTeam grp.team) (srcLane64 s g x.a l).toNat) ∧
    4096 ≤ (s.die (dieOfCore (coreOfGroup g))).faults.length :=
  let s := faulting (List.replicate 4096 (faultAt 7 0))
  have h : (s.die 0).faults = List.replicate 4096 (faultAt 7 0) := rfl
  ⟨.atomcas casArgs, casArgs, s, 0, grpOf s 0, 31, faultBuf, ⟨by simp, by decide +kernel, by decide +kernel, by decide +kernel, by decide,
    by decide +kernel, by decide +kernel, by decide +kernel, by decide +kernel, checked_elim (by decide +kernel), by decide +kernel, by decide +kernel, by decide +kernel,
    unmapped_of (by decide +kernel)⟩, by
      intro f hf
      rw [show (s.die (dieOfCore (coreOfGroup 0))).faults = _ from h] at hf
      rw [List.eq_of_mem_replicate hf]
      decide +kernel,
    by rw [show (s.die (dieOfCore (coreOfGroup 0))).faults = _ from h]; exact Nat.le_of_eq List.length_replicate.symm⟩

/-- A group about to execute that P64 as the device's next step. -/
noncomputable def addingPair : State := State.reset.withFetchWord 64 0x0009058800080422

theorem wit_StepRuns_pair : ∃ s turn rest c b cur i j t, s.schedule = turn :: rest ∧ turn.act = .sub c b ∧
    groupFetches (atTurn s turn rest) c b cur (.pair i j) ∧
    runRead (.pair i j) { issuingState (atTurn s turn rest) c b with cur := cur } = .next t ∧ t.cur.stalled = false := by
  let u := atTurn addingPair (turnOf (.sub 0 0)) []
  have h : ((fetchAt (countYields u 0 0) 0 (grpOf (countYields u 0 0) 0) 0).map fun r => decide (r.2 = (true, []) ∧ r.1.pc = 32) &&
      match runRead (.pair (.iaddC32 halfX) (.fmulC32 halfY)) { issuingState u 0 0 with cur := r.1 } with
      | .next t => !t.cur.stalled
      | _ => false) = some true := by decide +kernel
  obtain ⟨⟨cur, k⟩, h1, h2⟩ := Option.map_eq_some_iff.mp h
  simp only [Bool.and_eq_true, decide_eq_true_eq] at h2
  obtain ⟨⟨h2, h3⟩, h4⟩ := h2
  subst h2
  obtain ⟨t, h5, h6⟩ := next_elim h4
  refine ⟨addingPair, turnOf (.sub 0 0), [], 0, 0, cur, .iaddC32 halfX, .fmulC32 halfY, t, by decide +kernel, rfl, ?_, h5, by simpa using h6⟩
  refine ⟨0, 0, [], grpOf (countYields u 0 0) 0, teamIn u 0, gridIn u 1, [0, 0, 0, 0], ?_⟩
  rw [h3]
  and_intros <;> first | exact h1 | decide +kernel

end Sys2Proof.Tests
end

section
/-! The Wick's scalar instructions and branches (R62 to R66, R75, R76), and how a fault of a Wick ends its grid (R46). -/

namespace Sys2Proof.Machine

open Sys2Proof.Claims

/-! ### The issue of a Wick instruction -/

theorem wickActs_here {s : State} {t : Nat} {tm : Team} (h : wickActs s t tm = true) :
    s.cur.by_ = .wick t ∧ Tbl.get? s.teams t = some tm ∧ tm.parked = none ∧ tm.stok = [] := by
  simp only [wickActs, Bool.and_eq_true, beq_iff_eq, Option.isNone_iff_eq_none, List.isEmpty_iff] at h
  obtain ⟨⟨⟨⟨hby, ht⟩, hp⟩, hk⟩, -⟩ := h
  exact ⟨hby, ht, hp, hk⟩

/-- The state in which an issue of a Wick leaves the device, once the instruction has done its work (R41, R331). -/
def wickLeft (t : Nat) (s : State) : State :=
  (((s.updCore (coreOfTeam t) fun k => { k with wickLast := t % 8 }).updTeam t fun tm => { tm with wait := none }).dropReplies
    (1, t)).leaveEntryWait (coreOfTeam t) (1, t) 0

/-- Where nothing holds a Wick instruction, its meaning decides what the issue comes to. -/
theorem issueWick_eq {s : State} {t : Nat} {tm : Team} (h : wickActs s t tm = true) (x : Args) (ws : List Nat)
    (body : Nat → State → GEff) :
    issueWick x ws body s = .next (match body t s with
      | .done u => wickLeft t (u.updTeam t fun tm => { tm with wpc := s.nextPc })
      | .jump u => wickLeft t u
      | .all u => wickLeft t u
      | .wait u => { u with cur := { u.cur with stalled := true } }
      | .fault c => wickLeft t (wickFault t c s)) := by
  obtain ⟨hby, ht, hp, hk⟩ := wickActs_here h
  have htok (rs : List Nat) : tokensPending s t rs = false := tokensPending_false (by simp [ht, hk]) rs
  unfold issueWick
  simp only [hby, ht, hp, htok, Option.isSome_none, Bool.or_false, Bool.false_eq_true, if_false, GEff.unlessOwed_false]
  cases body t s <;> rfl

theorem issueWick_done {s u : State} {t : Nat} {tm : Team} (h : wickActs s t tm = true) {x : Args} {ws : List Nat}
    {body : Nat → State → GEff} (hb : body t s = .done u) :
    issueWick x ws body s = .next (wickLeft t (u.updTeam t fun tm => { tm with wpc := s.nextPc })) := by
  rw [issueWick_eq h, hb]

theorem issueWick_jump {s u : State} {t : Nat} {tm : Team} (h : wickActs s t tm = true) {x : Args} {ws : List Nat}
    {body : Nat → State → GEff} (hb : body t s = .jump u) : issueWick x ws body s = .next (wickLeft t u) := by
  rw [issueWick_eq h, hb]

theorem issueWick_fault {s : State} {t : Nat} {tm : Team} (h : wickActs s t tm = true) {x : Args} {ws : List Nat}
    {body : Nat → State → GEff} {c : Cause} (hb : body t s = .fault c) :
    issueWick x ws body s = .next (wickLeft t (wickFault t c s)) := by
  rw [issueWick_eq h, hb]

theorem State.updTeam_updTeam (s : State) (t : Nat) (f h : Team → Team) :
    (s.updTeam t f).updTeam t h = s.updTeam t fun tm => h (f tm) := by
  simp [State.updTeam, Tbl.upd_upd]

/-! ### What the end of a Wick issue leaves unchanged -/

@[simp] theorem wickLeft_grids (t : Nat) (s : State) : (wickLeft t s).grids = s.grids := rfl
@[simp] theorem wickLeft_groups (t : Nat) (s : State) : (wickLeft t s).groups = s.groups := rfl
@[simp] theorem wickLeft_errLog (t : Nat) (s : State) : (wickLeft t s).errLog = s.errLog := rfl
@[simp] theorem wickLeft_nextSeq (t : Nat) (s : State) : (wickLeft t s).nextSeq = s.nextSeq := rfl
@[simp] theorem wickLeft_ts (t : Nat) (s : State) : (wickLeft t s).ts = s.ts := rfl

theorem wickLeft_teams (t : Nat) (s : State) : (wickLeft t s).teams = Tbl.upd s.teams t fun tm => { tm with wait := none } := rfl

theorem wickLeft_core (t : Nat) (s : State) (c : Nat) : (wickLeft t s).core c =
    { s.core c with wickLast := ((wickLeft t s).core c).wickLast, entryWait := ((wickLeft t s).core c).entryWait } := by
  by_cases hc : c = coreOfTeam t
  · subst hc
    simp [wickLeft, State.leaveEntryWait, State.dropReplies, State.updTeam, State.updCore, State.core]
  · simp [wickLeft, State.leaveEntryWait, State.dropReplies, State.updTeam, State.updCore, State.core, hc]

theorem wickLeft_eq (t : Nat) (s : State) : wickLeft t s =
    { s with teams := (wickLeft t s).teams, cores := (wickLeft t s).cores, replies := (wickLeft t s).replies } := rfl

/-- A Wick issue that changes its team alone. -/
theorem teamOnly_wickLeft (s : State) (t : Nat) (f : Team → Team) : teamOnly s (wickLeft t (s.updTeam t f)) t := by
  refine ⟨wickLeft_eq t (s.updTeam t f), fun r hr => ?_, wickLeft_core t (s.updTeam t f)⟩
  simp [wickLeft_teams, State.updTeam, hr]

theorem wickLeft_updTeam_team {s : State} {t : Nat} {tm : Team} (ht : Tbl.get? s.teams t = some tm) (f : Team → Team) :
    Tbl.get? (wickLeft t (s.updTeam t f)).teams t = some { f tm with wait := none } := by
  simp [wickLeft_teams, State.updTeam, ht]

/-- The s register written by a Wick instruction, where it writes one, and the address at which it leaves the Wick. -/
def wickTo (d : Option (Nat × W64)) (pc : Nat) (tm : Team) : Team :=
  { tm with
    sregs := match d with
      | some (n, v) => Tbl.set tm.sregs n v
      | none => tm.sregs
    wpc := pc }

theorem wickWrote_wickTo {s : State} {t : Nat} {tm : Team} (ht : Tbl.get? s.teams t = some tm) (d : Option (Nat × W64)) (pc : Nat) :
    wickWrote s (wickLeft t (s.updTeam t (wickTo d pc))) t tm d pc := by
  have hget := wickLeft_updTeam_team ht (wickTo d pc)
  refine ⟨_, hget, rfl, fun r => ?_⟩
  cases d with
  | none => simp [State.sreg, hget, ht, wickTo]
  | some p => by_cases hr : r = p.1 <;> simp [State.sreg, hget, ht, wickTo, Tbl.get, hr]

/-! ### The operands -/

theorem uni_wick (s : State) (t : Nat) (src : Src) : (Who.wick t).uni s src = wickVal s t false src := by
  cases src <;> simp [Who.uni, Who.team, wickVal]

theorem wickIn_eq (s : State) (t : Nat) (x : Args) (src : Src) : wickIn t s x src = wickVal s t (uBit x) src := by
  unfold wickIn
  cases hu : uBit x with
  | false => simp [uni_wick]
  | true => cases src <;> simp [Who.uniZ, Who.uni, Who.team, wickVal]

/-! ### The functions -/

theorem mulHigh64_eq (u : Bool) (a b : W64) : mulHigh64 u a b =
    if u then ((a.zeroExtend 128 * b.zeroExtend 128) >>> 64).truncate 64
    else ((a.signExtend 128 * b.signExtend 128) >>> 64).truncate 64 := by
  apply BitVec.eq_of_toNat_eq
  cases u with
  | true =>
    simp [mulHigh64, Nat.shiftRight_eq_div_pow]
    omega
  | false =>
    have hp : a.signExtend 128 * b.signExtend 128 = BitVec.ofInt 128 (a.toInt * b.toInt) := by
      rw [BitVec.ofInt_mul, ← BitVec.toInt_signExtend_of_le (x := a) (v := 128) (by decide),
        ← BitVec.toInt_signExtend_of_le (x := b) (v := 128) (by decide), BitVec.ofInt_toInt, BitVec.ofInt_toInt]
    simp [mulHigh64, hp, Nat.shiftRight_eq_div_pow]
    omega

theorem wickDiv_eq (u : Bool) (a b : W64) :
    wickDiv u a b = if b = 0 then BitVec.allOnes 64 else if u then a / b else a.sdiv b := by
  unfold wickDiv
  have hu : BitVec.ofNat 64 (a.toNat / b.toNat) = a / b := by simp [← BitVec.toNat_udiv]
  have hs : BitVec.ofInt 64 (Int.tdiv a.toInt b.toInt) = a.sdiv b := by
    apply BitVec.eq_of_toInt_eq
    rw [BitVec.toInt_ofInt, BitVec.toInt_sdiv]
  rw [hu, hs]

theorem wickRem_eq (u : Bool) (a b : W64) :
    wickRem u a b = if b = 0 then a else if u then a % b else a.srem b := by
  unfold wickRem
  have hu : BitVec.ofNat 64 (a.toNat % b.toNat) = a % b := by simp [← BitVec.toNat_umod]
  have hs : BitVec.ofInt 64 (Int.tmod a.toInt b.toInt) = a.srem b := by
    rw [← BitVec.toInt_srem, BitVec.ofInt_toInt]
  rw [hu, hs]

theorem join64_lo32 (v w : W64) : join64 (lo32 v) (lo32 w) = (v <<< 32) ||| (w.truncate 32).zeroExtend 64 := by
  ext i hi
  simp [lo32]
  grind

/-! ### The scalar instructions -/

/-- A scalar instruction of two operands writes their function to sD. -/
theorem issueScalar_next {s : State} {t : Nat} {tm : Team} (h : wickActs s t tm = true) (x : Args) {f : W64 → W64 → W64} {v : W64}
    (hv : f (wickVal s t (uBit x) x.a) (wickVal s t (uBit x) x.b) = v) :
    issueScalar x f s = .next (wickLeft t (s.updTeam t (wickTo (some (x.dst.toNat, v)) s.nextPc))) := by
  rw [← hv, ← wickIn_eq, ← wickIn_eq]
  exact (issueWick_done h rfl).trans (by rw [setS, State.updTeam_updTeam]; rfl)

/-- The same for a value that the body forms itself. -/
theorem issueWick_setS {s : State} {t : Nat} {tm : Team} (h : wickActs s t tm = true) {x : Args} {ws : List Nat}
    {body : Nat → State → GEff} {n : Nat} {v : W64} (hb : body t s = .done (setS t n v s)) :
    issueWick x ws body s = .next (wickLeft t (s.updTeam t (wickTo (some (n, v)) s.nextPc))) := by
  rw [issueWick_done h hb, setS, State.updTeam_updTeam]
  rfl

theorem teamIdent_eq {s : State} {t : Nat} {tm : Team} {g : Grid} (ht : Tbl.get? s.teams t = some tm)
    (hg : Tbl.get? s.grids tm.grid = some g) (sel : Nat) : teamIdent s t sel = (idents g tm t).getD sel g.header.groups := by
  unfold teamIdent
  simp only [ht, State.gridOf, hg]
  match sel with
  | 0 | 1 | 2 | 3 | 4 | 5 | 6 | 7 | 8 | 9 | 10 | 11 | 12 | 13 | 14 | 15 => rfl
  | _ + 16 => rfl

theorem exec_ssel {s : State} {t : Nat} {tm : Team} (h : wickActs s t tm = true) (x : Args) :
    execSsel x s = .next (wickLeft t (s.updTeam t (wickTo (some (x.dst.toNat,
      if wickVal s t false x.c = 0 then wickVal s t false x.b else wickVal s t false x.a)) s.nextPc))) := by
  refine issueWick_setS h (congrArg (fun v => GEff.done (setS t x.dst.toNat v s)) ?_)
  by_cases hc : wickVal s t false x.c = 0 <;> simp [uni_wick, hc]

theorem exec_sli {s : State} {t : Nat} {tm : Team} (h : wickActs s t tm = true) (x : Args) :
    execSli x s = .next (wickLeft t (s.updTeam t (wickTo (some (x.dst.toNat,
      if modBits x 4 1 = 1 then (wickVal s t (uBit x) x.b <<< 32) ||| ((s.sreg t x.dst.toNat).truncate 32).zeroExtend 64
      else wickVal s t (uBit x) x.b)) s.nextPc))) := by
  refine issueWick_setS h (congrArg (fun v => GEff.done (setS t x.dst.toNat v s)) ?_)
  rw [wickIn_eq, join64_lo32]

/-- What the scalar instructions come to (R62 to R65, R75, R76): sD holds the stated value, and the Wick stands at the next
instruction. -/
theorem exec_scalar {i : Instr} {s : State} {t : Nat} {tm : Team} {g : Grid} {x : Args} {v : W64}
    (hi : scalarOf s t tm g i = some (x, v)) (h : wickActs s t tm = true) (hg : Tbl.get? s.grids tm.grid = some g) :
    exec i s = .next (wickLeft t (s.updTeam t (wickTo (some (x.dst.toNat, v)) s.nextPc))) := by
  obtain ⟨-, ht, -, -⟩ := wickActs_here h
  unfold scalarOf at hi
  split at hi <;> cases hi <;> dsimp only [exec]
  -- of two operands, where the model computes the function in another way: `smulh`, `sdiv`, `srem`
  case h_4 => exact issueScalar_next h x (mulHigh64_eq ..)
  case h_5 => exact issueScalar_next h x (wickDiv_eq ..)
  case h_6 => exact issueScalar_next h x (wickRem_eq ..)
  -- with values of their own: `ssel`, `sli`, `sclk`, `sgrid`
  case h_16 => exact exec_ssel h x
  case h_18 => exact exec_sli h x
  case h_19 => exact issueWick_setS h rfl
  case h_20 => exact teamIdent_eq ht hg _ ▸ issueWick_setS h rfl
  -- the others of two operands
  all_goals exact issueScalar_next h x rfl

/-- Settles O8: every scalar instruction is an issue that writes one s register and the Wick's place. -/
theorem wickScalars : Obligations.WickScalars := by
  unfold Obligations.WickScalars
  intro i s t tm g x v hi h hg
  obtain ⟨-, ht, -, -⟩ := wickActs_here h
  exact ⟨_, exec_scalar hi h hg, wickWrote_wickTo ht _ _, teamOnly_wickLeft s t _⟩

/-! ### The branches -/

theorem wickTarget_eq (s : State) (t : Nat) (x : Args) :
    wickTarget t s x = BitVec.ofNat 32 s.cur.pc + 4 * lo32 (wickVal s t false x.b) := by
  rw [wickTarget, uni_wick]
  congr 1
  bv_omega

theorem wickGoto_jump {t : Nat} {target : W32} (h4 : target.toNat % 4 = 0) (s : State) :
    wickGoto t target s = .jump (s.updTeam t fun tm => { tm with wpc := target.toNat }) := by
  simp [wickGoto, h4]

/-- A branch without a link that is taken. -/
theorem issueWick_goto {s : State} {t : Nat} {tm : Team} (h : wickActs s t tm = true) {target : W32} (h4 : target.toNat % 4 = 0)
    {x : Args} {ws : List Nat} {body : Nat → State → GEff} (hb : body t s = wickGoto t target s) :
    issueWick x ws body s = .next (wickLeft t (s.updTeam t (wickTo none target.toNat))) :=
  issueWick_jump h (hb.trans (wickGoto_jump h4 s))

theorem exec_sbr {s : State} {t : Nat} {tm : Team} (h : wickActs s t tm = true) (x : Args) {target : W32}
    (ht : (if (wickVal s t false x.a != 0) != (modBits x 4 1 == 1) then BitVec.ofNat 32 s.cur.pc + 4 * lo32 (wickVal s t false x.b)
      else BitVec.ofNat 32 s.nextPc) = target) (h4 : target.toNat % 4 = 0) (hpc : s.nextPc < 2 ^ 32) :
    execSbr x s = .next (wickLeft t (s.updTeam t (wickTo none target.toNat))) := by
  by_cases htaken : ((wickVal s t false x.a != 0) != (modBits x 4 1 == 1)) = true
  · rw [if_pos htaken, ← wickTarget_eq] at ht
    exact issueWick_goto h h4 (by simp only [uni_wick, htaken, if_true, ht])
  · rw [if_neg htaken] at ht
    have hnext : target.toNat = s.nextPc := by
      rw [← ht, BitVec.toNat_ofNat, Nat.mod_eq_of_lt hpc]
    rw [hnext]
    exact issueWick_done h (by simp only [uni_wick, htaken]; rfl)

theorem exec_scall {s : State} {t : Nat} {tm : Team} (h : wickActs s t tm = true) (x : Args) {target : W32}
    (ht : BitVec.ofNat 32 s.cur.pc + 4 * lo32 (wickVal s t false x.b) = target) (h4 : target.toNat % 4 = 0) :
    execScall x s = .next (wickLeft t (s.updTeam t (wickTo (some (x.dst.toNat, BitVec.ofNat 64 s.nextPc)) target.toNat))) := by
  have hb := wickGoto_jump (t := t) h4 (setS t x.dst.toNat (BitVec.ofNat 64 s.nextPc) s)
  rw [setS, State.updTeam_updTeam, ← ht, ← wickTarget_eq] at hb
  rw [← ht, ← wickTarget_eq]
  exact issueWick_jump h hb

/-- A `sret` goes to a target of 32 bits that is a multiple of 4. -/
theorem exec_sret {s : State} {t : Nat} {tm : Team} (h : wickActs s t tm = true) (x : Args) (hhi : hi32 (wickVal s t false x.a) = 0)
    (h4 : (lo32 (wickVal s t false x.a)).toNat % 4 = 0) :
    execSret x s = .next (wickLeft t (s.updTeam t (wickTo none (lo32 (wickVal s t false x.a)).toNat))) := by
  have h4' : (wickVal s t false x.a).toNat % 4 = 0 := by
    simp only [lo32, BitVec.truncate_eq_setWidth, BitVec.toNat_setWidth] at h4
    omega
  exact issueWick_goto h h4 (by simp [uni_wick, hhi, h4'])

/-- What the branches come to (R66), to a target that is a multiple of 4. -/
theorem exec_branch {i : Instr} {s : State} {t : Nat} {tm : Team} {d : Option (Nat × W64)} {target : W32}
    (hi : wickBranch s t i = some (d, target)) (h : wickActs s t tm = true) (h4 : target.toNat % 4 = 0) (hpc : s.nextPc < 2 ^ 32) :
    exec i s = .next (wickLeft t (s.updTeam t (wickTo d target.toNat))) := by
  unfold wickBranch at hi
  split at hi
  -- `sbr`
  case h_1 x =>
    cases hi
    exact exec_sbr h x rfl h4 hpc
  -- `sjmp`
  case h_2 x =>
    cases hi
    rw [← wickTarget_eq] at h4 ⊢
    exact issueWick_goto h h4 rfl
  -- `scall`
  case h_3 x =>
    cases hi
    exact exec_scall h x rfl h4
  -- `sret`
  case h_4 x =>
    split at hi
    case isTrue hhi =>
      cases hi
      exact exec_sret h x hhi h4
    case isFalse => cases hi
  -- no branch
  case h_5 => cases hi

/-- R66: the first part of O37. -/
theorem wickTargets : Sys2Proof.Claims.WickTargets := by
  unfold Sys2Proof.Claims.WickTargets
  intro i s t tm d target hi h h4 hpc
  obtain ⟨-, ht, -, -⟩ := wickActs_here h
  exact ⟨_, exec_branch hi h h4 hpc, wickWrote_wickTo ht _ _, teamOnly_wickLeft s t _⟩

/-! ### A grid that a fault ends (R46) -/

/-- A team that has ended with its grid, and of which no group is left. -/
def Slain (s : State) (k : Nat) : Prop :=
  (∃ u, Tbl.get? s.teams k = some u ∧ u.wst = .ended ∧ u.killed = true) ∧ ∀ h q, Tbl.get? s.groups h = some q → q.team ≠ k

theorem freeGroup_groups (s : State) (g : Nat) : (freeGroup s g).groups = Tbl.erase s.groups g := rfl
@[simp] theorem freeGroup_teams (s : State) (g : Nat) : (freeGroup s g).teams = s.teams := rfl
@[simp] theorem freeGroup_grids (s : State) (g : Nat) : (freeGroup s g).grids = s.grids := rfl
@[simp] theorem freeGroup_errLog (s : State) (g : Nat) : (freeGroup s g).errLog = s.errLog := rfl

/-- What an update keeps, a fold of it keeps. -/
theorem foldl_keeps {α β : Type} {f : State → α → State} {p : State → β} (hf : ∀ s a, p (f s a) = p s) (as : List α) (s : State) :
    p (as.foldl f s) = p s := by
  induction as generalizing s with
  | nil => rfl
  | cons a as ih => rw [List.foldl_cons, ih, hf]

theorem freeGroups_get (gs : List Nat) (s : State) (h : Nat) :
    Tbl.get? (gs.foldl freeGroup s).groups h = if h ∈ gs then none else Tbl.get? s.groups h := by
  induction gs generalizing s with
  | nil => simp
  | cons g gs ih =>
    rw [List.foldl_cons, ih, freeGroup_groups]
    by_cases hg : h = g <;> simp [hg]

theorem mem_groupsOf {s : State} {h : Nat} {q : Group} (hq : Tbl.get? s.groups h = some q) :
    h ∈ (s.groupsOf q.team).map (·.1) :=
  List.mem_map.mpr ⟨(h, q), List.mem_filter.mpr ⟨Tbl.get?_mem hq, by simp⟩, rfl⟩

theorem mem_teamsOf {s : State} {k : Nat} {tm : Team} (ht : Tbl.get? s.teams k = some tm) : k ∈ s.teamsOf tm.grid :=
  List.mem_map.mpr ⟨(k, tm), List.mem_filter.mpr ⟨Tbl.get?_mem ht, by simp⟩, rfl⟩

/-- What a kill makes of the team. -/
def Team.slain (tm : Team) : Team :=
  { tm with wst := .ended, dqClosed := true, killed := true, wait := none, mctx := none, stop := none }

theorem killTeam_teams (s : State) (t : Nat) : (killTeam s t).teams = Tbl.upd s.teams t Team.slain :=
  congrArg (Tbl.upd · t Team.slain) (foldl_keeps (p := State.teams) freeGroup_teams _ s)

@[simp] theorem killTeam_grids (s : State) (t : Nat) : (killTeam s t).grids = s.grids :=
  foldl_keeps (p := State.grids) freeGroup_grids _ s

@[simp] theorem killTeam_errLog (s : State) (t : Nat) : (killTeam s t).errLog = s.errLog :=
  foldl_keeps (p := State.errLog) freeGroup_errLog _ s

/-- A kill leaves the groups of the other teams alone. -/
theorem killTeam_group {s : State} {t h : Nat} {q : Group} (hq : Tbl.get? (killTeam s t).groups h = some q) :
    Tbl.get? s.groups h = some q ∧ q.team ≠ t := by
  have he : (killTeam s t).groups = (((s.groupsOf t).map (·.1)).foldl freeGroup s).groups := rfl
  rw [he, freeGroups_get] at hq
  split at hq
  · cases hq
  · next hm => exact ⟨hq, fun ht => hm (ht ▸ mem_groupsOf hq)⟩

theorem Slain.killTeam {s : State} {k : Nat} (h : Slain s k) (t : Nat) : Slain (killTeam s t) k := by
  obtain ⟨⟨u, hu, hw, hk⟩, hg⟩ := h
  refine ⟨?_, fun h q hq => hg h q (killTeam_group hq).1⟩
  by_cases hkt : k = t
  · exact ⟨u.slain, by simp [killTeam_teams, ← hkt, hu], rfl, rfl⟩
  · exact ⟨u, by simp [killTeam_teams, hkt, hu], hw, hk⟩

theorem slain_killTeam {s : State} {t : Nat} {tm : Team} (ht : Tbl.get? s.teams t = some tm) : Slain (killTeam s t) t :=
  ⟨⟨tm.slain, by simp [killTeam_teams, ht], rfl, rfl⟩, fun _ _ hq => (killTeam_group hq).2⟩

theorem Slain.killTeams {k : Nat} (ts : List Nat) {s : State} (h : Slain s k) : Slain (ts.foldl Machine.killTeam s) k := by
  induction ts generalizing s with
  | nil => exact h
  | cons t ts ih => exact ih (h.killTeam t)

theorem slain_killTeams (ts : List Nat) {s : State} {k : Nat} {tm : Team} (hk : Tbl.get? s.teams k = some tm) (hm : k ∈ ts) :
    Slain (ts.foldl Machine.killTeam s) k := by
  induction ts generalizing s tm with
  | nil => cases hm
  | cons t ts ih =>
    by_cases hkt : k = t
    · subst hkt
      exact (slain_killTeam hk).killTeams ts
    · exact ih (by rw [killTeam_teams, Tbl.get?_upd_other _ _ hkt, hk]) (List.mem_of_ne_of_mem hkt hm)

/-- The entry of a grid that has ended with a status (R46, R54). -/
def Grid.endedWith (status seq : Nat) (g : Grid) : Grid :=
  { g with st := .ending, status := status, seq := if g.seq = 0 then seq else g.seq, grants := [] }

theorem endOne_ended {s : State} {n status seq : Nat} {g : Grid} (hg : Tbl.get? s.grids n = some g)
    (hst : (g.st == .retired || g.st == .ending) = true) : endOne s n status seq = s := by
  simp [endOne, hg, hst]

theorem endOne_running {s : State} {n status seq : Nat} {g : Grid} (hg : Tbl.get? s.grids n = some g)
    (hst : (g.st == .retired || g.st == .ending) = false) : endOne s n status seq =
      (((s.teamsOf n).foldl killTeam s).updCtx g.ctx fun c => { c with queue := c.queue.filter (· != n) }).updGrid n
        (Grid.endedWith status seq) := by
  simp only [endOne, hg, hst]
  rfl

/-- Either the end of a grid changes nothing, or the grid was running, and its teams are killed. -/
theorem endOne_cases (s : State) (n status seq : Nat) : endOne s n status seq = s ∨
    ∃ g, Tbl.get? s.grids n = some g ∧ endOne s n status seq =
      (((s.teamsOf n).foldl killTeam s).updCtx g.ctx fun c => { c with queue := c.queue.filter (· != n) }).updGrid n
        (Grid.endedWith status seq) := by
  cases hg : Tbl.get? s.grids n with
  | none => exact .inl (by simp [endOne, hg])
  | some g =>
    cases hst : g.st == .retired || g.st == .ending with
    | true => exact .inl (endOne_ended hg hst)
    | false => exact .inr ⟨g, rfl, endOne_running hg hst⟩

@[simp] theorem endOne_errLog (s : State) (n status seq : Nat) : (endOne s n status seq).errLog = s.errLog := by
  rcases endOne_cases s n status seq with e | ⟨g, -, e⟩
  · rw [e]
  · rw [e]
    exact foldl_keeps (p := State.errLog) killTeam_errLog _ s

theorem Slain.endOne {s : State} {k : Nat} (h : Slain s k) (n status seq : Nat) : Slain (endOne s n status seq) k := by
  rcases endOne_cases s n status seq with e | ⟨g, -, e⟩
  · rwa [e]
  · rw [e]
    exact h.killTeams (s.teamsOf n)

/-- A grid that has ended keeps its entry when others end. -/
theorem endOne_get_ending {s : State} {n : Nat} {g : Grid} (hg : Tbl.get? s.grids n = some g) (hst : g.st = .ending)
    (d status seq : Nat) : Tbl.get? (endOne s d status seq).grids n = some g := by
  by_cases hd : n = d
  · subst hd
    rw [endOne_ended hg (by simp [hst]), hg]
  · rcases endOne_cases s d status seq with e | ⟨g', -, e⟩
    · rw [e, hg]
    · rw [e]
      simp only [State.updGrid, State.updCtx_grids, Tbl.get?_upd_other _ _ hd, foldl_keeps (p := State.grids) killTeam_grids, hg]

/-- Of a state and a later one: a grid has an entry that says it is ending, and all its teams are slain. -/
def GridEnded (s u : State) (n : Nat) (b : Grid) : Prop :=
  (Tbl.get? u.grids n = some b ∧ b.st = .ending) ∧ ∀ k tm, Tbl.get? s.teams k = some tm → tm.grid = n → Slain u k

theorem gridEnded_endOne {s : State} {n : Nat} {a : Grid} (ha : Tbl.get? s.grids n = some a)
    (hst : (a.st == .retired || a.st == .ending) = false) (status seq : Nat) :
    GridEnded s (endOne s n status seq) n (a.endedWith status seq) := by
  rw [endOne_running ha hst]
  refine ⟨⟨?_, rfl⟩, fun k tm hk hn => slain_killTeams _ hk (hn ▸ mem_teamsOf hk)⟩
  simp only [State.updGrid, State.updCtx_grids, Tbl.get?_upd_same, foldl_keeps (p := State.grids) killTeam_grids, ha, Option.map_some]

/-- The end of other grids leaves an ended grid and its slain teams as they are. -/
theorem GridEnded.endOnes {s u : State} {n : Nat} {b : Grid} (h : GridEnded s u n b) (ds : List Nat) (status seq : Nat) :
    GridEnded s (ds.foldl (fun v d => endOne v d status seq) u) n b := by
  induction ds generalizing u with
  | nil => exact h
  | cons d ds ih =>
    obtain ⟨⟨hb, hst⟩, hslain⟩ := h
    exact ih ⟨⟨endOne_get_ending hb hst d status seq, hst⟩, fun k tm hk hn => (hslain k tm hk hn).endOne d status seq⟩

theorem gridEnded_endGrid {s : State} {n : Nat} {a : Grid} (ha : Tbl.get? s.grids n = some a)
    (hst : (a.st == .retired || a.st == .ending) = false) (status seq : Nat) :
    GridEnded s (endGrid s n status seq) n (a.endedWith status seq) :=
  (gridEnded_endOne ha hst status seq).endOnes _ 3 0

@[simp] theorem endGrid_errLog (s : State) (n status seq : Nat) : (endGrid s n status seq).errLog = s.errLog :=
  (foldl_keeps (p := State.errLog) (fun s d => endOne_errLog s d 3 0) _ _).trans (endOne_errLog s n status seq)

/-! ### The record of a fault that stops a Wick -/

/-- The charge of a record to a grid leaves another's number, and its own where it has one (R55). -/
theorem chargeGrid_get {grids : Tbl Grid} {n seq : Nat} {a : Grid} (ha : Tbl.get? grids n = some a) (m : Nat) :
    ∃ b, Tbl.get? (chargeGrid grids m seq) n = some b ∧ b.st = a.st ∧
      (if b.seq = 0 then seq else b.seq) = if a.seq = 0 then seq else a.seq := by
  unfold chargeGrid
  split
  · exact ⟨a, ha, rfl, rfl⟩
  · by_cases hn : n = m
    · subst hn
      cases hc : decide (a.seq = 0) && a.st != .retired with
      | false => exact ⟨a, by simp only [Tbl.get?_upd_same, ha, Option.map_some, hc, Bool.false_eq_true, if_false], rfl, rfl⟩
      | true =>
        have h0 : a.seq = 0 := of_decide_eq_true (Bool.and_eq_true_iff.mp hc).1
        exact ⟨{ a with seq := seq }, by simp only [Tbl.get?_upd_same, ha, Option.map_some, hc, if_true], rfl, by simp [h0]⟩
    · exact ⟨a, by rw [Tbl.get?_upd_other _ _ hn, ha], rfl, rfl⟩

/-- The state with a record at the end of the log, charged to the grid it names. -/
def withRecord (s : State) (r : RecIn) : State :=
  { appendRec s (fun n => r.words n s.ts) with grids := chargeGrid s.grids r.grid s.nextSeq }

theorem logRecord_never (s : State) (r : RecIn) : logRecord s r true = (withRecord s r, s.nextSeq) := by
  simp [logRecord, withRecord]

theorem withRecord_getLast (s : State) (r : RecIn) : (withRecord s r).errLog.getLast? = some (r.words s.nextSeq s.ts) := by
  have hlen : (s.errLog ++ [r.words s.nextSeq s.ts]).length = s.errLog.length + 1 := by simp
  simp only [withRecord, appendRec, hlen]
  split
  · rw [List.getLast?_drop, hlen, if_neg (by omega), List.getLast?_concat]
  · exact List.getLast?_concat

/-- The words of a user fault's record. -/
theorem recorded_words {s u : State} {r : RecIn} {code detail iaddr : Nat} (hlast : u.errLog.getLast? = some (r.words s.nextSeq s.ts))
    (hkind : r.cls = 1 ∧ r.sev = 2 ∧ r.recov = 3) (hcode : r.code = code) (hdetail : r.detail = detail) (hiaddr : r.iaddr = iaddr)
    (hwho : r.group < 2 ^ 8 ∧ r.lane < 2 ^ 8) (hcode' : code < 2 ^ 16) (hseq : s.nextSeq < 2 ^ 32) (hpc : iaddr < 2 ^ 32) :
    recorded s u code detail iaddr := by
  obtain ⟨hcls, hsev, hrec⟩ := hkind
  obtain ⟨hg, hl⟩ := hwho
  subst hcode hdetail hiaddr
  refine ⟨_, hlast, ?_, rfl, ?_, rfl⟩
  · simp only [RecIn.words, hcls, hsev, hrec, List.map_cons, List.getD_cons_zero, BitVec.toNat_ofNat]
    omega
  · simp only [RecIn.words, List.map_cons, List.getD_cons_succ, List.getD_cons_zero, BitVec.toNat_ofNat]
    omega

/-! ### The end of the Wick's grid -/

theorem gridRuns_iff {s : State} {n : Nat} :
    gridRuns s n = true ↔ ∃ a, Tbl.get? s.grids n = some a ∧ (a.st == .retired || a.st == .ending) = false := by
  cases ha : Tbl.get? s.grids n <;> simp [gridRuns, ha, bne]

/-- Two states with the same grids, numbers and time, each of whose teams is of the same grid in both. -/
structure SameGrids (s u : State) : Prop where
  grids : u.grids = s.grids
  nextSeq : u.nextSeq = s.nextSeq
  ts : u.ts = s.ts
  teams : ∀ k q, Tbl.get? s.teams k = some q → ∃ q', Tbl.get? u.teams k = some q' ∧ q'.grid = q.grid

theorem SameGrids.refl (s : State) : SameGrids s s := ⟨rfl, rfl, rfl, fun _ q hk => ⟨q, hk, rfl⟩⟩

/-- The grid of a Wick that a fault has stopped ends with status FAULT, and the record of the fault is the log's last. -/
theorem wickEnds_faulted {s u : State} (same : SameGrids s u) {t : Nat} {tm : Team} (ht : Tbl.get? s.teams t = some tm)
    (hruns : gridRuns s tm.grid = true) (r : RecIn) :
    gridFaulted s (wickEnds t r u) tm.grid ∧ (wickEnds t r u).errLog.getLast? = some (r.words s.nextSeq s.ts) := by
  obtain ⟨hgrids, hseq, hts, hteams⟩ := same
  obtain ⟨tm', ht', htm⟩ := hteams t tm ht
  obtain ⟨a, ha, hst⟩ := gridRuns_iff.mp hruns
  obtain ⟨b, hb, hbst, hbseq⟩ := chargeGrid_get (seq := s.nextSeq) ha r.grid
  have hb' : Tbl.get? (withRecord u r).grids tm.grid = some b := by rw [withRecord, hgrids, hseq, hb]
  have hends : wickEnds t r u = endGrid (withRecord u r) tm.grid 1 s.nextSeq := by
    simp only [wickEnds, ht', logRecord_never, htm, hseq]
  obtain ⟨⟨hget, hend⟩, hslain⟩ := gridEnded_endGrid hb' (hbst ▸ hst) 1 s.nextSeq
  rw [hends]
  refine ⟨⟨⟨_, a, ha, hget, hend, rfl, hbseq⟩, fun k q hk hn => ?_⟩, ?_⟩
  · obtain ⟨q', hk', hq'⟩ := hteams k q hk
    exact hslain k q' hk' (hq'.trans hn)
  · rw [endGrid_errLog, withRecord_getLast, hseq, hts]

theorem gridFaulted_wickLeft {s u : State} {n : Nat} (h : gridFaulted s u n) (t : Nat) : gridFaulted s (wickLeft t u) n := by
  obtain ⟨hg, hslain⟩ := h
  refine ⟨hg, fun k q hk hn => ?_⟩
  obtain ⟨⟨w, hw, hst, hkill⟩, hgroups⟩ := hslain k q hk hn
  refine ⟨?_, hgroups⟩
  by_cases hkt : k = t
  · exact ⟨{ w with wait := none }, by simp [wickLeft_teams, ← hkt, hw], hst, hkill⟩
  · exact ⟨w, by simp [wickLeft_teams, hkt, hw], hst, hkill⟩

/-- The record of a user fault of a Wick (R46, R470). -/
def wickFaultRec (s : State) (t : Nat) (c : Cause) : RecIn :=
  { wickRec s t c.code 1 2 3 with akind := c.akind, addr := c.recAddr, detail := c.detail }

theorem wickFault_eq {c : Cause} (hm : c.malf = none) (t : Nat) (s : State) :
    wickFault t c s = if wickBusy s t then s.updTeam t fun tm => { tm with stop := some (wickFaultRec s t c) }
      else wickEnds t (wickFaultRec s t c) s := by
  rw [wickFault, hm]
  rfl

theorem wickFaultRec_eq {s : State} {t : Nat} {tm : Team} (ht : Tbl.get? s.teams t = some tm) (c : Cause) :
    wickFaultRec s t c =
      { code := c.code, cls := 1, sev := 2, recov := 3, akind := c.akind, engine := coreEngine (coreOfTeam t) 1 (t % 8)
        ctx := s.ctxOfTeam t, grid := tm.grid, team := tm.lin, iaddr := s.cur.pc, addr := c.recAddr, detail := c.detail } := by
  simp [wickFaultRec, wickRec, ht]

theorem recorded_wickFaultRec {s u : State} {t : Nat} {tm : Team} {c : Cause} {code detail : Nat} (ht : Tbl.get? s.teams t = some tm)
    (hlast : u.errLog.getLast? = some ((wickFaultRec s t c).words s.nextSeq s.ts)) (hc : c.code = code) (hd : c.detail = detail)
    (hcode : code < 2 ^ 16) (hseq : s.nextSeq < 2 ^ 32) (hpc : s.cur.pc < 2 ^ 32) : recorded s u code detail s.cur.pc := by
  rw [wickFaultRec_eq ht] at hlast
  exact recorded_words hlast ⟨rfl, rfl, rfl⟩ hc hd rfl (by simp) hcode hseq hpc

theorem wickBusy_wickLeft (s : State) (t : Nat) (f : Team → Team) : wickBusy (wickLeft t (s.updTeam t f)) t = wickBusy s t := by
  unfold wickBusy
  rw [wickLeft_core]
  rfl

theorem wickBusy_idle {s : State} {t : Nat} {k : Core}
    (hk : (k.copies.isEmpty && k.demands.isEmpty && k.streams.isEmpty) = true) :
    wickBusy (s.updCore (coreOfTeam t) fun _ => k) t = false := by
  simp only [Bool.and_eq_true, List.isEmpty_iff] at hk
  obtain ⟨⟨hc, hd⟩, hs⟩ := hk
  simp [wickBusy, State.core, State.updCore, hc, hd, hs]

/-- While a fault holds a Wick, the end of its team is the end of its grid, once no engine operation of the Wick is under way. -/
theorem execTeamEnd_stopped {s : State} {t : Nat} {tm : Team} {r : RecIn} (ht : Tbl.get? s.teams t = some tm)
    (hr : tm.stop = some r) : execTeamEnd t s = .next (if wickBusy s t then s else wickEnds t r s) := by
  simp [execTeamEnd, ht, hr]

/-! ### The faults of `sret` (R66) -/

/-- The cause that a `sret` to a bad target has: ALIGN before BOUNDS. -/
def sretCause (v : Nat) : Cause :=
  if v % 4 ≠ 0 then { Cause.align 0 v 3 with lane := 255 } else { Cause.boundsAddr 0 v 3 with lane := 255 }

theorem sretCause_malf (v : Nat) : (sretCause v).malf = none := by
  unfold sretCause
  split <;> rfl

theorem sretCause_code (v : Nat) : (sretCause v).code = if v % 4 ≠ 0 then 0x0105 else 0x0106 := by
  unfold sretCause
  split <;> rfl

theorem sretCause_detail (v : Nat) : (sretCause v).detail = if v % 4 ≠ 0 then 0 else 0x17 := by
  unfold sretCause
  split <;> rfl

theorem exec_sret_fault {s : State} {t : Nat} {tm : Team} (h : wickActs s t tm = true) (x : Args)
    (hv : (wickVal s t false x.a).toNat % 4 ≠ 0 ∨ 2 ^ 32 ≤ (wickVal s t false x.a).toNat) :
    execSret x s = .next (wickLeft t (wickFault t (sretCause (wickVal s t false x.a).toNat) s)) := by
  refine issueWick_fault h ?_
  by_cases h4 : (wickVal s t false x.a).toNat % 4 = 0
  · have hhi : (hi32 (wickVal s t false x.a) != 0) = true := by
      rw [bne_iff_ne]
      bv_omega
    simp only [uni_wick, sretCause, h4, hhi]
    rfl
  · simp [uni_wick, sretCause, h4]

/-- What is recorded of the fault of a `sret`. -/
theorem recorded_sret {s u : State} {t : Nat} {tm : Team} {v : Nat} (ht : Tbl.get? s.teams t = some tm)
    (hlast : u.errLog.getLast? = some ((wickFaultRec s t (sretCause v)).words s.nextSeq s.ts)) (hseq : s.nextSeq < 2 ^ 32)
    (hpc : s.cur.pc < 2 ^ 32) : if v % 4 ≠ 0 then recorded s u 0x0105 0 s.cur.pc else recorded s u 0x0106 0x17 s.cur.pc := by
  have hrec := recorded_wickFaultRec ht hlast (sretCause_code v) (sretCause_detail v) (by split <;> decide) hseq hpc
  by_cases h4 : v % 4 ≠ 0
  · simpa only [if_pos h4] using hrec
  · simpa only [if_neg h4] using hrec

/-- A `sret` to a bad target while no engine operation of the Wick is under way: the grid ends. -/
theorem sret_fault_ends {s : State} {t : Nat} {tm : Team} (ht : Tbl.get? s.teams t = some tm) (hruns : gridRuns s tm.grid = true)
    (hbusy : wickBusy s t = false) (v : Nat) :
    gridFaulted s (wickLeft t (wickFault t (sretCause v) s)) tm.grid ∧
      (wickLeft t (wickFault t (sretCause v) s)).errLog.getLast? = some ((wickFaultRec s t (sretCause v)).words s.nextSeq s.ts) := by
  obtain ⟨hfault, hlast⟩ := wickEnds_faulted (.refl s) ht hruns (wickFaultRec s t (sretCause v))
  rw [wickFault_eq (sretCause_malf v), hbusy, if_neg Bool.false_ne_true, wickLeft_errLog]
  exact ⟨gridFaulted_wickLeft hfault t, hlast⟩

/-- A Wick that a fault has stopped while an engine operation of it was under way. -/
def wickStopped (s : State) (t : Nat) (r : RecIn) : State := wickLeft t (s.updTeam t fun tm => { tm with stop := some r })

theorem wickStopped_team {s : State} {t : Nat} {tm : Team} (ht : Tbl.get? s.teams t = some tm) (r : RecIn) :
    Tbl.get? (wickStopped s t r).teams t = some { tm with wait := none, stop := some r } := wickLeft_updTeam_team ht _

/-- Neither the stop nor a change of a core touches the grids or moves a team to another. -/
theorem sameGrids_wickStopped (s : State) (t : Nat) (r : RecIn) (c : Nat) (f : Core → Core) :
    SameGrids s ((wickStopped s t r).updCore c f) := by
  refine ⟨by simp [wickStopped], by simp [wickStopped], by simp [wickStopped], fun k q hk => ?_⟩
  rw [State.updCore_teams]
  by_cases hkt : k = t
  · subst hkt
    exact ⟨_, wickStopped_team hk r, rfl⟩
  · obtain ⟨-, hothers, -⟩ := teamOnly_wickLeft s t fun tm => { tm with stop := some r }
    exact ⟨q, (hothers k hkt).trans hk, rfl⟩

/-- The fault of a Wick with an engine operation under way only stops it (R46). -/
theorem wickFault_busy {s : State} {t : Nat} {c : Cause} (hm : c.malf = none) (hbusy : wickBusy s t = true) :
    wickLeft t (wickFault t c s) = wickStopped s t (wickFaultRec s t c) := by
  rw [wickFault_eq hm, if_pos hbusy]
  rfl

/-- While the operation is under way, the end of the team does not come. -/
theorem wickStopped_waits {s : State} {t : Nat} {tm : Team} (ht : Tbl.get? s.teams t = some tm) (hbusy : wickBusy s t = true)
    (r : RecIn) : execTeamEnd t (wickStopped s t r) = .next (wickStopped s t r) := by
  have hstays : wickBusy (wickStopped s t r) t = true := (wickBusy_wickLeft s t _).trans hbusy
  rw [execTeamEnd_stopped (wickStopped_team ht r) rfl, if_pos hstays]

/-- On a core with no operation left, it comes as the end of the grid. -/
theorem wickStopped_ends {s : State} {t : Nat} {tm : Team} {k : Core} (ht : Tbl.get? s.teams t = some tm)
    (hk : (k.copies.isEmpty && k.demands.isEmpty && k.streams.isEmpty) = true) (r : RecIn) :
    execTeamEnd t ((wickStopped s t r).updCore (coreOfTeam t) fun _ => k) =
      .next (wickEnds t r ((wickStopped s t r).updCore (coreOfTeam t) fun _ => k)) := by
  rw [execTeamEnd_stopped (s := (wickStopped s t r).updCore (coreOfTeam t) fun _ => k) (wickStopped_team ht r) rfl, wickBusy_idle hk,
    if_neg Bool.false_ne_true]

/-- R46, R66: the second part of O37. -/
theorem wickFaults : Sys2Proof.Claims.WickFaults := by
  unfold Sys2Proof.Claims.WickFaults
  intro s t tm x h hruns hseq hpc v faults hv
  obtain ⟨-, ht, -, -⟩ := wickActs_here h
  have hexec : exec (.sret x) s = .next (wickLeft t (wickFault t (sretCause v) s)) := exec_sret_fault h x hv
  refine ⟨fun hbusy => ?_, fun hbusy => ?_⟩
  · obtain ⟨hfault, hlast⟩ := sret_fault_ends ht hruns hbusy v
    exact ⟨_, hexec, hfault, recorded_sret ht hlast hseq hpc⟩
  · rw [wickFault_busy (sretCause_malf v) hbusy] at hexec
    refine ⟨_, _, hexec, teamOnly_wickLeft s t _, wickStopped_team ht _, rfl, rfl, wickStopped_waits ht hbusy _, fun k hk => ?_⟩
    obtain ⟨hfault, hlast⟩ := wickEnds_faulted (sameGrids_wickStopped s t _ (coreOfTeam t) fun _ => k) ht hruns _
    exact ⟨_, wickStopped_ends ht hk _, hfault, recorded_sret ht hlast hseq hpc⟩

/-- Settles O37: a branch is an issue that leaves the Wick at its target, and a bad target of `sret` stops the Wick, which ends its grid
at once or with the last engine operation. -/
theorem wickBranches : Obligations.WickBranches := by
  unfold Obligations.WickBranches
  exact ⟨wickTargets, wickFaults⟩

end Sys2Proof.Machine
end

section
/-! The tables of lane results (R17 to R22, R133): what the operation of an entry has to form, and the elementwise integer instructions,
`mov` and `rcoal` (R134, R143, R146). -/

namespace Sys2Proof.Machine

open Sys2Proof.Claims

/-! ### Lane results that agree on the lanes -/

theorem lowest_lt {w : Mask} {l : Nat} (h : lowest w = some l) : l < 32 := by
  simpa [lanes32] using List.mem_of_find?_eq_some h

/-- What a lane result writes depends on the values of the 32 lanes only. -/
theorem laneWritten_congr {s t : State} {g : Nat} {x : Args} {w : Mask} {wide : Bool} {val val' : Nat → W64}
    (hval : ∀ l, l < 32 → val l = val' l) (h : laneWritten s t g x w wide val) : laneWritten s t g x w wide val' := by
  have hk (old : W64) : (match lowest w with | some l => val l | none => old) = match lowest w with | some l => val' l | none => old := by
    cases hl : lowest w with
    | none => rfl
    | some l => exact hval l (lowest_lt hl)
  obtain ⟨hdsel, hreg, n, hn, hvalid, hruns⟩ := h
  refine ⟨fun hd => (hdsel hd).trans (congrArg (ite (x.nwb = true) _) (hk _)), fun hd hw l hl => ?_, n, hn, hvalid, fun l hl => ?_⟩
  · simpa only [hval l hl] using hreg hd hw l hl
  · simp only [← hval l hl]
    exact (hruns l hl).trans (congrArg (fun v => if x.dsel = true then lo32 v else _) (hk _))

/-! ### Entries of a table -/

/-- A lane operation writes the active lanes, and each lane gets the function of its sources. -/
structure LaneOp.Gives (o : LaneOp) (s : State) (g : Nat) (grp : Group) (x : Args) (wide : Bool) (f : Fn) : Prop where
  sound : o.Sound
  wset_eq : o.wset = actives s grp x
  wide_eq : o.wide = wide
  val : ∀ l, l < 32 → o.op l = f (srcVal s g wide x.a l) (srcVal s g wide x.b l) (srcVal s g wide x.c l)

/-- At the begin of an issue of a group with room, the operation gives what the entry of a table says. -/
def FormedBy (e : Option (Args × Bool × Fn)) (o : Mem → State → LaneOp) : Prop :=
  ∀ {x wide f}, e = some (x, wide, f) → ∀ {s g grp}, Tbl.get? s.groups g = some grp → roomy grp 64 = true →
    (o (issueMem s g grp x) (begun s g [x])).Gives s g grp x wide f

/-- A table holds where each instruction in it issues an operation that forms its entry. -/
theorem laneTable_of_formedBy {table : Instr → Option (Args × Bool × Fn)}
    (h : ∀ {i x wide f}, table i = some (x, wide, f) → ∃ o, FormedBy (table i) o ∧ ∀ s, exec i s = issueOp x wide o s) :
    LaneTable table := by
  intro i x wide f hi s g grp hact hr
  obtain ⟨-, hg, -⟩ := mayAct_here hact
  obtain ⟨o, hformed, hexec⟩ := h hi
  have hgives := hformed hi hg hr
  obtain ⟨t, ht, hwritten, hchanged, hon⟩ := issueOp_spec (wide := wide) hact hr hgives.sound
  rw [hgives.wset_eq, hgives.wide_eq] at hwritten
  rw [hgives.wide_eq] at hchanged
  exact ⟨t, (hexec s).trans ht, laneWritten_congr hgives.val hwritten, hchanged, hon⟩

/-! ### Elementwise operations -/

/-- An operand at the begin of an issue holds the lane's source. -/
theorem operand_at {s : State} {g : Nat} {grp : Group} (hg : Tbl.get? s.groups g = some grp) (hr : roomy grp 64 = true) (x : Args)
    (wide : Bool) (src : Src) {l : Nat} (hl : l < 32) :
    (operand (issueMem s g grp x) (begun s g [x]) wide src).at l = srcVal s g wide src l := by
  cases wide with
  | false => exact operand_at_narrow hg hr [x] _ rfl src l hl
  | true => exact operand_at_wide hg hr [x] _ rfl src l hl

/-- A source of 32 bits is extended with zeros. -/
theorem srcVal_narrow (s : State) (g : Nat) (src : Src) (l : Nat) :
    ((lo32 (srcVal s g false src l)).zeroExtend 64 : W64) = srcVal s g false src l := by
  simp [srcVal, lo32]

theorem formedBy_narrow1 (x : Args) {f h : W32 → W32} (hf : ∀ a, h a = f a) : FormedBy (narrow1 x f) (op1 x false (on32 h)) := by
  obtain rfl : h = f := funext hf
  intro _ _ _ he s g grp hg hr
  cases he
  exact ⟨op1_sound hg hr [x] _ rfl x false _, rfl, rfl, fun l hl => congrArg (on32 h) (operand_at hg hr x false x.a hl)⟩

theorem formedBy_narrow2 (x : Args) {f h : W32 → W32 → W32} (hf : ∀ a b, h a b = f a b) :
    FormedBy (narrow2 x f) (op2 x false (on32x2 h)) := by
  obtain rfl : h = f := funext₂ hf
  intro _ _ _ he s g grp hg hr
  cases he
  exact ⟨op2_sound hg hr [x] _ rfl x false _, rfl, rfl,
    fun l hl => congrArg₂ (on32x2 h) (operand_at hg hr x false x.a hl) (operand_at hg hr x false x.b hl)⟩

theorem formedBy_narrow3 (x : Args) (merge : Bool) (f : W32 → W32 → W32 → W32) : FormedBy (narrow3 x f) (op3 x merge f) := by
  intro _ _ _ he s g grp hg hr
  cases he
  refine ⟨op3_sound hg hr [x] _ rfl x merge f, rfl, rfl, fun l hl => ?_⟩
  have hlane (src : Src) : (operand (issueMem s g grp x) (begun s g [x]) false src).at32 l = lo32 (srcVal s g false src l) := by
    rw [operand_at32 hg hr [x] _ rfl false src l hl]
    simp [srcVal, lo32]
  simp only [op3, hlane]

/-- An operation of two sources on 64-bit lanes where W is set, and else on 32-bit lanes extended with zeros (R133). -/
theorem formedBy_either (x : Args) {n : W32 → W32 → W32} {w h : W64 → W64 → W64} (hwide : wBit x = true → ∀ a b, h a b = w a b)
    (hnarrow : wBit x = false → ∀ a b : W32, h (a.zeroExtend 64) (b.zeroExtend 64) = (n a b).zeroExtend 64) :
    FormedBy (either x n w) (op2 x (wBit x) h) := by
  intro _ _ _ he s g grp hg hr
  cases he
  refine ⟨op2_sound hg hr [x] _ rfl x _ _, rfl, rfl, fun l hl => ?_⟩
  refine (congrArg₂ h (operand_at hg hr x _ x.a hl) (operand_at hg hr x _ x.b hl)).trans ?_
  change h (srcVal s g (wBit x) x.a l) (srcVal s g (wBit x) x.b l) =
    if wBit x then w (srcVal s g (wBit x) x.a l) (srcVal s g (wBit x) x.b l)
    else (n (lo32 (srcVal s g (wBit x) x.a l)) (lo32 (srcVal s g (wBit x) x.b l))).zeroExtend 64
  cases hw : wBit x with
  | true => exact hwide hw _ _
  | false =>
    rw [← srcVal_narrow s g x.a, ← srcVal_narrow s g x.b, hnarrow hw]
    simp [lo32]

/-- The same for an operation of one source. -/
theorem formedBy_either1 (x : Args) {n : W32 → W32} {w h : W64 → W64} (hwide : wBit x = true → ∀ a, h a = w a)
    (hnarrow : wBit x = false → ∀ a : W32, h (a.zeroExtend 64) = (n a).zeroExtend 64) :
    FormedBy (either x (fun a _ => n a) fun a _ => w a) (op1 x (wBit x) h) := by
  intro _ _ _ he s g grp hg hr
  have hgives := formedBy_either x (h := fun a _ => h a) (fun hw a _ => hwide hw a) (fun hw a _ => hnarrow hw a) he hg hr
  cases he
  exact ⟨op1_sound hg hr [x] _ rfl x _ _, rfl, rfl, hgives.val⟩

/-! ### The integer functions (R134) -/

theorem mulHigh_eq (u : Bool) (a b : W32) : mulHigh u a b = highWord u a b := by
  apply BitVec.eq_of_toNat_eq
  cases u with
  | true =>
    simp [mulHigh, highWord, Nat.shiftRight_eq_div_pow]
    omega
  | false =>
    have hp : a.signExtend 64 * b.signExtend 64 = BitVec.ofInt 64 (a.toInt * b.toInt) := by
      rw [BitVec.ofInt_mul, ← BitVec.toInt_signExtend_of_le (x := a) (v := 64) (by decide),
        ← BitVec.toInt_signExtend_of_le (x := b) (v := 64) (by decide), BitVec.ofInt_toInt, BitVec.ofInt_toInt]
    simp [mulHigh, highWord, hp, Nat.shiftRight_eq_div_pow]
    omega

/-- The sign of a word is its top bit. -/
theorem slt_zero (a : W32) : a.slt 0 = a.getLsbD 31 := by
  exact (BitVec.slt_zero_eq_msb).trans (BitVec.msb_eq_getLsbD_last a)

theorem lessInt_wide (u : Bool) (a b : W64) : lessInt true u a b = if u then a.ult b else a.slt b := by
  cases u <;> simp [lessInt, signedOf, BitVec.ult, BitVec.slt]

theorem lessInt_narrow (u : Bool) (a b : W32) :
    lessInt false u (a.zeroExtend 64) (b.zeroExtend 64) = if u then a.ult b else a.slt b := by
  cases u with
  | false => simp [lessInt, signedOf, BitVec.slt]
  | true =>
    simp [lessInt, BitVec.ult]
    omega

theorem rotateLeft_mod (a : W32) (n : Nat) : a.rotateLeft (n % 32) = (a <<< (n % 32)) ||| (a >>> (32 - n % 32)) := by
  simp [BitVec.rotateLeft, BitVec.rotateLeftAux]

theorem length_lanesOf (a : W32) : (lanesOf a).length = (List.range 32).countP fun i => a.getLsbD i :=
  (List.countP_eq_length_filter ..).symm

/-- The place, counted from the top, of the highest bit that is set. -/
theorem findIdx_topBit {a : W32} (ha : a ≠ 0) : ((List.range 32).findIdx fun i => a.getLsbD (31 - i)) = 31 - a.toNat.log2 := by
  have hn : a.toNat ≠ 0 := fun h => ha (BitVec.eq_of_toNat_eq h)
  have hlog : a.toNat.log2 < 32 := (Nat.log2_lt hn).2 a.isLt
  rw [List.findIdx_eq (by simp; omega)]
  simp only [List.getElem_range, BitVec.getLsbD]
  refine ⟨?_, fun j hj => Nat.testBit_lt_two_pow ?_⟩
  · rw [show 31 - (31 - a.toNat.log2) = a.toNat.log2 by omega]
    exact Nat.testBit_log2 hn
  · exact Nat.lt_log2_self.trans_le (Nat.pow_le_pow_right (by decide) (by omega))

theorem length_takeWhile_clear (a : W32) :
    ((List.range 32).takeWhile fun i => !a.getLsbD (31 - i)).length = if a = 0 then 32 else 31 - a.toNat.log2 := by
  by_cases ha : a = 0
  · subst ha
    rfl
  · have hidx := findIdx_topBit ha
    simp only [List.takeWhile_eq_take_findIdx_not, Bool.not_not, hidx, List.length_take, List.length_range, if_neg ha]
    omega

/-- The low word of a sum is the sum of the low words. -/
theorem narrow_add (a b : W32) : narrow false (a.zeroExtend 64 + b.zeroExtend 64) = (a + b).zeroExtend 64 := by
  simp [narrow, lo32, BitVec.setWidth_add]

theorem narrow_sub (a b : W32) : narrow false (a.zeroExtend 64 - b.zeroExtend 64) = (a - b).zeroExtend 64 := by
  simp only [narrow, Bool.false_eq_true, if_false]
  bv_omega

/-! ### The operations of the integer instructions -/

theorem opIadd_formed (x : Args) : FormedBy (either x (· + ·) (· + ·)) (opIadd x) :=
  formedBy_either x (fun hw _ _ => by simp [narrow, hw]) fun hw a b => by rw [hw, narrow_add]

theorem opIsub_formed (x : Args) : FormedBy (either x (· - ·) (· - ·)) (opIsub x) :=
  formedBy_either x (fun hw _ _ => by simp [narrow, hw]) fun hw a b => by rw [hw, narrow_sub]

theorem opImul_formed (x : Args) : FormedBy (narrow2 x (· * ·)) (opImul x) := formedBy_narrow2 x fun _ _ => rfl

theorem opImulh_formed (x : Args) : FormedBy (narrow2 x (highWord (uBit x))) (opImulh x) := formedBy_narrow2 x (mulHigh_eq _)

theorem opImad_formed (x : Args) (merge : Bool) :
    FormedBy (narrow3 x fun a b c => a * b + c) (op3 x merge fun a b c => a * b + c) := formedBy_narrow3 x merge _

theorem opIabs_formed (x : Args) : FormedBy (narrow1 x fun a => if a.slt 0 then -a else a) (opIabs x) :=
  formedBy_narrow1 x fun a => by rw [slt_zero]

theorem opImin_formed (x : Args) : FormedBy (either x (lesser (uBit x)) (lesser (uBit x))) (opImin x) :=
  formedBy_either x (fun hw a b => by simp only [hw, lessInt_wide, lesser]) fun hw a b => by
    simp only [hw, lessInt_narrow, lesser, apply_ite (BitVec.zeroExtend 64)]

theorem opImax_formed (x : Args) : FormedBy (either x (greater (uBit x)) (greater (uBit x))) (opImax x) :=
  formedBy_either x (fun hw a b => by simp only [hw, lessInt_wide, greater]) fun hw a b => by
    simp only [hw, lessInt_narrow, greater, apply_ite (BitVec.zeroExtend 64)]

theorem opAnd_formed (x : Args) : FormedBy (either x (· &&& ·) (· &&& ·)) (opAnd x) :=
  formedBy_either x (fun _ _ _ => rfl) fun _ _ _ => BitVec.setWidth_and.symm

theorem opOr_formed (x : Args) : FormedBy (either x (· ||| ·) (· ||| ·)) (opOr x) :=
  formedBy_either x (fun _ _ _ => rfl) fun _ _ _ => BitVec.setWidth_or.symm

theorem opXor_formed (x : Args) : FormedBy (either x (· ^^^ ·) (· ^^^ ·)) (opXor x) :=
  formedBy_either x (fun _ _ _ => rfl) fun _ _ _ => BitVec.setWidth_xor.symm

theorem opNot_formed (x : Args) : FormedBy (either x (fun a _ => ~~~a) fun a _ => ~~~a) (opNot x) :=
  formedBy_either1 x (fun hw _ => by simp [narrow, hw]) fun hw a => by simp [narrow, hw, lo32]

theorem opShl_formed (x : Args) :
    FormedBy (either x (fun a b => a <<< (b.toNat % 32)) fun a b => a <<< (b.toNat % 64)) (opShl x) :=
  formedBy_either x (fun hw _ _ => by simp [narrow, shiftBy, hw]) fun hw a b => by simp [narrow, shiftBy, hw, lo32]

theorem opShr_formed (x : Args) :
    FormedBy (either x (fun a b => a >>> (b.toNat % 32)) fun a b => a >>> (b.toNat % 64)) (opShr x) :=
  formedBy_either x (fun hw _ _ => by simp [shiftBy, hw]) fun hw a b => by simp [shiftBy, hw]

theorem opSra_formed (x : Args) :
    FormedBy (either x (fun a b => a.sshiftRight (b.toNat % 32)) fun a b => a.sshiftRight (b.toNat % 64)) (opSra x) :=
  formedBy_either x (fun hw _ _ => by simp [shiftBy, hw]) fun hw a b => by simp [shiftBy, hw, lo32]

theorem opRol_formed (x : Args) :
    FormedBy (narrow2 x fun a b => (a <<< (b.toNat % 32)) ||| (a >>> (32 - b.toNat % 32))) (opRol x) :=
  formedBy_narrow2 x fun a b => rotateLeft_mod a b.toNat

theorem opPopc_formed (x : Args) :
    FormedBy (narrow1 x fun a => BitVec.ofNat 32 ((List.range 32).countP fun i => a.getLsbD i)) (opPopc x) :=
  formedBy_narrow1 x fun a => by rw [length_lanesOf]

theorem opClz_formed (x : Args) :
    FormedBy (narrow1 x fun a => BitVec.ofNat 32 (((List.range 32).takeWhile fun i => !a.getLsbD (31 - i)).length)) (opClz x) :=
  formedBy_narrow1 x fun a => by rw [length_takeWhile_clear]

theorem opMov_formed (x : Args) : FormedBy (either x (fun a _ => a) fun a _ => a) (opMov x) :=
  formedBy_either1 x (fun _ _ => rfl) fun _ _ => rfl

/-- Merging the runs of the result changes no lane (R146). -/
theorem opRcoal_formed (x : Args) : FormedBy (narrow1 x id) (opRcoal x) := by
  intro _ _ _ he s g grp hg hr
  cases he
  exact ⟨op1_sound hg hr [x] _ rfl x false id, rfl, rfl, fun l hl => (operand_at hg hr x false x.a hl).trans (srcVal_narrow ..).symm⟩

/-! ### The table -/

/-- Every instruction of the table, in its full and its compact form (R28), issues an operation that forms its entry. -/
theorem intLane_issues {i : Instr} {x : Args} {wide : Bool} {f : Fn} (hi : intLane i = some (x, wide, f)) :
    ∃ o, FormedBy (intLane i) o ∧ ∀ s, exec i s = issueOp x wide o s := by
  unfold intLane at hi
  split at hi <;> cases hi
  case h_1 | h_2 => exact ⟨_, opIadd_formed _, fun _ => rfl⟩
  case h_3 | h_4 => exact ⟨_, opIsub_formed _, fun _ => rfl⟩
  case h_5 | h_6 => exact ⟨_, opImul_formed _, fun _ => rfl⟩
  case h_7 | h_8 => exact ⟨_, opImulh_formed _, fun _ => rfl⟩
  case h_9 => exact ⟨_, opImad_formed _ false, fun _ => rfl⟩
  case h_10 => exact ⟨_, opImad_formed _ true, fun _ => rfl⟩
  case h_11 | h_12 => exact ⟨_, opIabs_formed _, fun _ => rfl⟩
  case h_13 | h_14 => exact ⟨_, opImin_formed _, fun _ => rfl⟩
  case h_15 | h_16 => exact ⟨_, opImax_formed _, fun _ => rfl⟩
  case h_17 | h_18 => exact ⟨_, opAnd_formed _, fun _ => rfl⟩
  case h_19 | h_20 => exact ⟨_, opOr_formed _, fun _ => rfl⟩
  case h_21 | h_22 => exact ⟨_, opXor_formed _, fun _ => rfl⟩
  case h_23 | h_24 => exact ⟨_, opNot_formed _, fun _ => rfl⟩
  case h_25 | h_26 => exact ⟨_, opShl_formed _, fun _ => rfl⟩
  case h_27 | h_28 => exact ⟨_, opShr_formed _, fun _ => rfl⟩
  case h_29 | h_30 => exact ⟨_, opSra_formed _, fun _ => rfl⟩
  case h_31 | h_32 => exact ⟨_, opRol_formed _, fun _ => rfl⟩
  case h_33 | h_34 => exact ⟨_, opPopc_formed _, fun _ => rfl⟩
  case h_35 | h_36 => exact ⟨_, opClz_formed _, fun _ => rfl⟩
  case h_37 | h_38 => exact ⟨_, opMov_formed _, fun _ => rfl⟩
  case h_39 | h_40 => exact ⟨_, opRcoal_formed _, fun _ => rfl⟩

/-- Settles O1: every entry of the table is an elementwise operation of the model, and the issue of such an operation writes its lanes
and nothing else. -/
theorem integerLanes : Obligations.IntegerLanes := by
  unfold Obligations.IntegerLanes
  exact laneTable_of_formedBy intLane_issues

end Sys2Proof.Machine
end
